-- ==== Sys2Proof/Word.lean ====
section
/-! DEFINITION. The two widths the block computes with (R14): 8-bit bytes on the bus and 16-bit registers. -/

namespace Sys2Proof

/-- One byte of the bus, of a payload or of a memory (R53). -/
abbrev Byte := BitVec 8

/-- A 16-bit register, operand, bound or colour (R20, R21). -/
abbrev Half := BitVec 16

end Sys2Proof
end

