-- ==== Sys2Proof/Config.lean ====
section
/-! DEFINITION. What is fixed for one machine: the geometry constants, the parameters of R13 as one record, and the
free values (the transport's answers, the row-buffer bytes nothing has written). -/

namespace Sys2Proof

/-- What the transport answers to a frame: "success or a transport fault" (R110). -/
inductive Answer where
  | ok
  | fault
deriving DecidableEq, Repr, Inhabited

/-- One record of the bring-up script, "(opcode, payload, post-delay)" (R83). -/
structure ScriptRecord where
  opcode  : Byte
  payload : List Byte
  delay   : Half
deriving DecidableEq, Repr, Inhabited

/-- The parameters of R13 that the spec leaves open (D7 to D12, D14). They are fixed before reset is released and do not
change afterwards (R33, R254). `script` is SCRIPT, its length is K. -/
structure Params where
  opSwreset  : Byte
  opSlpout   : Byte
  opNoron    : Byte
  opDispon   : Byte
  opCaset    : Byte
  opPaset    : Byte
  opRamwr    : Byte
  opMadctl   : Byte
  opColmod   : Byte
  opFrmctr   : Byte
  opDfunctr  : Byte
  opPwctrA   : Byte
  opPwctrB   : Byte
  opVmctr    : Byte
  opPgamctrl : Byte
  opNgamctrl : Byte
  plColmod   : List Byte
  plPwctrA   : List Byte
  plPwctrB   : List Byte
  plVmctr    : List Byte
  plMadctl   : List Byte
  plDfunctr  : List Byte
  plFrmctr   : List Byte
  plPgamctrl : List Byte
  plNgamctrl : List Byte
  delayReset  : Half
  delaySlpout : Half
  delayDispon : Half
  dcCmd  : BitVec 1
  dcData : BitVec 1
  script : List ScriptRecord
deriving DecidableEq, Repr

/-- P_WIDTH (R13, R35). -/
abbrev Config.panelWidth : Nat := 480

/-- P_HEIGHT (R13, R35). -/
abbrev Config.panelHeight : Nat := 320

/-- P_ROWBUF_BYTES, twice the width (R13, R22). -/
abbrev Config.rowBufBytes : Nat := 960

/-- The frame memory in bytes: two for each pixel (R52). -/
abbrev Config.gramBytes : Nat := 307200

/-- P_GAMMA_LEN (R13, R138). -/
abbrev Config.gammaLen : Nat := 15

/-- The largest K an 8-bit script pointer can count to (R24). -/
abbrev Config.maxScript : Nat := 255

/-- FREE VALUE (A2): the transport's answer to the n-th frame where the state holds no answer for it. "A free input of the
step, ok or fault, under no law" (R110). -/
opaque Config.transportAnswer : Nat → Answer

/-- FREE VALUE (A12): what byte i of the row buffer holds while nothing has written it: "any value until first written" (U14, R39). -/
opaque Config.unwrittenRowByte : Nat → Byte

end Sys2Proof
end

