-- ==== Sys2Proof/Syntax.lean ====
section
/-! DEFINITION. The instructions: one constructor per row of spec/opcode_table.json, in the table's order, and the encoded
items the block meets (R80, R84, R85, R87, R88). -/

namespace Sys2Proof

/-- The 43 rows. The host requests carry all five fields, since an accepted request loads all five operand registers
whatever the operation (R82). -/
inductive Instr where
  -- HREQ88 (R80, R81, R91)
  | init (f1 f2 f3 f4 f5 : Half)
  | sendCommand (f1 f2 f3 f4 f5 : Half)
  | sendData (f1 f2 f3 f4 f5 : Half)
  | sendDataBuffer (f1 f2 f3 f4 f5 : Half) (hp : List Byte)
  | setWindow (f1 f2 f3 f4 f5 : Half)
  | fillRect (f1 f2 f3 f4 f5 : Half)
  | fillScreen (f1 f2 f3 f4 f5 : Half)
  | reservedHostOp (op : Byte) (f1 f2 f3 f4 f5 : Half)
  -- FRAME (R85, R86)
  | cmdFrame (b : Byte)
  | dataFrame (bs : List Byte)
  -- PAYLOAD (R88, R89)
  | addr4 (first last : Half)
  | pix2 (r : BitVec 5) (g : BitVec 6) (b : BitVec 5)
  -- SREC (R84)
  | srec (opcode : Byte) (payload : List Byte) (delay : Half)
  -- CMD8 (R87, R201 to R216)
  | swreset
  | slpout
  | noron
  | dispon
  | caset
  | paset
  | ramwr
  | madctl
  | colmod
  | frmctr
  | dfunctr
  | pwctrA
  | pwctrB
  | vmctr
  | pgamctrl
  | ngamctrl
  -- the fourteen script records (R140, R146 to R159)
  | rec0Swreset
  | rec1Colmod
  | rec2PwctrA
  | rec3PwctrB
  | rec4Vmctr
  | rec5Slpout
  | rec6Madctl
  | rec7Dfunctr
  | rec8Frmctr
  | rec9Pgamctrl
  | rec10Ngamctrl
  | rec11Slpout
  | rec12Dispon
  | rec13Noron
deriving DecidableEq, Repr

/-- The format an encoded item is in (the table's "format"). A frame carries the level of the control line beside its
bytes (R85). -/
inductive Format where
  | hreq88
  | frame (dc : BitVec 1)
  | payload
  | srec
  | cmd8
deriving DecidableEq, Repr

/-- One encoded item as it is presented to the layer that decodes it: its format and its bytes, first byte first. For a host
request the eleven bytes of the word come first, most significant first, and the bytes of the payload port follow (R80, R93). -/
structure Presented where
  fmt   : Format
  bytes : List Byte
deriving DecidableEq, Repr

end Sys2Proof
end

