-- ==== Sys2Proof/Decode.lean ====
section
/-! DEFINITION. The byte-order and bit-field helpers, the fourteen records (R146 to R159), the reference
parameters of R13 and R140, the decoder of every format,
the encoder, and the reading of a word of spec/opcode_table.json. -/

namespace Sys2Proof

/-! ## Byte order and bit fields (R14, R55) -/

/-- `hi(v) = v[15:8]` (R14). -/
def hiByte (v : Half) : Byte := v.extractLsb' 8 8

/-- `lo(v) = v[7:0]` (R14). -/
def loByte (v : Half) : Byte := v.extractLsb' 0 8

/-- `be16(v)`, high byte first (R14, R55). -/
def be16 (v : Half) : List Byte := [hiByte v, loByte v]

/-- The 16-bit value of two bytes, high byte first (R72: `h × 256 + d`). -/
def ofBytes (h l : Byte) : Half := h ++ l

/-- The payload layout ADDR4, `be16(first) ++ be16(last)` (R88). -/
def addr4Bytes (first last : Half) : List Byte := be16 first ++ be16 last

/-- RGB565: red in 15:11, green in 10:5, blue in 4:0 (R56). -/
def rgb565 (r : BitVec 5) (g : BitVec 6) (b : BitVec 5) : Half := (r ++ g) ++ b

/-- The n low bytes of a number, most significant first. -/
def bytesBE : Nat → Nat → List Byte
  | 0, _ => []
  | n + 1, w => BitVec.ofNat 8 (w / 256 ^ n) :: bytesBE n w

/-! ## The fourteen records (R140) -/

/-- Record 0, software reset (R146). -/
def recSwreset (p : Params) : ScriptRecord := ⟨p.opSwreset, [], p.delayReset⟩
/-- Record 1, pixel format (R147). -/
def recColmod (p : Params) : ScriptRecord := ⟨p.opColmod, p.plColmod, 0⟩
/-- Record 2, power control, reference voltage (R148). -/
def recPwctrA (p : Params) : ScriptRecord := ⟨p.opPwctrA, p.plPwctrA, 0⟩
/-- Record 3, power control, source/gate driver bias (R149). -/
def recPwctrB (p : Params) : ScriptRecord := ⟨p.opPwctrB, p.plPwctrB, 0⟩
/-- Record 4, power control, VCOM (R150). -/
def recVmctr (p : Params) : ScriptRecord := ⟨p.opVmctr, p.plVmctr, 0⟩
/-- Record 5, the first sleep-out, with no delay (R151). -/
def recSlpout1 (p : Params) : ScriptRecord := ⟨p.opSlpout, [], 0⟩
/-- Record 6, orientation (R152). -/
def recMadctl (p : Params) : ScriptRecord := ⟨p.opMadctl, p.plMadctl, 0⟩
/-- Record 7, display function control (R153). -/
def recDfunctr (p : Params) : ScriptRecord := ⟨p.opDfunctr, p.plDfunctr, 0⟩
/-- Record 8, frame rate control (R154). -/
def recFrmctr (p : Params) : ScriptRecord := ⟨p.opFrmctr, p.plFrmctr, 0⟩
/-- Record 9, positive gamma (R155). -/
def recPgamctrl (p : Params) : ScriptRecord := ⟨p.opPgamctrl, p.plPgamctrl, 0⟩
/-- Record 10, negative gamma (R156). -/
def recNgamctrl (p : Params) : ScriptRecord := ⟨p.opNgamctrl, p.plNgamctrl, 0⟩
/-- Record 11, the second sleep-out (R157). -/
def recSlpout2 (p : Params) : ScriptRecord := ⟨p.opSlpout, [], p.delaySlpout⟩
/-- Record 12, display-on (R158). -/
def recDispon (p : Params) : ScriptRecord := ⟨p.opDispon, [], p.delayDispon⟩
/-- Record 13, normal-display-mode-on (R159). -/
def recNoron (p : Params) : ScriptRecord := ⟨p.opNoron, [], 0⟩

/-! ## The reference parameters (R13, R140) -/

/-- The parameter values of R13 and the payloads of R140, with no script yet. -/
def referenceBase : Params where
  opSwreset := 0x01
  opSlpout := 0x11
  opNoron := 0x13
  opDispon := 0x29
  opCaset := 0x2A
  opPaset := 0x2B
  opRamwr := 0x2C
  opMadctl := 0x36
  opColmod := 0x3A
  opFrmctr := 0xB1
  opDfunctr := 0xB6
  opPwctrA := 0xC0
  opPwctrB := 0xC1
  opVmctr := 0xC5
  opPgamctrl := 0xE0
  opNgamctrl := 0xE1
  plColmod := [0x55]
  plPwctrA := [0x0E, 0x0E]
  plPwctrB := [0x41, 0x00]
  plVmctr := [0x00, 0x00, 0x00, 0x00]
  plMadctl := [0x28]
  plDfunctr := [0x00, 0x02, 0x3B]
  plFrmctr := [0xB0, 0x11]
  plPgamctrl := [0x0F, 0x1F, 0x1C, 0x0C, 0x0F, 0x08, 0x48, 0x98, 0x37, 0x0A, 0x13, 0x04, 0x11, 0x0D, 0x00]
  plNgamctrl := [0x0F, 0x32, 0x2E, 0x0B, 0x0D, 0x05, 0x47, 0x75, 0x37, 0x06, 0x10, 0x03, 0x24, 0x20, 0x00]
  delayReset := 120
  delaySlpout := 120
  delayDispon := 25
  dcCmd := 0
  dcData := 1
  script := []

/-- The script table of R140: the fourteen records in their order, the first sleep-out at index 5 (D10). -/
def referenceScript (p : Params) : List ScriptRecord :=
  [recSwreset p, recColmod p, recPwctrA p, recPwctrB p, recVmctr p, recSlpout1 p, recMadctl p, recDfunctr p,
   recFrmctr p, recPgamctrl p, recNgamctrl p, recSlpout2 p, recDispon p, recNoron p]

/-- The parameters of this hardware: R13 with the table of R140 as its script. -/
def referenceParams : Params := { referenceBase with script := referenceScript referenceBase }

/-! ## Decoding -/

/-- Why an item presented to the block is no instruction. Each is an item outside the spec's encodings. -/
inductive DecodeError where
  /-- A host request word of fewer than eleven bytes (R80). -/
  | requestLength
  /-- Bytes on the payload port that are not exactly the count of SEND_DATA_BUFFER, or any for another operation (R80, R117). -/
  | payloadPortLength
  /-- A command frame that does not carry exactly one byte (R86). -/
  | commandFrameLength
  /-- A data frame of no byte or of more than 65535 (R86, R93). -/
  | dataFrameLength
  /-- A payload that is neither four bytes (ADDR4) nor two (PIX2) (R88, R89). -/
  | payloadLength
  /-- A serialised record whose length is not N + 4 (R84). -/
  | recordLength
  /-- A command of other than one byte (R87). -/
  | commandLength
deriving DecidableEq, Repr

/-- The operation a request word names; decoding looks at `op` only (R81, R82, R91). `hp` is what the payload port holds. -/
def decodeRequest (op : Byte) (f1 f2 f3 f4 f5 : Half) (hp : List Byte) : Except DecodeError Instr :=
  if op = 0x04 then
    if hp.length = f1.toNat then .ok (.sendDataBuffer f1 f2 f3 f4 f5 hp) else .error .payloadPortLength
  else if hp ≠ [] then .error .payloadPortLength
  else if op = 0x01 then .ok (.init f1 f2 f3 f4 f5)
  else if op = 0x02 then .ok (.sendCommand f1 f2 f3 f4 f5)
  else if op = 0x03 then .ok (.sendData f1 f2 f3 f4 f5)
  else if op = 0x05 then .ok (.setWindow f1 f2 f3 f4 f5)
  else if op = 0x06 then .ok (.fillRect f1 f2 f3 f4 f5)
  else if op = 0x07 then .ok (.fillScreen f1 f2 f3 f4 f5)
  else .ok (.reservedHostOp op f1 f2 f3 f4 f5)

/-- A host request: eleven bytes, `q[87:80]` first, then the payload port (R80). -/
def decodeHreq : List Byte → Except DecodeError Instr
  | op :: a1 :: b1 :: a2 :: b2 :: a3 :: b3 :: a4 :: b4 :: a5 :: b5 :: hp =>
    decodeRequest op (ofBytes a1 b1) (ofBytes a2 b2) (ofBytes a3 b3) (ofBytes a4 b4) (ofBytes a5 b5) hp
  | _ => .error .requestLength

/-- A frame: the level says whether it is a command or data (R86). -/
def decodeFrame (p : Params) (dc : BitVec 1) (bs : List Byte) : Except DecodeError Instr :=
  if dc = p.dcCmd then
    match bs with
    | [b] => .ok (.cmdFrame b)
    | _ => .error .commandFrameLength
  else if 1 ≤ bs.length ∧ bs.length ≤ 65535 then .ok (.dataFrame bs)
  else .error .dataFrameLength

/-- A payload layout: four bytes are ADDR4, two are PIX2 (R88, R89). -/
def decodePayload : List Byte → Except DecodeError Instr
  | [a, b, c, d] => .ok (.addr4 (ofBytes a b) (ofBytes c d))
  | [h, l] =>
    let v := ofBytes h l
    .ok (.pix2 (v.extractLsb' 11 5) (v.extractLsb' 5 6) (v.extractLsb' 0 5))
  | _ => .error .payloadLength

/-- The record a byte string holds: opcode, N, N payload bytes, the delay high byte first; anything longer or shorter is no
record (R84). -/
def parseRecord : List Byte → Option ScriptRecord
  | opcode :: n :: rest =>
    if rest.length = n.toNat + 2 then
      match rest.drop n.toNat with
      | [h, l] => some { opcode := opcode, payload := rest.take n.toNat, delay := ofBytes h l }
      | _ => none
    else none
  | _ => none

/-- The fourteen records of R140 with the row each of them is. -/
def recordTable (p : Params) : List (ScriptRecord × Instr) :=
  [(recSwreset p, .rec0Swreset), (recColmod p, .rec1Colmod), (recPwctrA p, .rec2PwctrA), (recPwctrB p, .rec3PwctrB),
   (recVmctr p, .rec4Vmctr), (recSlpout1 p, .rec5Slpout), (recMadctl p, .rec6Madctl), (recDfunctr p, .rec7Dfunctr),
   (recFrmctr p, .rec8Frmctr), (recPgamctrl p, .rec9Pgamctrl), (recNgamctrl p, .rec10Ngamctrl), (recSlpout2 p, .rec11Slpout),
   (recDispon p, .rec12Dispon), (recNoron p, .rec13Noron)]

/-- The instruction of a record: one of the fourteen of R140 where it is that record, else a record of another table (A19). -/
def classifyRecord (p : Params) (r : ScriptRecord) : Instr :=
  ((recordTable p).lookup r).getD (.srec r.opcode r.payload r.delay)

/-- A serialised record (R84). -/
def decodeRecord (p : Params) (bs : List Byte) : Except DecodeError Instr :=
  match parseRecord bs with
  | some r => .ok (classifyRecord p r)
  | none => .error .recordLength

/-- The sixteen opcodes with the command each of them is (R201 to R216). -/
def commandTable (p : Params) : List (Byte × Instr) :=
  [(p.opSwreset, .swreset), (p.opSlpout, .slpout), (p.opNoron, .noron), (p.opDispon, .dispon), (p.opCaset, .caset),
   (p.opPaset, .paset), (p.opRamwr, .ramwr), (p.opMadctl, .madctl), (p.opColmod, .colmod), (p.opFrmctr, .frmctr),
   (p.opDfunctr, .dfunctr), (p.opPwctrA, .pwctrA), (p.opPwctrB, .pwctrB), (p.opVmctr, .vmctr), (p.opPgamctrl, .pgamctrl),
   (p.opNgamctrl, .ngamctrl)]

/-- The command of a command byte: one of the sixteen the block emits, else an opaque command frame, since "the frame protocol
puts no restriction on the command byte" (R62, R92, A20). -/
def classifyCommand (p : Params) (b : Byte) : Instr := ((commandTable p).lookup b).getD (.cmdFrame b)

/-- A controller command byte (R87). -/
def decodeCommand (p : Params) : List Byte → Except DecodeError Instr
  | [b] => .ok (classifyCommand p b)
  | _ => .error .commandLength

/-- The decoder: total on any item, rejecting by name. -/
def decode (p : Params) (e : Presented) : Except DecodeError Instr :=
  match e.fmt with
  | .hreq88 => decodeHreq e.bytes
  | .frame dc => decodeFrame p dc e.bytes
  | .payload => decodePayload e.bytes
  | .srec => decodeRecord p e.bytes
  | .cmd8 => decodeCommand p e.bytes

/-! ## Encoding -/

/-- The bytes of a request word (R80). -/
def requestBytes (op : Byte) (f1 f2 f3 f4 f5 : Half) : List Byte :=
  op :: (be16 f1 ++ be16 f2 ++ be16 f3 ++ be16 f4 ++ be16 f5)

/-- The serialised form of a record (R84). -/
def serialiseRecord (r : ScriptRecord) : List Byte :=
  r.opcode :: BitVec.ofNat 8 r.payload.length :: (r.payload ++ be16 r.delay)

/-- The serialised script table: the records one after another, no padding, no terminator (R84). -/
def serialiseScript (rs : List ScriptRecord) : List Byte := rs.flatMap serialiseRecord

/-- The item that carries an instruction (R80, R84, R86, R87, R88, R89). -/
def encode (p : Params) : Instr → Presented
  | .init f1 f2 f3 f4 f5 => ⟨.hreq88, requestBytes 0x01 f1 f2 f3 f4 f5⟩
  | .sendCommand f1 f2 f3 f4 f5 => ⟨.hreq88, requestBytes 0x02 f1 f2 f3 f4 f5⟩
  | .sendData f1 f2 f3 f4 f5 => ⟨.hreq88, requestBytes 0x03 f1 f2 f3 f4 f5⟩
  | .sendDataBuffer f1 f2 f3 f4 f5 hp => ⟨.hreq88, requestBytes 0x04 f1 f2 f3 f4 f5 ++ hp⟩
  | .setWindow f1 f2 f3 f4 f5 => ⟨.hreq88, requestBytes 0x05 f1 f2 f3 f4 f5⟩
  | .fillRect f1 f2 f3 f4 f5 => ⟨.hreq88, requestBytes 0x06 f1 f2 f3 f4 f5⟩
  | .fillScreen f1 f2 f3 f4 f5 => ⟨.hreq88, requestBytes 0x07 f1 f2 f3 f4 f5⟩
  | .reservedHostOp op f1 f2 f3 f4 f5 => ⟨.hreq88, requestBytes op f1 f2 f3 f4 f5⟩
  | .cmdFrame b => ⟨.frame p.dcCmd, [b]⟩
  | .dataFrame bs => ⟨.frame p.dcData, bs⟩
  | .addr4 first last => ⟨.payload, addr4Bytes first last⟩
  | .pix2 r g b => ⟨.payload, be16 (rgb565 r g b)⟩
  | .srec opcode payload delay => ⟨.srec, serialiseRecord ⟨opcode, payload, delay⟩⟩
  | .swreset => ⟨.cmd8, [p.opSwreset]⟩
  | .slpout => ⟨.cmd8, [p.opSlpout]⟩
  | .noron => ⟨.cmd8, [p.opNoron]⟩
  | .dispon => ⟨.cmd8, [p.opDispon]⟩
  | .caset => ⟨.cmd8, [p.opCaset]⟩
  | .paset => ⟨.cmd8, [p.opPaset]⟩
  | .ramwr => ⟨.cmd8, [p.opRamwr]⟩
  | .madctl => ⟨.cmd8, [p.opMadctl]⟩
  | .colmod => ⟨.cmd8, [p.opColmod]⟩
  | .frmctr => ⟨.cmd8, [p.opFrmctr]⟩
  | .dfunctr => ⟨.cmd8, [p.opDfunctr]⟩
  | .pwctrA => ⟨.cmd8, [p.opPwctrA]⟩
  | .pwctrB => ⟨.cmd8, [p.opPwctrB]⟩
  | .vmctr => ⟨.cmd8, [p.opVmctr]⟩
  | .pgamctrl => ⟨.cmd8, [p.opPgamctrl]⟩
  | .ngamctrl => ⟨.cmd8, [p.opNgamctrl]⟩
  | .rec0Swreset => ⟨.srec, serialiseRecord (recSwreset p)⟩
  | .rec1Colmod => ⟨.srec, serialiseRecord (recColmod p)⟩
  | .rec2PwctrA => ⟨.srec, serialiseRecord (recPwctrA p)⟩
  | .rec3PwctrB => ⟨.srec, serialiseRecord (recPwctrB p)⟩
  | .rec4Vmctr => ⟨.srec, serialiseRecord (recVmctr p)⟩
  | .rec5Slpout => ⟨.srec, serialiseRecord (recSlpout1 p)⟩
  | .rec6Madctl => ⟨.srec, serialiseRecord (recMadctl p)⟩
  | .rec7Dfunctr => ⟨.srec, serialiseRecord (recDfunctr p)⟩
  | .rec8Frmctr => ⟨.srec, serialiseRecord (recFrmctr p)⟩
  | .rec9Pgamctrl => ⟨.srec, serialiseRecord (recPgamctrl p)⟩
  | .rec10Ngamctrl => ⟨.srec, serialiseRecord (recNgamctrl p)⟩
  | .rec11Slpout => ⟨.srec, serialiseRecord (recSlpout2 p)⟩
  | .rec12Dispon => ⟨.srec, serialiseRecord (recDispon p)⟩
  | .rec13Noron => ⟨.srec, serialiseRecord (recNoron p)⟩

/-! ## The table's words -/

/-- Whether the bytes hold one of the fourteen records of the reference table. -/
def isReferenceRecord (bs : List Byte) : Bool :=
  match parseRecord bs with
  | some r => decide (r ∈ referenceScript referenceBase)
  | none => false

/-- The payload port beside a request word of the table: the table gives it no bits, so its bytes are zeros, as many as the
count of SEND_DATA_BUFFER (A22). -/
def tablePort (w : Nat) : List Byte :=
  if w / 256 ^ 10 % 256 = 4 then List.replicate (w / 256 ^ 8 % 65536) 0 else []

/-- The item of a table word, first byte most significant (A21): 8 bits are a command byte, 88 a request word, 9 or 16 a frame
of one byte with its level in bit 8 (a pixel where a higher bit is set), 32 a record of the reference table or else ADDR4, any
other size a serialised record. -/
def tableItem (nbits w : Nat) : Presented :=
  let bs := bytesBE ((nbits + 7) / 8) w
  if nbits = 8 then ⟨.cmd8, bs⟩
  else if nbits = 88 then ⟨.hreq88, bs ++ tablePort w⟩
  else if nbits ≤ 16 then
    if w < 512 then ⟨.frame (BitVec.ofNat 1 (w / 256)), bytesBE 1 w⟩ else ⟨.payload, bs⟩
  else if nbits = 32 ∧ isReferenceRecord bs = false then ⟨.payload, bs⟩
  else ⟨.srec, bs⟩

/-- The instruction the decoder reads from a word of spec/opcode_table.json. -/
def decodeTableWord (nbits w : Nat) : Option Instr :=
  (decode referenceParams (tableItem nbits w)).toOption

end Sys2Proof
end

