-- ==== Sys2Proof/WellFormed.lean ====
section
/-! DEFINITION. The conditions on the parameters (R24, R84, R86, R218), and which instructions have an encoding. -/

namespace Sys2Proof

/-! ## Conditions on the parameters -/

/-- The sixteen opcode parameters (R13). -/
def Params.opcodes (p : Params) : List Byte :=
  [p.opSwreset, p.opSlpout, p.opNoron, p.opDispon, p.opCaset, p.opPaset, p.opRamwr, p.opMadctl, p.opColmod, p.opFrmctr,
   p.opDfunctr, p.opPwctrA, p.opPwctrB, p.opVmctr, p.opPgamctrl, p.opNgamctrl]

/-- The nine payload parameters (R13). -/
def Params.payloads (p : Params) : List (List Byte) :=
  [p.plColmod, p.plPwctrA, p.plPwctrB, p.plVmctr, p.plMadctl, p.plDfunctr, p.plFrmctr, p.plPgamctrl, p.plNgamctrl]

/-- "The three window opcodes must be distinct from one another" (R218). -/
abbrev Params.WindowOpcodesDistinct (p : Params) : Prop :=
  p.opCaset ≠ p.opPaset ∧ p.opCaset ≠ p.opRamwr ∧ p.opPaset ≠ p.opRamwr

/-- What R218 and R86 ask of the parameters, with the field widths of R83: distinct opcodes, distinct levels, payloads that N
can count, and a delay after the second sleep-out (R142), which tells its record from the first. -/
abbrev Params.Valid (p : Params) : Prop :=
  p.opcodes.Nodup ∧ p.dcCmd ≠ p.dcData ∧ (∀ pl ∈ p.payloads, pl.length ≤ 255) ∧ p.delaySlpout ≠ 0

/-! ## Well-formed instructions -/

/-- The instructions that have an encoding of their own: the payload port holds exactly the count (R117), a reserved code is
reserved (R91), a data frame has 1 to 65535 bytes (R86, R93), and a record's payload is one N can count (R83); the fourteen
records of R140 are written by their own constructors (A19). -/
def wellFormed (p : Params) : Instr → Bool
  | .sendDataBuffer f1 _ _ _ _ hp => decide (hp.length = f1.toNat)
  | .reservedHostOp op _ _ _ _ _ => decide (op = 0 ∨ 8 ≤ op.toNat)
  | .dataFrame bs => decide (1 ≤ bs.length ∧ bs.length ≤ 65535)
  | .srec opcode payload delay => decide (payload.length ≤ 255) && decide (⟨opcode, payload, delay⟩ ∉ referenceScript p)
  | .init _ _ _ _ _ | .sendCommand _ _ _ _ _ | .sendData _ _ _ _ _ | .setWindow _ _ _ _ _ | .fillRect _ _ _ _ _
  | .fillScreen _ _ _ _ _ | .cmdFrame _ | .addr4 _ _ | .pix2 _ _ _ | .swreset | .slpout | .noron | .dispon | .caset | .paset
  | .ramwr | .madctl | .colmod | .frmctr | .dfunctr | .pwctrA | .pwctrB | .vmctr | .pgamctrl | .ngamctrl | .rec0Swreset
  | .rec1Colmod | .rec2PwctrA | .rec3PwctrB | .rec4Vmctr | .rec5Slpout | .rec6Madctl | .rec7Dfunctr | .rec8Frmctr
  | .rec9Pgamctrl | .rec10Ngamctrl | .rec11Slpout | .rec12Dispon | .rec13Noron => true

end Sys2Proof
end

