-- ==== Sys2Proof/Machine/State.lean ====
section
/-! DEFINITION. The state: the block's registers (R20 to R31), its parameters (R33, R13), the observers (R16, R70) and the inputs
still to come; the reasons a step can stop; the state after reset (R39, R250). -/

namespace Sys2Proof.Machine

/-- MODE (R26): three values, the fourth is never written. -/
inductive Mode where
  | idle
  | busy
  | halted
deriving DecidableEq, Repr

/-- A completion status (R228): three values, the fourth is never produced (U12). -/
inductive Status where
  | ok
  | fault
  | rejected
deriving DecidableEq, Repr

/-- PHASE (R25): eleven values, 11 to 15 are never produced (U13). -/
inductive Phase where
  | none
  | recCmd
  | recData
  | recWait
  | casetC
  | casetD
  | pasetC
  | pasetD
  | ramwrC
  | rowD
  | prim
deriving DecidableEq, Repr

/-- The two frame variants (R86). -/
inductive Frame where
  | command (b : Byte)
  | data (bs : List Byte)
deriving DecidableEq, Repr

/-- An event of the trace (R16). `done` names the request by its operation code. -/
inductive Event where
  | cmd (b : Byte)
  | data (bs : List Byte)
  | wait (n : Half)
  | fault (f : Frame)
  | done (op : Byte) (st : Status)
deriving DecidableEq, Repr

/-- One tagged byte of the flat stream: `(C, b)` or `(D, b)` (R16). -/
inductive Tagged where
  | c (b : Byte)
  | d (b : Byte)
deriving DecidableEq, Repr

/-- A memory: (address, byte) pairs, addresses strictly rising; an unlisted address holds no value. -/
abbrev Memory := List Host.Cell

/-- The collecting state of the panel stub (R70). -/
inductive Collect where
  | none
  | col (bs : List Byte)
  | row (bs : List Byte)
  | write (px py : Nat) (half : Option Byte)
  | full
  | other
deriving DecidableEq, Repr

/-- The panel stub (R70): the frame memory (two bytes a pixel, high byte first, row-major; an unlisted byte is `unknown`), the
four bounds (`none` is `unset`), the collecting state and the sticky mark. -/
structure Panel where
  gram : Memory
  cx0 : Option Half
  cx1 : Option Half
  py0 : Option Half
  py1 : Option Half
  st  : Collect
  bad : Bool
deriving DecidableEq, Repr

/-- The stub "at the start" (R70). -/
def Panel.fresh : Panel := ⟨[], Option.none, Option.none, Option.none, Option.none, .none, false⟩

/-- What the status port shows (R32). -/
structure StatusPort where
  mode : BitVec 2
  initDone : Bool
  fault : Bool
  primed : Bool
  dc : BitVec 1
  lastStatus : BitVec 2
  sp : Byte
  phase : BitVec 4
  row : Half
  rows : Half
  rowlen : Half
  wx0 : Half
  wy0 : Half
  wx1 : Half
  wy1 : Half
deriving DecidableEq, Repr

/-- What the host puts on the port (R12): an item to decode, a read of the status port (R32) or a reset (R250) between two
operations. -/
inductive HostInput where
  | item (e : Presented)
  | readStatus
  | reset
deriving DecidableEq, Repr

/-- What the host does next while an operation runs (R12). In a micro-step in progress: let it go on to its end, read the status port, "at
any time" (R32), or reset, "including while the block is busy" (R250). Between two micro-steps (R26): read the status port as the register
just written left it, or let the block write its next one. -/
inductive HostMove where
  | proceed
  | readStatus
  | reset
  | readBetween
  | nextWrite
deriving DecidableEq, Repr

/-- The state. -/
@[ext]
structure State where
  -- operand registers x[0] to x[4] (R20)
  rx : Half
  ry : Half
  rw : Half
  rh : Half
  rc : Half
  -- window registers (R21)
  wx0 : Half
  wy0 : Half
  wx1 : Half
  wy1 : Half
  -- row buffer and row counters (R22, R23)
  rowbuf : Memory
  rowlen : Half
  rows : Half
  row : Half
  -- script pointer and micro-step (R24, R25)
  sp : Byte
  phase : Phase
  -- flags and status (R26 to R31)
  mode : Mode
  initDone : Bool
  faultFlag : Bool
  primed : Bool
  dc : BitVec 1
  lastStatus : Status
  -- the code of the request that runs (R80, R222)
  op : Byte
  -- parameters, written by no step (R9, R33, R254)
  params : Params
  -- observers: the trace (R16) and the panel stub, `none` when its whole state is unknown (R70, R74)
  trace : List Event
  stub : Option Panel
  -- what the host's reads of the status port have shown (R32)
  reads : List StatusPort
  -- inputs: the host's port (R12), the transport's answers with the count of frames (R110), what the host does while the micro-steps
  -- to come are in progress, a `proceed` between two of them (R12, R250)
  port : List HostInput
  answers : List Answer
  frames : Nat
  moves : List HostMove
deriving DecidableEq, Repr

/-- A reason the machine stops with a fault. The block's own transport fault is no stop: it is a next state, HALTED (R222). -/
inductive Fault where
  /-- Raised by INIT where the script holds more than 255 records: SP holds an index from 0 to K and "K ≤ 255 fits in 8 bits"
  (R24), so no script space of that size exists. Safe: the machine stops where the spec describes no machine. -/
  | scriptTooLong
deriving DecidableEq, Repr

/-- A reason the machine gives an item no meaning. -/
inductive Refusal where
  /-- An instruction with no meaning yet, by the table's mnemonic; raised by an arm of exec only. Safe. -/
  | notModelled (mnemonic : String)
  /-- Raised by step: the item on the port is outside the spec's encodings (R80, R84, R86 to R89). Safe. -/
  | undecodable (why : DecodeError)
  /-- Raised by SEND_DATA_BUFFER: the payload port does not hold exactly the count; "a list of another length is outside the
  encoding" (R117). Safe. -/
  | payloadPort
deriving DecidableEq, Repr

/-- The machine right after reset (R39, R250), before any input: the registers the spec leaves unspecified hold the values of A9 to
A12, the parameters are those of this hardware (R13, R140), the stub is fresh (R70). -/
def State.reset : State where
  rx := 0
  ry := 0
  rw := 0
  rh := 0
  rc := 0
  wx0 := 0
  wy0 := 0
  wx1 := 0
  wy1 := 0
  rowbuf := []
  rowlen := 0
  rows := 0
  row := 0
  sp := 0
  phase := .none
  mode := .idle
  initDone := false
  faultFlag := false
  primed := false
  dc := 0
  lastStatus := .ok
  op := 0
  params := referenceParams
  trace := []
  stub := some Panel.fresh
  reads := []
  port := []
  answers := []
  frames := 0
  moves := []

end Sys2Proof.Machine
end

