-- ==== Sys2Proof/Machine/Memory.lean ====
section
/-! DEFINITION. The operations over the two memories, the row buffer (R51) and the frame memory (R52): one list of (address, byte)
pairs in rising order, an unlisted address holding no value. -/

namespace Sys2Proof.Machine

/-- The byte at an address, if one was written. -/
def Memory.read? : Memory → Nat → Option Byte
  | [], _ => none
  | (k, v) :: m, a => if a = k then some v else Memory.read? m a

/-- Write one byte, keeping the addresses in rising order. -/
def Memory.write : Memory → Nat → Byte → Memory
  | [], a, b => [(a, b)]
  | (k, v) :: m, a, b =>
    if a < k then (a, b) :: (k, v) :: m
    else if a = k then (a, b) :: m
    else (k, v) :: Memory.write m a b

/-- Write bytes at rising addresses from `a` on. -/
def Memory.writeList : Memory → Nat → List Byte → Memory
  | m, _, [] => m
  | m, a, b :: bs => Memory.writeList (Memory.write m a b) (a + 1) bs

/-- The canonical form: addresses strictly rising. -/
def Memory.wf (m : Memory) : Bool := decide (m.Pairwise fun c d => c.1 < d.1)

/-- Every listed address lies below `n`, the size of the address space. -/
def Memory.below (m : Memory) (n : Nat) : Bool := decide (∀ c ∈ m, c.1 < n)

/-- `MemRead(ROWBUF, n)`: bytes 0 to n − 1 in index order (R51). A byte nothing has written is a free value (A12). -/
def rowRead (m : Memory) (n : Nat) : List Byte :=
  (List.range n).map fun i => (Memory.read? m i).getD (Config.unwrittenRowByte i)

end Sys2Proof.Machine
end

