-- ==== Sys2Proof/Machine/Panel.lean ====
section
/-! DEFINITION. The observers: the flat stream (R16) and the panel stub (R70 to R75). -/

namespace Sys2Proof.Machine

/-! ## Frames and the flat stream -/

/-- The bytes of a frame (R85, R86). -/
def Frame.bytes : Frame → List Byte
  | .command b => [b]
  | .data bs => bs

/-- The control-line level of a frame (R86). -/
def Frame.level (p : Params) : Frame → BitVec 1
  | .command _ => p.dcCmd
  | .data _ => p.dcData

/-- The length in bits of a frame, always eight times its bytes (R58, R85). -/
def Frame.nbits (f : Frame) : Nat := 8 * f.bytes.length

/-- The tagged bytes of one event; `Wait`, `Fault` and `Done` have none (R16). -/
def Event.flat : Event → List Tagged
  | .cmd b => [.c b]
  | .data bs => bs.map .d
  | .wait _ => []
  | .fault _ => []
  | .done _ _ => []

/-- The flat stream of a trace (R16). -/
def flat (t : List Event) : List Tagged := t.flatMap Event.flat

/-- The logical controller operations of a flat stream, each a command byte with the data bytes that follow it (R53, R118); what
"every command and payload so far has written" to the controller (R38). Data bytes before any command are dropped. -/
def logicalOps : List Tagged → List (Byte × List Byte)
  | [] => []
  | .d _ :: ts => logicalOps ts
  | .c b :: ts => (b, leadingData ts) :: logicalOps ts
where
  /-- The data bytes up to the next command. -/
  leadingData : List Tagged → List Byte
    | .d b :: ts => b :: leadingData ts
    | _ => []

/-! ## The panel stub -/

/-- The byte address of pixel (x, y) in the frame memory: row-major, two bytes a pixel (R52, R55). -/
def pixelAddr (x y : Nat) : Nat := 2 * (Config.panelWidth * y + x)

/-- `gram[y][x]`, or `none` for `unknown` (R70); a position outside the panel is unknown (A26). -/
def Panel.pixel? (q : Panel) (x y : Nat) : Option Half :=
  if x < Config.panelWidth ∧ y < Config.panelHeight then
    match Memory.read? q.gram (pixelAddr x y), Memory.read? q.gram (pixelAddr x y + 1) with
    | some h, some l => some (ofBytes h l)
    | _, _ => none
  else none

/-- `MemWrite(gram[y][x], 2, h × 256 + d)` (R73). -/
def Panel.setPixel (q : Panel) (x y : Nat) (h l : Byte) : Panel :=
  { q with gram := Memory.writeList q.gram (pixelAddr x y) [h, l] }

/-- The collecting states a command byte must not find: a short address payload, half a pixel (R71). -/
def Collect.isOpen : Collect → Bool
  | .col bs => decide (bs.length < 4)
  | .row bs => decide (bs.length < 4)
  | .write _ _ half => half.isSome
  | .none | .full | .other => false

/-- The window a memory-write command opens: all four bounds set and "0 ≤ x0 ≤ x1 < panel width, 0 ≤ y0 ≤ y1 < panel height" (R71). -/
def Panel.window? (q : Panel) : Option (Nat × Nat × Nat × Nat) :=
  match q.cx0, q.cx1, q.py0, q.py1 with
  | some x0, some x1, some y0, some y1 =>
    if x0.toNat ≤ x1.toNat ∧ x1.toNat < Config.panelWidth ∧ y0.toNat ≤ y1.toNat ∧ y1.toNat < Config.panelHeight then
      some (x0.toNat, y0.toNat, x1.toNat, y1.toNat)
    else none
  | _, _, _, _ => none

/-- A command byte (R71). -/
def Panel.feedCmd (p : Params) (q : Panel) (b : Byte) : Panel :=
  let q := { q with bad := q.bad || q.st.isOpen }
  if b = p.opCaset then { q with st := .col [] }
  else if b = p.opPaset then { q with st := .row [] }
  else if b = p.opRamwr then
    match q.window? with
    | some (x0, y0, _, _) => { q with st := .write x0 y0 none }
    | none => { q with bad := true, st := .other }
  else { q with st := .other }

/-- The position after a pixel: "left-to-right then top-to-bottom" inside the window (R73). -/
def Panel.advance (q : Panel) (px py : Nat) : Collect :=
  match q.window? with
  | some (x0, _, x1, y1) =>
    if px < x1 then .write (px + 1) py none else if py < y1 then .write x0 (py + 1) none else .full
  | none => .other

/-- A data byte (R72, R73, R74). -/
def Panel.feedData (q : Panel) (d : Byte) : Panel :=
  match q.st with
  | .col [a, b, c] => { q with cx0 := some (ofBytes a b), cx1 := some (ofBytes c d), st := .col [a, b, c, d] }
  | .col bs => if bs.length < 3 then { q with st := .col (bs ++ [d]) } else { q with bad := true }
  | .row [a, b, c] => { q with py0 := some (ofBytes a b), py1 := some (ofBytes c d), st := .row [a, b, c, d] }
  | .row bs => if bs.length < 3 then { q with st := .row (bs ++ [d]) } else { q with bad := true }
  | .write px py none => { q with st := .write px py (some d) }
  | .write px py (some h) => { q.setPixel px py h d with st := q.advance px py }
  | .other => q
  | .none => { q with bad := true }
  | .full => { q with bad := true }

/-- One tagged byte. -/
def Panel.feed (p : Params) (q : Panel) : Tagged → Panel
  | .c b => q.feedCmd p b
  | .d b => q.feedData b

/-- The stub consumes a flat stream, one tagged byte at a time (R70). -/
def Panel.run (p : Params) (q : Panel) (ts : List Tagged) : Panel := ts.foldl (Panel.feed p) q

/-- The two bytes of a pixel, each `none` where unknown (R75). DESIGN CHOICE (A26): a position outside the panel, which R70 gives no
pixel and R75 does not exclude, reads as unknown. -/
def Panel.pixelBytes (q : Panel) (x y : Nat) : List (Option Byte) :=
  if x < Config.panelWidth ∧ y < Config.panelHeight then [Memory.read? q.gram (pixelAddr x y), Memory.read? q.gram (pixelAddr x y + 1)]
  else [none, none]

/-- `readback(x0, y0, x1, y1)`: y from y0 to y1 and, inside each y, x from x0 to x1 (R75). -/
def Panel.readback (q : Panel) (x0 y0 x1 y1 : Nat) : List (Option Byte) :=
  (List.range' y0 (y1 + 1 - y0)).flatMap fun y => (List.range' x0 (x1 + 1 - x0)).flatMap fun x => q.pixelBytes x y

end Sys2Proof.Machine
end

