-- ==== Sys2Proof/Machine/Flags.lean ====
section
/-! DEFINITION. The flag computation of a command frame (R29), the codes of the status registers (R25, R26, R31) and the status
port (R32). -/

namespace Sys2Proof.Machine

/-- PRIMED after a command frame the transport answered `ok`: 1 for the memory-write opcode, 0 for any other (R29, R112). -/
def primedAfter (p : Params) (b : Byte) : Bool := decide (b = p.opRamwr)

/-- The code of MODE (R26). -/
def Mode.code : Mode → BitVec 2
  | .idle => 0
  | .busy => 1
  | .halted => 2

/-- The code of a completion status (R228). -/
def Status.code : Status → BitVec 2
  | .ok => 0
  | .fault => 1
  | .rejected => 2

/-- The code of PHASE (R25). -/
def Phase.code : Phase → BitVec 4
  | .none => 0
  | .recCmd => 1
  | .recData => 2
  | .recWait => 3
  | .casetC => 4
  | .casetD => 5
  | .pasetC => 6
  | .pasetD => 7
  | .ramwrC => 8
  | .rowD => 9
  | .prim => 10

/-- A read of the status port: a function of the state, with no side effect (R32). -/
def readStatus (s : State) : StatusPort where
  mode := s.mode.code
  initDone := s.initDone
  fault := s.faultFlag
  primed := s.primed
  dc := s.dc
  lastStatus := s.lastStatus.code
  sp := s.sp
  phase := s.phase.code
  row := s.row
  rows := s.rows
  rowlen := s.rowlen
  wx0 := s.wx0
  wy0 := s.wy0
  wx1 := s.wx1
  wy1 := s.wy1

end Sys2Proof.Machine
end

