-- ==== Sys2Proof/Machine/Operands.lean ====
section
/-! DEFINITION. The operand forms: the operand registers a request loads (R20, R82), the byte, count and signed readings (R90), the
clipping rule (R180), the packed row (R183). -/

namespace Sys2Proof.Machine

/-- Acceptance loads `x[0] <- f1` to `x[4] <- f5`, "all five at once and whatever the operation" (R82). -/
def loadOperands (f1 f2 f3 f4 f5 : Half) (s : State) : State :=
  { s with rx := f1, ry := f2, rw := f3, rh := f4, rc := f5 }

/-- The byte operand of SEND_COMMAND and SEND_DATA, `x[4][7:0]` (R90). -/
def byteOperand (s : State) : Byte := loByte s.rc

/-- `sint16(v)`, the signed reading (R14). -/
def sint16 (v : Half) : Int := v.toInt

/-- `Clip(x, y, w, h)` on signed integers without wrap-around (R180, R186): nothing to draw, or the clipped size. -/
def clip (x y w h : Int) : Option (Nat × Nat) :=
  if x < 0 ∨ Config.panelWidth ≤ x ∨ y < 0 ∨ Config.panelHeight ≤ y then none
  else
    let w := if x + w > Config.panelWidth then Config.panelWidth - x else w
    let h := if y + h > Config.panelHeight then Config.panelHeight - y else h
    if w ≤ 0 ∨ h ≤ 0 then none else some (w.toNat, h.toNat)

/-- The packed row of a fill, `rep(cw, be16(c))` (R183). -/
def rowBytes (cw : Nat) (c : Half) : List Byte := (List.replicate cw (be16 c)).flatten

/-- A window bound: an integer in 0 to 479 or 0 to 319, zero-extended to 16 bits (R90). -/
def bound (v : Int) : Half := BitVec.ofInt 16 v

end Sys2Proof.Machine
end

