-- ==== Sys2Proof/Machine/Ops.lean ====
section
/-! DEFINITION. The shared operations: reset (R250), the transport fault (R222), the frame primitives (R112, R113), the delay
(R232), acceptance, rejection and completion (R82, R227, R228), the record executor (R131), the window program (R171) and the
fill (R179). -/

namespace Sys2Proof.Machine

/-- What a meaning answers. -/
abbrev Result := Host.Outcome State Fault Refusal

/-- The outcome of micro-steps: the operation goes on, or it has ended (a transport fault, or a reset that cut it off) and "the
rest of the operation is dropped" (R222, R250). -/
inductive Micro where
  | run (s : State)
  | ended (s : State)
deriving DecidableEq, Repr

/-- The state reached either way. -/
def Micro.state : Micro → State
  | .run s => s
  | .ended s => s

/-- The next micro-step, dropped where the operation has ended. -/
def Micro.andThen (m : Micro) (k : State → Micro) : Micro :=
  match m with
  | .run s => k s
  | .ended s => .ended s

/-! ## Single registers -/

/-- Write PHASE, "immediately before each micro-step" (R25). -/
def setPhase (ph : Phase) (s : State) : State := { s with phase := ph }

/-- Write PRIMED (R29). -/
def setPrimed (v : Bool) (s : State) : State := { s with primed := v }

/-- Write INIT_DONE (R27). -/
def setInitDone (v : Bool) (s : State) : State := { s with initDone := v }

/-- Write SP (R24). -/
def setSp (i : Byte) (s : State) : State := { s with sp := i }

/-- `ROW <- ROW + 1` (R23). -/
def countRow (s : State) : State := { s with row := s.row + 1 }

/-- The host's moves to come, and what its reads have shown (R12, R32). -/
def setHost (moves : List HostMove) (reads : List StatusPort) (s : State) : State := { s with moves := moves, reads := reads }

/-- `MODE <- BUSY` for the operation with this code (R82). -/
def beginRequest (op : Byte) (s : State) : State := { s with mode := .busy, op := op }

/-! ## Events -/

/-- Append an event to the trace and let the panel stub consume its bytes (R16, R70). -/
def emit (e : Event) (s : State) : State :=
  { s with trace := s.trace ++ [e], stub := s.stub.map fun q => q.run s.params e.flat }

/-! ## Reset (R250, R251) -/

/-- The reset event: every register of the block at its value after reset. It emits nothing and touches neither the display
controller nor the parameters (R251); the inputs still to come stay as they are. -/
def resetBlock (s : State) : State :=
  { State.reset with
    params := s.params, trace := s.trace, stub := s.stub, reads := s.reads, port := s.port, answers := s.answers, frames := s.frames,
    moves := s.moves }

/-- A reset that cuts an operation off: the trace ends without a `Done`, and "the display controller's state is unknown, as after
a fault" (R250, which says so of a frame in flight; that it is unknown also after a reset in a delay or in the completion is A3). -/
def cutOff (s : State) : State := { resetBlock s with stub := none }

/-! ## The host meanwhile (R12, R32, R250) -/

/-- A read of the status port: what it shows is what the host gets, and nothing else changes (R32). -/
def statusRead (s : State) : State := { s with reads := s.reads ++ [readStatus s] }

/-- How often the host reads between two register writes, and its moves after that (A3). -/
def readsBetween : List HostMove → Nat × List HostMove
  | .readBetween :: rest => ((readsBetween rest).1 + 1, (readsBetween rest).2)
  | .nextWrite :: rest => (0, rest)
  | moves => (0, moves)

/-- The moment after a register write, before the block goes on: the host "sees the block between two micro-steps" through the status port
(R26), "at any time" (R12, R32), any number of times. -/
def glimpse (s : State) : State :=
  setHost (readsBetween s.moves).2 (s.reads ++ List.replicate (readsBetween s.moves).1 (readStatus s)) s

/-- What the host does during one micro-step (A3): any number of reads, each of which leaves the micro-step in progress (R32), and then
either the micro-step goes on to its end k, as it does where nothing more is said of the host, or a reset cuts it off (R250). -/
def during (k : State → Micro) : List HostMove → State → Micro
  | [], s => k (setHost [] s.reads s)
  | .proceed :: rest, s => k (setHost rest s.reads s)
  | .readStatus :: rest, s => during k rest (statusRead s)
  | .readBetween :: rest, s => during k rest (statusRead s)
  | .nextWrite :: rest, s => during k rest s
  | .reset :: rest, s => .ended (cutOff (setHost rest s.reads s))

/-- One micro-step in progress (R12), with the host's moves to come (A3). A reset between two micro-steps is one in the next: it leaves the
same state (A27). -/
def inProgress (k : State → Micro) (s : State) : Micro := during k s.moves s

/-! ## Registers written while the host may look on -/

/-- PHASE written for the next micro-step (R25). -/
def enterPhase (ph : Phase) (s : State) : State := glimpse (setPhase ph s)

/-- `WX0 <- x0; WX1 <- x1` (R171, R172). -/
def writeColumns (x0 x1 : Half) (s : State) : State := glimpse { glimpse { s with wx0 := x0 } with wx1 := x1 }

/-- `WY0 <- y0; WY1 <- y1` (R171, R172). -/
def writeRows (y0 y1 : Half) (s : State) : State := glimpse { glimpse { s with wy0 := y0 } with wy1 := y1 }

/-- `ROWLEN <- l; ROWS <- n; ROW <- 0` (R179): what a fill packed, or 0 for one that is a no-op (R23, R181). -/
def writeRowCounts (l n : Half) (s : State) : State :=
  glimpse { glimpse { glimpse { s with rowlen := l } with rows := n } with row := 0 }

/-! ## Completion (R8, R228) -/

/-- The completion as the micro-step it is (R8), whatever its status: w, unless a reset cuts it off (R250). -/
def complete (w : State → State) (s : State) : State := (inProgress (fun s => .ended (w s)) s).state

/-! ## The transport and its fault -/

/-- The transport's answer to the next frame: the next one the state holds, else a free value (R110, A2). -/
def nextAnswer (s : State) : Answer :=
  match s.answers with
  | a :: _ => a
  | [] => Config.transportAnswer s.frames

/-- The inputs after one answer was taken. -/
def afterAnswer (s : State) : State := { s with answers := s.answers.tail, frames := s.frames + 1 }

/-- The transport answered `fault` to frame f: `Fault(f)` on the trace (R112, R113), and the controller is unknown from it on (R223, R74). -/
def markFault (f : Frame) (s : State) : State := { s with trace := s.trace ++ [.fault f], stub := none }

/-- TAKING THE EXCEPTION: the transport fault (R222). The trace already holds `Fault(f)`, DC the level of f, PHASE the micro-step;
everything else keeps its value. There is no handler and no return (R231): `resetBlock` is the only way out. -/
def faultEntry (s : State) : State :=
  { s with
    primed := false, faultFlag := true, mode := .halted, lastStatus := .fault, trace := s.trace ++ [.done s.op .fault] }

/-- The writes of R222 before the completion, `PRIMED <- 0; FAULT <- 1; MODE <- HALTED`, the last two as one: "`FAULT` = 1 exactly when
`MODE` = `HALTED`" (R28). -/
def halting (s : State) : State := glimpse { glimpse { s with primed := false } with faultFlag := true, mode := .halted }

/-- A frame f that the transport answered `fault` (R112, R113): `Fault(f)` on the trace, then the exception and its completion (R222). That the
completion is a micro-step of its own after the frame, in which the host can read or reset, is read from R8 and R250 (A3). -/
def raiseFault (f : Frame) (s : State) : State := complete faultEntry (halting (markFault f s))

/-- `DC <- P_DC_CMD; PRIMED <- 0`: "set immediately before the transfer begins" (R111, R112). -/
def driveCmd (s : State) : State := { glimpse { s with dc := s.params.dcCmd } with primed := false }

/-- The level of a data frame (R111, R113). -/
def driveData (s : State) : State := { s with dc := s.params.dcData }

/-- The transfer of a command frame: `Fault` and the exception, or `Cmd(b)` and PRIMED (R112). -/
def transferCmd (b : Byte) (s : State) : Micro :=
  match nextAnswer s with
  | .fault => .ended (raiseFault (.command b) (afterAnswer s))
  | .ok => .run (glimpse (setPrimed (primedAfter s.params b) (emit (.cmd b) (afterAnswer s))))

/-- The transfer of a data frame: `Fault` and the exception, or `Data(bs)` (R113). -/
def transferData (bs : List Byte) (s : State) : Micro :=
  match nextAnswer s with
  | .fault => .ended (raiseFault (.data bs) (afterAnswer s))
  | .ok => .run (emit (.data bs) (afterAnswer s))

/-- `BusCmd(b)` (R112). The caller has written PHASE. -/
def busCmd (b : Byte) (s : State) : Micro := inProgress (transferCmd b) (driveCmd s)

/-- `BusData(bs)` (R113). The caller has written PHASE. -/
def busData (bs : List Byte) (s : State) : Micro := inProgress (transferData bs) (driveData s)

/-- "An operation that has nothing to send sends no frame" (R86). -/
def busDataIf (ph : Phase) (bs : List Byte) (s : State) : Micro :=
  if bs = [] then .run s else busData bs (enterPhase ph s)

/-- `Delay(n)` (R232): the timing service has no failure answer. That `Wait(n)` is not on the trace where a reset cuts the delay off is
the model's choice (A3). -/
def delayFor (n : Half) (s : State) : Micro := inProgress (fun s => .run (emit (.wait n) s)) s

/-! ## Acceptance, rejection, completion -/

/-- Completion of the running request with `OK`: `PHASE <- PH_NONE; MODE <- IDLE; complete(OK)` (R115, R228). -/
def completeOk (s : State) : State :=
  { s with phase := .none, mode := .idle, lastStatus := .ok, trace := s.trace ++ [.done s.op .ok] }

/-- The writes before that completion, `PHASE <- PH_NONE; MODE <- IDLE` (R115). -/
def completing (s : State) : State := glimpse { glimpse { s with phase := .none } with mode := .idle }

/-- The end of a request: the completion, its last micro-step (R8), unless it has ended already. -/
def finish : Micro → State
  | .run s => complete completeOk (completing s)
  | .ended s => s

/-- Rejection: only LAST_STATUS changes beside the operand registers, and `Done(op, REJECTED)` is emitted (R227). -/
def rejected (op : Byte) (s : State) : State :=
  { s with lastStatus := .rejected, trace := s.trace ++ [.done op .rejected] }

/-- A rejected request: its completion is its one micro-step (R8, R227), in which the host can read or reset as in any other (A3). -/
def reject (op : Byte) (s : State) : State := complete (rejected op) s

/-- A request with an assigned code (R82, R230): not accepted while BUSY, rejected while HALTED, else run to its completion. -/
def request (op : Byte) (f1 f2 f3 f4 f5 : Half) (body : State → Micro) (s : State) : Result :=
  match s.mode with
  | .busy => .next s
  | .halted => .next (reject op (loadOperands f1 f2 f3 f4 f5 s))
  | .idle => .next (finish (body (glimpse (beginRequest op (loadOperands f1 f2 f3 f4 f5 s)))))

/-- A micro-step presented alone to the layer that runs it (A5). "A halted block emits no frame" (R231): there it does nothing. -/
def micro (body : State → Micro) (s : State) : Result :=
  match s.mode with
  | .halted => .next s
  | .idle | .busy => .next (body s).state

/-! ## The record executor and the script (R130, R131) -/

/-- `ExecRecord(opcode, payload, delay)` (R131). R83 has no record of more than 255 payload bytes; that the payload of one goes out whole is the
model's choice (A28). -/
def execRecord (r : ScriptRecord) (s : State) : Micro :=
  (busCmd r.opcode (enterPhase .recCmd s)).andThen fun s =>
  (busDataIf .recData r.payload s).andThen fun s =>
  if r.delay = 0 then .run s else delayFor r.delay (enterPhase .recWait s)

/-- `MemRead(SCRIPT, SP)`: the record at the script pointer, none at K (R50). -/
def fetchRecord (s : State) : Option ScriptRecord := s.params.script[s.sp.toNat]?

/-- The loop of INIT, at most n records: "while SP < K" fetch, execute, `SP <- SP + 1` (R130). -/
def runScript : Nat → State → Micro
  | 0, s => .run s
  | n + 1, s =>
    match fetchRecord s with
    | none => .run s
    | some r => (execRecord r s).andThen fun s => runScript n (glimpse (setSp (s.sp + 1) s))

/-- Record i of the table of R140, executed at its index: "While INIT executes record i, SP = i", and SP is i + 1 at its end
(R24, R146 to R159). -/
def scriptStep (i : Byte) (r : ScriptRecord) (s : State) : Micro :=
  (execRecord r (glimpse (setSp i s))).andThen fun s => .run (glimpse (setSp (i + 1) s))

/-! ## The window program (R171, R172) -/

/-- A command frame in the micro-step `ph` names (R25). -/
def cmdStep (ph : Phase) (b : Byte) (s : State) : Micro := busCmd b (enterPhase ph s)

/-- The column-address data frame; WX0 and WX1 follow the frame (R172). -/
def columnData (x0 x1 : Half) (s : State) : Micro :=
  (busData (addr4Bytes x0 x1) (enterPhase .casetD s)).andThen fun s => .run (writeColumns x0 x1 s)

/-- The row-address data frame; WY0 and WY1 follow the frame (R172). -/
def rowData (y0 y1 : Half) (s : State) : Micro :=
  (busData (addr4Bytes y0 y1) (enterPhase .pasetD s)).andThen fun s => .run (writeRows y0 y1 s)

/-- `WindowProgram(x0, y0, x1, y1)`: five micro-steps in this order (R171). -/
def windowProgram (x0 y0 x1 y1 : Half) (s : State) : Micro :=
  (cmdStep .casetC s.params.opCaset s).andThen fun s =>
  (columnData x0 x1 s).andThen fun s =>
  (cmdStep .pasetC s.params.opPaset s).andThen fun s =>
  (rowData y0 y1 s).andThen fun s =>
  cmdStep .ramwrC s.params.opRamwr s

/-! ## The fill (R179) -/

/-- Pack the row once: `ROWBUF[0 .. 2cw-1]`, `ROWLEN`, `ROWS`, `ROW` (R179, R183). -/
def packRow (cw ch : Nat) (c : Half) (s : State) : State :=
  writeRowCounts (BitVec.ofNat 16 (2 * cw)) (BitVec.ofNat 16 ch) { s with rowbuf := Memory.writeList s.rowbuf 0 (rowBytes cw c) }

/-- One row-write: the whole row buffer in one data frame, then `ROW <- ROW + 1` (R179, R23). -/
def rowWrite (s : State) : Micro :=
  (busData (rowRead s.rowbuf s.rowlen.toNat) (enterPhase .rowD s)).andThen fun s => .run (glimpse (countRow s))

/-- The replay: n row-writes (R184). -/
def rowLoop : Nat → State → Micro
  | 0, s => .run s
  | n + 1, s => (rowWrite s).andThen (rowLoop n)

/-- `Fill(r, x, y, c)` without its completion (R179): nothing where r is none, else pack, window program, replay. -/
def fill (r : Option (Nat × Nat)) (x y : Int) (c : Half) (s : State) : Micro :=
  match r with
  | none => .run (writeRowCounts 0 0 s)
  | some (cw, ch) =>
    (windowProgram (bound x) (bound y) (bound (x + cw - 1)) (bound (y + ch - 1)) (packRow cw ch c s)).andThen (rowLoop ch)

end Sys2Proof.Machine
end

