-- ==== Sys2Proof/Machine/Bringup.lean ====
section
/-! DEFINITION. The bring-up sequencer: INIT (R130), a serialised script record (R84, R131) and the fourteen records of the table of
R140 (R146 to R159). -/

namespace Sys2Proof.Machine

/-- The stub INIT starts with: a fresh one, "started at" that INIT (95_test_vectors.md P4), where no INIT has completed since reset,
so that nothing a request drew before it is claimed afterwards (R255, R74, U9); a known stub goes on through a second INIT (A17). -/
def initStub (s : State) : Panel := if s.initDone then s.stub.getD Panel.fresh else Panel.fresh

/-- INIT's stub in place. -/
def restartStub (s : State) : State := { s with stub := some (initStub s) }

/-- The body of INIT without its completion (R130). -/
def initBody (s : State) : Micro :=
  (runScript s.params.script.length (glimpse (setSp 0 (glimpse (setInitDone false (restartStub s)))))).andThen fun s =>
    .run (glimpse (setInitDone true s))

/-- INIT (R130). A script of more than 255 records is outside the parameter's range (R24, A23). -/
def execInit (f1 f2 f3 f4 f5 : Half) (s : State) : Result :=
  if s.params.script.length ≤ Config.maxScript then request 0x01 f1 f2 f3 f4 f5 initBody s else .fault .scriptTooLong

/-- SREC: one script record, executed (R84, R131). -/
def execSrec (opcode : Byte) (payload : List Byte) (delay : Half) (s : State) : Result :=
  micro (execRecord { opcode := opcode, payload := payload, delay := delay }) s

/-- REC0_SWRESET: script record 0 (R146). -/
def execRec0Swreset (s : State) : Result := micro (fun s => scriptStep 0 (recSwreset s.params) s) s

/-- REC1_COLMOD: script record 1 (R147). -/
def execRec1Colmod (s : State) : Result := micro (fun s => scriptStep 1 (recColmod s.params) s) s

/-- REC2_PWCTR_A: script record 2 (R148). -/
def execRec2PwctrA (s : State) : Result := micro (fun s => scriptStep 2 (recPwctrA s.params) s) s

/-- REC3_PWCTR_B: script record 3 (R149). -/
def execRec3PwctrB (s : State) : Result := micro (fun s => scriptStep 3 (recPwctrB s.params) s) s

/-- REC4_VMCTR: script record 4 (R150). -/
def execRec4Vmctr (s : State) : Result := micro (fun s => scriptStep 4 (recVmctr s.params) s) s

/-- REC5_SLPOUT: script record 5 (R151). -/
def execRec5Slpout (s : State) : Result := micro (fun s => scriptStep 5 (recSlpout1 s.params) s) s

/-- REC6_MADCTL: script record 6 (R152). -/
def execRec6Madctl (s : State) : Result := micro (fun s => scriptStep 6 (recMadctl s.params) s) s

/-- REC7_DFUNCTR: script record 7 (R153). -/
def execRec7Dfunctr (s : State) : Result := micro (fun s => scriptStep 7 (recDfunctr s.params) s) s

/-- REC8_FRMCTR: script record 8 (R154). -/
def execRec8Frmctr (s : State) : Result := micro (fun s => scriptStep 8 (recFrmctr s.params) s) s

/-- REC9_PGAMCTRL: script record 9 (R155). -/
def execRec9Pgamctrl (s : State) : Result := micro (fun s => scriptStep 9 (recPgamctrl s.params) s) s

/-- REC10_NGAMCTRL: script record 10 (R156). -/
def execRec10Ngamctrl (s : State) : Result := micro (fun s => scriptStep 10 (recNgamctrl s.params) s) s

/-- REC11_SLPOUT: script record 11 (R157). -/
def execRec11Slpout (s : State) : Result := micro (fun s => scriptStep 11 (recSlpout2 s.params) s) s

/-- REC12_DISPON: script record 12 (R158). -/
def execRec12Dispon (s : State) : Result := micro (fun s => scriptStep 12 (recDispon s.params) s) s

/-- REC13_NORON: script record 13 (R159). -/
def execRec13Noron (s : State) : Result := micro (fun s => scriptStep 13 (recNoron s.params) s) s

end Sys2Proof.Machine
end

