-- ==== Sys2Proof/Machine/Command.lean ====
section
/-! DEFINITION. The sixteen controller commands the block emits (R200 to R216): each is one command frame, in the micro-step of the
operation that emits it; PRIMED and the panel stub follow from the frame (R29, R71). -/

namespace Sys2Proof.Machine

/-- SWRESET (R201), in the phase of a script record's command frame. -/
def execSwreset (s : State) : Result := micro (fun s => cmdStep .recCmd s.params.opSwreset s) s

/-- SLPOUT (R202), in the phase of a script record's command frame. -/
def execSlpout (s : State) : Result := micro (fun s => cmdStep .recCmd s.params.opSlpout s) s

/-- NORON (R203), in the phase of a script record's command frame. -/
def execNoron (s : State) : Result := micro (fun s => cmdStep .recCmd s.params.opNoron s) s

/-- DISPON (R204), in the phase of a script record's command frame. -/
def execDispon (s : State) : Result := micro (fun s => cmdStep .recCmd s.params.opDispon s) s

/-- CASET (R205), the first frame of a window program (R171). -/
def execCaset (s : State) : Result := micro (fun s => cmdStep .casetC s.params.opCaset s) s

/-- PASET (R206), the third frame of a window program (R171). -/
def execPaset (s : State) : Result := micro (fun s => cmdStep .pasetC s.params.opPaset s) s

/-- RAMWR (R207), the last frame of a window program (R171); it sets PRIMED (R29). -/
def execRamwr (s : State) : Result := micro (fun s => cmdStep .ramwrC s.params.opRamwr s) s

/-- MADCTL (R208), in the phase of a script record's command frame. -/
def execMadctl (s : State) : Result := micro (fun s => cmdStep .recCmd s.params.opMadctl s) s

/-- COLMOD (R209), in the phase of a script record's command frame. -/
def execColmod (s : State) : Result := micro (fun s => cmdStep .recCmd s.params.opColmod s) s

/-- FRMCTR (R210), in the phase of a script record's command frame. -/
def execFrmctr (s : State) : Result := micro (fun s => cmdStep .recCmd s.params.opFrmctr s) s

/-- DFUNCTR (R211), in the phase of a script record's command frame. -/
def execDfunctr (s : State) : Result := micro (fun s => cmdStep .recCmd s.params.opDfunctr s) s

/-- PWCTR_A (R212), in the phase of a script record's command frame. -/
def execPwctrA (s : State) : Result := micro (fun s => cmdStep .recCmd s.params.opPwctrA s) s

/-- PWCTR_B (R213), in the phase of a script record's command frame. -/
def execPwctrB (s : State) : Result := micro (fun s => cmdStep .recCmd s.params.opPwctrB s) s

/-- VMCTR (R214), in the phase of a script record's command frame. -/
def execVmctr (s : State) : Result := micro (fun s => cmdStep .recCmd s.params.opVmctr s) s

/-- PGAMCTRL (R215), in the phase of a script record's command frame. -/
def execPgamctrl (s : State) : Result := micro (fun s => cmdStep .recCmd s.params.opPgamctrl s) s

/-- NGAMCTRL (R216), in the phase of a script record's command frame. -/
def execNgamctrl (s : State) : Result := micro (fun s => cmdStep .recCmd s.params.opNgamctrl s) s

end Sys2Proof.Machine
end

