-- ==== Sys2Proof/Machine/Protocol.lean ====
section
/-! DEFINITION. The frame protocol controller: the two frames (R112, R113), the three protocol operations (R115 to R117) and the
reserved host codes (R91). -/

namespace Sys2Proof.Machine

/-- SEND_COMMAND (R115). -/
def execSendCommand (f1 f2 f3 f4 f5 : Half) (s : State) : Result :=
  request 0x02 f1 f2 f3 f4 f5 (fun s => cmdStep .prim (byteOperand s) s) s

/-- SEND_DATA (R116). -/
def execSendData (f1 f2 f3 f4 f5 : Half) (s : State) : Result :=
  request 0x03 f1 f2 f3 f4 f5 (fun s => busData [byteOperand s] (enterPhase .prim s)) s

/-- SEND_DATA_BUFFER (R117): the payload port holds exactly `count` bytes, or the request is outside the encoding (A22). -/
def execSendDataBuffer (f1 f2 f3 f4 f5 : Half) (hp : List Byte) (s : State) : Result :=
  if hp.length = f1.toNat then request 0x04 f1 f2 f3 f4 f5 (busDataIf .prim hp) s else .refused .payloadPort

/-- RESERVED_HOST_OP (R91, R227): rejected, whether the block is idle or halted; not accepted while BUSY (R230). -/
def execReservedHostOp (op : Byte) (f1 f2 f3 f4 f5 : Half) (s : State) : Result :=
  match s.mode with
  | .busy => .next s
  | .idle | .halted => .next (reject op (loadOperands f1 f2 f3 f4 f5 s))

/-- CMD_FRAME (R86, R112): the primitive writes no PHASE, "the caller has already written" it. -/
def execCmdFrame (b : Byte) (s : State) : Result := micro (busCmd b) s

/-- DATA_FRAME (R86, R113). -/
def execDataFrame (bs : List Byte) (s : State) : Result := micro (fun s => busDataIf s.phase bs s) s

end Sys2Proof.Machine
end

