-- ==== Sys2Proof/Machine/Raster.lean ====
section
/-! DEFINITION. The addressing window engine: SET_WINDOW (R170), FILL_RECT (R178), FILL_SCREEN (R190), and the payload layouts ADDR4
and PIX2 (R88, R89). -/

namespace Sys2Proof.Machine

/-- SET_WINDOW (R170): the four operands exactly as given (R174). -/
def execSetWindow (f1 f2 f3 f4 f5 : Half) (s : State) : Result :=
  request 0x05 f1 f2 f3 f4 f5 (fun s => windowProgram s.rx s.ry s.rw s.rh s) s

/-- FILL_RECT (R178). -/
def execFillRect (f1 f2 f3 f4 f5 : Half) (s : State) : Result :=
  request 0x06 f1 f2 f3 f4 f5
    (fun s => fill (clip (sint16 s.rx) (sint16 s.ry) (sint16 s.rw) (sint16 s.rh)) (sint16 s.rx) (sint16 s.ry) s.rc s) s

/-- FILL_SCREEN (R190). -/
def execFillScreen (f1 f2 f3 f4 f5 : Half) (s : State) : Result :=
  request 0x07 f1 f2 f3 f4 f5 (fun s => fill (some (Config.panelWidth, Config.panelHeight)) 0 0 s.rc s) s

/-- ADDR4, "used after OP_CASET and OP_PASET" (R88): after the column-address command the column payload of a window program, after
the row-address command the row payload (R171, R172), elsewhere four data bytes (R119, A5). -/
def execAddr4 (first last : Half) (s : State) : Result :=
  micro (fun s =>
    match s.phase with
    | .casetC => columnData first last s
    | .pasetC => rowData first last s
    | .none | .recCmd | .recData | .recWait | .casetD | .pasetD | .ramwrC | .rowD | .prim => busData (addr4Bytes first last) s) s

/-- PIX2, one pixel of the pixel stream (R89): two data bytes, high byte first; the block treats the colour as opaque (R56). -/
def execPix2 (r : BitVec 5) (g : BitVec 6) (b : BitVec 5) (s : State) : Result :=
  micro (busData (be16 (rgb565 r g b))) s

end Sys2Proof.Machine
end

