-- ==== Sys2Proof/Machine/Dispatch.lean ====
section
/-! DEFINITION. The dispatch: one arm per instruction, each one call of its meaning. -/

namespace Sys2Proof.Machine

def exec (i : Instr) (s : State) : Host.Outcome State Fault Refusal :=
  match i with
  | .init f1 f2 f3 f4 f5 => Sys2Proof.Machine.execInit f1 f2 f3 f4 f5 s
  | .sendCommand f1 f2 f3 f4 f5 => Sys2Proof.Machine.execSendCommand f1 f2 f3 f4 f5 s
  | .sendData f1 f2 f3 f4 f5 => Sys2Proof.Machine.execSendData f1 f2 f3 f4 f5 s
  | .sendDataBuffer f1 f2 f3 f4 f5 hp => Sys2Proof.Machine.execSendDataBuffer f1 f2 f3 f4 f5 hp s
  | .setWindow f1 f2 f3 f4 f5 => Sys2Proof.Machine.execSetWindow f1 f2 f3 f4 f5 s
  | .fillRect f1 f2 f3 f4 f5 => Sys2Proof.Machine.execFillRect f1 f2 f3 f4 f5 s
  | .fillScreen f1 f2 f3 f4 f5 => Sys2Proof.Machine.execFillScreen f1 f2 f3 f4 f5 s
  | .reservedHostOp op f1 f2 f3 f4 f5 => Sys2Proof.Machine.execReservedHostOp op f1 f2 f3 f4 f5 s
  | .cmdFrame b => Sys2Proof.Machine.execCmdFrame b s
  | .dataFrame bs => Sys2Proof.Machine.execDataFrame bs s
  | .addr4 first last => Sys2Proof.Machine.execAddr4 first last s
  | .pix2 r g b => Sys2Proof.Machine.execPix2 r g b s
  | .srec opcode payload delay => Sys2Proof.Machine.execSrec opcode payload delay s
  | .swreset => Sys2Proof.Machine.execSwreset s
  | .slpout => Sys2Proof.Machine.execSlpout s
  | .noron => Sys2Proof.Machine.execNoron s
  | .dispon => Sys2Proof.Machine.execDispon s
  | .caset => Sys2Proof.Machine.execCaset s
  | .paset => Sys2Proof.Machine.execPaset s
  | .ramwr => Sys2Proof.Machine.execRamwr s
  | .madctl => Sys2Proof.Machine.execMadctl s
  | .colmod => Sys2Proof.Machine.execColmod s
  | .frmctr => Sys2Proof.Machine.execFrmctr s
  | .dfunctr => Sys2Proof.Machine.execDfunctr s
  | .pwctrA => Sys2Proof.Machine.execPwctrA s
  | .pwctrB => Sys2Proof.Machine.execPwctrB s
  | .vmctr => Sys2Proof.Machine.execVmctr s
  | .pgamctrl => Sys2Proof.Machine.execPgamctrl s
  | .ngamctrl => Sys2Proof.Machine.execNgamctrl s
  | .rec0Swreset => Sys2Proof.Machine.execRec0Swreset s
  | .rec1Colmod => Sys2Proof.Machine.execRec1Colmod s
  | .rec2PwctrA => Sys2Proof.Machine.execRec2PwctrA s
  | .rec3PwctrB => Sys2Proof.Machine.execRec3PwctrB s
  | .rec4Vmctr => Sys2Proof.Machine.execRec4Vmctr s
  | .rec5Slpout => Sys2Proof.Machine.execRec5Slpout s
  | .rec6Madctl => Sys2Proof.Machine.execRec6Madctl s
  | .rec7Dfunctr => Sys2Proof.Machine.execRec7Dfunctr s
  | .rec8Frmctr => Sys2Proof.Machine.execRec8Frmctr s
  | .rec9Pgamctrl => Sys2Proof.Machine.execRec9Pgamctrl s
  | .rec10Ngamctrl => Sys2Proof.Machine.execRec10Ngamctrl s
  | .rec11Slpout => Sys2Proof.Machine.execRec11Slpout s
  | .rec12Dispon => Sys2Proof.Machine.execRec12Dispon s
  | .rec13Noron => Sys2Proof.Machine.execRec13Noron s

end Sys2Proof.Machine
end

