-- ==== Sys2Proof/Machine/Fetch.lean ====
section
/-! DEFINITION. What the next step finds on the host's port (R12, R80): nothing, a reset, an instruction, or an item outside the
encodings; and how a table word is put there. -/

namespace Sys2Proof.Machine

/-- What the port holds for the next step, with the state in which it was taken from the port. -/
inductive Fetched where
  | nothing
  | readStatus (s : State)
  | reset (s : State)
  | instr (i : Instr) (s : State)
  | malformed (why : DecodeError)
deriving DecidableEq, Repr

/-- Take the next item off the port and decode it under the machine's parameters (A4). -/
def fetch (s : State) : Fetched :=
  match s.port with
  | [] => .nothing
  | .readStatus :: rest => .readStatus { s with port := rest }
  | .reset :: rest => .reset { s with port := rest }
  | .item e :: rest =>
    match decode s.params e with
    | .ok i => .instr i { s with port := rest }
    | .error why => .malformed why

/-- The same state with an item in front of the port. -/
def presentFirst (e : Presented) (s : State) : State := { s with port := .item e :: s.port }

end Sys2Proof.Machine
end

