-- ==== Sys2Proof/Machine/Step.lean ====
section
/-! DEFINITION. One step: take the next item off the host's port and run it. -/

namespace Sys2Proof.Machine

/-- One step. With nothing on the port "the block is idle and emits nothing" (R11). A read of the status port is R32, a reset R250; an
instruction runs whole (A1); an item outside the encodings is refused by name. -/
def step (s : State) : Host.Outcome State Fault Refusal :=
  match fetch s with
  | .nothing => .next s
  | .readStatus s => .next (statusRead s)
  | .reset s => .next (resetBlock s)
  | .instr i s => exec i s
  | .malformed why => .refused (.undecodable why)

/-- The state with a word of spec/opcode_table.json as the next item of the port (A4, A21). -/
def State.withFetchWord (s : State) (nbits w : Nat) : State := presentFirst (tableItem nbits w) s

end Sys2Proof.Machine
end

