-- ==== Sys2Proof/Safety.lean ====
section
/-! DEFINITION. The terms claims use: the inputs a run meets, the events an operation owes (R16), the conditions on a script (R133 to
R139), what a claim about the panel may look at (R74, R255), and the invariant of the machine. -/

namespace Sys2Proof.Machine

/-! ## The inputs a run meets -/

/-- The transport's answer to the k-th frame from now (R110). -/
def State.answerAt (s : State) (k : Nat) : Answer := (s.answers[k]?).getD (Config.transportAnswer (s.frames + k))

/-- The transport answers `ok` to the next n frames. -/
abbrev State.AnswersOk (s : State) (n : Nat) : Prop := ∀ k < n, s.answerAt k = .ok

/-- The block is idle, the host leaves the operation alone, and the transport answers `ok` to the next n frames: the conditions under
which a request of n frames completes `OK` (R82, R110, R250). A read of the status port meanwhile changes nothing
(Obligations.ReadsChangeNothing). -/
abbrev State.Ready (s : State) (n : Nat) : Prop := s.mode = .idle ∧ s.moves = [] ∧ s.AnswersOk n

/-- No reset comes while a micro-step of this operation or a later one is in progress (R250). -/
abbrev State.NoReset (s : State) : Prop := HostMove.reset ∉ s.moves

/-- The transport answers `ok` to the next n frames and `fault` to the one after them. -/
abbrev State.FaultsAt (s : State) (n : Nat) : Prop := s.AnswersOk n ∧ s.answerAt n = .fault

/-! ## The rows of the table by what they are made of -/

/-- The eight host requests on five fields, each with its operation code (R81, R91); SEND_DATA_BUFFER with its payload port. -/
def hostRequests (op : Byte) (hp : List Byte) (f1 f2 f3 f4 f5 : Half) : List (Byte × Instr) :=
  [(0x01, .init f1 f2 f3 f4 f5), (0x02, .sendCommand f1 f2 f3 f4 f5), (0x03, .sendData f1 f2 f3 f4 f5),
   (0x04, .sendDataBuffer f1 f2 f3 f4 f5 hp), (0x05, .setWindow f1 f2 f3 f4 f5), (0x06, .fillRect f1 f2 f3 f4 f5),
   (0x07, .fillScreen f1 f2 f3 f4 f5), (op, .reservedHostOp op f1 f2 f3 f4 f5)]

/-- Whether a row is a host request, format HREQ88 (R80). -/
def isHostRequest : Instr → Bool
  | .init _ _ _ _ _ | .sendCommand _ _ _ _ _ | .sendData _ _ _ _ _ | .sendDataBuffer _ _ _ _ _ _ | .setWindow _ _ _ _ _
  | .fillRect _ _ _ _ _ | .fillScreen _ _ _ _ _ | .reservedHostOp _ _ _ _ _ _ => true
  | .cmdFrame _ | .dataFrame _ | .addr4 _ _ | .pix2 _ _ _ | .srec _ _ _ | .swreset | .slpout | .noron | .dispon | .caset | .paset
  | .ramwr | .madctl | .colmod | .frmctr | .dfunctr | .pwctrA | .pwctrB | .vmctr | .pgamctrl | .ngamctrl | .rec0Swreset
  | .rec1Colmod | .rec2PwctrA | .rec3PwctrB | .rec4Vmctr | .rec5Slpout | .rec6Madctl | .rec7Dfunctr | .rec8Frmctr
  | .rec9Pgamctrl | .rec10Ngamctrl | .rec11Slpout | .rec12Dispon | .rec13Noron => false

/-- What a host request must meet to be one the block can be asked: the payload port holds the count (R117), a reserved code is reserved
(R91), and the script is one SP can count through (R24). -/
abbrev Presentable (s : State) (i : Instr) : Prop :=
  wellFormed s.params i = true ∧ s.params.script.length ≤ Config.maxScript

/-- A fill that draws cw × ch pixels from (x, y): FILL_RECT whose clip answers that size (R178), or FILL_SCREEN, the whole panel (R190). -/
abbrev DrawingFill (f1 f2 f3 f4 c : Half) (op : Byte) (i : Instr) (x y : Int) (cw ch : Nat) : Prop :=
  (op = 0x06 ∧ i = .fillRect f1 f2 f3 f4 c ∧ x = f1.toInt ∧ y = f2.toInt ∧ clip f1.toInt f2.toInt f3.toInt f4.toInt = some (cw, ch)) ∨
  (op = 0x07 ∧ i = .fillScreen f1 f2 f3 f4 c ∧ x = 0 ∧ y = 0 ∧ cw = 480 ∧ ch = 320)

/-- The sixteen controller commands, each with the micro-step that emits it and its byte (R201 to R216, R131, R171). -/
def controllerCommands (p : Params) : List (Instr × Phase × Byte) :=
  [(.swreset, .recCmd, p.opSwreset), (.slpout, .recCmd, p.opSlpout), (.noron, .recCmd, p.opNoron), (.dispon, .recCmd, p.opDispon),
   (.caset, .casetC, p.opCaset), (.paset, .pasetC, p.opPaset), (.ramwr, .ramwrC, p.opRamwr), (.madctl, .recCmd, p.opMadctl),
   (.colmod, .recCmd, p.opColmod), (.frmctr, .recCmd, p.opFrmctr), (.dfunctr, .recCmd, p.opDfunctr),
   (.pwctrA, .recCmd, p.opPwctrA), (.pwctrB, .recCmd, p.opPwctrB), (.vmctr, .recCmd, p.opVmctr),
   (.pgamctrl, .recCmd, p.opPgamctrl), (.ngamctrl, .recCmd, p.opNgamctrl)]

/-- The fourteen records, each with its index and its triple (R140, R146 to R159). -/
def scriptRecords (p : Params) : List (Instr × Nat × ScriptRecord) :=
  [(.rec0Swreset, 0, ⟨p.opSwreset, [], p.delayReset⟩), (.rec1Colmod, 1, ⟨p.opColmod, p.plColmod, 0⟩),
   (.rec2PwctrA, 2, ⟨p.opPwctrA, p.plPwctrA, 0⟩), (.rec3PwctrB, 3, ⟨p.opPwctrB, p.plPwctrB, 0⟩),
   (.rec4Vmctr, 4, ⟨p.opVmctr, p.plVmctr, 0⟩), (.rec5Slpout, 5, ⟨p.opSlpout, [], 0⟩), (.rec6Madctl, 6, ⟨p.opMadctl, p.plMadctl, 0⟩),
   (.rec7Dfunctr, 7, ⟨p.opDfunctr, p.plDfunctr, 0⟩), (.rec8Frmctr, 8, ⟨p.opFrmctr, p.plFrmctr, 0⟩),
   (.rec9Pgamctrl, 9, ⟨p.opPgamctrl, p.plPgamctrl, 0⟩), (.rec10Ngamctrl, 10, ⟨p.opNgamctrl, p.plNgamctrl, 0⟩),
   (.rec11Slpout, 11, ⟨p.opSlpout, [], p.delaySlpout⟩), (.rec12Dispon, 12, ⟨p.opDispon, [], p.delayDispon⟩),
   (.rec13Noron, 13, ⟨p.opNoron, [], 0⟩)]

/-- The instructions of a list one after another, stopping at the first fault or refusal. -/
def execAll : List Instr → State → Result
  | [], s => .next s
  | i :: is, s =>
    match exec i s with
    | .next t => execAll is t
    | .fault r => .fault r
    | .refused r => .refused r

/-! ## The events an operation owes (R16) -/

/-- A window program (R171). -/
def windowEvents (p : Params) (x0 y0 x1 y1 : Half) : List Event :=
  [.cmd p.opCaset, .data (addr4Bytes x0 x1), .cmd p.opPaset, .data (addr4Bytes y0 y1), .cmd p.opRamwr]

/-- A list of pixels on the bus, "two bytes per pixel", one after another (R89). -/
def pixelStream (cs : List Half) : List Byte := cs.flatMap be16

/-- The five frames of a window program with the micro-step of each (R171, R25). -/
def windowFrames (p : Params) (x0 y0 x1 y1 : Half) : List (Phase × Frame) :=
  [(.casetC, .command p.opCaset), (.casetD, .data (addr4Bytes x0 x1)), (.pasetC, .command p.opPaset),
   (.pasetD, .data (addr4Bytes y0 y1)), (.ramwrC, .command p.opRamwr)]

/-- A fill of clipped size cw × ch from the origin (x, y) (R179, R184). -/
def fillEvents (p : Params) (x y : Int) (cw ch : Nat) (c : Half) : List Event :=
  windowEvents p (bound x) (bound y) (bound (x + cw - 1)) (bound (y + ch - 1)) ++ List.replicate ch (.data (rowBytes cw c))

/-- A script record (R131). -/
def recordEvents (r : ScriptRecord) : List Event :=
  .cmd r.opcode :: ((if r.payload = [] then [] else [.data r.payload]) ++ (if r.delay = 0 then [] else [.wait r.delay]))

/-- The records of a script in order (R130). -/
def scriptEvents (rs : List ScriptRecord) : List Event := rs.flatMap recordEvents

/-- The frames of a record (R131). -/
def recordFrames (r : ScriptRecord) : Nat := if r.payload = [] then 1 else 2

/-- The frames of a record with the micro-step of each (R131, R25). -/
def recordSteps (r : ScriptRecord) : List (Phase × Frame) :=
  (.recCmd, .command r.opcode) :: if r.payload = [] then [] else [(.recData, .data r.payload)]

/-- The micro-steps of a record, its delay among them (R131, R25). -/
def recordPhases (r : ScriptRecord) : List Phase :=
  .recCmd :: ((if r.payload = [] then [] else [.recData]) ++ (if r.delay = 0 then [] else [.recWait]))

/-- The PHASE a record ends in (R131, R25). -/
def recordPhase (r : ScriptRecord) : Phase :=
  if r.delay ≠ 0 then .recWait else if r.payload ≠ [] then .recData else .recCmd

/-- The frames of a script. -/
def scriptFrames (rs : List ScriptRecord) : Nat := (rs.map recordFrames).sum

/-- DC after a script: the level of its last frame, unchanged for an empty script (R30). -/
def scriptDc (p : Params) (rs : List ScriptRecord) (d : BitVec 1) : BitVec 1 :=
  match rs.getLast? with
  | some r => if r.payload = [] then p.dcCmd else p.dcData
  | none => d

/-- PRIMED after a script: set only where the last command is the memory-write opcode, which no well-formed script carries (R29, R130). -/
def scriptPrimed (p : Params) (rs : List ScriptRecord) (v : Bool) : Bool :=
  match rs.getLast? with
  | some r => decide (r.opcode = p.opRamwr)
  | none => v

/-- The stub after it consumed the flat stream of some events; an unknown stub stays unknown. -/
def consumed (p : Params) (evs : List Event) (q : Option Panel) : Option Panel := q.map fun q => q.run p (flat evs)

/-- The state after some events of which n are frames the transport answered `ok`: they stand on the trace, the stub has consumed their
bytes, n answers are taken. -/
def State.sent (s : State) (evs : List Event) (n : Nat) : State :=
  { s with
    trace := s.trace ++ evs, stub := consumed s.params evs s.stub, answers := s.answers.drop n, frames := s.frames + n }

/-- The state after a request with code `op` that completed `OK` with these events, n of them frames (R115, R228): `PHASE <- PH_NONE`,
`MODE <- IDLE`, the status latched, `Done(op, OK)` on the trace. -/
def State.completed (s : State) (op : Byte) (evs : List Event) (n : Nat) : State :=
  { s.sent evs n with
    op := op, phase := .none, mode := .idle, lastStatus := .ok, trace := s.trace ++ evs ++ [.done op .ok] }

/-- The state after some events of which n are frames answered `ok`, and then the frame f answered `fault` in the operation `op` (R112,
R113, R222): the level of f driven, `Fault(f)` and `Done(op, FAULT)` on the trace, the block halted, the stub unknown (R223). -/
def State.faulted (s : State) (op : Byte) (evs : List Event) (n : Nat) (f : Frame) : State :=
  { s with
    op := op, dc := f.level s.params, primed := false, faultFlag := true, mode := .halted, lastStatus := .fault,
    trace := s.trace ++ evs ++ [.fault f, .done op .fault], stub := none, answers := s.answers.drop (n + 1), frames := s.frames + (n + 1) }

/-- The delays of a trace, summed in milliseconds (R143). -/
def waitSum (evs : List Event) : Nat :=
  (evs.map fun e => match e with
    | .wait n => n.toNat
    | .cmd _ | .data _ | .fault _ | .done _ _ => 0).sum

/-- Whether an event is a completion (R228). -/
def Event.isDone : Event → Bool
  | .done _ _ => true
  | .cmd _ | .data _ | .wait _ | .fault _ => false

/-- Whether an event is a faulted frame (R16). -/
def Event.isFault : Event → Bool
  | .fault _ => true
  | .cmd _ | .data _ | .wait _ | .done _ _ => false

/-- The byte of a completed command frame (R16). -/
def Event.command? : Event → Option Byte
  | .cmd b => some b
  | .data _ | .wait _ | .fault _ | .done _ _ => none

/-- The last completed command frame of a trace. -/
def lastCommand (t : List Event) : Option Byte := t.reverse.findSome? Event.command?

/-! ## The conditions on a script (R133 to R139) -/

/-- The thirteen records of conditions 1 to 7 without the first sleep-out, in their order. DESIGN CHOICE (A24): exactly these records, none
beside them, where no condition forbids a further one; and inside a group the order of mention (R135, R137, R138), which D11 leaves OPEN.
The payload "that selects 16 bits per pixel, RGB565" (R134) is the parameter PL_COLMOD, the one that makes the panel 480 wide and 320 high
(R136) is PL_MADCTL (A24). -/
def scriptBaseOk (p : Params) : List ScriptRecord → Bool
  | [r0, r1, r2, r3, r4, r5, r6, r7, r8, r9, r10, r11, r12] =>
    decide (r0.opcode = p.opSwreset ∧ r0.payload = [] ∧ 120 ≤ r0.delay.toNat) &&
    decide (r1.opcode = p.opColmod ∧ r1.payload = p.plColmod ∧ r1.payload ≠ []) &&
    decide (r2.opcode = p.opPwctrA ∧ r3.opcode = p.opPwctrB ∧ r4.opcode = p.opVmctr) &&
    decide (r5.opcode = p.opMadctl ∧ r5.payload = p.plMadctl ∧ r5.payload ≠ []) &&
    decide (r6.opcode = p.opDfunctr ∧ r7.opcode = p.opFrmctr) &&
    decide (r8.opcode = p.opPgamctrl ∧ r8.payload.length = Config.gammaLen) &&
    decide (r9.opcode = p.opNgamctrl ∧ r9.payload.length = Config.gammaLen) &&
    decide (r10.opcode = p.opSlpout ∧ r10.payload = [] ∧ 120 ≤ r10.delay.toNat) &&
    decide (r11.opcode = p.opDispon ∧ r11.payload = [] ∧ 25 ≤ r11.delay.toNat) &&
    decide (r12.opcode = p.opNoron ∧ r12.payload = [])
  | _ => false

/-- The first sleep-out stands at index i. -/
def slpoutAt (p : Params) (rs : List ScriptRecord) (i : Nat) : Bool :=
  match rs[i]? with
  | some r => decide (r.opcode = p.opSlpout ∧ r.payload = [])
  | none => false

/-- A well-formed script: conditions 1 to 7, with the first sleep-out at an index "in 1 .. K − 4 on a group boundary" (R139, D10). So K = 14:
that a table may hold nothing beside the fourteen records, and in one order inside a group, is the model's choice (A24). -/
def scriptWellFormed (p : Params) : Bool :=
  [1, 2, 5, 6, 8, 10].any fun i => slpoutAt p p.script i && scriptBaseOk p (p.script.eraseIdx i)

/-! ## Reset and the host's part -/

/-- The registers R39 gives a reset value hold it. -/
abbrev BlockReset (t : State) : Prop :=
  t.mode = .idle ∧ t.initDone = false ∧ t.faultFlag = false ∧ t.primed = false ∧ t.lastStatus = .ok ∧ t.sp = 0 ∧ t.phase = .none ∧
    t.row = 0 ∧ t.rows = 0 ∧ t.rowlen = 0

/-- The state with the host's reads taken out: none to come, none made. -/
def State.unwatched (s : State) : State := { s with moves := [], reads := [] }

/-! ## What an instruction leaves alone -/

/-- The window registers are unchanged (R21). -/
abbrev SameWindow (s t : State) : Prop := t.wx0 = s.wx0 ∧ t.wy0 = s.wy0 ∧ t.wx1 = s.wx1 ∧ t.wy1 = s.wy1

/-- The row buffer and the row registers are unchanged (R22, R23). -/
abbrev SameRows (s t : State) : Prop := t.rowbuf = s.rowbuf ∧ t.rowlen = s.rowlen ∧ t.rows = s.rows ∧ t.row = s.row

/-- The operand registers are unchanged (R20). -/
abbrev SameOperands (s t : State) : Prop := t.rx = s.rx ∧ t.ry = s.ry ∧ t.rw = s.rw ∧ t.rh = s.rh ∧ t.rc = s.rc

/-- The operand registers hold the fields of a request (R20, R82). -/
abbrev Operands (f1 f2 f3 f4 f5 : Half) (t : State) : Prop := t.rx = f1 ∧ t.ry = f2 ∧ t.rw = f3 ∧ t.rh = f4 ∧ t.rc = f5

/-- Every byte of the row buffer reads as before. -/
abbrev RowBufferKept (s t : State) : Prop := ∀ a, Memory.read? t.rowbuf a = Memory.read? s.rowbuf a

/-- Every byte of the frame memory reads as before, where the stub is known after. -/
abbrev FrameMemoryKept (s t : State) : Prop :=
  ∀ q', t.stub = some q' → ∃ q, s.stub = some q ∧ ∀ a, Memory.read? q'.gram a = Memory.read? q.gram a

/-! ## The panel -/

/-- A window that meets "0 ≤ x0 ≤ x1 < panel width, 0 ≤ y0 ≤ y1 < panel height" (R21, R71). -/
abbrev WindowValid (x0 y0 x1 y1 : Half) : Prop :=
  x0.toNat ≤ x1.toNat ∧ x1.toNat < Config.panelWidth ∧ y0.toNat ≤ y1.toNat ∧ y1.toNat < Config.panelHeight

/-- A stub that no rule of R71 would mark on the next command: not bad, no short address payload, no half pixel. -/
abbrev Panel.Settled (q : Panel) : Prop := q.bad = false ∧ q.st.isOpen = false

/-- What a claim about the panel may look at: the stub, where INIT has completed, no fault has happened and nothing was marked bad;
otherwise the stub says nothing of the panel (R74, R223, R255). What was drawn before that INIT is not in it: INIT starts a fresh stub
(`initStub`, A17). -/
def panelView (s : State) : Option Panel :=
  match s.stub with
  | some q => if s.initDone && !s.faultFlag && !q.bad then some q else none
  | none => none

/-! ## The invariant -/

/-- The stub keeps its form: the frame memory canonical and inside 307200 bytes (R52), "at most four bytes" collected (R70), the
write position inside a valid window (R71, R73). -/
def Panel.Inv (q : Panel) : Prop :=
  q.gram.wf = true ∧ q.gram.below Config.gramBytes = true ∧
  match q.st with
  | .col bs => bs.length ≤ 4
  | .row bs => bs.length ≤ 4
  | .write px py _ =>
    match q.window? with
    | some (x0, y0, x1, y1) => x0 ≤ px ∧ px ≤ x1 ∧ y0 ≤ py ∧ py ≤ y1
    | none => False
  | .none | .full | .other => True

/-- The invariant between steps, for a script of at least the fourteen records of R140 and at most 255 (R24): never BUSY (R26, A1);
FAULT exactly when HALTED (R28), and then not PRIMED (R222), the stub unknown (R223); status FAULT only when HALTED (R222); the row
buffer canonical and inside 960 bytes (R22); ROWLEN even and at most 960, ROWS at most 320, ROW at most ROWS and equal to it unless
halted (R22, R23); SP an index from 0 to K (R24); PRIMED only where the last command frame was the memory-write opcode (R29). -/
def State.Inv (s : State) : Prop :=
  s.mode ≠ .busy ∧
  (s.faultFlag = true ↔ s.mode = .halted) ∧
  (s.mode = .halted → s.primed = false ∧ s.stub = none) ∧
  (s.lastStatus = .fault → s.mode = .halted) ∧
  (s.rowbuf.wf = true ∧ s.rowbuf.below Config.rowBufBytes = true) ∧
  (s.rowlen.toNat ≤ Config.rowBufBytes ∧ s.rowlen.toNat % 2 = 0) ∧
  (s.rows.toNat ≤ Config.panelHeight ∧ s.row.toNat ≤ s.rows.toNat) ∧
  (s.mode = .idle → s.row = s.rows) ∧
  (14 ≤ s.params.script.length ∧ s.params.script.length ≤ Config.maxScript) ∧
  s.sp.toNat ≤ s.params.script.length ∧
  (s.primed = true → lastCommand s.trace = some s.params.opRamwr) ∧
  (∀ q, s.stub = some q → q.Inv)

end Sys2Proof.Machine
end

