-- ==== Sys2Proof/Certificates/Slice0/Obligations.lean ====
section
/-! DEFINITION. The statements for the provers. `State.sent`, `State.completed` and `State.faulted` (Safety.lean) write the next state
out; the fields `answers`, `frames` and `moves` are the model's inputs (A2, A3), `op` its name for the running request (A6), `stub`
the observer of R70. Statements premise `moves = []`, a host that leaves the operation alone, or no reset: what reads change is
ReadsChangeNothing, what a reset does is ResetCutsOff, in the completion of a faulted or rejected request too. -/

section

open Sys2Proof Sys2Proof.Machine

/-! ## Encodings -/

/-- Words written out from R80, R81, R84, R86 to R89 and R13 decode to what they stand for (95_test_vectors V3, V4, V5, V8, V20, V30, V40, V51).
The opcode values are the defaults (A15); a table word has no payload port, so its bytes are zeros (A22), where V5's are F8 00 F8 00. -/
def Obligations.SpecWordsDecode : Prop :=
  decodeTableWord 88 0x0100000000000000000000 = some (.init 0 0 0 0 0) ∧
  decodeTableWord 88 0x02FFFFFFFFFFFFFFFFAB11 = some (.sendCommand 0xFFFF 0xFFFF 0xFFFF 0xFFFF 0xAB11) ∧
  decodeTableWord 88 0x0300000000000000000055 = some (.sendData 0 0 0 0 0x55) ∧
  decodeTableWord 88 0x0400040000000000000000 = some (.sendDataBuffer 4 0 0 0 0 [0, 0, 0, 0]) ∧
  decodeTableWord 88 0x0500320032009500950000 = some (.setWindow 50 50 149 149 0) ∧
  decodeTableWord 88 0x060032003200640064F800 = some (.fillRect 50 50 100 100 0xF800) ∧
  decodeTableWord 88 0x070001000200030004F800 = some (.fillScreen 1 2 3 4 0xF800) ∧
  decodeTableWord 88 0xFF00010002000300040005 = some (.reservedHostOp 0xFF 1 2 3 4 5) ∧
  decodeTableWord 9 0x029 = some (.cmdFrame 0x29) ∧
  decodeTableWord 9 0x155 = some (.dataFrame [0x55]) ∧
  decodeTableWord 32 0x00320095 = some (.addr4 50 149) ∧
  decodeTableWord 16 0xF800 = some (.pix2 31 0 0) ∧
  decodeTableWord 40 0x3B01550000 = some (.srec 0x3B [0x55] 0) ∧
  decodeTableWord 8 0x2C = some .ramwr ∧
  decodeTableWord 32 0x11000078 = some .rec11Slpout

/-- DECODE OF ENCODE: for every well-formed instruction, at every value of its operands and under all parameters that meet R218 and
R86, decoding its encoding gives it back (R80, R84, R86 to R89). -/
def Obligations.DecodeOfEncode : Prop :=
  ∀ (p : Params) (i : Instr), p.Valid → wellFormed p i = true → decode p (encode p i) = .ok i

/-- ENCODE OF DECODE: an item of any format but CMD8 that decodes is the encoding of what it decodes to, so no two items mean the same.
A CMD8 byte is left out because the model reads one outside the sixteen as CMD_FRAME (A20). And whatever decodes is well formed,
under any parameters. -/
def Obligations.EncodeOfDecode : Prop :=
  (∀ (p : Params) (e : Presented) (i : Instr), p.Valid → e.fmt ≠ .cmd8 → decode p e = .ok i → encode p i = e) ∧
  (∀ (p : Params) (e : Presented) (i : Instr), decode p e = .ok i → wellFormed p i = true)

/-- R91: the codes 0x01 to 0x07 name their operations, 0x00 and 0x08 to 0xFF are reserved; a reserved request is rejected, emits no
frame and no delay, and changes only the operand registers and LAST_STATUS; no state or parameter changes the decoding. That the port's bytes
follow the request word is the model's layout (A22). -/
def Obligations.HostOperationCodes : Prop :=
  (∀ (p : Params) (f1 f2 f3 f4 f5 : Half) (hp : List Byte),
    decode p ⟨.hreq88, requestBytes 0x01 f1 f2 f3 f4 f5⟩ = .ok (.init f1 f2 f3 f4 f5) ∧
    decode p ⟨.hreq88, requestBytes 0x02 f1 f2 f3 f4 f5⟩ = .ok (.sendCommand f1 f2 f3 f4 f5) ∧
    decode p ⟨.hreq88, requestBytes 0x03 f1 f2 f3 f4 f5⟩ = .ok (.sendData f1 f2 f3 f4 f5) ∧
    (hp.length = f1.toNat →
      decode p ⟨.hreq88, requestBytes 0x04 f1 f2 f3 f4 f5 ++ hp⟩ = .ok (.sendDataBuffer f1 f2 f3 f4 f5 hp)) ∧
    decode p ⟨.hreq88, requestBytes 0x05 f1 f2 f3 f4 f5⟩ = .ok (.setWindow f1 f2 f3 f4 f5) ∧
    decode p ⟨.hreq88, requestBytes 0x06 f1 f2 f3 f4 f5⟩ = .ok (.fillRect f1 f2 f3 f4 f5) ∧
    decode p ⟨.hreq88, requestBytes 0x07 f1 f2 f3 f4 f5⟩ = .ok (.fillScreen f1 f2 f3 f4 f5)) ∧
  (∀ (p : Params) (op : Byte) (f1 f2 f3 f4 f5 : Half), op = 0 ∨ 8 ≤ op.toNat →
    decode p ⟨.hreq88, requestBytes op f1 f2 f3 f4 f5⟩ = .ok (.reservedHostOp op f1 f2 f3 f4 f5)) ∧
  (∀ (op : Byte) (f1 f2 f3 f4 f5 : Half) (s : State), s.mode ≠ .busy → s.moves = [] →
    exec (.reservedHostOp op f1 f2 f3 f4 f5) s = .next { s with
      rx := f1, ry := f2, rw := f3, rh := f4, rc := f5, lastStatus := .rejected, trace := s.trace ++ [.done op .rejected] })

/-- The serialised form of a record is N + 4 bytes and is read back, and only it; a table written as records one after another has one
reading for its K records (R84, R93). -/
def Obligations.RecordSerialisation : Prop :=
  (∀ (r : ScriptRecord), r.payload.length ≤ 255 →
    (serialiseRecord r).length = r.payload.length + 4 ∧ (serialiseRecord r)[1]? = some (BitVec.ofNat 8 r.payload.length)) ∧
  (∀ (bs : List Byte) (r : ScriptRecord), parseRecord bs = some r ↔ bs = serialiseRecord r ∧ r.payload.length ≤ 255) ∧
  (∀ (rs rs' : List ScriptRecord), (∀ r ∈ rs, r.payload.length ≤ 255) → (∀ r ∈ rs', r.payload.length ≤ 255) →
    serialiseScript rs = serialiseScript rs' → rs = rs')

/-! ## The step, reset, acceptance -/

/-- A STEP RUNS THE DECODED INSTRUCTION: the item in front of the port is taken off it, decoded and run; nothing is added around exec. With
an empty port the block is idle and nothing happens (R11); an item outside the encodings is refused by name. -/
def Obligations.StepRunsDecoded : Prop :=
  (∀ (s : State) (e : Presented) (rest : List HostInput) (i : Instr), s.port = .item e :: rest → decode s.params e = .ok i →
    step s = exec i { s with port := rest }) ∧
  (∀ (s : State), s.port = [] → step s = .next s) ∧
  (∀ (s : State) (e : Presented) (rest : List HostInput) (why : DecodeError), s.port = .item e :: rest →
    decode s.params e = .error why → step s = .refused (.undecodable why))

/-- The registers R39 gives a reset value hold it in the state right after reset, nothing has been emitted, and the stub is fresh (R70). -/
def Obligations.ResetState : Prop := BlockReset State.reset ∧ State.reset.trace = [] ∧ State.reset.stub = some Panel.fresh

/-- The reset event between two operations, from any mode (R250, R251): the registers of R39, no event, the parameters and the display
controller untouched. Registers that R39 leaves unspecified are not in it. -/
def Obligations.ResetEvent : Prop :=
  ∀ (s : State) (rest : List HostInput), s.port = .reset :: rest →
    ∃ t, step s = .next t ∧ BlockReset t ∧ t.trace = s.trace ∧ t.stub = s.stub ∧ t.params = s.params ∧ t.port = rest

/-- A reset while a request runs cuts it off (R250), whatever the request, the transport and the status, after any reads before it: with n
micro-steps gone, one for each `proceed` of `pre`, the first n events of the request stand on the trace and nothing after them, no `Done`; the
block is reset and what the host had read stays read. `evs` are the events of the run that `pre` alone leaves whole, one for each micro-step but
the completion: a reset in the completion of a faulted request leaves the `Fault(f)`, one in that of a rejected request nothing. The model's
choice (A3): when the reset comes is an input; R250 speaks of a frame in flight, and that the controller is unknown also after a reset in a
delay or in a completion, and that a cut-off frame or delay leaves no event, is A3's. -/
def Obligations.ResetCutsOff : Prop :=
  ∀ (op : Byte) (hp : List Byte) (f1 f2 f3 f4 f5 : Half) (s u : State) (evs : List Event) (pre rest : List HostMove) (n : Nat),
    ∀ r ∈ hostRequests op hp f1 f2 f3 f4 f5, s.mode ≠ .busy → s.moves = pre ++ .reset :: rest → .reset ∉ pre →
    n = pre.count .proceed → n ≤ evs.length →
    exec r.2 { s with moves := pre } = .next u → u.trace = s.trace ++ evs ++ [.done r.1 u.lastStatus] →
    ∃ t, exec r.2 s = .next t ∧ BlockReset t ∧ t.trace = s.trace ++ evs.take n ∧ t.stub = none ∧
      t.params = s.params ∧ t.port = s.port ∧ t.moves = rest ∧ t.reads = u.reads

/-- A host that reads the status port during an operation changes nothing else: whatever the instruction, what it does is what it does
unwatched (R12, R32). -/
def Obligations.ReadsChangeNothing : Prop :=
  ∀ (i : Instr) (s : State), s.NoReset → exec i s.unwatched =
    match exec i s with
    | .next t => .next t.unwatched
    | .fault f => .fault f
    | .refused r => .refused r

/-- The status port (R32) and the codes of MODE, PHASE and LAST_STATUS (R25, R26, R31). A read between two operations answers what it shows; n
reads in one micro-step of an operation all show BUSY and the micro-step in progress: frame k of SET_WINDOW with the window registers so
far, the k-th micro-step of a record of INIT with SP its index, row-write j of a fill with ROW = j. When a read comes is an input
(A3, A4); reads between two micro-steps are StatusPortBetween. -/
def Obligations.StatusPortReads : Prop :=
  (∀ (s : State),
    (readStatus s).mode = (match s.mode with | .idle => 0 | .busy => 1 | .halted => 2) ∧
    (readStatus s).lastStatus = (match s.lastStatus with | .ok => 0 | .fault => 1 | .rejected => 2) ∧
    (readStatus s).phase = (match s.phase with
      | .none => 0 | .recCmd => 1 | .recData => 2 | .recWait => 3 | .casetC => 4 | .casetD => 5 | .pasetC => 6 | .pasetD => 7
      | .ramwrC => 8 | .rowD => 9 | .prim => 10) ∧
    (readStatus s).initDone = s.initDone ∧ (readStatus s).fault = s.faultFlag ∧ (readStatus s).primed = s.primed ∧
    (readStatus s).dc = s.dc ∧ (readStatus s).sp = s.sp ∧ (readStatus s).row = s.row ∧ (readStatus s).rows = s.rows ∧
    (readStatus s).rowlen = s.rowlen ∧ (readStatus s).wx0 = s.wx0 ∧ (readStatus s).wy0 = s.wy0 ∧ (readStatus s).wx1 = s.wx1 ∧
    (readStatus s).wy1 = s.wy1) ∧
  (∀ (s : State) (rest : List HostInput), s.port = .readStatus :: rest →
    step s = .next { s with port := rest, reads := s.reads ++ [readStatus s] }) ∧
  (∀ (f1 f2 f3 f4 f5 : Half) (s : State) (k n : Nat) (ph : Phase) (f : Frame), s.mode = .idle →
    s.moves = List.replicate k .proceed ++ List.replicate n .readStatus →
    (windowFrames s.params f1 f2 f3 f4)[k]? = some (ph, f) → s.AnswersOk k →
    ∃ t v, exec (.setWindow f1 f2 f3 f4 f5) s = .next t ∧ t.reads = s.reads ++ List.replicate n v ∧ v.mode = 1 ∧ v.phase = ph.code ∧
      v.dc = f.level s.params ∧ v.initDone = s.initDone ∧ v.fault = s.faultFlag ∧ v.lastStatus = s.lastStatus.code ∧
      v.wx0 = (if 1 < k then f1 else s.wx0) ∧ v.wx1 = (if 1 < k then f3 else s.wx1) ∧
      v.wy0 = (if 3 < k then f2 else s.wy0) ∧ v.wy1 = (if 3 < k then f4 else s.wy1)) ∧
  (∀ (f1 f2 f3 f4 f5 : Half) (s : State) (before after : List ScriptRecord) (r : ScriptRecord) (k n : Nat) (ph : Phase), s.mode = .idle →
    s.params.script = before ++ r :: after → s.params.script.length ≤ 255 → (recordPhases r)[k]? = some ph →
    s.moves = List.replicate ((scriptEvents before).length + k) .proceed ++ List.replicate n .readStatus →
    s.AnswersOk (scriptFrames before + min k (recordFrames r)) →
    ∃ t v, exec (.init f1 f2 f3 f4 f5) s = .next t ∧ t.reads = s.reads ++ List.replicate n v ∧ v.mode = 1 ∧ v.phase = ph.code ∧
      v.sp = BitVec.ofNat 8 before.length ∧ v.initDone = false) ∧
  (∀ (f1 f2 f3 f4 c : Half) (op : Byte) (i : Instr) (x y : Int) (cw ch j n : Nat) (s : State),
    DrawingFill f1 f2 f3 f4 c op i x y cw ch → j < ch → s.mode = .idle →
    s.moves = List.replicate (5 + j) .proceed ++ List.replicate n .readStatus → s.AnswersOk (5 + j) →
    ∃ t v, exec i s = .next t ∧ t.reads = s.reads ++ List.replicate n v ∧ v.mode = 1 ∧ v.phase = 9 ∧ v.row = BitVec.ofNat 16 j ∧
      v.rows = BitVec.ofNat 16 ch ∧ v.rowlen = BitVec.ofNat 16 (2 * cw) ∧ v.primed = true ∧ v.dc = s.params.dcData ∧
      v.wx0 = bound x ∧ v.wy0 = bound y ∧ v.wx1 = bound (x + cw - 1) ∧ v.wy1 = bound (y + ch - 1))

/-- Between two micro-steps the status port shows the registers as the write just done left them (R26, R32): n reads of it there all show BUSY
and, at acceptance, all else as it was; after the column frame of a window program the new WX0 with PHASE still PH_CASET_D, WX1 new once it
is written too, and so the row frame; after the memory-write frame of a fill PRIMED = 1 with the command level on DC; after row-write j the
new ROW beside PH_ROW_D; after the last micro-step of a record of INIT the next SP beside its PHASE. When a read comes is an input (A3); the
order of the writes is the rules' own (R29, R172, R130), and that a read may fall after each of them is the model's reading (A27). -/
def Obligations.StatusPortBetween : Prop :=
  (∀ (op : Byte) (hp : List Byte) (f1 f2 f3 f4 f5 : Half) (s : State) (n : Nat), ∀ r ∈ hostRequests op hp f1 f2 f3 f4 f5,
    Presentable s r.2 → 1 ≤ r.1.toNat → r.1.toNat ≤ 7 → s.mode = .idle → s.moves = List.replicate n .readBetween →
    ∃ t, exec r.2 s = .next t ∧ t.reads = s.reads ++ List.replicate n { readStatus s with mode := 1 }) ∧
  (∀ (f1 f2 f3 f4 f5 : Half) (s : State) (j n : Nat), j ≤ 1 → s.mode = .idle → s.AnswersOk 2 →
    s.moves = List.replicate 2 .proceed ++ List.replicate j .nextWrite ++ List.replicate n .readBetween →
    ∃ t v, exec (.setWindow f1 f2 f3 f4 f5) s = .next t ∧ t.reads = s.reads ++ List.replicate n v ∧ v.mode = 1 ∧ v.phase = 5 ∧
      v.dc = s.params.dcData ∧ v.wx0 = f1 ∧ v.wx1 = (if j = 0 then s.wx1 else f3) ∧ v.wy0 = s.wy0 ∧ v.wy1 = s.wy1) ∧
  (∀ (f1 f2 f3 f4 f5 : Half) (s : State) (j n : Nat), j ≤ 1 → s.mode = .idle → s.AnswersOk 4 →
    s.moves = List.replicate 4 .proceed ++ List.replicate j .nextWrite ++ List.replicate n .readBetween →
    ∃ t v, exec (.setWindow f1 f2 f3 f4 f5) s = .next t ∧ t.reads = s.reads ++ List.replicate n v ∧ v.mode = 1 ∧ v.phase = 7 ∧
      v.dc = s.params.dcData ∧ v.wx0 = f1 ∧ v.wx1 = f3 ∧ v.wy0 = f2 ∧ v.wy1 = (if j = 0 then s.wy1 else f4)) ∧
  (∀ (f1 f2 f3 f4 c : Half) (op : Byte) (i : Instr) (x y : Int) (cw ch n : Nat) (s : State),
    DrawingFill f1 f2 f3 f4 c op i x y cw ch → s.mode = .idle → s.AnswersOk 5 →
    s.moves = List.replicate 5 .proceed ++ List.replicate n .readBetween →
    ∃ t v, exec i s = .next t ∧ t.reads = s.reads ++ List.replicate n v ∧ v.mode = 1 ∧ v.phase = 8 ∧ v.primed = true ∧
      v.dc = s.params.dcCmd ∧ v.row = 0 ∧ v.rows = BitVec.ofNat 16 ch ∧ v.wx0 = bound x ∧ v.wy0 = bound y ∧
      v.wx1 = bound (x + cw - 1) ∧ v.wy1 = bound (y + ch - 1)) ∧
  (∀ (f1 f2 f3 f4 c : Half) (op : Byte) (i : Instr) (x y : Int) (cw ch j n : Nat) (s : State),
    DrawingFill f1 f2 f3 f4 c op i x y cw ch → j < ch → s.mode = .idle → s.AnswersOk (6 + j) →
    s.moves = List.replicate (6 + j) .proceed ++ List.replicate n .readBetween →
    ∃ t v, exec i s = .next t ∧ t.reads = s.reads ++ List.replicate n v ∧ v.mode = 1 ∧ v.phase = 9 ∧ v.primed = true ∧
      v.dc = s.params.dcData ∧ v.row = BitVec.ofNat 16 (j + 1) ∧ v.rows = BitVec.ofNat 16 ch) ∧
  (∀ (f1 f2 f3 f4 f5 : Half) (s : State) (before after : List ScriptRecord) (r : ScriptRecord) (n : Nat), s.mode = .idle →
    s.params.script = before ++ r :: after → s.params.script.length ≤ 255 → s.AnswersOk (scriptFrames before + recordFrames r) →
    s.moves = List.replicate (scriptEvents (before ++ [r])).length .proceed ++
      List.replicate (if r.payload = [] ∧ r.delay = 0 then 1 else 0) .nextWrite ++ List.replicate n .readBetween →
    ∃ t v, exec (.init f1 f2 f3 f4 f5) s = .next t ∧ t.reads = s.reads ++ List.replicate n v ∧ v.mode = 1 ∧
      v.phase = (recordPhase r).code ∧ v.sp = BitVec.ofNat 8 (before.length + 1) ∧ v.initDone = false)

/-- R227: a request to a halted block, or with a reserved code, is rejected: no frame, no delay, nothing changes but the operand registers and
LAST_STATUS, `Done(op, REJECTED)` is appended. And once halted the block never touches the bus: whatever it is asked, it stays halted,
takes no answer of the transport and emits nothing but that rejection. -/
def Obligations.RejectedRequests : Prop :=
  (∀ (op : Byte) (hp : List Byte) (f1 f2 f3 f4 f5 : Half) (s : State), ∀ r ∈ hostRequests op hp f1 f2 f3 f4 f5,
    Presentable s r.2 → s.mode = .halted → s.moves = [] →
    exec r.2 s = .next { s with
      rx := f1, ry := f2, rw := f3, rh := f4, rc := f5, lastStatus := .rejected, trace := s.trace ++ [.done r.1 .rejected] }) ∧
  (∀ (op : Byte) (f1 f2 f3 f4 f5 : Half) (s : State), s.mode = .idle → s.moves = [] →
    exec (.reservedHostOp op f1 f2 f3 f4 f5) s = .next { s with
      rx := f1, ry := f2, rw := f3, rh := f4, rc := f5, lastStatus := .rejected, trace := s.trace ++ [.done op .rejected] }) ∧
  (∀ (i : Instr) (s t : State), s.mode = .halted → s.NoReset → exec i s = .next t →
    t.mode = .halted ∧ t.frames = s.frames ∧ t.dc = s.dc ∧ (t.trace = s.trace ∨ ∃ op, t.trace = s.trace ++ [.done op .rejected]))

/-- Acceptance (R82, R20, R265): while BUSY a request is not accepted and has no effect; an accepted one loads all five operand registers,
whatever the operation and whatever becomes of it; the rows below the host interface leave them alone. -/
def Obligations.Acceptance : Prop :=
  (∀ (op : Byte) (hp : List Byte) (f1 f2 f3 f4 f5 : Half) (s : State), ∀ r ∈ hostRequests op hp f1 f2 f3 f4 f5, Presentable s r.2 →
    (s.mode = .busy → exec r.2 s = .next s) ∧
    (s.mode ≠ .busy → s.NoReset → ∃ t, exec r.2 s = .next t ∧ Operands f1 f2 f3 f4 f5 t)) ∧
  (∀ (i : Instr) (s t : State), isHostRequest i = false → s.NoReset → exec i s = .next t → SameOperands s t)

/-- Every accepted request ends with exactly one completion, the last event it leaves, and its status is latched (R228): OK and the block
is idle, FAULT right after a faulted frame and the block is halted, REJECTED with nothing else emitted. -/
def Obligations.ExactlyOneCompletion : Prop :=
  ∀ (op : Byte) (hp : List Byte) (f1 f2 f3 f4 f5 : Half) (s : State), ∀ r ∈ hostRequests op hp f1 f2 f3 f4 f5,
    Presentable s r.2 → s.mode ≠ .busy → s.NoReset →
    ∃ t evs, exec r.2 s = .next t ∧ t.trace = s.trace ++ evs ++ [.done r.1 t.lastStatus] ∧ (∀ e ∈ evs, e.isDone = false) ∧
      (t.lastStatus = .ok → t.mode = .idle ∧ ∀ e ∈ evs, e.isFault = false) ∧
      (t.lastStatus = .fault → t.mode = .halted ∧ ∃ f, evs.getLast? = some (.fault f)) ∧
      (t.lastStatus = .rejected → evs = [] ∧ t.mode = s.mode)

/-- TAKING THE EXCEPTION (R222): whenever an operation of an idle block halts it, the trace ends in `Fault(f)`, `Done(op, FAULT)`, PRIMED is
0, FAULT is 1, LAST_STATUS is FAULT, DC holds the level of f, PHASE names a micro-step, the controller is unknown (R223), and no other
frame faulted. -/
def Obligations.FaultEntry : Prop :=
  ∀ (op : Byte) (hp : List Byte) (f1 f2 f3 f4 f5 : Half) (s t : State), ∀ r ∈ hostRequests op hp f1 f2 f3 f4 f5,
    s.mode = .idle → s.NoReset → exec r.2 s = .next t → t.mode = .halted →
    ∃ evs f, t.trace = s.trace ++ evs ++ [.fault f, .done r.1 .fault] ∧ (∀ e ∈ evs, e.isDone = false ∧ e.isFault = false) ∧
      t.primed = false ∧ t.faultFlag = true ∧ t.lastStatus = .fault ∧ t.dc = f.level s.params ∧ t.stub = none ∧ t.phase ≠ .none ∧
      (r.1 = 0x01 → t.initDone = false) ∧ (r.1 ≠ 0x01 → t.initDone = s.initDone)

/-- HALTED is left, and FAULT cleared, by reset only, one between two requests or one that cuts off the completion of a rejected request (R28,
R231, R250). -/
def Obligations.HaltedLeftOnlyByReset : Prop :=
  ∀ (s t : State), s.mode = .halted → s.NoReset → step s = .next t → (∀ rest, s.port ≠ .reset :: rest) →
    t.mode = .halted ∧ t.faultFlag = s.faultFlag ∧ t.initDone = s.initDone ∧ t.phase = s.phase ∧ t.sp = s.sp ∧ t.row = s.row

/-! ## The frame protocol -/

/-- SEND_COMMAND (R115): `ok` sends the low byte of f5 as one command frame and completes; `fault` halts the block in PH_PRIM (R222). -/
def Obligations.SendCommandRuns : Prop :=
  (∀ (f1 f2 f3 f4 f5 : Half) (s : State), s.Ready 1 →
    exec (.sendCommand f1 f2 f3 f4 f5) s = .next { s.completed 0x02 [.cmd (loByte f5)] 1 with
      rx := f1, ry := f2, rw := f3, rh := f4, rc := f5, dc := s.params.dcCmd, primed := decide (loByte f5 = s.params.opRamwr) }) ∧
  (∀ (f1 f2 f3 f4 f5 : Half) (s : State), s.mode = .idle → s.moves = [] → s.FaultsAt 0 →
    exec (.sendCommand f1 f2 f3 f4 f5) s = .next { s.faulted 0x02 [] 0 (.command (loByte f5)) with
      rx := f1, ry := f2, rw := f3, rh := f4, rc := f5, phase := .prim })

/-- SEND_DATA (R116): `ok` sends the low byte of f5 as one data frame and completes, PRIMED as it was; `fault` halts the block in
PH_PRIM (R222). -/
def Obligations.SendDataRuns : Prop :=
  (∀ (f1 f2 f3 f4 f5 : Half) (s : State), s.Ready 1 →
    exec (.sendData f1 f2 f3 f4 f5) s = .next { s.completed 0x03 [.data [loByte f5]] 1 with
      rx := f1, ry := f2, rw := f3, rh := f4, rc := f5, dc := s.params.dcData }) ∧
  (∀ (f1 f2 f3 f4 f5 : Half) (s : State), s.mode = .idle → s.moves = [] → s.FaultsAt 0 →
    exec (.sendData f1 f2 f3 f4 f5) s = .next { s.faulted 0x03 [] 0 (.data [loByte f5]) with
      rx := f1, ry := f2, rw := f3, rh := f4, rc := f5, phase := .prim })

/-- SEND_DATA_BUFFER (R117), for a port that holds exactly the count: one data frame with its bytes in order, `ok` or `fault`; for a
count of 0 no frame, whatever the transport would answer, and DC as it was. -/
def Obligations.SendDataBufferRuns : Prop :=
  (∀ (f1 f2 f3 f4 f5 : Half) (hp : List Byte) (s : State), hp.length = f1.toNat → hp ≠ [] → s.Ready 1 →
    exec (.sendDataBuffer f1 f2 f3 f4 f5 hp) s = .next { s.completed 0x04 [.data hp] 1 with
      rx := f1, ry := f2, rw := f3, rh := f4, rc := f5, dc := s.params.dcData }) ∧
  (∀ (f2 f3 f4 f5 : Half) (s : State), s.mode = .idle → s.moves = [] →
    exec (.sendDataBuffer 0 f2 f3 f4 f5 []) s = .next { s.completed 0x04 [] 0 with rx := 0, ry := f2, rw := f3, rh := f4, rc := f5 }) ∧
  (∀ (f1 f2 f3 f4 f5 : Half) (hp : List Byte) (s : State), hp.length = f1.toNat → hp ≠ [] → s.mode = .idle → s.moves = [] →
    s.FaultsAt 0 →
    exec (.sendDataBuffer f1 f2 f3 f4 f5 hp) s = .next { s.faulted 0x04 [] 0 (.data hp) with
      rx := f1, ry := f2, rw := f3, rh := f4, rc := f5, phase := .prim })

/-- A port that does not hold exactly the count is "outside the encoding" (R117): the model refuses the request by name (A22), whether it is
decoded or run, and so it refuses bytes on the port of any other request. -/
def Obligations.PayloadPortLength : Prop :=
  (∀ (f1 f2 f3 f4 f5 : Half) (hp : List Byte) (s : State), hp.length ≠ f1.toNat →
    exec (.sendDataBuffer f1 f2 f3 f4 f5 hp) s = .refused .payloadPort ∧
    decode s.params ⟨.hreq88, requestBytes 0x04 f1 f2 f3 f4 f5 ++ hp⟩ = .error .payloadPortLength) ∧
  (∀ (op : Byte) (f1 f2 f3 f4 f5 : Half) (hp : List Byte) (p : Params), op ≠ 0x04 → hp ≠ [] →
    decode p ⟨.hreq88, requestBytes op f1 f2 f3 f4 f5 ++ hp⟩ = .error .payloadPortLength)

/-- R112, the primitive BusCmd as the row CMD_FRAME, for any of the 256 bytes and both answers of the transport; the fault is R222.
That the row runs alone, with MODE and PHASE as they were, is A5; that its `Done` names the last request where none runs, A6. -/
def Obligations.CommandFrame : Prop :=
  ∀ (b : Byte) (s : State), s.mode ≠ .halted → s.moves = [] →
    (s.answerAt 0 = .ok →
      exec (.cmdFrame b) s = .next { s.sent [.cmd b] 1 with
        dc := s.params.dcCmd, primed := decide (b = s.params.opRamwr) }) ∧
    (s.answerAt 0 = .fault → exec (.cmdFrame b) s = .next (s.faulted s.op [] 0 (.command b)))

/-- R113, the primitive BusData as the row DATA_FRAME, for any non-empty list and both answers of the transport; PRIMED is not changed by
the frame. A list of no byte is no frame (R86): nothing happens. Where no request runs, `Done` names the last one (A6). -/
def Obligations.DataFrame : Prop :=
  (∀ (bs : List Byte) (s : State), bs ≠ [] → s.mode ≠ .halted → s.moves = [] →
    (s.answerAt 0 = .ok → exec (.dataFrame bs) s = .next { s.sent [.data bs] 1 with dc := s.params.dcData }) ∧
    (s.answerAt 0 = .fault → exec (.dataFrame bs) s = .next (s.faulted s.op [] 0 (.data bs)))) ∧
  (∀ (s : State), exec (.dataFrame []) s = .next s)

/-- ADDR4 (R88): four data bytes, each bound high byte first. After CASET it is the column payload and WX0, WX1 follow the frame, after PASET
the row payload and WY0, WY1 (R171, R172); elsewhere no window register is written (R119). That the micro-step before it decides is
the model's reading (A5). -/
def Obligations.Addr4Payload : Prop :=
  ∀ (a b : Half) (s : State), s.mode ≠ .halted → s.moves = [] →
    (s.answerAt 0 = .ok →
      exec (.addr4 a b) s = .next { s.sent [.data [hiByte a, loByte a, hiByte b, loByte b]] 1 with
        dc := s.params.dcData,
        phase := if s.phase = .casetC then .casetD else if s.phase = .pasetC then .pasetD else s.phase,
        wx0 := if s.phase = .casetC then a else s.wx0, wx1 := if s.phase = .casetC then b else s.wx1,
        wy0 := if s.phase = .pasetC then a else s.wy0, wy1 := if s.phase = .pasetC then b else s.wy1 }) ∧
    (s.answerAt 0 = .fault →
      exec (.addr4 a b) s = .next { s.faulted s.op [] 0 (.data [hiByte a, loByte a, hiByte b, loByte b]) with
        phase := if s.phase = .casetC then .casetD else if s.phase = .pasetC then .pasetD else s.phase })

/-- PIX2 (R89, R56): two data bytes, red in the top five bits of the first, green across the two, blue in the low five of the second. -/
def Obligations.PixelPayload : Prop :=
  ∀ (r : BitVec 5) (g : BitVec 6) (b : BitVec 5) (s : State), s.mode ≠ .halted → s.moves = [] →
    (s.answerAt 0 = .ok →
      exec (.pix2 r g b) s = .next { s.sent [.data [r ++ g.extractLsb' 3 3, g.extractLsb' 0 3 ++ b]] 1 with dc := s.params.dcData }) ∧
    (s.answerAt 0 = .fault →
      exec (.pix2 r g b) s = .next (s.faulted s.op [] 0 (.data [r ++ g.extractLsb' 3 3, g.extractLsb' 0 3 ++ b])))

/-! ## The controller commands -/

/-- The sixteen controller commands (R200 to R216), each one command frame in the micro-step of its emitter: `ok` sends it, drives the command
level and leaves PRIMED 1 for the memory-write opcode alone; `fault` halts the block in that micro-step. -/
def Obligations.ControllerCommands : Prop :=
  ∀ (s : State), s.mode ≠ .halted → s.moves = [] → ∀ c ∈ controllerCommands s.params,
    (s.answerAt 0 = .ok →
      exec c.1 s = .next { s.sent [.cmd c.2.2] 1 with
        phase := c.2.1, dc := s.params.dcCmd, primed := decide (c.2.2 = s.params.opRamwr) }) ∧
    (s.answerAt 0 = .fault → exec c.1 s = .next { s.faulted s.op [] 0 (.command c.2.2) with phase := c.2.1 })

/-! ## The bring-up -/

/-- ExecRecord as the row SREC (R131), for every record: one command frame, one data frame if there is a payload, one delay if it is not 0,
in this order; a fault in either frame halts the block there and nothing after it is emitted (R144). A payload of more than 255 bytes, which
R83 does not have, goes out whole by the model's choice (A28). -/
def Obligations.RecordExecuted : Prop :=
  ∀ (r : ScriptRecord) (s : State), s.mode ≠ .halted → s.moves = [] →
    (s.AnswersOk (recordFrames r) →
      exec (.srec r.opcode r.payload r.delay) s = .next { s.sent (recordEvents r) (recordFrames r) with
        phase := recordPhase r, dc := if r.payload = [] then s.params.dcCmd else s.params.dcData,
        primed := decide (r.opcode = s.params.opRamwr) }) ∧
    (∀ k ph f, (recordSteps r)[k]? = some (ph, f) → s.FaultsAt k →
      exec (.srec r.opcode r.payload r.delay) s = .next { s.faulted s.op ((recordEvents r).take k) k f with phase := ph })

/-- The fourteen records of the table at their indexes (R146 to R159, R24): the same, with SP the index while the record runs and one more
at its end. The byte values are parameters here. -/
def Obligations.TableRecords : Prop :=
  ∀ (s : State), s.mode ≠ .halted → s.moves = [] → ∀ c ∈ scriptRecords s.params,
    (s.AnswersOk (recordFrames c.2.2) →
      exec c.1 s = .next { s.sent (recordEvents c.2.2) (recordFrames c.2.2) with
        sp := BitVec.ofNat 8 (c.2.1 + 1), phase := recordPhase c.2.2,
        dc := if c.2.2.payload = [] then s.params.dcCmd else s.params.dcData,
        primed := decide (c.2.2.opcode = s.params.opRamwr) }) ∧
    (∀ k ph f, (recordSteps c.2.2)[k]? = some (ph, f) → s.FaultsAt k →
      exec c.1 s = .next { s.faulted s.op ((recordEvents c.2.2).take k) k f with sp := BitVec.ofNat 8 c.2.1, phase := ph })

/-- INIT where the transport answers `ok` throughout (R130), for any script SP can count through, well formed or not (R132), and whatever
INIT_DONE was (R145): the records in order (one longer than R83 allows too, A28), then INIT_DONE = 1, SP = K. That the stub starts afresh
here unless an INIT has completed before is the model's choice (A17); a script of more than 255 records stops (A23). -/
def Obligations.InitCompletes : Prop :=
  (∀ (f1 f2 f3 f4 f5 : Half) (s : State), s.params.script.length ≤ 255 → s.Ready (scriptFrames s.params.script) →
    exec (.init f1 f2 f3 f4 f5) s = .next
      { ({ s with stub := some (initStub s) } : State).completed 0x01
          (scriptEvents s.params.script) (scriptFrames s.params.script) with
        rx := f1, ry := f2, rw := f3, rh := f4, rc := f5, initDone := true, sp := BitVec.ofNat 8 s.params.script.length,
        dc := scriptDc s.params s.params.script s.dc, primed := scriptPrimed s.params s.params.script s.primed }) ∧
  (∀ (f1 f2 f3 f4 f5 : Half) (s : State), 255 < s.params.script.length → exec (.init f1 f2 f3 f4 f5) s = .fault .scriptTooLong)

/-- A transport fault in INIT (R144): the records before r were sent whole with their delays, SP is the index of r, PHASE the micro-step, no
later record was sent, INIT_DONE is 0. -/
def Obligations.InitFaultLocation : Prop :=
  ∀ (f1 f2 f3 f4 f5 : Half) (s : State) (pre post : List ScriptRecord) (r : ScriptRecord) (k : Nat) (ph : Phase) (f : Frame),
    s.mode = .idle → s.moves = [] → s.params.script = pre ++ r :: post → s.params.script.length ≤ 255 →
    (recordSteps r)[k]? = some (ph, f) → s.FaultsAt (scriptFrames pre + k) →
    exec (.init f1 f2 f3 f4 f5) s = .next
      { s.faulted 0x01 (scriptEvents pre ++ (recordEvents r).take k) (scriptFrames pre + k) f with
        rx := f1, ry := f2, rw := f3, rh := f4, rc := f5, initDone := false, sp := BitVec.ofNat 8 pre.length, phase := ph }

/-- INIT_DONE after an INIT that no reset cuts off says that every frame of the script was answered `ok` (R27), and no other instruction
writes it. -/
def Obligations.InitDoneMeaning : Prop :=
  (∀ (f1 f2 f3 f4 f5 : Half) (s t : State), s.mode = .idle → s.NoReset → exec (.init f1 f2 f3 f4 f5) s = .next t →
    (t.initDone = true ↔ s.AnswersOk (scriptFrames s.params.script))) ∧
  (∀ (i : Instr) (s t : State), (∀ f1 f2 f3 f4 f5, i ≠ .init f1 f2 f3 f4 f5) → s.NoReset → exec i s = .next t →
    t.initDone = s.initDone)

/-- The bring-up waits at least 265 ms in all (R143, from the floors of R133 and R139): an INIT over a well-formed script (A24) that
completes emits delays that sum to it. -/
def Obligations.DelaySumFloor : Prop :=
  ∀ (f1 f2 f3 f4 f5 : Half) (s : State), scriptWellFormed s.params = true → s.Ready (scriptFrames s.params.script) →
    ∃ t, exec (.init f1 f2 f3 f4 f5) s = .next t ∧ t.initDone = true ∧ waitSum s.trace + 265 ≤ waitSum t.trace

/-- The table of R140: its serialised form is the 101 bytes of R141. And the counts of R143 for it and for the five other places of its first
sleep-out (R139, V16, A24): 23 frames, 14 of them commands, 59 bytes, 3 waits of 265 ms in all; each table is well formed. The opcode
and payload values are the spec's general-knowledge defaults (A15). -/
def Obligations.ReferenceTable : Prop :=
  serialiseScript referenceParams.script =
    [0x01, 0x00, 0x00, 0x78,
     0x3A, 0x01, 0x55, 0x00, 0x00,
     0xC0, 0x02, 0x0E, 0x0E, 0x00, 0x00,
     0xC1, 0x02, 0x41, 0x00, 0x00, 0x00,
     0xC5, 0x04, 0x00, 0x00, 0x00, 0x00, 0x00, 0x00,
     0x11, 0x00, 0x00, 0x00,
     0x36, 0x01, 0x28, 0x00, 0x00,
     0xB6, 0x03, 0x00, 0x02, 0x3B, 0x00, 0x00,
     0xB1, 0x02, 0xB0, 0x11, 0x00, 0x00,
     0xE0, 0x0F, 0x0F, 0x1F, 0x1C, 0x0C, 0x0F, 0x08, 0x48, 0x98, 0x37, 0x0A, 0x13, 0x04, 0x11, 0x0D, 0x00, 0x00, 0x00,
     0xE1, 0x0F, 0x0F, 0x32, 0x2E, 0x0B, 0x0D, 0x05, 0x47, 0x75, 0x37, 0x06, 0x10, 0x03, 0x24, 0x20, 0x00, 0x00, 0x00,
     0x11, 0x00, 0x00, 0x78,
     0x29, 0x00, 0x00, 0x19,
     0x13, 0x00, 0x00, 0x00] ∧
  ∀ i ∈ [1, 2, 5, 6, 8, 10], ∀ script, script = ((referenceScript referenceBase).eraseIdx 5).insertIdx i (recSlpout1 referenceBase) →
    scriptWellFormed { referenceBase with script := script } = true ∧ script.length = 14 ∧ scriptFrames script = 23 ∧
    (flat (scriptEvents script)).length = 59 ∧ waitSum (scriptEvents script) = 265 ∧
    ((scriptEvents script).filter fun e => e.command?.isSome).length = 14 ∧ (scriptEvents script).length = 26

/-- A well-formed script has no window opcode (R130, R218), so an INIT that completes leaves PRIMED 0. That it has exactly fourteen records is the
model's choice (A24). -/
def Obligations.WellFormedScriptUnprimed : Prop :=
  ∀ (p : Params), p.Valid → scriptWellFormed p = true →
    p.script.length = 14 ∧ (∀ r ∈ p.script, r.opcode ≠ p.opCaset ∧ r.opcode ≠ p.opPaset ∧ r.opcode ≠ p.opRamwr) ∧
    ∀ (f1 f2 f3 f4 f5 : Half) (s : State), s.params = p → s.Ready (scriptFrames p.script) →
      ∃ t, exec (.init f1 f2 f3 f4 f5) s = .next t ∧ t.primed = false ∧ t.initDone = true ∧ t.sp = 14

/-- Command, then its data, then the next command (R118): the block's own callers, INIT, the fills and SET_WINDOW, append to the flat
stream exactly the operations they name, each with its whole payload. -/
def Obligations.LogicalOperations : Prop :=
  (∀ (f1 f2 f3 f4 f5 : Half) (s : State), s.params.script.length ≤ 255 → s.Ready (scriptFrames s.params.script) →
    ∃ t evs, exec (.init f1 f2 f3 f4 f5) s = .next t ∧ t.trace = s.trace ++ evs ∧
      logicalOps (flat evs) = s.params.script.map fun r => (r.opcode, r.payload)) ∧
  (∀ (f1 f2 f3 f4 c : Half) (op : Byte) (i : Instr) (x y : Int) (cw ch : Nat) (s : State),
    DrawingFill f1 f2 f3 f4 c op i x y cw ch → s.Ready (5 + ch) →
    ∃ t evs, exec i s = .next t ∧ t.trace = s.trace ++ evs ∧ logicalOps (flat evs) =
      [(s.params.opCaset, addr4Bytes (bound x) (bound (x + cw - 1))), (s.params.opPaset, addr4Bytes (bound y) (bound (y + ch - 1))),
       (s.params.opRamwr, pixelStream (List.replicate (cw * ch) c))]) ∧
  (∀ (f1 f2 f3 f4 f5 : Half) (s : State), s.Ready 5 →
    ∃ t evs, exec (.setWindow f1 f2 f3 f4 f5) s = .next t ∧ t.trace = s.trace ++ evs ∧ logicalOps (flat evs) =
      [(s.params.opCaset, addr4Bytes f1 f3), (s.params.opPaset, addr4Bytes f2 f4), (s.params.opRamwr, [])])

/-- INIT over the table of R140 is its fourteen record rows one after another, whatever the transport answers (R130, R140): from the
accepted request on, the rows lead to the same state, which completes `OK` unless one of them halted the block. -/
def Obligations.InitIsItsRecords : Prop :=
  ∀ (f1 f2 f3 f4 f5 : Half) (s : State), s.mode = .idle → s.moves = [] → s.params.script = referenceScript s.params →
    ∃ u, execAll ((scriptRecords s.params).map (·.1))
        { s with
          rx := f1, ry := f2, rw := f3, rh := f4, rc := f5, mode := .busy, op := 0x01, initDone := false, sp := 0,
          stub := some (initStub s) } = .next u ∧
      exec (.init f1 f2 f3 f4 f5) s = .next (if u.mode = .halted then u else { u with
        initDone := true, phase := .none, mode := .idle, lastStatus := .ok, trace := u.trace ++ [.done 0x01 .ok] })

/-! ## The window -/

/-- SET_WINDOW where the transport answers `ok` throughout (R170, R171, R174): the four operands exactly as given, valid or not. -/
def Obligations.SetWindowCompletes : Prop :=
  ∀ (f1 f2 f3 f4 f5 : Half) (s : State), s.Ready 5 →
    exec (.setWindow f1 f2 f3 f4 f5) s = .next { s.completed 0x05 (windowEvents s.params f1 f2 f3 f4) 5 with
      rx := f1, ry := f2, rw := f3, rh := f4, rc := f5, dc := s.params.dcCmd, primed := true,
      wx0 := f1, wy0 := f2, wx1 := f3, wy1 := f4 }

/-- R173: the eleven tagged bytes of a window program, in five frames. -/
def Obligations.WindowProgramBytes : Prop :=
  ∀ (f1 f2 f3 f4 f5 : Half) (s : State), s.Ready 5 → ∃ t, exec (.setWindow f1 f2 f3 f4 f5) s = .next t ∧ t.frames = s.frames + 5 ∧
    flat t.trace = flat s.trace ++
      [.c s.params.opCaset, .d (f1.extractLsb' 8 8), .d (f1.extractLsb' 0 8), .d (f3.extractLsb' 8 8), .d (f3.extractLsb' 0 8),
       .c s.params.opPaset, .d (f2.extractLsb' 8 8), .d (f2.extractLsb' 0 8), .d (f4.extractLsb' 8 8), .d (f4.extractLsb' 0 8),
       .c s.params.opRamwr]

/-- R172: the window registers follow the frames. A fault in frame k, 0 to 4, leaves the registers written so far new and the others old,
PHASE the micro-step, PRIMED 0; PRIMED becomes 1 only with the last frame. -/
def Obligations.SetWindowFault : Prop :=
  (∀ (f1 f2 f3 f4 f5 : Half) (s : State) (k : Nat) (ph : Phase) (f : Frame), s.mode = .idle → s.moves = [] →
    (windowFrames s.params f1 f2 f3 f4)[k]? = some (ph, f) → s.FaultsAt k →
    exec (.setWindow f1 f2 f3 f4 f5) s = .next { s.faulted 0x05 ((windowEvents s.params f1 f2 f3 f4).take k) k f with
      rx := f1, ry := f2, rw := f3, rh := f4, rc := f5, phase := ph,
      wx0 := if 1 < k then f1 else s.wx0, wx1 := if 1 < k then f3 else s.wx1,
      wy0 := if 3 < k then f2 else s.wy0, wy1 := if 3 < k then f4 else s.wy1 }) ∧
  (∀ (f1 f2 f3 f4 f5 : Half) (s : State), s.Ready 5 → ∃ t, exec (.setWindow f1 f2 f3 f4 f5) s = .next t ∧
    t.wx0 = f1 ∧ t.wx1 = f3 ∧ t.wy0 = f2 ∧ t.wy1 = f4 ∧ t.primed = true)

/-- SET_WINDOW is the five rows CASET, ADDR4, PASET, ADDR4, RAMWR one after another, whatever the transport answers (R171): from the accepted
request on, the rows lead to the same state, which completes `OK` unless one of them halted the block. -/
def Obligations.SetWindowIsItsMicroSteps : Prop :=
  ∀ (f1 f2 f3 f4 f5 : Half) (s : State), s.mode = .idle → s.moves = [] →
    ∃ u, execAll [.caset, .addr4 f1 f3, .paset, .addr4 f2 f4, .ramwr]
        { s with rx := f1, ry := f2, rw := f3, rh := f4, rc := f5, mode := .busy, op := 0x05 } = .next u ∧
      exec (.setWindow f1 f2 f3 f4 f5) s = .next (if u.mode = .halted then u else { u with
        phase := .none, mode := .idle, lastStatus := .ok, trace := u.trace ++ [.done 0x05 .ok] })

/-! ## The fills -/

/-- The clipping rule on all integers (R180, R186): nothing for an origin off the panel or a size of 0 or less; else the size cut at the
right and the bottom, the origin never moved, and the window inside the panel. -/
def Obligations.ClipRule : Prop :=
  ∀ (x y w h : Int),
    (x < 0 ∨ 480 ≤ x ∨ y < 0 ∨ 320 ≤ y ∨ w ≤ 0 ∨ h ≤ 0 → clip x y w h = none) ∧
    (0 ≤ x → x < 480 → 0 ≤ y → y < 320 → 0 < w → 0 < h → ∃ cw ch : Nat, clip x y w h = some (cw, ch) ∧
      (cw : Int) = min w (480 - x) ∧ (ch : Int) = min h (320 - y) ∧
      1 ≤ cw ∧ 1 ≤ ch ∧ x + cw - 1 ≤ 479 ∧ y + ch - 1 ≤ 319)

/-- FILL_RECT that draws, where the transport answers `ok` throughout (R178, R179, R182): the operands read signed, the window program, the
row once per row. -/
def Obligations.FillRectDraws : Prop :=
  ∀ (f1 f2 f3 f4 c : Half) (s : State) (cw ch : Nat), clip f1.toInt f2.toInt f3.toInt f4.toInt = some (cw, ch) → s.Ready (5 + ch) →
    exec (.fillRect f1 f2 f3 f4 c) s = .next { s.completed 0x06 (fillEvents s.params f1.toInt f2.toInt cw ch c) (5 + ch) with
      rx := f1, ry := f2, rw := f3, rh := f4, rc := c,
      rowbuf := Memory.writeList s.rowbuf 0 (rowBytes cw c), rowlen := BitVec.ofNat 16 (2 * cw), rows := BitVec.ofNat 16 ch,
      row := BitVec.ofNat 16 ch, dc := s.params.dcData, primed := true,
      wx0 := f1, wy0 := f2, wx1 := BitVec.ofInt 16 (f1.toInt + cw - 1), wy1 := BitVec.ofInt 16 (f2.toInt + ch - 1) }

/-- FILL_RECT that clips to nothing (R181), its six cases: no frame, whatever the transport would answer; it completes `OK`, clears ROWLEN,
ROWS and ROW, and leaves the window registers, PRIMED, DC and the row buffer as they were. -/
def Obligations.FillRectNothing : Prop :=
  ∀ (f1 f2 f3 f4 c : Half) (s : State),
    f1.toInt < 0 ∨ 480 ≤ f1.toInt ∨ f2.toInt < 0 ∨ 320 ≤ f2.toInt ∨ f3.toInt ≤ 0 ∨ f4.toInt ≤ 0 → s.mode = .idle → s.moves = [] →
    exec (.fillRect f1 f2 f3 f4 c) s = .next { s.completed 0x06 [] 0 with
      rx := f1, ry := f2, rw := f3, rh := f4, rc := c, rowlen := 0, rows := 0, row := 0 }

/-- FILL_SCREEN where the transport answers `ok` throughout (R190). -/
def Obligations.FillScreenCompletes : Prop :=
  ∀ (f1 f2 f3 f4 c : Half) (s : State), s.Ready 325 →
    exec (.fillScreen f1 f2 f3 f4 c) s = .next
      { s.completed 0x07 (windowEvents s.params 0 0 479 319 ++ List.replicate 320 (.data (rowBytes 480 c))) 325 with
        rx := f1, ry := f2, rw := f3, rh := f4, rc := c,
        rowbuf := Memory.writeList s.rowbuf 0 (rowBytes 480 c), rowlen := 960, rows := 320, row := 320,
        dc := s.params.dcData, primed := true, wx0 := 0, wy0 := 0, wx1 := 479, wy1 := 319 }

/-- A transport fault in a fill that draws, FILL_RECT or FILL_SCREEN (R188, R190). In frame k of the window program: no pixel was sent, the
window registers as in R172. In row-write j: j rows were written whole, PHASE = PH_ROW_D, ROW = j. -/
def Obligations.FillFault : Prop :=
  ∀ (f1 f2 f3 f4 c : Half) (op : Byte) (i : Instr) (x y : Int) (cw ch : Nat) (s : State),
    DrawingFill f1 f2 f3 f4 c op i x y cw ch → s.mode = .idle → s.moves = [] →
    (∀ k ph f x1 y1, x1 = bound (x + cw - 1) → y1 = bound (y + ch - 1) →
      (windowFrames s.params (bound x) (bound y) x1 y1)[k]? = some (ph, f) → s.FaultsAt k →
      exec i s = .next { s.faulted op ((windowEvents s.params (bound x) (bound y) x1 y1).take k) k f with
        rx := f1, ry := f2, rw := f3, rh := f4, rc := c, phase := ph,
        rowbuf := Memory.writeList s.rowbuf 0 (rowBytes cw c), rowlen := BitVec.ofNat 16 (2 * cw), rows := BitVec.ofNat 16 ch,
        row := 0, wx0 := if 1 < k then bound x else s.wx0, wx1 := if 1 < k then x1 else s.wx1,
        wy0 := if 3 < k then bound y else s.wy0, wy1 := if 3 < k then y1 else s.wy1 }) ∧
    (∀ j x1 y1, x1 = bound (x + cw - 1) → y1 = bound (y + ch - 1) → j < ch → s.FaultsAt (5 + j) →
      exec i s = .next
        { s.faulted op (windowEvents s.params (bound x) (bound y) x1 y1 ++ List.replicate j (.data (rowBytes cw c))) (5 + j)
            (.data (rowBytes cw c)) with
          rx := f1, ry := f2, rw := f3, rh := f4, rc := c, phase := .rowD,
          rowbuf := Memory.writeList s.rowbuf 0 (rowBytes cw c), rowlen := BitVec.ofNat 16 (2 * cw), rows := BitVec.ofNat 16 ch,
          row := BitVec.ofNat 16 j, wx0 := bound x, wy0 := bound y, wx1 := x1, wy1 := y1 })

/-- R191: FILL_SCREEN(c) and FILL_RECT(0, 0, 480, 320, c) emit the same events frame for frame, whatever the transport answers, since the clip of
the whole panel is the whole panel; only `Done` names another operation. -/
def Obligations.FillScreenIsFillRect : Prop :=
  clip 0 0 480 320 = some (480, 320) ∧
  ∀ (f1 f2 f3 f4 c : Half) (s : State), s.mode = .idle → s.NoReset →
    ∃ t u evs st, exec (.fillScreen f1 f2 f3 f4 c) s = .next t ∧ exec (.fillRect 0 0 480 320 c) s = .next u ∧
      t.trace = s.trace ++ evs ++ [.done 0x07 st] ∧ u.trace = s.trace ++ evs ++ [.done 0x06 st] ∧
      (∀ e ∈ evs, e.isDone = false) ∧ t.frames = u.frames ∧ t.stub = u.stub

/-- R183: a fill that draws packs one row, the colour's two bytes, high byte first, once for each pixel of the clipped width; the row buffer
holds it, and the same row goes out once for each row; every colour is its two bytes. Bytes from ROWLEN on keep what they held (R22). -/
def Obligations.RowBufferPacked : Prop :=
  ∀ (f1 f2 f3 f4 c : Half) (s : State) (cw ch : Nat), clip f1.toInt f2.toInt f3.toInt f4.toInt = some (cw, ch) → s.Ready (5 + ch) →
    ∃ t row, exec (.fillRect f1 f2 f3 f4 c) s = .next t ∧ t.rowlen.toNat = 2 * cw ∧ row.length = 2 * cw ∧
      (∀ i, i < cw → row[2 * i]? = some (c.extractLsb' 8 8) ∧ row[2 * i + 1]? = some (c.extractLsb' 0 8)) ∧
      (∀ a, a < 2 * cw → Memory.read? t.rowbuf a = row[a]?) ∧
      (∀ a, 2 * cw ≤ a → Memory.read? t.rowbuf a = Memory.read? s.rowbuf a) ∧
      t.trace = s.trace ++ windowEvents s.params f1 f2 t.wx1 t.wy1 ++ List.replicate ch (.data row) ++ [.done 0x06 .ok]

/-- The pixel count is exact (R184, R185, R270): after the eleven bytes of the window program a fill sends two bytes for each pixel of the
window its registers name, and nothing else; the window it programs is valid (R21). -/
def Obligations.PixelCountExact : Prop :=
  ∀ (f1 f2 f3 f4 c : Half) (s : State) (cw ch : Nat), clip f1.toInt f2.toInt f3.toInt f4.toInt = some (cw, ch) → s.Ready (5 + ch) →
    ∃ t, exec (.fillRect f1 f2 f3 f4 c) s = .next t ∧ t.frames = s.frames + 5 + ch ∧ WindowValid t.wx0 t.wy0 t.wx1 t.wy1 ∧
      flat t.trace = flat s.trace ++ flat (windowEvents s.params t.wx0 t.wy0 t.wx1 t.wy1) ++
        (pixelStream (List.replicate ((t.wx1.toNat + 1 - t.wx0.toNat) * (t.wy1.toNat + 1 - t.wy0.toNat)) c)).map .d ∧
      (flat t.trace).length = (flat s.trace).length + 11 + 2 * cw * ch

/-- SET_WINDOW followed by SEND_DATA_BUFFER with the pixels gives the flat stream of the fill (R95), and so the same panel. -/
def Obligations.WindowThenBufferIsFill : Prop :=
  ∀ (x y w h n c f1 f2 f3 f4 f5 : Half) (cw ch : Nat) (s : State), clip x.toInt y.toInt w.toInt h.toInt = some (cw, ch) →
    n.toNat = 2 * cw * ch → s.Ready (5 + ch) →
    ∃ t u v, exec (.setWindow x y (BitVec.ofInt 16 (x.toInt + cw - 1)) (BitVec.ofInt 16 (y.toInt + ch - 1)) f1) s = .next t ∧
      exec (.sendDataBuffer n f2 f3 f4 f5 (pixelStream (List.replicate (cw * ch) c))) t = .next u ∧
      exec (.fillRect x y w h c) s = .next v ∧ flat u.trace = flat v.trace ∧ u.stub = v.stub

/-! ## The panel -/

/-- A fill paints its window and nothing else (R185, R71 to R73): on a known stub, every pixel of the clipped rectangle holds the colour,
every other pixel what it held; the window is full, and `bad` is set only if it was, or if the fill found a payload or a pixel cut
short. -/
def Obligations.FillPaintsWindow : Prop :=
  ∀ (f1 f2 f3 f4 c : Half) (s : State) (q : Panel) (cw ch : Nat), s.stub = some q → s.params.WindowOpcodesDistinct →
    clip f1.toInt f2.toInt f3.toInt f4.toInt = some (cw, ch) → s.Ready (5 + ch) →
    ∃ t q', exec (.fillRect f1 f2 f3 f4 c) s = .next t ∧ t.stub = some q' ∧ q'.bad = (q.bad || q.st.isOpen) ∧ q'.st = .full ∧
      ∀ x y : Nat, x < 480 → y < 320 → q'.pixel? x y =
        if f1.toInt ≤ x ∧ (x : Int) ≤ f1.toInt + cw - 1 ∧ f2.toInt ≤ y ∧ (y : Int) ≤ f2.toInt + ch - 1 then some c else q.pixel? x y

/-- The read-back property (R76) from a stub that is not bad and holds nothing cut short: after FILL_SCREEN(c) the full-window read-back is the
colour's two bytes 153600 times. -/
def Obligations.FillScreenReadback : Prop :=
  ∀ (f1 f2 f3 f4 c : Half) (s : State) (q : Panel), s.stub = some q → q.Settled → s.params.WindowOpcodesDistinct → s.Ready 325 →
    ∃ t q', exec (.fillScreen f1 f2 f3 f4 c) s = .next t ∧ t.stub = some q' ∧ q'.bad = false ∧ q'.st = .full ∧
      q'.readback 0 0 479 319 = (pixelStream (List.replicate 153600 c)).map some

/-- A window and its pixels by hand (R73, R175): SET_WINDOW with a valid window, then exactly its pixels in one SEND_DATA_BUFFER, fills the
window row by row, left to right then top to bottom, and changes no other pixel. -/
def Obligations.WindowStreamRowMajor : Prop :=
  ∀ (x0 y0 x1 y1 f5 n f2 f3 f4 f5' : Half) (cs : List Half) (s : State) (q : Panel), s.stub = some q → q.Settled →
    s.params.WindowOpcodesDistinct → WindowValid x0 y0 x1 y1 →
    cs.length = (x1.toNat + 1 - x0.toNat) * (y1.toNat + 1 - y0.toNat) → n.toNat = 2 * cs.length → s.Ready 6 →
    ∃ t u q', exec (.setWindow x0 y0 x1 y1 f5) s = .next t ∧ exec (.sendDataBuffer n f2 f3 f4 f5' (pixelStream cs)) t = .next u ∧
      u.stub = some q' ∧ q'.bad = false ∧ q'.st = .full ∧
      (∀ x y, x0.toNat ≤ x → x ≤ x1.toNat → y0.toNat ≤ y → y ≤ y1.toNat →
        q'.pixel? x y = cs[(y - y0.toNat) * (x1.toNat + 1 - x0.toNat) + (x - x0.toNat)]?) ∧
      (∀ x y, x < 480 → y < 320 → ¬(x0.toNat ≤ x ∧ x ≤ x1.toNat ∧ y0.toNat ≤ y ∧ y ≤ y1.toNat) → q'.pixel? x y = q.pixel? x y)

/-- Bring-up, then paint (R255, R74, R76): with a well-formed script (A24), an INIT and a FILL_SCREEN(c) that complete `OK` leave a panel a
claim may look at, and every pixel of it reads c. And where INIT_DONE was 0, the panel a claim may look at after INIT shows nothing of what
was drawn before it: that its stub starts afresh is the model's choice (A17). -/
def Obligations.BringUpThenPaint : Prop :=
  (∀ (c : Half) (s : State), s.params.Valid → scriptWellFormed s.params = true →
    (s.initDone = true → ∀ q, s.stub = some q → q.Settled) → s.faultFlag = false → s.Ready (scriptFrames s.params.script + 325) →
    ∃ t u q, exec (.init 0 0 0 0 0) s = .next t ∧ exec (.fillScreen 0 0 0 0 c) t = .next u ∧ panelView u = some q ∧
      q.readback 0 0 479 319 = (pixelStream (List.replicate 153600 c)).map some) ∧
  (∀ (f1 f2 f3 f4 f5 : Half) (s : State), s.params.Valid → scriptWellFormed s.params = true → s.initDone = false →
    s.faultFlag = false → s.Ready (scriptFrames s.params.script) →
    ∃ t q, exec (.init f1 f2 f3 f4 f5) s = .next t ∧ panelView t = some q ∧ ∀ x y, q.pixel? x y = none)

/-! ## Invariants -/

/-- The invariant of the machine holds after reset. -/
def Obligations.InvAtReset : Prop := State.reset.Inv

/-- Every step keeps the invariant of the machine (State.Inv): from every state that meets it, whatever the host presents, the transport
answers and the reset input does. -/
def Obligations.StepKeepsInv : Prop := ∀ (s t : State), s.Inv → step s = .next t → t.Inv

/-- No step writes a parameter (R33, R254), and the trace (R16, R64) and the host's readings (R32) only grow. -/
def Obligations.ParametersAndTrace : Prop :=
  ∀ (s t : State), step s = .next t → t.params = s.params ∧ (∃ evs, t.trace = s.trace ++ evs) ∧ ∃ rs, t.reads = s.reads ++ rs

/-! ## Frames -/

/-- What the protocol operations, the lone frames, the pixel payload, the sixteen commands and a lone script record leave alone, fault or not:
the window registers, every byte of the row buffer, ROWLEN, ROWS, ROW, SP and INIT_DONE (R21, R115 to R117, R119). And what the data
frames leave alone besides: PRIMED, unless the frame faulted (R29, R113). -/
def Obligations.FrameBus : Prop :=
  (∀ (i : Instr) (s t : State), s.NoReset → exec i s = .next t →
    ((∃ f1 f2 f3 f4 f5, i = .sendCommand f1 f2 f3 f4 f5 ∨ i = .sendData f1 f2 f3 f4 f5) ∨
      (∃ f1 f2 f3 f4 f5 hp, i = .sendDataBuffer f1 f2 f3 f4 f5 hp) ∨ (∃ op f1 f2 f3 f4 f5, i = .reservedHostOp op f1 f2 f3 f4 f5) ∨
      (∃ b, i = .cmdFrame b) ∨ (∃ bs, i = .dataFrame bs) ∨ (∃ r g b, i = .pix2 r g b) ∨ (∃ o pl d, i = .srec o pl d) ∨
      (∃ c ∈ controllerCommands s.params, i = c.1)) →
    SameWindow s t ∧ RowBufferKept s t ∧ t.rowlen = s.rowlen ∧ t.rows = s.rows ∧ t.row = s.row ∧ t.sp = s.sp ∧
      t.initDone = s.initDone ∧ t.params = s.params ∧ t.port = s.port) ∧
  (∀ (i : Instr) (s t : State), s.NoReset → exec i s = .next t →
    ((∃ f1 f2 f3 f4 f5, i = .sendData f1 f2 f3 f4 f5) ∨ (∃ f1 f2 f3 f4 f5 hp, i = .sendDataBuffer f1 f2 f3 f4 f5 hp) ∨
      (∃ bs, i = .dataFrame bs) ∨ (∃ a b, i = .addr4 a b) ∨ (∃ r g b, i = .pix2 r g b)) →
    (t.mode ≠ .halted → t.primed = s.primed) ∧ (t.mode = .halted → s.mode ≠ .halted → t.primed = false))

/-- What INIT and the fourteen record rows leave alone, fault or not: the window registers, every byte of the row buffer, ROWLEN, ROWS and
ROW (R130); SP ends at the record's index or one more (R24). -/
def Obligations.FrameBringUp : Prop :=
  (∀ (f1 f2 f3 f4 f5 : Half) (s t : State), s.NoReset → exec (.init f1 f2 f3 f4 f5) s = .next t →
    SameWindow s t ∧ RowBufferKept s t ∧ t.rowlen = s.rowlen ∧ t.rows = s.rows ∧ t.row = s.row ∧ t.params = s.params ∧
      t.port = s.port) ∧
  (∀ (s t : State), s.NoReset → s.mode ≠ .halted → ∀ c ∈ scriptRecords s.params, exec c.1 s = .next t →
    SameWindow s t ∧ RowBufferKept s t ∧ t.rowlen = s.rowlen ∧ t.rows = s.rows ∧ t.row = s.row ∧
      (t.sp = BitVec.ofNat 8 c.2.1 ∨ t.sp = BitVec.ofNat 8 (c.2.1 + 1)) ∧ t.initDone = s.initDone ∧ t.params = s.params ∧
      t.port = s.port)

/-- What the raster operations and the address payload leave alone, fault or not (R170, R179, R181): SET_WINDOW and ADDR4 the row buffer and the
row registers, the fills every byte of the row buffer from twice the clipped width on; all of them SP and INIT_DONE. -/
def Obligations.FrameRaster : Prop :=
  (∀ (f1 f2 f3 f4 f5 : Half) (s t : State), s.NoReset → exec (.setWindow f1 f2 f3 f4 f5) s = .next t →
    RowBufferKept s t ∧ t.rowlen = s.rowlen ∧ t.rows = s.rows ∧ t.row = s.row ∧ t.sp = s.sp ∧ t.initDone = s.initDone) ∧
  (∀ (a b : Half) (s t : State), s.NoReset → exec (.addr4 a b) s = .next t →
    RowBufferKept s t ∧ t.rowlen = s.rowlen ∧ t.rows = s.rows ∧ t.row = s.row ∧ t.sp = s.sp ∧ t.initDone = s.initDone ∧
    (s.phase ≠ .casetC → t.wx0 = s.wx0 ∧ t.wx1 = s.wx1) ∧ (s.phase ≠ .pasetC → t.wy0 = s.wy0 ∧ t.wy1 = s.wy1)) ∧
  (∀ (f1 f2 f3 f4 c : Half) (s t : State), s.NoReset → exec (.fillRect f1 f2 f3 f4 c) s = .next t →
    t.sp = s.sp ∧ t.initDone = s.initDone ∧
    (∀ cw ch, clip f1.toInt f2.toInt f3.toInt f4.toInt = some (cw, ch) →
      ∀ a, 2 * cw ≤ a → Memory.read? t.rowbuf a = Memory.read? s.rowbuf a) ∧
    (clip f1.toInt f2.toInt f3.toInt f4.toInt = none → SameWindow s t ∧ RowBufferKept s t ∧ FrameMemoryKept s t)) ∧
  (∀ (f1 f2 f3 f4 c : Half) (s t : State), s.NoReset → exec (.fillScreen f1 f2 f3 f4 c) s = .next t →
    t.sp = s.sp ∧ t.initDone = s.initDone ∧ ∀ a, 960 ≤ a → Memory.read? t.rowbuf a = Memory.read? s.rowbuf a)

/-- The frame memory on the observer's stub. A window program and a rejected request leave every byte of it alone (R71 to R73). That a command
frame of any opcode, software reset and sleep-out among them, and every script record leave it alone too is the stub's convention only (R71,
R201): what the controller does there is not in the source, and U17 warns against proving anything of the panel from it. So those clauses speak of
the stub, never of the controller. A record of the table is no memory write (R218). And where data bytes go (R73): outside the window the
stub holds open, every byte reads as before; with no window open, all of it. The stub's form is premised there (State.Inv says every step keeps it). -/
def Obligations.FrameMemoryKeptOutside : Prop :=
  (∀ (i : Instr) (s t : State), s.NoReset → exec i s = .next t →
    ((∃ f1 f2 f3 f4 f5, i = .sendCommand f1 f2 f3 f4 f5 ∨ i = .setWindow f1 f2 f3 f4 f5) ∨
      (∃ op f1 f2 f3 f4 f5, i = .reservedHostOp op f1 f2 f3 f4 f5) ∨ (∃ b, i = .cmdFrame b) ∨
      (∃ c ∈ controllerCommands s.params, i = c.1) ∨ (s.params.Valid ∧ ∃ c ∈ scriptRecords s.params, i = c.1) ∨
      (∃ o pl d, o ≠ s.params.opRamwr ∧ i = .srec o pl d)) →
    FrameMemoryKept s t) ∧
  (∀ (i : Instr) (s t : State) (q q' : Panel), s.NoReset → exec i s = .next t → s.stub = some q → q.Inv → t.stub = some q' →
    ((∃ f1 f2 f3 f4 f5, i = .sendData f1 f2 f3 f4 f5) ∨ (∃ f1 f2 f3 f4 f5 hp, i = .sendDataBuffer f1 f2 f3 f4 f5 hp) ∨
      (∃ bs, i = .dataFrame bs) ∨ (∃ a b, i = .addr4 a b) ∨ (∃ r g b, i = .pix2 r g b)) →
    (∀ px py h, q.st = .write px py h → ∀ a x0 y0 x1 y1, q.window? = some (x0, y0, x1, y1) →
      (∀ x y, x0 ≤ x → x ≤ x1 → y0 ≤ y → y ≤ y1 → a ≠ pixelAddr x y ∧ a ≠ pixelAddr x y + 1) →
      Memory.read? q'.gram a = Memory.read? q.gram a) ∧
    ((∀ px py h, q.st ≠ .write px py h) → ∀ a, Memory.read? q'.gram a = Memory.read? q.gram a))

end
end

