-- ==== Sys2Proof/Laws/Decode.lean ====
section
/-! SUPPORT. The byte and bit-field helpers undo one another (R14, R55, R56), a record is read back from its serialised form (R84), and the
two tables of the decoder look up each of their rows (R140, R201 to R216). -/

namespace Sys2Proof

/-! ## Bytes and fields -/

theorem ofBytes_hi_lo (v : Half) : ofBytes (hiByte v) (loByte v) = v := by
  apply BitVec.eq_of_getElem_eq
  intro i hi
  refine (BitVec.getElem_append (x := hiByte v) (y := loByte v) hi).trans ?_
  simp only [hiByte, loByte, BitVec.getElem_extractLsb']
  split
  · simp [BitVec.getLsbD_eq_getElem hi]
  · rw [← BitVec.getLsbD_eq_getElem hi, show 8 + (i - 8) = i by omega]

theorem hiByte_ofBytes (h l : Byte) : hiByte (ofBytes h l) = h := by
  apply BitVec.eq_of_getElem_eq
  intro i hi
  simp only [hiByte, BitVec.getElem_extractLsb']
  rw [BitVec.getLsbD_eq_getElem (by omega)]
  refine (BitVec.getElem_append (x := h) (y := l) _).trans ?_
  simp

theorem loByte_ofBytes (h l : Byte) : loByte (ofBytes h l) = l := by
  apply BitVec.eq_of_getElem_eq
  intro i hi
  simp only [loByte, BitVec.getElem_extractLsb']
  rw [BitVec.getLsbD_eq_getElem (by omega)]
  refine (BitVec.getElem_append (x := h) (y := l) _).trans ?_
  simp [hi]

theorem be16_ofBytes (h l : Byte) : be16 (ofBytes h l) = [h, l] := by simp [be16, hiByte_ofBytes, loByte_ofBytes]

/-! ## Records (R84) -/

theorem parseRecord_serialise {r : ScriptRecord} (h : r.payload.length ≤ 255) : parseRecord (serialiseRecord r) = some r := by
  have hn : (BitVec.ofNat 8 r.payload.length).toNat = r.payload.length := by rw [BitVec.toNat_ofNat]; omega
  simp [serialiseRecord, parseRecord, hn, be16, ofBytes_hi_lo]

/-! ## The tables of the decoder -/

theorem lookup_of_mem {α β : Type} [DecidableEq α] {l : List (α × β)} {a : α} {b : β} (hn : (l.map (·.1)).Nodup) (h : (a, b) ∈ l) :
    l.lookup a = some b := by
  induction l with
  | nil => cases h
  | cons c l ih =>
    obtain ⟨x, y⟩ := c
    simp only [List.map_cons, List.nodup_cons, List.mem_map] at hn
    rcases List.mem_cons.mp h with h | h
    · cases h
      simp
    · have hx : a ≠ x := fun e => hn.1 ⟨(a, b), h, e⟩
      have hb : (a == x) = false := by simpa using hx
      rw [List.lookup_cons, hb]
      exact ih hn.2 h

theorem mem_of_lookup {α β : Type} [DecidableEq α] {l : List (α × β)} {a : α} {b : β} (h : l.lookup a = some b) : (a, b) ∈ l := by
  induction l with
  | nil => cases h
  | cons c l ih =>
    obtain ⟨x, y⟩ := c
    rw [List.lookup_cons] at h
    split at h
    · rename_i hx
      have : a = x := by simpa using hx
      subst this
      cases h
      exact List.mem_cons_self
    · exact List.mem_cons_of_mem _ (ih h)

theorem notMem_of_lookup {α β : Type} [DecidableEq α] {l : List (α × β)} {a : α} (h : l.lookup a = none) : a ∉ l.map (·.1) := by
  induction l with
  | nil => simp
  | cons c l ih =>
    obtain ⟨x, y⟩ := c
    rw [List.lookup_cons] at h
    split at h
    · cases h
    · rename_i hx
      have : a ≠ x := by simpa using hx
      simp only [List.map_cons, List.mem_cons, not_or]
      exact ⟨this, ih h⟩

/-- The keys of the record table are the table of R140. -/
theorem recordTable_keys (p : Params) : (recordTable p).map (·.1) = referenceScript p := rfl

/-- The keys of the command table are the opcodes of R13. -/
theorem commandTable_keys (p : Params) : (commandTable p).map (·.1) = p.opcodes := rfl

/-- Under the conditions of R218 the fourteen records differ: only the two sleep-outs share an opcode, and only one has a delay. -/
theorem referenceScript_nodup {p : Params} (h : p.Valid) : (referenceScript p).Nodup := by
  obtain ⟨hn, _, _, hs⟩ := h
  have hr := List.nodup_reverse.mpr hn
  have hs' : ¬(0#16 = p.delaySlpout) := fun h => hs h.symm
  simp only [Params.opcodes, List.nodup_cons, List.mem_cons, List.not_mem_nil, or_false, not_or] at hn
  simp only [Params.opcodes, List.reverse_cons, List.reverse_nil, List.nil_append, List.cons_append, List.nodup_cons, List.mem_cons,
    List.not_mem_nil, or_false, not_or] at hr
  simp [referenceScript, recSwreset, recColmod, recPwctrA, recPwctrB, recVmctr, recSlpout1, recMadctl, recDfunctr, recFrmctr,
    recPgamctrl, recNgamctrl, recSlpout2, recDispon, recNoron, hn, hr, hs']

end Sys2Proof
end

