-- ==== Sys2Proof/Laws/State.lean ====
section
/-! SUPPORT. For each operation that updates the state, what it leaves in each field: all true by rfl. The host's moves and readings after an
operation that the host may look at are in Laws/Ops. -/

namespace Sys2Proof.Machine

/-- The state a transport fault of frame f leaves where no reset comes in its completion: `Fault(f)`, then the entry (R222). -/
def faultState (f : Frame) (s : State) : State := faultEntry (markFault f s)

/-- The level of a command frame driven and PRIMED cleared (R112). -/
def drivenCmd (s : State) : State := { s with dc := s.params.dcCmd, primed := false }

/-- WX0 and WX1 written (R172). -/
def setColumns (x0 x1 : Half) (s : State) : State := { s with wx0 := x0, wx1 := x1 }

/-- WY0 and WY1 written (R172). -/
def setRows (y0 y1 : Half) (s : State) : State := { s with wy0 := y0, wy1 := y1 }

/-- ROWLEN, ROWS and ROW written (R179). -/
def setRowCounts (l n : Half) (s : State) : State := { s with rowlen := l, rows := n, row := 0 }

/-- A row packed (R179, R183). -/
def packed (cw ch : Nat) (c : Half) (s : State) : State :=
  setRowCounts (BitVec.ofNat 16 (2 * cw)) (BitVec.ofNat 16 ch) { s with rowbuf := Memory.writeList s.rowbuf 0 (rowBytes cw c) }

@[simp] theorem drivenCmd_rx (s : State) : (drivenCmd s).rx = s.rx := rfl
@[simp] theorem drivenCmd_ry (s : State) : (drivenCmd s).ry = s.ry := rfl
@[simp] theorem drivenCmd_rw (s : State) : (drivenCmd s).rw = s.rw := rfl
@[simp] theorem drivenCmd_rh (s : State) : (drivenCmd s).rh = s.rh := rfl
@[simp] theorem drivenCmd_rc (s : State) : (drivenCmd s).rc = s.rc := rfl
@[simp] theorem drivenCmd_wx0 (s : State) : (drivenCmd s).wx0 = s.wx0 := rfl
@[simp] theorem drivenCmd_wy0 (s : State) : (drivenCmd s).wy0 = s.wy0 := rfl
@[simp] theorem drivenCmd_wx1 (s : State) : (drivenCmd s).wx1 = s.wx1 := rfl
@[simp] theorem drivenCmd_wy1 (s : State) : (drivenCmd s).wy1 = s.wy1 := rfl
@[simp] theorem drivenCmd_rowbuf (s : State) : (drivenCmd s).rowbuf = s.rowbuf := rfl
@[simp] theorem drivenCmd_rowlen (s : State) : (drivenCmd s).rowlen = s.rowlen := rfl
@[simp] theorem drivenCmd_rows (s : State) : (drivenCmd s).rows = s.rows := rfl
@[simp] theorem drivenCmd_row (s : State) : (drivenCmd s).row = s.row := rfl
@[simp] theorem drivenCmd_sp (s : State) : (drivenCmd s).sp = s.sp := rfl
@[simp] theorem drivenCmd_phase (s : State) : (drivenCmd s).phase = s.phase := rfl
@[simp] theorem drivenCmd_mode (s : State) : (drivenCmd s).mode = s.mode := rfl
@[simp] theorem drivenCmd_initDone (s : State) : (drivenCmd s).initDone = s.initDone := rfl
@[simp] theorem drivenCmd_faultFlag (s : State) : (drivenCmd s).faultFlag = s.faultFlag := rfl
@[simp] theorem drivenCmd_primed (s : State) : (drivenCmd s).primed = false := rfl
@[simp] theorem drivenCmd_dc (s : State) : (drivenCmd s).dc = s.params.dcCmd := rfl
@[simp] theorem drivenCmd_lastStatus (s : State) : (drivenCmd s).lastStatus = s.lastStatus := rfl
@[simp] theorem drivenCmd_op (s : State) : (drivenCmd s).op = s.op := rfl
@[simp] theorem drivenCmd_params (s : State) : (drivenCmd s).params = s.params := rfl
@[simp] theorem drivenCmd_trace (s : State) : (drivenCmd s).trace = s.trace := rfl
@[simp] theorem drivenCmd_stub (s : State) : (drivenCmd s).stub = s.stub := rfl
@[simp] theorem drivenCmd_port (s : State) : (drivenCmd s).port = s.port := rfl
@[simp] theorem drivenCmd_answers (s : State) : (drivenCmd s).answers = s.answers := rfl
@[simp] theorem drivenCmd_frames (s : State) : (drivenCmd s).frames = s.frames := rfl
@[simp] theorem drivenCmd_moves (s : State) : (drivenCmd s).moves = s.moves := rfl
@[simp] theorem drivenCmd_reads (s : State) : (drivenCmd s).reads = s.reads := rfl

@[simp] theorem setColumns_rx (x0 x1 : Half) (s : State) : (setColumns x0 x1 s).rx = s.rx := rfl
@[simp] theorem setColumns_ry (x0 x1 : Half) (s : State) : (setColumns x0 x1 s).ry = s.ry := rfl
@[simp] theorem setColumns_rw (x0 x1 : Half) (s : State) : (setColumns x0 x1 s).rw = s.rw := rfl
@[simp] theorem setColumns_rh (x0 x1 : Half) (s : State) : (setColumns x0 x1 s).rh = s.rh := rfl
@[simp] theorem setColumns_rc (x0 x1 : Half) (s : State) : (setColumns x0 x1 s).rc = s.rc := rfl
@[simp] theorem setColumns_wx0 (x0 x1 : Half) (s : State) : (setColumns x0 x1 s).wx0 = x0 := rfl
@[simp] theorem setColumns_wy0 (x0 x1 : Half) (s : State) : (setColumns x0 x1 s).wy0 = s.wy0 := rfl
@[simp] theorem setColumns_wx1 (x0 x1 : Half) (s : State) : (setColumns x0 x1 s).wx1 = x1 := rfl
@[simp] theorem setColumns_wy1 (x0 x1 : Half) (s : State) : (setColumns x0 x1 s).wy1 = s.wy1 := rfl
@[simp] theorem setColumns_rowbuf (x0 x1 : Half) (s : State) : (setColumns x0 x1 s).rowbuf = s.rowbuf := rfl
@[simp] theorem setColumns_rowlen (x0 x1 : Half) (s : State) : (setColumns x0 x1 s).rowlen = s.rowlen := rfl
@[simp] theorem setColumns_rows (x0 x1 : Half) (s : State) : (setColumns x0 x1 s).rows = s.rows := rfl
@[simp] theorem setColumns_row (x0 x1 : Half) (s : State) : (setColumns x0 x1 s).row = s.row := rfl
@[simp] theorem setColumns_sp (x0 x1 : Half) (s : State) : (setColumns x0 x1 s).sp = s.sp := rfl
@[simp] theorem setColumns_phase (x0 x1 : Half) (s : State) : (setColumns x0 x1 s).phase = s.phase := rfl
@[simp] theorem setColumns_mode (x0 x1 : Half) (s : State) : (setColumns x0 x1 s).mode = s.mode := rfl
@[simp] theorem setColumns_initDone (x0 x1 : Half) (s : State) : (setColumns x0 x1 s).initDone = s.initDone := rfl
@[simp] theorem setColumns_faultFlag (x0 x1 : Half) (s : State) : (setColumns x0 x1 s).faultFlag = s.faultFlag := rfl
@[simp] theorem setColumns_primed (x0 x1 : Half) (s : State) : (setColumns x0 x1 s).primed = s.primed := rfl
@[simp] theorem setColumns_dc (x0 x1 : Half) (s : State) : (setColumns x0 x1 s).dc = s.dc := rfl
@[simp] theorem setColumns_lastStatus (x0 x1 : Half) (s : State) : (setColumns x0 x1 s).lastStatus = s.lastStatus := rfl
@[simp] theorem setColumns_op (x0 x1 : Half) (s : State) : (setColumns x0 x1 s).op = s.op := rfl
@[simp] theorem setColumns_params (x0 x1 : Half) (s : State) : (setColumns x0 x1 s).params = s.params := rfl
@[simp] theorem setColumns_trace (x0 x1 : Half) (s : State) : (setColumns x0 x1 s).trace = s.trace := rfl
@[simp] theorem setColumns_stub (x0 x1 : Half) (s : State) : (setColumns x0 x1 s).stub = s.stub := rfl
@[simp] theorem setColumns_port (x0 x1 : Half) (s : State) : (setColumns x0 x1 s).port = s.port := rfl
@[simp] theorem setColumns_answers (x0 x1 : Half) (s : State) : (setColumns x0 x1 s).answers = s.answers := rfl
@[simp] theorem setColumns_frames (x0 x1 : Half) (s : State) : (setColumns x0 x1 s).frames = s.frames := rfl
@[simp] theorem setColumns_moves (x0 x1 : Half) (s : State) : (setColumns x0 x1 s).moves = s.moves := rfl
@[simp] theorem setColumns_reads (x0 x1 : Half) (s : State) : (setColumns x0 x1 s).reads = s.reads := rfl

@[simp] theorem setRows_rx (y0 y1 : Half) (s : State) : (setRows y0 y1 s).rx = s.rx := rfl
@[simp] theorem setRows_ry (y0 y1 : Half) (s : State) : (setRows y0 y1 s).ry = s.ry := rfl
@[simp] theorem setRows_rw (y0 y1 : Half) (s : State) : (setRows y0 y1 s).rw = s.rw := rfl
@[simp] theorem setRows_rh (y0 y1 : Half) (s : State) : (setRows y0 y1 s).rh = s.rh := rfl
@[simp] theorem setRows_rc (y0 y1 : Half) (s : State) : (setRows y0 y1 s).rc = s.rc := rfl
@[simp] theorem setRows_wx0 (y0 y1 : Half) (s : State) : (setRows y0 y1 s).wx0 = s.wx0 := rfl
@[simp] theorem setRows_wy0 (y0 y1 : Half) (s : State) : (setRows y0 y1 s).wy0 = y0 := rfl
@[simp] theorem setRows_wx1 (y0 y1 : Half) (s : State) : (setRows y0 y1 s).wx1 = s.wx1 := rfl
@[simp] theorem setRows_wy1 (y0 y1 : Half) (s : State) : (setRows y0 y1 s).wy1 = y1 := rfl
@[simp] theorem setRows_rowbuf (y0 y1 : Half) (s : State) : (setRows y0 y1 s).rowbuf = s.rowbuf := rfl
@[simp] theorem setRows_rowlen (y0 y1 : Half) (s : State) : (setRows y0 y1 s).rowlen = s.rowlen := rfl
@[simp] theorem setRows_rows (y0 y1 : Half) (s : State) : (setRows y0 y1 s).rows = s.rows := rfl
@[simp] theorem setRows_row (y0 y1 : Half) (s : State) : (setRows y0 y1 s).row = s.row := rfl
@[simp] theorem setRows_sp (y0 y1 : Half) (s : State) : (setRows y0 y1 s).sp = s.sp := rfl
@[simp] theorem setRows_phase (y0 y1 : Half) (s : State) : (setRows y0 y1 s).phase = s.phase := rfl
@[simp] theorem setRows_mode (y0 y1 : Half) (s : State) : (setRows y0 y1 s).mode = s.mode := rfl
@[simp] theorem setRows_initDone (y0 y1 : Half) (s : State) : (setRows y0 y1 s).initDone = s.initDone := rfl
@[simp] theorem setRows_faultFlag (y0 y1 : Half) (s : State) : (setRows y0 y1 s).faultFlag = s.faultFlag := rfl
@[simp] theorem setRows_primed (y0 y1 : Half) (s : State) : (setRows y0 y1 s).primed = s.primed := rfl
@[simp] theorem setRows_dc (y0 y1 : Half) (s : State) : (setRows y0 y1 s).dc = s.dc := rfl
@[simp] theorem setRows_lastStatus (y0 y1 : Half) (s : State) : (setRows y0 y1 s).lastStatus = s.lastStatus := rfl
@[simp] theorem setRows_op (y0 y1 : Half) (s : State) : (setRows y0 y1 s).op = s.op := rfl
@[simp] theorem setRows_params (y0 y1 : Half) (s : State) : (setRows y0 y1 s).params = s.params := rfl
@[simp] theorem setRows_trace (y0 y1 : Half) (s : State) : (setRows y0 y1 s).trace = s.trace := rfl
@[simp] theorem setRows_stub (y0 y1 : Half) (s : State) : (setRows y0 y1 s).stub = s.stub := rfl
@[simp] theorem setRows_port (y0 y1 : Half) (s : State) : (setRows y0 y1 s).port = s.port := rfl
@[simp] theorem setRows_answers (y0 y1 : Half) (s : State) : (setRows y0 y1 s).answers = s.answers := rfl
@[simp] theorem setRows_frames (y0 y1 : Half) (s : State) : (setRows y0 y1 s).frames = s.frames := rfl
@[simp] theorem setRows_moves (y0 y1 : Half) (s : State) : (setRows y0 y1 s).moves = s.moves := rfl
@[simp] theorem setRows_reads (y0 y1 : Half) (s : State) : (setRows y0 y1 s).reads = s.reads := rfl

@[simp] theorem setRowCounts_rx (l n : Half) (s : State) : (setRowCounts l n s).rx = s.rx := rfl
@[simp] theorem setRowCounts_ry (l n : Half) (s : State) : (setRowCounts l n s).ry = s.ry := rfl
@[simp] theorem setRowCounts_rw (l n : Half) (s : State) : (setRowCounts l n s).rw = s.rw := rfl
@[simp] theorem setRowCounts_rh (l n : Half) (s : State) : (setRowCounts l n s).rh = s.rh := rfl
@[simp] theorem setRowCounts_rc (l n : Half) (s : State) : (setRowCounts l n s).rc = s.rc := rfl
@[simp] theorem setRowCounts_wx0 (l n : Half) (s : State) : (setRowCounts l n s).wx0 = s.wx0 := rfl
@[simp] theorem setRowCounts_wy0 (l n : Half) (s : State) : (setRowCounts l n s).wy0 = s.wy0 := rfl
@[simp] theorem setRowCounts_wx1 (l n : Half) (s : State) : (setRowCounts l n s).wx1 = s.wx1 := rfl
@[simp] theorem setRowCounts_wy1 (l n : Half) (s : State) : (setRowCounts l n s).wy1 = s.wy1 := rfl
@[simp] theorem setRowCounts_rowbuf (l n : Half) (s : State) : (setRowCounts l n s).rowbuf = s.rowbuf := rfl
@[simp] theorem setRowCounts_rowlen (l n : Half) (s : State) : (setRowCounts l n s).rowlen = l := rfl
@[simp] theorem setRowCounts_rows (l n : Half) (s : State) : (setRowCounts l n s).rows = n := rfl
@[simp] theorem setRowCounts_row (l n : Half) (s : State) : (setRowCounts l n s).row = 0 := rfl
@[simp] theorem setRowCounts_sp (l n : Half) (s : State) : (setRowCounts l n s).sp = s.sp := rfl
@[simp] theorem setRowCounts_phase (l n : Half) (s : State) : (setRowCounts l n s).phase = s.phase := rfl
@[simp] theorem setRowCounts_mode (l n : Half) (s : State) : (setRowCounts l n s).mode = s.mode := rfl
@[simp] theorem setRowCounts_initDone (l n : Half) (s : State) : (setRowCounts l n s).initDone = s.initDone := rfl
@[simp] theorem setRowCounts_faultFlag (l n : Half) (s : State) : (setRowCounts l n s).faultFlag = s.faultFlag := rfl
@[simp] theorem setRowCounts_primed (l n : Half) (s : State) : (setRowCounts l n s).primed = s.primed := rfl
@[simp] theorem setRowCounts_dc (l n : Half) (s : State) : (setRowCounts l n s).dc = s.dc := rfl
@[simp] theorem setRowCounts_lastStatus (l n : Half) (s : State) : (setRowCounts l n s).lastStatus = s.lastStatus := rfl
@[simp] theorem setRowCounts_op (l n : Half) (s : State) : (setRowCounts l n s).op = s.op := rfl
@[simp] theorem setRowCounts_params (l n : Half) (s : State) : (setRowCounts l n s).params = s.params := rfl
@[simp] theorem setRowCounts_trace (l n : Half) (s : State) : (setRowCounts l n s).trace = s.trace := rfl
@[simp] theorem setRowCounts_stub (l n : Half) (s : State) : (setRowCounts l n s).stub = s.stub := rfl
@[simp] theorem setRowCounts_port (l n : Half) (s : State) : (setRowCounts l n s).port = s.port := rfl
@[simp] theorem setRowCounts_answers (l n : Half) (s : State) : (setRowCounts l n s).answers = s.answers := rfl
@[simp] theorem setRowCounts_frames (l n : Half) (s : State) : (setRowCounts l n s).frames = s.frames := rfl
@[simp] theorem setRowCounts_moves (l n : Half) (s : State) : (setRowCounts l n s).moves = s.moves := rfl
@[simp] theorem setRowCounts_reads (l n : Half) (s : State) : (setRowCounts l n s).reads = s.reads := rfl

@[simp] theorem packed_rx (cw ch : Nat) (c : Half) (s : State) : (packed cw ch c s).rx = s.rx := rfl
@[simp] theorem packed_ry (cw ch : Nat) (c : Half) (s : State) : (packed cw ch c s).ry = s.ry := rfl
@[simp] theorem packed_rw (cw ch : Nat) (c : Half) (s : State) : (packed cw ch c s).rw = s.rw := rfl
@[simp] theorem packed_rh (cw ch : Nat) (c : Half) (s : State) : (packed cw ch c s).rh = s.rh := rfl
@[simp] theorem packed_rc (cw ch : Nat) (c : Half) (s : State) : (packed cw ch c s).rc = s.rc := rfl
@[simp] theorem packed_wx0 (cw ch : Nat) (c : Half) (s : State) : (packed cw ch c s).wx0 = s.wx0 := rfl
@[simp] theorem packed_wy0 (cw ch : Nat) (c : Half) (s : State) : (packed cw ch c s).wy0 = s.wy0 := rfl
@[simp] theorem packed_wx1 (cw ch : Nat) (c : Half) (s : State) : (packed cw ch c s).wx1 = s.wx1 := rfl
@[simp] theorem packed_wy1 (cw ch : Nat) (c : Half) (s : State) : (packed cw ch c s).wy1 = s.wy1 := rfl
@[simp] theorem packed_rowbuf (cw ch : Nat) (c : Half) (s : State) : (packed cw ch c s).rowbuf = Memory.writeList s.rowbuf 0 (rowBytes cw c) := rfl
@[simp] theorem packed_rowlen (cw ch : Nat) (c : Half) (s : State) : (packed cw ch c s).rowlen = BitVec.ofNat 16 (2 * cw) := rfl
@[simp] theorem packed_rows (cw ch : Nat) (c : Half) (s : State) : (packed cw ch c s).rows = BitVec.ofNat 16 ch := rfl
@[simp] theorem packed_row (cw ch : Nat) (c : Half) (s : State) : (packed cw ch c s).row = 0 := rfl
@[simp] theorem packed_sp (cw ch : Nat) (c : Half) (s : State) : (packed cw ch c s).sp = s.sp := rfl
@[simp] theorem packed_phase (cw ch : Nat) (c : Half) (s : State) : (packed cw ch c s).phase = s.phase := rfl
@[simp] theorem packed_mode (cw ch : Nat) (c : Half) (s : State) : (packed cw ch c s).mode = s.mode := rfl
@[simp] theorem packed_initDone (cw ch : Nat) (c : Half) (s : State) : (packed cw ch c s).initDone = s.initDone := rfl
@[simp] theorem packed_faultFlag (cw ch : Nat) (c : Half) (s : State) : (packed cw ch c s).faultFlag = s.faultFlag := rfl
@[simp] theorem packed_primed (cw ch : Nat) (c : Half) (s : State) : (packed cw ch c s).primed = s.primed := rfl
@[simp] theorem packed_dc (cw ch : Nat) (c : Half) (s : State) : (packed cw ch c s).dc = s.dc := rfl
@[simp] theorem packed_lastStatus (cw ch : Nat) (c : Half) (s : State) : (packed cw ch c s).lastStatus = s.lastStatus := rfl
@[simp] theorem packed_op (cw ch : Nat) (c : Half) (s : State) : (packed cw ch c s).op = s.op := rfl
@[simp] theorem packed_params (cw ch : Nat) (c : Half) (s : State) : (packed cw ch c s).params = s.params := rfl
@[simp] theorem packed_trace (cw ch : Nat) (c : Half) (s : State) : (packed cw ch c s).trace = s.trace := rfl
@[simp] theorem packed_stub (cw ch : Nat) (c : Half) (s : State) : (packed cw ch c s).stub = s.stub := rfl
@[simp] theorem packed_port (cw ch : Nat) (c : Half) (s : State) : (packed cw ch c s).port = s.port := rfl
@[simp] theorem packed_answers (cw ch : Nat) (c : Half) (s : State) : (packed cw ch c s).answers = s.answers := rfl
@[simp] theorem packed_frames (cw ch : Nat) (c : Half) (s : State) : (packed cw ch c s).frames = s.frames := rfl
@[simp] theorem packed_moves (cw ch : Nat) (c : Half) (s : State) : (packed cw ch c s).moves = s.moves := rfl
@[simp] theorem packed_reads (cw ch : Nat) (c : Half) (s : State) : (packed cw ch c s).reads = s.reads := rfl

@[simp] theorem glimpse_rx (s : State) : (glimpse s).rx = s.rx := rfl
@[simp] theorem glimpse_ry (s : State) : (glimpse s).ry = s.ry := rfl
@[simp] theorem glimpse_rw (s : State) : (glimpse s).rw = s.rw := rfl
@[simp] theorem glimpse_rh (s : State) : (glimpse s).rh = s.rh := rfl
@[simp] theorem glimpse_rc (s : State) : (glimpse s).rc = s.rc := rfl
@[simp] theorem glimpse_wx0 (s : State) : (glimpse s).wx0 = s.wx0 := rfl
@[simp] theorem glimpse_wy0 (s : State) : (glimpse s).wy0 = s.wy0 := rfl
@[simp] theorem glimpse_wx1 (s : State) : (glimpse s).wx1 = s.wx1 := rfl
@[simp] theorem glimpse_wy1 (s : State) : (glimpse s).wy1 = s.wy1 := rfl
@[simp] theorem glimpse_rowbuf (s : State) : (glimpse s).rowbuf = s.rowbuf := rfl
@[simp] theorem glimpse_rowlen (s : State) : (glimpse s).rowlen = s.rowlen := rfl
@[simp] theorem glimpse_rows (s : State) : (glimpse s).rows = s.rows := rfl
@[simp] theorem glimpse_row (s : State) : (glimpse s).row = s.row := rfl
@[simp] theorem glimpse_sp (s : State) : (glimpse s).sp = s.sp := rfl
@[simp] theorem glimpse_phase (s : State) : (glimpse s).phase = s.phase := rfl
@[simp] theorem glimpse_mode (s : State) : (glimpse s).mode = s.mode := rfl
@[simp] theorem glimpse_initDone (s : State) : (glimpse s).initDone = s.initDone := rfl
@[simp] theorem glimpse_faultFlag (s : State) : (glimpse s).faultFlag = s.faultFlag := rfl
@[simp] theorem glimpse_primed (s : State) : (glimpse s).primed = s.primed := rfl
@[simp] theorem glimpse_dc (s : State) : (glimpse s).dc = s.dc := rfl
@[simp] theorem glimpse_lastStatus (s : State) : (glimpse s).lastStatus = s.lastStatus := rfl
@[simp] theorem glimpse_op (s : State) : (glimpse s).op = s.op := rfl
@[simp] theorem glimpse_params (s : State) : (glimpse s).params = s.params := rfl
@[simp] theorem glimpse_trace (s : State) : (glimpse s).trace = s.trace := rfl
@[simp] theorem glimpse_stub (s : State) : (glimpse s).stub = s.stub := rfl
@[simp] theorem glimpse_port (s : State) : (glimpse s).port = s.port := rfl
@[simp] theorem glimpse_answers (s : State) : (glimpse s).answers = s.answers := rfl
@[simp] theorem glimpse_frames (s : State) : (glimpse s).frames = s.frames := rfl

@[simp] theorem enterPhase_rx (ph : Phase) (s : State) : (enterPhase ph s).rx = s.rx := rfl
@[simp] theorem enterPhase_ry (ph : Phase) (s : State) : (enterPhase ph s).ry = s.ry := rfl
@[simp] theorem enterPhase_rw (ph : Phase) (s : State) : (enterPhase ph s).rw = s.rw := rfl
@[simp] theorem enterPhase_rh (ph : Phase) (s : State) : (enterPhase ph s).rh = s.rh := rfl
@[simp] theorem enterPhase_rc (ph : Phase) (s : State) : (enterPhase ph s).rc = s.rc := rfl
@[simp] theorem enterPhase_wx0 (ph : Phase) (s : State) : (enterPhase ph s).wx0 = s.wx0 := rfl
@[simp] theorem enterPhase_wy0 (ph : Phase) (s : State) : (enterPhase ph s).wy0 = s.wy0 := rfl
@[simp] theorem enterPhase_wx1 (ph : Phase) (s : State) : (enterPhase ph s).wx1 = s.wx1 := rfl
@[simp] theorem enterPhase_wy1 (ph : Phase) (s : State) : (enterPhase ph s).wy1 = s.wy1 := rfl
@[simp] theorem enterPhase_rowbuf (ph : Phase) (s : State) : (enterPhase ph s).rowbuf = s.rowbuf := rfl
@[simp] theorem enterPhase_rowlen (ph : Phase) (s : State) : (enterPhase ph s).rowlen = s.rowlen := rfl
@[simp] theorem enterPhase_rows (ph : Phase) (s : State) : (enterPhase ph s).rows = s.rows := rfl
@[simp] theorem enterPhase_row (ph : Phase) (s : State) : (enterPhase ph s).row = s.row := rfl
@[simp] theorem enterPhase_sp (ph : Phase) (s : State) : (enterPhase ph s).sp = s.sp := rfl
@[simp] theorem enterPhase_phase (ph : Phase) (s : State) : (enterPhase ph s).phase = ph := rfl
@[simp] theorem enterPhase_mode (ph : Phase) (s : State) : (enterPhase ph s).mode = s.mode := rfl
@[simp] theorem enterPhase_initDone (ph : Phase) (s : State) : (enterPhase ph s).initDone = s.initDone := rfl
@[simp] theorem enterPhase_faultFlag (ph : Phase) (s : State) : (enterPhase ph s).faultFlag = s.faultFlag := rfl
@[simp] theorem enterPhase_primed (ph : Phase) (s : State) : (enterPhase ph s).primed = s.primed := rfl
@[simp] theorem enterPhase_dc (ph : Phase) (s : State) : (enterPhase ph s).dc = s.dc := rfl
@[simp] theorem enterPhase_lastStatus (ph : Phase) (s : State) : (enterPhase ph s).lastStatus = s.lastStatus := rfl
@[simp] theorem enterPhase_op (ph : Phase) (s : State) : (enterPhase ph s).op = s.op := rfl
@[simp] theorem enterPhase_params (ph : Phase) (s : State) : (enterPhase ph s).params = s.params := rfl
@[simp] theorem enterPhase_trace (ph : Phase) (s : State) : (enterPhase ph s).trace = s.trace := rfl
@[simp] theorem enterPhase_stub (ph : Phase) (s : State) : (enterPhase ph s).stub = s.stub := rfl
@[simp] theorem enterPhase_port (ph : Phase) (s : State) : (enterPhase ph s).port = s.port := rfl
@[simp] theorem enterPhase_answers (ph : Phase) (s : State) : (enterPhase ph s).answers = s.answers := rfl
@[simp] theorem enterPhase_frames (ph : Phase) (s : State) : (enterPhase ph s).frames = s.frames := rfl

@[simp] theorem completing_rx (s : State) : (completing s).rx = s.rx := rfl
@[simp] theorem completing_ry (s : State) : (completing s).ry = s.ry := rfl
@[simp] theorem completing_rw (s : State) : (completing s).rw = s.rw := rfl
@[simp] theorem completing_rh (s : State) : (completing s).rh = s.rh := rfl
@[simp] theorem completing_rc (s : State) : (completing s).rc = s.rc := rfl
@[simp] theorem completing_wx0 (s : State) : (completing s).wx0 = s.wx0 := rfl
@[simp] theorem completing_wy0 (s : State) : (completing s).wy0 = s.wy0 := rfl
@[simp] theorem completing_wx1 (s : State) : (completing s).wx1 = s.wx1 := rfl
@[simp] theorem completing_wy1 (s : State) : (completing s).wy1 = s.wy1 := rfl
@[simp] theorem completing_rowbuf (s : State) : (completing s).rowbuf = s.rowbuf := rfl
@[simp] theorem completing_rowlen (s : State) : (completing s).rowlen = s.rowlen := rfl
@[simp] theorem completing_rows (s : State) : (completing s).rows = s.rows := rfl
@[simp] theorem completing_row (s : State) : (completing s).row = s.row := rfl
@[simp] theorem completing_sp (s : State) : (completing s).sp = s.sp := rfl
@[simp] theorem completing_phase (s : State) : (completing s).phase = .none := rfl
@[simp] theorem completing_mode (s : State) : (completing s).mode = .idle := rfl
@[simp] theorem completing_initDone (s : State) : (completing s).initDone = s.initDone := rfl
@[simp] theorem completing_faultFlag (s : State) : (completing s).faultFlag = s.faultFlag := rfl
@[simp] theorem completing_primed (s : State) : (completing s).primed = s.primed := rfl
@[simp] theorem completing_dc (s : State) : (completing s).dc = s.dc := rfl
@[simp] theorem completing_lastStatus (s : State) : (completing s).lastStatus = s.lastStatus := rfl
@[simp] theorem completing_op (s : State) : (completing s).op = s.op := rfl
@[simp] theorem completing_params (s : State) : (completing s).params = s.params := rfl
@[simp] theorem completing_trace (s : State) : (completing s).trace = s.trace := rfl
@[simp] theorem completing_stub (s : State) : (completing s).stub = s.stub := rfl
@[simp] theorem completing_port (s : State) : (completing s).port = s.port := rfl
@[simp] theorem completing_answers (s : State) : (completing s).answers = s.answers := rfl
@[simp] theorem completing_frames (s : State) : (completing s).frames = s.frames := rfl

@[simp] theorem halting_rx (s : State) : (halting s).rx = s.rx := rfl
@[simp] theorem halting_ry (s : State) : (halting s).ry = s.ry := rfl
@[simp] theorem halting_rw (s : State) : (halting s).rw = s.rw := rfl
@[simp] theorem halting_rh (s : State) : (halting s).rh = s.rh := rfl
@[simp] theorem halting_rc (s : State) : (halting s).rc = s.rc := rfl
@[simp] theorem halting_wx0 (s : State) : (halting s).wx0 = s.wx0 := rfl
@[simp] theorem halting_wy0 (s : State) : (halting s).wy0 = s.wy0 := rfl
@[simp] theorem halting_wx1 (s : State) : (halting s).wx1 = s.wx1 := rfl
@[simp] theorem halting_wy1 (s : State) : (halting s).wy1 = s.wy1 := rfl
@[simp] theorem halting_rowbuf (s : State) : (halting s).rowbuf = s.rowbuf := rfl
@[simp] theorem halting_rowlen (s : State) : (halting s).rowlen = s.rowlen := rfl
@[simp] theorem halting_rows (s : State) : (halting s).rows = s.rows := rfl
@[simp] theorem halting_row (s : State) : (halting s).row = s.row := rfl
@[simp] theorem halting_sp (s : State) : (halting s).sp = s.sp := rfl
@[simp] theorem halting_phase (s : State) : (halting s).phase = s.phase := rfl
@[simp] theorem halting_mode (s : State) : (halting s).mode = .halted := rfl
@[simp] theorem halting_initDone (s : State) : (halting s).initDone = s.initDone := rfl
@[simp] theorem halting_faultFlag (s : State) : (halting s).faultFlag = true := rfl
@[simp] theorem halting_primed (s : State) : (halting s).primed = false := rfl
@[simp] theorem halting_dc (s : State) : (halting s).dc = s.dc := rfl
@[simp] theorem halting_lastStatus (s : State) : (halting s).lastStatus = s.lastStatus := rfl
@[simp] theorem halting_op (s : State) : (halting s).op = s.op := rfl
@[simp] theorem halting_params (s : State) : (halting s).params = s.params := rfl
@[simp] theorem halting_trace (s : State) : (halting s).trace = s.trace := rfl
@[simp] theorem halting_stub (s : State) : (halting s).stub = s.stub := rfl
@[simp] theorem halting_port (s : State) : (halting s).port = s.port := rfl
@[simp] theorem halting_answers (s : State) : (halting s).answers = s.answers := rfl
@[simp] theorem halting_frames (s : State) : (halting s).frames = s.frames := rfl

@[simp] theorem setPhase_rx (ph : Phase) (s : State) : (setPhase ph s).rx = s.rx := rfl
@[simp] theorem setPhase_ry (ph : Phase) (s : State) : (setPhase ph s).ry = s.ry := rfl
@[simp] theorem setPhase_rw (ph : Phase) (s : State) : (setPhase ph s).rw = s.rw := rfl
@[simp] theorem setPhase_rh (ph : Phase) (s : State) : (setPhase ph s).rh = s.rh := rfl
@[simp] theorem setPhase_rc (ph : Phase) (s : State) : (setPhase ph s).rc = s.rc := rfl
@[simp] theorem setPhase_wx0 (ph : Phase) (s : State) : (setPhase ph s).wx0 = s.wx0 := rfl
@[simp] theorem setPhase_wy0 (ph : Phase) (s : State) : (setPhase ph s).wy0 = s.wy0 := rfl
@[simp] theorem setPhase_wx1 (ph : Phase) (s : State) : (setPhase ph s).wx1 = s.wx1 := rfl
@[simp] theorem setPhase_wy1 (ph : Phase) (s : State) : (setPhase ph s).wy1 = s.wy1 := rfl
@[simp] theorem setPhase_rowbuf (ph : Phase) (s : State) : (setPhase ph s).rowbuf = s.rowbuf := rfl
@[simp] theorem setPhase_rowlen (ph : Phase) (s : State) : (setPhase ph s).rowlen = s.rowlen := rfl
@[simp] theorem setPhase_rows (ph : Phase) (s : State) : (setPhase ph s).rows = s.rows := rfl
@[simp] theorem setPhase_row (ph : Phase) (s : State) : (setPhase ph s).row = s.row := rfl
@[simp] theorem setPhase_sp (ph : Phase) (s : State) : (setPhase ph s).sp = s.sp := rfl
@[simp] theorem setPhase_phase (ph : Phase) (s : State) : (setPhase ph s).phase = ph := rfl
@[simp] theorem setPhase_mode (ph : Phase) (s : State) : (setPhase ph s).mode = s.mode := rfl
@[simp] theorem setPhase_initDone (ph : Phase) (s : State) : (setPhase ph s).initDone = s.initDone := rfl
@[simp] theorem setPhase_faultFlag (ph : Phase) (s : State) : (setPhase ph s).faultFlag = s.faultFlag := rfl
@[simp] theorem setPhase_primed (ph : Phase) (s : State) : (setPhase ph s).primed = s.primed := rfl
@[simp] theorem setPhase_dc (ph : Phase) (s : State) : (setPhase ph s).dc = s.dc := rfl
@[simp] theorem setPhase_lastStatus (ph : Phase) (s : State) : (setPhase ph s).lastStatus = s.lastStatus := rfl
@[simp] theorem setPhase_op (ph : Phase) (s : State) : (setPhase ph s).op = s.op := rfl
@[simp] theorem setPhase_params (ph : Phase) (s : State) : (setPhase ph s).params = s.params := rfl
@[simp] theorem setPhase_trace (ph : Phase) (s : State) : (setPhase ph s).trace = s.trace := rfl
@[simp] theorem setPhase_stub (ph : Phase) (s : State) : (setPhase ph s).stub = s.stub := rfl
@[simp] theorem setPhase_port (ph : Phase) (s : State) : (setPhase ph s).port = s.port := rfl
@[simp] theorem setPhase_answers (ph : Phase) (s : State) : (setPhase ph s).answers = s.answers := rfl
@[simp] theorem setPhase_frames (ph : Phase) (s : State) : (setPhase ph s).frames = s.frames := rfl
@[simp] theorem setPhase_moves (ph : Phase) (s : State) : (setPhase ph s).moves = s.moves := rfl
@[simp] theorem setPhase_reads (ph : Phase) (s : State) : (setPhase ph s).reads = s.reads := rfl

@[simp] theorem setPrimed_rx (v : Bool) (s : State) : (setPrimed v s).rx = s.rx := rfl
@[simp] theorem setPrimed_ry (v : Bool) (s : State) : (setPrimed v s).ry = s.ry := rfl
@[simp] theorem setPrimed_rw (v : Bool) (s : State) : (setPrimed v s).rw = s.rw := rfl
@[simp] theorem setPrimed_rh (v : Bool) (s : State) : (setPrimed v s).rh = s.rh := rfl
@[simp] theorem setPrimed_rc (v : Bool) (s : State) : (setPrimed v s).rc = s.rc := rfl
@[simp] theorem setPrimed_wx0 (v : Bool) (s : State) : (setPrimed v s).wx0 = s.wx0 := rfl
@[simp] theorem setPrimed_wy0 (v : Bool) (s : State) : (setPrimed v s).wy0 = s.wy0 := rfl
@[simp] theorem setPrimed_wx1 (v : Bool) (s : State) : (setPrimed v s).wx1 = s.wx1 := rfl
@[simp] theorem setPrimed_wy1 (v : Bool) (s : State) : (setPrimed v s).wy1 = s.wy1 := rfl
@[simp] theorem setPrimed_rowbuf (v : Bool) (s : State) : (setPrimed v s).rowbuf = s.rowbuf := rfl
@[simp] theorem setPrimed_rowlen (v : Bool) (s : State) : (setPrimed v s).rowlen = s.rowlen := rfl
@[simp] theorem setPrimed_rows (v : Bool) (s : State) : (setPrimed v s).rows = s.rows := rfl
@[simp] theorem setPrimed_row (v : Bool) (s : State) : (setPrimed v s).row = s.row := rfl
@[simp] theorem setPrimed_sp (v : Bool) (s : State) : (setPrimed v s).sp = s.sp := rfl
@[simp] theorem setPrimed_phase (v : Bool) (s : State) : (setPrimed v s).phase = s.phase := rfl
@[simp] theorem setPrimed_mode (v : Bool) (s : State) : (setPrimed v s).mode = s.mode := rfl
@[simp] theorem setPrimed_initDone (v : Bool) (s : State) : (setPrimed v s).initDone = s.initDone := rfl
@[simp] theorem setPrimed_faultFlag (v : Bool) (s : State) : (setPrimed v s).faultFlag = s.faultFlag := rfl
@[simp] theorem setPrimed_primed (v : Bool) (s : State) : (setPrimed v s).primed = v := rfl
@[simp] theorem setPrimed_dc (v : Bool) (s : State) : (setPrimed v s).dc = s.dc := rfl
@[simp] theorem setPrimed_lastStatus (v : Bool) (s : State) : (setPrimed v s).lastStatus = s.lastStatus := rfl
@[simp] theorem setPrimed_op (v : Bool) (s : State) : (setPrimed v s).op = s.op := rfl
@[simp] theorem setPrimed_params (v : Bool) (s : State) : (setPrimed v s).params = s.params := rfl
@[simp] theorem setPrimed_trace (v : Bool) (s : State) : (setPrimed v s).trace = s.trace := rfl
@[simp] theorem setPrimed_stub (v : Bool) (s : State) : (setPrimed v s).stub = s.stub := rfl
@[simp] theorem setPrimed_port (v : Bool) (s : State) : (setPrimed v s).port = s.port := rfl
@[simp] theorem setPrimed_answers (v : Bool) (s : State) : (setPrimed v s).answers = s.answers := rfl
@[simp] theorem setPrimed_frames (v : Bool) (s : State) : (setPrimed v s).frames = s.frames := rfl
@[simp] theorem setPrimed_moves (v : Bool) (s : State) : (setPrimed v s).moves = s.moves := rfl
@[simp] theorem setPrimed_reads (v : Bool) (s : State) : (setPrimed v s).reads = s.reads := rfl

@[simp] theorem setInitDone_rx (v : Bool) (s : State) : (setInitDone v s).rx = s.rx := rfl
@[simp] theorem setInitDone_ry (v : Bool) (s : State) : (setInitDone v s).ry = s.ry := rfl
@[simp] theorem setInitDone_rw (v : Bool) (s : State) : (setInitDone v s).rw = s.rw := rfl
@[simp] theorem setInitDone_rh (v : Bool) (s : State) : (setInitDone v s).rh = s.rh := rfl
@[simp] theorem setInitDone_rc (v : Bool) (s : State) : (setInitDone v s).rc = s.rc := rfl
@[simp] theorem setInitDone_wx0 (v : Bool) (s : State) : (setInitDone v s).wx0 = s.wx0 := rfl
@[simp] theorem setInitDone_wy0 (v : Bool) (s : State) : (setInitDone v s).wy0 = s.wy0 := rfl
@[simp] theorem setInitDone_wx1 (v : Bool) (s : State) : (setInitDone v s).wx1 = s.wx1 := rfl
@[simp] theorem setInitDone_wy1 (v : Bool) (s : State) : (setInitDone v s).wy1 = s.wy1 := rfl
@[simp] theorem setInitDone_rowbuf (v : Bool) (s : State) : (setInitDone v s).rowbuf = s.rowbuf := rfl
@[simp] theorem setInitDone_rowlen (v : Bool) (s : State) : (setInitDone v s).rowlen = s.rowlen := rfl
@[simp] theorem setInitDone_rows (v : Bool) (s : State) : (setInitDone v s).rows = s.rows := rfl
@[simp] theorem setInitDone_row (v : Bool) (s : State) : (setInitDone v s).row = s.row := rfl
@[simp] theorem setInitDone_sp (v : Bool) (s : State) : (setInitDone v s).sp = s.sp := rfl
@[simp] theorem setInitDone_phase (v : Bool) (s : State) : (setInitDone v s).phase = s.phase := rfl
@[simp] theorem setInitDone_mode (v : Bool) (s : State) : (setInitDone v s).mode = s.mode := rfl
@[simp] theorem setInitDone_initDone (v : Bool) (s : State) : (setInitDone v s).initDone = v := rfl
@[simp] theorem setInitDone_faultFlag (v : Bool) (s : State) : (setInitDone v s).faultFlag = s.faultFlag := rfl
@[simp] theorem setInitDone_primed (v : Bool) (s : State) : (setInitDone v s).primed = s.primed := rfl
@[simp] theorem setInitDone_dc (v : Bool) (s : State) : (setInitDone v s).dc = s.dc := rfl
@[simp] theorem setInitDone_lastStatus (v : Bool) (s : State) : (setInitDone v s).lastStatus = s.lastStatus := rfl
@[simp] theorem setInitDone_op (v : Bool) (s : State) : (setInitDone v s).op = s.op := rfl
@[simp] theorem setInitDone_params (v : Bool) (s : State) : (setInitDone v s).params = s.params := rfl
@[simp] theorem setInitDone_trace (v : Bool) (s : State) : (setInitDone v s).trace = s.trace := rfl
@[simp] theorem setInitDone_stub (v : Bool) (s : State) : (setInitDone v s).stub = s.stub := rfl
@[simp] theorem setInitDone_port (v : Bool) (s : State) : (setInitDone v s).port = s.port := rfl
@[simp] theorem setInitDone_answers (v : Bool) (s : State) : (setInitDone v s).answers = s.answers := rfl
@[simp] theorem setInitDone_frames (v : Bool) (s : State) : (setInitDone v s).frames = s.frames := rfl
@[simp] theorem setInitDone_moves (v : Bool) (s : State) : (setInitDone v s).moves = s.moves := rfl
@[simp] theorem setInitDone_reads (v : Bool) (s : State) : (setInitDone v s).reads = s.reads := rfl

@[simp] theorem setSp_rx (i : Byte) (s : State) : (setSp i s).rx = s.rx := rfl
@[simp] theorem setSp_ry (i : Byte) (s : State) : (setSp i s).ry = s.ry := rfl
@[simp] theorem setSp_rw (i : Byte) (s : State) : (setSp i s).rw = s.rw := rfl
@[simp] theorem setSp_rh (i : Byte) (s : State) : (setSp i s).rh = s.rh := rfl
@[simp] theorem setSp_rc (i : Byte) (s : State) : (setSp i s).rc = s.rc := rfl
@[simp] theorem setSp_wx0 (i : Byte) (s : State) : (setSp i s).wx0 = s.wx0 := rfl
@[simp] theorem setSp_wy0 (i : Byte) (s : State) : (setSp i s).wy0 = s.wy0 := rfl
@[simp] theorem setSp_wx1 (i : Byte) (s : State) : (setSp i s).wx1 = s.wx1 := rfl
@[simp] theorem setSp_wy1 (i : Byte) (s : State) : (setSp i s).wy1 = s.wy1 := rfl
@[simp] theorem setSp_rowbuf (i : Byte) (s : State) : (setSp i s).rowbuf = s.rowbuf := rfl
@[simp] theorem setSp_rowlen (i : Byte) (s : State) : (setSp i s).rowlen = s.rowlen := rfl
@[simp] theorem setSp_rows (i : Byte) (s : State) : (setSp i s).rows = s.rows := rfl
@[simp] theorem setSp_row (i : Byte) (s : State) : (setSp i s).row = s.row := rfl
@[simp] theorem setSp_sp (i : Byte) (s : State) : (setSp i s).sp = i := rfl
@[simp] theorem setSp_phase (i : Byte) (s : State) : (setSp i s).phase = s.phase := rfl
@[simp] theorem setSp_mode (i : Byte) (s : State) : (setSp i s).mode = s.mode := rfl
@[simp] theorem setSp_initDone (i : Byte) (s : State) : (setSp i s).initDone = s.initDone := rfl
@[simp] theorem setSp_faultFlag (i : Byte) (s : State) : (setSp i s).faultFlag = s.faultFlag := rfl
@[simp] theorem setSp_primed (i : Byte) (s : State) : (setSp i s).primed = s.primed := rfl
@[simp] theorem setSp_dc (i : Byte) (s : State) : (setSp i s).dc = s.dc := rfl
@[simp] theorem setSp_lastStatus (i : Byte) (s : State) : (setSp i s).lastStatus = s.lastStatus := rfl
@[simp] theorem setSp_op (i : Byte) (s : State) : (setSp i s).op = s.op := rfl
@[simp] theorem setSp_params (i : Byte) (s : State) : (setSp i s).params = s.params := rfl
@[simp] theorem setSp_trace (i : Byte) (s : State) : (setSp i s).trace = s.trace := rfl
@[simp] theorem setSp_stub (i : Byte) (s : State) : (setSp i s).stub = s.stub := rfl
@[simp] theorem setSp_port (i : Byte) (s : State) : (setSp i s).port = s.port := rfl
@[simp] theorem setSp_answers (i : Byte) (s : State) : (setSp i s).answers = s.answers := rfl
@[simp] theorem setSp_frames (i : Byte) (s : State) : (setSp i s).frames = s.frames := rfl
@[simp] theorem setSp_moves (i : Byte) (s : State) : (setSp i s).moves = s.moves := rfl
@[simp] theorem setSp_reads (i : Byte) (s : State) : (setSp i s).reads = s.reads := rfl

@[simp] theorem writeColumns_rx (x0 x1 : Half) (s : State) : (writeColumns x0 x1 s).rx = s.rx := rfl
@[simp] theorem writeColumns_ry (x0 x1 : Half) (s : State) : (writeColumns x0 x1 s).ry = s.ry := rfl
@[simp] theorem writeColumns_rw (x0 x1 : Half) (s : State) : (writeColumns x0 x1 s).rw = s.rw := rfl
@[simp] theorem writeColumns_rh (x0 x1 : Half) (s : State) : (writeColumns x0 x1 s).rh = s.rh := rfl
@[simp] theorem writeColumns_rc (x0 x1 : Half) (s : State) : (writeColumns x0 x1 s).rc = s.rc := rfl
@[simp] theorem writeColumns_wx0 (x0 x1 : Half) (s : State) : (writeColumns x0 x1 s).wx0 = x0 := rfl
@[simp] theorem writeColumns_wy0 (x0 x1 : Half) (s : State) : (writeColumns x0 x1 s).wy0 = s.wy0 := rfl
@[simp] theorem writeColumns_wx1 (x0 x1 : Half) (s : State) : (writeColumns x0 x1 s).wx1 = x1 := rfl
@[simp] theorem writeColumns_wy1 (x0 x1 : Half) (s : State) : (writeColumns x0 x1 s).wy1 = s.wy1 := rfl
@[simp] theorem writeColumns_rowbuf (x0 x1 : Half) (s : State) : (writeColumns x0 x1 s).rowbuf = s.rowbuf := rfl
@[simp] theorem writeColumns_rowlen (x0 x1 : Half) (s : State) : (writeColumns x0 x1 s).rowlen = s.rowlen := rfl
@[simp] theorem writeColumns_rows (x0 x1 : Half) (s : State) : (writeColumns x0 x1 s).rows = s.rows := rfl
@[simp] theorem writeColumns_row (x0 x1 : Half) (s : State) : (writeColumns x0 x1 s).row = s.row := rfl
@[simp] theorem writeColumns_sp (x0 x1 : Half) (s : State) : (writeColumns x0 x1 s).sp = s.sp := rfl
@[simp] theorem writeColumns_phase (x0 x1 : Half) (s : State) : (writeColumns x0 x1 s).phase = s.phase := rfl
@[simp] theorem writeColumns_mode (x0 x1 : Half) (s : State) : (writeColumns x0 x1 s).mode = s.mode := rfl
@[simp] theorem writeColumns_initDone (x0 x1 : Half) (s : State) : (writeColumns x0 x1 s).initDone = s.initDone := rfl
@[simp] theorem writeColumns_faultFlag (x0 x1 : Half) (s : State) : (writeColumns x0 x1 s).faultFlag = s.faultFlag := rfl
@[simp] theorem writeColumns_primed (x0 x1 : Half) (s : State) : (writeColumns x0 x1 s).primed = s.primed := rfl
@[simp] theorem writeColumns_dc (x0 x1 : Half) (s : State) : (writeColumns x0 x1 s).dc = s.dc := rfl
@[simp] theorem writeColumns_lastStatus (x0 x1 : Half) (s : State) : (writeColumns x0 x1 s).lastStatus = s.lastStatus := rfl
@[simp] theorem writeColumns_op (x0 x1 : Half) (s : State) : (writeColumns x0 x1 s).op = s.op := rfl
@[simp] theorem writeColumns_params (x0 x1 : Half) (s : State) : (writeColumns x0 x1 s).params = s.params := rfl
@[simp] theorem writeColumns_trace (x0 x1 : Half) (s : State) : (writeColumns x0 x1 s).trace = s.trace := rfl
@[simp] theorem writeColumns_stub (x0 x1 : Half) (s : State) : (writeColumns x0 x1 s).stub = s.stub := rfl
@[simp] theorem writeColumns_port (x0 x1 : Half) (s : State) : (writeColumns x0 x1 s).port = s.port := rfl
@[simp] theorem writeColumns_answers (x0 x1 : Half) (s : State) : (writeColumns x0 x1 s).answers = s.answers := rfl
@[simp] theorem writeColumns_frames (x0 x1 : Half) (s : State) : (writeColumns x0 x1 s).frames = s.frames := rfl

@[simp] theorem writeRows_rx (y0 y1 : Half) (s : State) : (writeRows y0 y1 s).rx = s.rx := rfl
@[simp] theorem writeRows_ry (y0 y1 : Half) (s : State) : (writeRows y0 y1 s).ry = s.ry := rfl
@[simp] theorem writeRows_rw (y0 y1 : Half) (s : State) : (writeRows y0 y1 s).rw = s.rw := rfl
@[simp] theorem writeRows_rh (y0 y1 : Half) (s : State) : (writeRows y0 y1 s).rh = s.rh := rfl
@[simp] theorem writeRows_rc (y0 y1 : Half) (s : State) : (writeRows y0 y1 s).rc = s.rc := rfl
@[simp] theorem writeRows_wx0 (y0 y1 : Half) (s : State) : (writeRows y0 y1 s).wx0 = s.wx0 := rfl
@[simp] theorem writeRows_wy0 (y0 y1 : Half) (s : State) : (writeRows y0 y1 s).wy0 = y0 := rfl
@[simp] theorem writeRows_wx1 (y0 y1 : Half) (s : State) : (writeRows y0 y1 s).wx1 = s.wx1 := rfl
@[simp] theorem writeRows_wy1 (y0 y1 : Half) (s : State) : (writeRows y0 y1 s).wy1 = y1 := rfl
@[simp] theorem writeRows_rowbuf (y0 y1 : Half) (s : State) : (writeRows y0 y1 s).rowbuf = s.rowbuf := rfl
@[simp] theorem writeRows_rowlen (y0 y1 : Half) (s : State) : (writeRows y0 y1 s).rowlen = s.rowlen := rfl
@[simp] theorem writeRows_rows (y0 y1 : Half) (s : State) : (writeRows y0 y1 s).rows = s.rows := rfl
@[simp] theorem writeRows_row (y0 y1 : Half) (s : State) : (writeRows y0 y1 s).row = s.row := rfl
@[simp] theorem writeRows_sp (y0 y1 : Half) (s : State) : (writeRows y0 y1 s).sp = s.sp := rfl
@[simp] theorem writeRows_phase (y0 y1 : Half) (s : State) : (writeRows y0 y1 s).phase = s.phase := rfl
@[simp] theorem writeRows_mode (y0 y1 : Half) (s : State) : (writeRows y0 y1 s).mode = s.mode := rfl
@[simp] theorem writeRows_initDone (y0 y1 : Half) (s : State) : (writeRows y0 y1 s).initDone = s.initDone := rfl
@[simp] theorem writeRows_faultFlag (y0 y1 : Half) (s : State) : (writeRows y0 y1 s).faultFlag = s.faultFlag := rfl
@[simp] theorem writeRows_primed (y0 y1 : Half) (s : State) : (writeRows y0 y1 s).primed = s.primed := rfl
@[simp] theorem writeRows_dc (y0 y1 : Half) (s : State) : (writeRows y0 y1 s).dc = s.dc := rfl
@[simp] theorem writeRows_lastStatus (y0 y1 : Half) (s : State) : (writeRows y0 y1 s).lastStatus = s.lastStatus := rfl
@[simp] theorem writeRows_op (y0 y1 : Half) (s : State) : (writeRows y0 y1 s).op = s.op := rfl
@[simp] theorem writeRows_params (y0 y1 : Half) (s : State) : (writeRows y0 y1 s).params = s.params := rfl
@[simp] theorem writeRows_trace (y0 y1 : Half) (s : State) : (writeRows y0 y1 s).trace = s.trace := rfl
@[simp] theorem writeRows_stub (y0 y1 : Half) (s : State) : (writeRows y0 y1 s).stub = s.stub := rfl
@[simp] theorem writeRows_port (y0 y1 : Half) (s : State) : (writeRows y0 y1 s).port = s.port := rfl
@[simp] theorem writeRows_answers (y0 y1 : Half) (s : State) : (writeRows y0 y1 s).answers = s.answers := rfl
@[simp] theorem writeRows_frames (y0 y1 : Half) (s : State) : (writeRows y0 y1 s).frames = s.frames := rfl

@[simp] theorem countRow_rx (s : State) : (countRow s).rx = s.rx := rfl
@[simp] theorem countRow_ry (s : State) : (countRow s).ry = s.ry := rfl
@[simp] theorem countRow_rw (s : State) : (countRow s).rw = s.rw := rfl
@[simp] theorem countRow_rh (s : State) : (countRow s).rh = s.rh := rfl
@[simp] theorem countRow_rc (s : State) : (countRow s).rc = s.rc := rfl
@[simp] theorem countRow_wx0 (s : State) : (countRow s).wx0 = s.wx0 := rfl
@[simp] theorem countRow_wy0 (s : State) : (countRow s).wy0 = s.wy0 := rfl
@[simp] theorem countRow_wx1 (s : State) : (countRow s).wx1 = s.wx1 := rfl
@[simp] theorem countRow_wy1 (s : State) : (countRow s).wy1 = s.wy1 := rfl
@[simp] theorem countRow_rowbuf (s : State) : (countRow s).rowbuf = s.rowbuf := rfl
@[simp] theorem countRow_rowlen (s : State) : (countRow s).rowlen = s.rowlen := rfl
@[simp] theorem countRow_rows (s : State) : (countRow s).rows = s.rows := rfl
@[simp] theorem countRow_row (s : State) : (countRow s).row = s.row + 1 := rfl
@[simp] theorem countRow_sp (s : State) : (countRow s).sp = s.sp := rfl
@[simp] theorem countRow_phase (s : State) : (countRow s).phase = s.phase := rfl
@[simp] theorem countRow_mode (s : State) : (countRow s).mode = s.mode := rfl
@[simp] theorem countRow_initDone (s : State) : (countRow s).initDone = s.initDone := rfl
@[simp] theorem countRow_faultFlag (s : State) : (countRow s).faultFlag = s.faultFlag := rfl
@[simp] theorem countRow_primed (s : State) : (countRow s).primed = s.primed := rfl
@[simp] theorem countRow_dc (s : State) : (countRow s).dc = s.dc := rfl
@[simp] theorem countRow_lastStatus (s : State) : (countRow s).lastStatus = s.lastStatus := rfl
@[simp] theorem countRow_op (s : State) : (countRow s).op = s.op := rfl
@[simp] theorem countRow_params (s : State) : (countRow s).params = s.params := rfl
@[simp] theorem countRow_trace (s : State) : (countRow s).trace = s.trace := rfl
@[simp] theorem countRow_stub (s : State) : (countRow s).stub = s.stub := rfl
@[simp] theorem countRow_port (s : State) : (countRow s).port = s.port := rfl
@[simp] theorem countRow_answers (s : State) : (countRow s).answers = s.answers := rfl
@[simp] theorem countRow_frames (s : State) : (countRow s).frames = s.frames := rfl
@[simp] theorem countRow_moves (s : State) : (countRow s).moves = s.moves := rfl
@[simp] theorem countRow_reads (s : State) : (countRow s).reads = s.reads := rfl

@[simp] theorem writeRowCounts_rx (l n : Half) (s : State) : (writeRowCounts l n s).rx = s.rx := rfl
@[simp] theorem writeRowCounts_ry (l n : Half) (s : State) : (writeRowCounts l n s).ry = s.ry := rfl
@[simp] theorem writeRowCounts_rw (l n : Half) (s : State) : (writeRowCounts l n s).rw = s.rw := rfl
@[simp] theorem writeRowCounts_rh (l n : Half) (s : State) : (writeRowCounts l n s).rh = s.rh := rfl
@[simp] theorem writeRowCounts_rc (l n : Half) (s : State) : (writeRowCounts l n s).rc = s.rc := rfl
@[simp] theorem writeRowCounts_wx0 (l n : Half) (s : State) : (writeRowCounts l n s).wx0 = s.wx0 := rfl
@[simp] theorem writeRowCounts_wy0 (l n : Half) (s : State) : (writeRowCounts l n s).wy0 = s.wy0 := rfl
@[simp] theorem writeRowCounts_wx1 (l n : Half) (s : State) : (writeRowCounts l n s).wx1 = s.wx1 := rfl
@[simp] theorem writeRowCounts_wy1 (l n : Half) (s : State) : (writeRowCounts l n s).wy1 = s.wy1 := rfl
@[simp] theorem writeRowCounts_rowbuf (l n : Half) (s : State) : (writeRowCounts l n s).rowbuf = s.rowbuf := rfl
@[simp] theorem writeRowCounts_rowlen (l n : Half) (s : State) : (writeRowCounts l n s).rowlen = l := rfl
@[simp] theorem writeRowCounts_rows (l n : Half) (s : State) : (writeRowCounts l n s).rows = n := rfl
@[simp] theorem writeRowCounts_row (l n : Half) (s : State) : (writeRowCounts l n s).row = 0 := rfl
@[simp] theorem writeRowCounts_sp (l n : Half) (s : State) : (writeRowCounts l n s).sp = s.sp := rfl
@[simp] theorem writeRowCounts_phase (l n : Half) (s : State) : (writeRowCounts l n s).phase = s.phase := rfl
@[simp] theorem writeRowCounts_mode (l n : Half) (s : State) : (writeRowCounts l n s).mode = s.mode := rfl
@[simp] theorem writeRowCounts_initDone (l n : Half) (s : State) : (writeRowCounts l n s).initDone = s.initDone := rfl
@[simp] theorem writeRowCounts_faultFlag (l n : Half) (s : State) : (writeRowCounts l n s).faultFlag = s.faultFlag := rfl
@[simp] theorem writeRowCounts_primed (l n : Half) (s : State) : (writeRowCounts l n s).primed = s.primed := rfl
@[simp] theorem writeRowCounts_dc (l n : Half) (s : State) : (writeRowCounts l n s).dc = s.dc := rfl
@[simp] theorem writeRowCounts_lastStatus (l n : Half) (s : State) : (writeRowCounts l n s).lastStatus = s.lastStatus := rfl
@[simp] theorem writeRowCounts_op (l n : Half) (s : State) : (writeRowCounts l n s).op = s.op := rfl
@[simp] theorem writeRowCounts_params (l n : Half) (s : State) : (writeRowCounts l n s).params = s.params := rfl
@[simp] theorem writeRowCounts_trace (l n : Half) (s : State) : (writeRowCounts l n s).trace = s.trace := rfl
@[simp] theorem writeRowCounts_stub (l n : Half) (s : State) : (writeRowCounts l n s).stub = s.stub := rfl
@[simp] theorem writeRowCounts_port (l n : Half) (s : State) : (writeRowCounts l n s).port = s.port := rfl
@[simp] theorem writeRowCounts_answers (l n : Half) (s : State) : (writeRowCounts l n s).answers = s.answers := rfl
@[simp] theorem writeRowCounts_frames (l n : Half) (s : State) : (writeRowCounts l n s).frames = s.frames := rfl

@[simp] theorem setHost_rx (m : List HostMove) (rs : List StatusPort) (s : State) : (setHost m rs s).rx = s.rx := rfl
@[simp] theorem setHost_ry (m : List HostMove) (rs : List StatusPort) (s : State) : (setHost m rs s).ry = s.ry := rfl
@[simp] theorem setHost_rw (m : List HostMove) (rs : List StatusPort) (s : State) : (setHost m rs s).rw = s.rw := rfl
@[simp] theorem setHost_rh (m : List HostMove) (rs : List StatusPort) (s : State) : (setHost m rs s).rh = s.rh := rfl
@[simp] theorem setHost_rc (m : List HostMove) (rs : List StatusPort) (s : State) : (setHost m rs s).rc = s.rc := rfl
@[simp] theorem setHost_wx0 (m : List HostMove) (rs : List StatusPort) (s : State) : (setHost m rs s).wx0 = s.wx0 := rfl
@[simp] theorem setHost_wy0 (m : List HostMove) (rs : List StatusPort) (s : State) : (setHost m rs s).wy0 = s.wy0 := rfl
@[simp] theorem setHost_wx1 (m : List HostMove) (rs : List StatusPort) (s : State) : (setHost m rs s).wx1 = s.wx1 := rfl
@[simp] theorem setHost_wy1 (m : List HostMove) (rs : List StatusPort) (s : State) : (setHost m rs s).wy1 = s.wy1 := rfl
@[simp] theorem setHost_rowbuf (m : List HostMove) (rs : List StatusPort) (s : State) : (setHost m rs s).rowbuf = s.rowbuf := rfl
@[simp] theorem setHost_rowlen (m : List HostMove) (rs : List StatusPort) (s : State) : (setHost m rs s).rowlen = s.rowlen := rfl
@[simp] theorem setHost_rows (m : List HostMove) (rs : List StatusPort) (s : State) : (setHost m rs s).rows = s.rows := rfl
@[simp] theorem setHost_row (m : List HostMove) (rs : List StatusPort) (s : State) : (setHost m rs s).row = s.row := rfl
@[simp] theorem setHost_sp (m : List HostMove) (rs : List StatusPort) (s : State) : (setHost m rs s).sp = s.sp := rfl
@[simp] theorem setHost_phase (m : List HostMove) (rs : List StatusPort) (s : State) : (setHost m rs s).phase = s.phase := rfl
@[simp] theorem setHost_mode (m : List HostMove) (rs : List StatusPort) (s : State) : (setHost m rs s).mode = s.mode := rfl
@[simp] theorem setHost_initDone (m : List HostMove) (rs : List StatusPort) (s : State) : (setHost m rs s).initDone = s.initDone := rfl
@[simp] theorem setHost_faultFlag (m : List HostMove) (rs : List StatusPort) (s : State) : (setHost m rs s).faultFlag = s.faultFlag := rfl
@[simp] theorem setHost_primed (m : List HostMove) (rs : List StatusPort) (s : State) : (setHost m rs s).primed = s.primed := rfl
@[simp] theorem setHost_dc (m : List HostMove) (rs : List StatusPort) (s : State) : (setHost m rs s).dc = s.dc := rfl
@[simp] theorem setHost_lastStatus (m : List HostMove) (rs : List StatusPort) (s : State) : (setHost m rs s).lastStatus = s.lastStatus := rfl
@[simp] theorem setHost_op (m : List HostMove) (rs : List StatusPort) (s : State) : (setHost m rs s).op = s.op := rfl
@[simp] theorem setHost_params (m : List HostMove) (rs : List StatusPort) (s : State) : (setHost m rs s).params = s.params := rfl
@[simp] theorem setHost_trace (m : List HostMove) (rs : List StatusPort) (s : State) : (setHost m rs s).trace = s.trace := rfl
@[simp] theorem setHost_stub (m : List HostMove) (rs : List StatusPort) (s : State) : (setHost m rs s).stub = s.stub := rfl
@[simp] theorem setHost_port (m : List HostMove) (rs : List StatusPort) (s : State) : (setHost m rs s).port = s.port := rfl
@[simp] theorem setHost_answers (m : List HostMove) (rs : List StatusPort) (s : State) : (setHost m rs s).answers = s.answers := rfl
@[simp] theorem setHost_frames (m : List HostMove) (rs : List StatusPort) (s : State) : (setHost m rs s).frames = s.frames := rfl
@[simp] theorem setHost_moves (m : List HostMove) (rs : List StatusPort) (s : State) : (setHost m rs s).moves = m := rfl
@[simp] theorem setHost_reads (m : List HostMove) (rs : List StatusPort) (s : State) : (setHost m rs s).reads = rs := rfl

@[simp] theorem beginRequest_rx (c : Byte) (s : State) : (beginRequest c s).rx = s.rx := rfl
@[simp] theorem beginRequest_ry (c : Byte) (s : State) : (beginRequest c s).ry = s.ry := rfl
@[simp] theorem beginRequest_rw (c : Byte) (s : State) : (beginRequest c s).rw = s.rw := rfl
@[simp] theorem beginRequest_rh (c : Byte) (s : State) : (beginRequest c s).rh = s.rh := rfl
@[simp] theorem beginRequest_rc (c : Byte) (s : State) : (beginRequest c s).rc = s.rc := rfl
@[simp] theorem beginRequest_wx0 (c : Byte) (s : State) : (beginRequest c s).wx0 = s.wx0 := rfl
@[simp] theorem beginRequest_wy0 (c : Byte) (s : State) : (beginRequest c s).wy0 = s.wy0 := rfl
@[simp] theorem beginRequest_wx1 (c : Byte) (s : State) : (beginRequest c s).wx1 = s.wx1 := rfl
@[simp] theorem beginRequest_wy1 (c : Byte) (s : State) : (beginRequest c s).wy1 = s.wy1 := rfl
@[simp] theorem beginRequest_rowbuf (c : Byte) (s : State) : (beginRequest c s).rowbuf = s.rowbuf := rfl
@[simp] theorem beginRequest_rowlen (c : Byte) (s : State) : (beginRequest c s).rowlen = s.rowlen := rfl
@[simp] theorem beginRequest_rows (c : Byte) (s : State) : (beginRequest c s).rows = s.rows := rfl
@[simp] theorem beginRequest_row (c : Byte) (s : State) : (beginRequest c s).row = s.row := rfl
@[simp] theorem beginRequest_sp (c : Byte) (s : State) : (beginRequest c s).sp = s.sp := rfl
@[simp] theorem beginRequest_phase (c : Byte) (s : State) : (beginRequest c s).phase = s.phase := rfl
@[simp] theorem beginRequest_mode (c : Byte) (s : State) : (beginRequest c s).mode = .busy := rfl
@[simp] theorem beginRequest_initDone (c : Byte) (s : State) : (beginRequest c s).initDone = s.initDone := rfl
@[simp] theorem beginRequest_faultFlag (c : Byte) (s : State) : (beginRequest c s).faultFlag = s.faultFlag := rfl
@[simp] theorem beginRequest_primed (c : Byte) (s : State) : (beginRequest c s).primed = s.primed := rfl
@[simp] theorem beginRequest_dc (c : Byte) (s : State) : (beginRequest c s).dc = s.dc := rfl
@[simp] theorem beginRequest_lastStatus (c : Byte) (s : State) : (beginRequest c s).lastStatus = s.lastStatus := rfl
@[simp] theorem beginRequest_op (c : Byte) (s : State) : (beginRequest c s).op = c := rfl
@[simp] theorem beginRequest_params (c : Byte) (s : State) : (beginRequest c s).params = s.params := rfl
@[simp] theorem beginRequest_trace (c : Byte) (s : State) : (beginRequest c s).trace = s.trace := rfl
@[simp] theorem beginRequest_stub (c : Byte) (s : State) : (beginRequest c s).stub = s.stub := rfl
@[simp] theorem beginRequest_port (c : Byte) (s : State) : (beginRequest c s).port = s.port := rfl
@[simp] theorem beginRequest_answers (c : Byte) (s : State) : (beginRequest c s).answers = s.answers := rfl
@[simp] theorem beginRequest_frames (c : Byte) (s : State) : (beginRequest c s).frames = s.frames := rfl
@[simp] theorem beginRequest_moves (c : Byte) (s : State) : (beginRequest c s).moves = s.moves := rfl
@[simp] theorem beginRequest_reads (c : Byte) (s : State) : (beginRequest c s).reads = s.reads := rfl

@[simp] theorem driveCmd_rx (s : State) : (driveCmd s).rx = s.rx := rfl
@[simp] theorem driveCmd_ry (s : State) : (driveCmd s).ry = s.ry := rfl
@[simp] theorem driveCmd_rw (s : State) : (driveCmd s).rw = s.rw := rfl
@[simp] theorem driveCmd_rh (s : State) : (driveCmd s).rh = s.rh := rfl
@[simp] theorem driveCmd_rc (s : State) : (driveCmd s).rc = s.rc := rfl
@[simp] theorem driveCmd_wx0 (s : State) : (driveCmd s).wx0 = s.wx0 := rfl
@[simp] theorem driveCmd_wy0 (s : State) : (driveCmd s).wy0 = s.wy0 := rfl
@[simp] theorem driveCmd_wx1 (s : State) : (driveCmd s).wx1 = s.wx1 := rfl
@[simp] theorem driveCmd_wy1 (s : State) : (driveCmd s).wy1 = s.wy1 := rfl
@[simp] theorem driveCmd_rowbuf (s : State) : (driveCmd s).rowbuf = s.rowbuf := rfl
@[simp] theorem driveCmd_rowlen (s : State) : (driveCmd s).rowlen = s.rowlen := rfl
@[simp] theorem driveCmd_rows (s : State) : (driveCmd s).rows = s.rows := rfl
@[simp] theorem driveCmd_row (s : State) : (driveCmd s).row = s.row := rfl
@[simp] theorem driveCmd_sp (s : State) : (driveCmd s).sp = s.sp := rfl
@[simp] theorem driveCmd_phase (s : State) : (driveCmd s).phase = s.phase := rfl
@[simp] theorem driveCmd_mode (s : State) : (driveCmd s).mode = s.mode := rfl
@[simp] theorem driveCmd_initDone (s : State) : (driveCmd s).initDone = s.initDone := rfl
@[simp] theorem driveCmd_faultFlag (s : State) : (driveCmd s).faultFlag = s.faultFlag := rfl
@[simp] theorem driveCmd_primed (s : State) : (driveCmd s).primed = false := rfl
@[simp] theorem driveCmd_dc (s : State) : (driveCmd s).dc = s.params.dcCmd := rfl
@[simp] theorem driveCmd_lastStatus (s : State) : (driveCmd s).lastStatus = s.lastStatus := rfl
@[simp] theorem driveCmd_op (s : State) : (driveCmd s).op = s.op := rfl
@[simp] theorem driveCmd_params (s : State) : (driveCmd s).params = s.params := rfl
@[simp] theorem driveCmd_trace (s : State) : (driveCmd s).trace = s.trace := rfl
@[simp] theorem driveCmd_stub (s : State) : (driveCmd s).stub = s.stub := rfl
@[simp] theorem driveCmd_port (s : State) : (driveCmd s).port = s.port := rfl
@[simp] theorem driveCmd_answers (s : State) : (driveCmd s).answers = s.answers := rfl
@[simp] theorem driveCmd_frames (s : State) : (driveCmd s).frames = s.frames := rfl

@[simp] theorem driveData_rx (s : State) : (driveData s).rx = s.rx := rfl
@[simp] theorem driveData_ry (s : State) : (driveData s).ry = s.ry := rfl
@[simp] theorem driveData_rw (s : State) : (driveData s).rw = s.rw := rfl
@[simp] theorem driveData_rh (s : State) : (driveData s).rh = s.rh := rfl
@[simp] theorem driveData_rc (s : State) : (driveData s).rc = s.rc := rfl
@[simp] theorem driveData_wx0 (s : State) : (driveData s).wx0 = s.wx0 := rfl
@[simp] theorem driveData_wy0 (s : State) : (driveData s).wy0 = s.wy0 := rfl
@[simp] theorem driveData_wx1 (s : State) : (driveData s).wx1 = s.wx1 := rfl
@[simp] theorem driveData_wy1 (s : State) : (driveData s).wy1 = s.wy1 := rfl
@[simp] theorem driveData_rowbuf (s : State) : (driveData s).rowbuf = s.rowbuf := rfl
@[simp] theorem driveData_rowlen (s : State) : (driveData s).rowlen = s.rowlen := rfl
@[simp] theorem driveData_rows (s : State) : (driveData s).rows = s.rows := rfl
@[simp] theorem driveData_row (s : State) : (driveData s).row = s.row := rfl
@[simp] theorem driveData_sp (s : State) : (driveData s).sp = s.sp := rfl
@[simp] theorem driveData_phase (s : State) : (driveData s).phase = s.phase := rfl
@[simp] theorem driveData_mode (s : State) : (driveData s).mode = s.mode := rfl
@[simp] theorem driveData_initDone (s : State) : (driveData s).initDone = s.initDone := rfl
@[simp] theorem driveData_faultFlag (s : State) : (driveData s).faultFlag = s.faultFlag := rfl
@[simp] theorem driveData_primed (s : State) : (driveData s).primed = s.primed := rfl
@[simp] theorem driveData_dc (s : State) : (driveData s).dc = s.params.dcData := rfl
@[simp] theorem driveData_lastStatus (s : State) : (driveData s).lastStatus = s.lastStatus := rfl
@[simp] theorem driveData_op (s : State) : (driveData s).op = s.op := rfl
@[simp] theorem driveData_params (s : State) : (driveData s).params = s.params := rfl
@[simp] theorem driveData_trace (s : State) : (driveData s).trace = s.trace := rfl
@[simp] theorem driveData_stub (s : State) : (driveData s).stub = s.stub := rfl
@[simp] theorem driveData_port (s : State) : (driveData s).port = s.port := rfl
@[simp] theorem driveData_answers (s : State) : (driveData s).answers = s.answers := rfl
@[simp] theorem driveData_frames (s : State) : (driveData s).frames = s.frames := rfl
@[simp] theorem driveData_moves (s : State) : (driveData s).moves = s.moves := rfl
@[simp] theorem driveData_reads (s : State) : (driveData s).reads = s.reads := rfl

@[simp] theorem emit_rx (e : Event) (s : State) : (emit e s).rx = s.rx := rfl
@[simp] theorem emit_ry (e : Event) (s : State) : (emit e s).ry = s.ry := rfl
@[simp] theorem emit_rw (e : Event) (s : State) : (emit e s).rw = s.rw := rfl
@[simp] theorem emit_rh (e : Event) (s : State) : (emit e s).rh = s.rh := rfl
@[simp] theorem emit_rc (e : Event) (s : State) : (emit e s).rc = s.rc := rfl
@[simp] theorem emit_wx0 (e : Event) (s : State) : (emit e s).wx0 = s.wx0 := rfl
@[simp] theorem emit_wy0 (e : Event) (s : State) : (emit e s).wy0 = s.wy0 := rfl
@[simp] theorem emit_wx1 (e : Event) (s : State) : (emit e s).wx1 = s.wx1 := rfl
@[simp] theorem emit_wy1 (e : Event) (s : State) : (emit e s).wy1 = s.wy1 := rfl
@[simp] theorem emit_rowbuf (e : Event) (s : State) : (emit e s).rowbuf = s.rowbuf := rfl
@[simp] theorem emit_rowlen (e : Event) (s : State) : (emit e s).rowlen = s.rowlen := rfl
@[simp] theorem emit_rows (e : Event) (s : State) : (emit e s).rows = s.rows := rfl
@[simp] theorem emit_row (e : Event) (s : State) : (emit e s).row = s.row := rfl
@[simp] theorem emit_sp (e : Event) (s : State) : (emit e s).sp = s.sp := rfl
@[simp] theorem emit_phase (e : Event) (s : State) : (emit e s).phase = s.phase := rfl
@[simp] theorem emit_mode (e : Event) (s : State) : (emit e s).mode = s.mode := rfl
@[simp] theorem emit_initDone (e : Event) (s : State) : (emit e s).initDone = s.initDone := rfl
@[simp] theorem emit_faultFlag (e : Event) (s : State) : (emit e s).faultFlag = s.faultFlag := rfl
@[simp] theorem emit_primed (e : Event) (s : State) : (emit e s).primed = s.primed := rfl
@[simp] theorem emit_dc (e : Event) (s : State) : (emit e s).dc = s.dc := rfl
@[simp] theorem emit_lastStatus (e : Event) (s : State) : (emit e s).lastStatus = s.lastStatus := rfl
@[simp] theorem emit_op (e : Event) (s : State) : (emit e s).op = s.op := rfl
@[simp] theorem emit_params (e : Event) (s : State) : (emit e s).params = s.params := rfl
@[simp] theorem emit_trace (e : Event) (s : State) : (emit e s).trace = s.trace ++ [e] := rfl
@[simp] theorem emit_stub (e : Event) (s : State) : (emit e s).stub = s.stub.map fun q => q.run s.params e.flat := rfl
@[simp] theorem emit_port (e : Event) (s : State) : (emit e s).port = s.port := rfl
@[simp] theorem emit_answers (e : Event) (s : State) : (emit e s).answers = s.answers := rfl
@[simp] theorem emit_frames (e : Event) (s : State) : (emit e s).frames = s.frames := rfl
@[simp] theorem emit_moves (e : Event) (s : State) : (emit e s).moves = s.moves := rfl
@[simp] theorem emit_reads (e : Event) (s : State) : (emit e s).reads = s.reads := rfl

@[simp] theorem sent_rx (s : State) (evs : List Event) (n : Nat) : (s.sent evs n).rx = s.rx := rfl
@[simp] theorem sent_ry (s : State) (evs : List Event) (n : Nat) : (s.sent evs n).ry = s.ry := rfl
@[simp] theorem sent_rw (s : State) (evs : List Event) (n : Nat) : (s.sent evs n).rw = s.rw := rfl
@[simp] theorem sent_rh (s : State) (evs : List Event) (n : Nat) : (s.sent evs n).rh = s.rh := rfl
@[simp] theorem sent_rc (s : State) (evs : List Event) (n : Nat) : (s.sent evs n).rc = s.rc := rfl
@[simp] theorem sent_wx0 (s : State) (evs : List Event) (n : Nat) : (s.sent evs n).wx0 = s.wx0 := rfl
@[simp] theorem sent_wy0 (s : State) (evs : List Event) (n : Nat) : (s.sent evs n).wy0 = s.wy0 := rfl
@[simp] theorem sent_wx1 (s : State) (evs : List Event) (n : Nat) : (s.sent evs n).wx1 = s.wx1 := rfl
@[simp] theorem sent_wy1 (s : State) (evs : List Event) (n : Nat) : (s.sent evs n).wy1 = s.wy1 := rfl
@[simp] theorem sent_rowbuf (s : State) (evs : List Event) (n : Nat) : (s.sent evs n).rowbuf = s.rowbuf := rfl
@[simp] theorem sent_rowlen (s : State) (evs : List Event) (n : Nat) : (s.sent evs n).rowlen = s.rowlen := rfl
@[simp] theorem sent_rows (s : State) (evs : List Event) (n : Nat) : (s.sent evs n).rows = s.rows := rfl
@[simp] theorem sent_row (s : State) (evs : List Event) (n : Nat) : (s.sent evs n).row = s.row := rfl
@[simp] theorem sent_sp (s : State) (evs : List Event) (n : Nat) : (s.sent evs n).sp = s.sp := rfl
@[simp] theorem sent_phase (s : State) (evs : List Event) (n : Nat) : (s.sent evs n).phase = s.phase := rfl
@[simp] theorem sent_mode (s : State) (evs : List Event) (n : Nat) : (s.sent evs n).mode = s.mode := rfl
@[simp] theorem sent_initDone (s : State) (evs : List Event) (n : Nat) : (s.sent evs n).initDone = s.initDone := rfl
@[simp] theorem sent_faultFlag (s : State) (evs : List Event) (n : Nat) : (s.sent evs n).faultFlag = s.faultFlag := rfl
@[simp] theorem sent_primed (s : State) (evs : List Event) (n : Nat) : (s.sent evs n).primed = s.primed := rfl
@[simp] theorem sent_dc (s : State) (evs : List Event) (n : Nat) : (s.sent evs n).dc = s.dc := rfl
@[simp] theorem sent_lastStatus (s : State) (evs : List Event) (n : Nat) : (s.sent evs n).lastStatus = s.lastStatus := rfl
@[simp] theorem sent_op (s : State) (evs : List Event) (n : Nat) : (s.sent evs n).op = s.op := rfl
@[simp] theorem sent_params (s : State) (evs : List Event) (n : Nat) : (s.sent evs n).params = s.params := rfl
@[simp] theorem sent_trace (s : State) (evs : List Event) (n : Nat) : (s.sent evs n).trace = s.trace ++ evs := rfl
@[simp] theorem sent_stub (s : State) (evs : List Event) (n : Nat) : (s.sent evs n).stub = consumed s.params evs s.stub := rfl
@[simp] theorem sent_port (s : State) (evs : List Event) (n : Nat) : (s.sent evs n).port = s.port := rfl
@[simp] theorem sent_answers (s : State) (evs : List Event) (n : Nat) : (s.sent evs n).answers = s.answers.drop n := rfl
@[simp] theorem sent_frames (s : State) (evs : List Event) (n : Nat) : (s.sent evs n).frames = s.frames + n := rfl
@[simp] theorem sent_moves (s : State) (evs : List Event) (n : Nat) : (s.sent evs n).moves = s.moves := rfl
@[simp] theorem sent_reads (s : State) (evs : List Event) (n : Nat) : (s.sent evs n).reads = s.reads := rfl

@[simp] theorem faulted_rx (s : State) (c : Byte) (evs : List Event) (n : Nat) (f : Frame) : (s.faulted c evs n f).rx = s.rx := rfl
@[simp] theorem faulted_ry (s : State) (c : Byte) (evs : List Event) (n : Nat) (f : Frame) : (s.faulted c evs n f).ry = s.ry := rfl
@[simp] theorem faulted_rw (s : State) (c : Byte) (evs : List Event) (n : Nat) (f : Frame) : (s.faulted c evs n f).rw = s.rw := rfl
@[simp] theorem faulted_rh (s : State) (c : Byte) (evs : List Event) (n : Nat) (f : Frame) : (s.faulted c evs n f).rh = s.rh := rfl
@[simp] theorem faulted_rc (s : State) (c : Byte) (evs : List Event) (n : Nat) (f : Frame) : (s.faulted c evs n f).rc = s.rc := rfl
@[simp] theorem faulted_wx0 (s : State) (c : Byte) (evs : List Event) (n : Nat) (f : Frame) : (s.faulted c evs n f).wx0 = s.wx0 := rfl
@[simp] theorem faulted_wy0 (s : State) (c : Byte) (evs : List Event) (n : Nat) (f : Frame) : (s.faulted c evs n f).wy0 = s.wy0 := rfl
@[simp] theorem faulted_wx1 (s : State) (c : Byte) (evs : List Event) (n : Nat) (f : Frame) : (s.faulted c evs n f).wx1 = s.wx1 := rfl
@[simp] theorem faulted_wy1 (s : State) (c : Byte) (evs : List Event) (n : Nat) (f : Frame) : (s.faulted c evs n f).wy1 = s.wy1 := rfl
@[simp] theorem faulted_rowbuf (s : State) (c : Byte) (evs : List Event) (n : Nat) (f : Frame) : (s.faulted c evs n f).rowbuf = s.rowbuf := rfl
@[simp] theorem faulted_rowlen (s : State) (c : Byte) (evs : List Event) (n : Nat) (f : Frame) : (s.faulted c evs n f).rowlen = s.rowlen := rfl
@[simp] theorem faulted_rows (s : State) (c : Byte) (evs : List Event) (n : Nat) (f : Frame) : (s.faulted c evs n f).rows = s.rows := rfl
@[simp] theorem faulted_row (s : State) (c : Byte) (evs : List Event) (n : Nat) (f : Frame) : (s.faulted c evs n f).row = s.row := rfl
@[simp] theorem faulted_sp (s : State) (c : Byte) (evs : List Event) (n : Nat) (f : Frame) : (s.faulted c evs n f).sp = s.sp := rfl
@[simp] theorem faulted_phase (s : State) (c : Byte) (evs : List Event) (n : Nat) (f : Frame) : (s.faulted c evs n f).phase = s.phase := rfl
@[simp] theorem faulted_mode (s : State) (c : Byte) (evs : List Event) (n : Nat) (f : Frame) : (s.faulted c evs n f).mode = .halted := rfl
@[simp] theorem faulted_initDone (s : State) (c : Byte) (evs : List Event) (n : Nat) (f : Frame) : (s.faulted c evs n f).initDone = s.initDone := rfl
@[simp] theorem faulted_faultFlag (s : State) (c : Byte) (evs : List Event) (n : Nat) (f : Frame) : (s.faulted c evs n f).faultFlag = true := rfl
@[simp] theorem faulted_primed (s : State) (c : Byte) (evs : List Event) (n : Nat) (f : Frame) : (s.faulted c evs n f).primed = false := rfl
@[simp] theorem faulted_dc (s : State) (c : Byte) (evs : List Event) (n : Nat) (f : Frame) : (s.faulted c evs n f).dc = f.level s.params := rfl
@[simp] theorem faulted_lastStatus (s : State) (c : Byte) (evs : List Event) (n : Nat) (f : Frame) : (s.faulted c evs n f).lastStatus = .fault := rfl
@[simp] theorem faulted_op (s : State) (c : Byte) (evs : List Event) (n : Nat) (f : Frame) : (s.faulted c evs n f).op = c := rfl
@[simp] theorem faulted_params (s : State) (c : Byte) (evs : List Event) (n : Nat) (f : Frame) : (s.faulted c evs n f).params = s.params := rfl
@[simp] theorem faulted_trace (s : State) (c : Byte) (evs : List Event) (n : Nat) (f : Frame) : (s.faulted c evs n f).trace = s.trace ++ evs ++ [.fault f, .done c .fault] := rfl
@[simp] theorem faulted_stub (s : State) (c : Byte) (evs : List Event) (n : Nat) (f : Frame) : (s.faulted c evs n f).stub = none := rfl
@[simp] theorem faulted_port (s : State) (c : Byte) (evs : List Event) (n : Nat) (f : Frame) : (s.faulted c evs n f).port = s.port := rfl
@[simp] theorem faulted_answers (s : State) (c : Byte) (evs : List Event) (n : Nat) (f : Frame) : (s.faulted c evs n f).answers = s.answers.drop (n + 1) := rfl
@[simp] theorem faulted_frames (s : State) (c : Byte) (evs : List Event) (n : Nat) (f : Frame) : (s.faulted c evs n f).frames = s.frames + (n + 1) := rfl
@[simp] theorem faulted_moves (s : State) (c : Byte) (evs : List Event) (n : Nat) (f : Frame) : (s.faulted c evs n f).moves = s.moves := rfl
@[simp] theorem faulted_reads (s : State) (c : Byte) (evs : List Event) (n : Nat) (f : Frame) : (s.faulted c evs n f).reads = s.reads := rfl

@[simp] theorem completed_rx (s : State) (c : Byte) (evs : List Event) (n : Nat) : (s.completed c evs n).rx = s.rx := rfl
@[simp] theorem completed_ry (s : State) (c : Byte) (evs : List Event) (n : Nat) : (s.completed c evs n).ry = s.ry := rfl
@[simp] theorem completed_rw (s : State) (c : Byte) (evs : List Event) (n : Nat) : (s.completed c evs n).rw = s.rw := rfl
@[simp] theorem completed_rh (s : State) (c : Byte) (evs : List Event) (n : Nat) : (s.completed c evs n).rh = s.rh := rfl
@[simp] theorem completed_rc (s : State) (c : Byte) (evs : List Event) (n : Nat) : (s.completed c evs n).rc = s.rc := rfl
@[simp] theorem completed_wx0 (s : State) (c : Byte) (evs : List Event) (n : Nat) : (s.completed c evs n).wx0 = s.wx0 := rfl
@[simp] theorem completed_wy0 (s : State) (c : Byte) (evs : List Event) (n : Nat) : (s.completed c evs n).wy0 = s.wy0 := rfl
@[simp] theorem completed_wx1 (s : State) (c : Byte) (evs : List Event) (n : Nat) : (s.completed c evs n).wx1 = s.wx1 := rfl
@[simp] theorem completed_wy1 (s : State) (c : Byte) (evs : List Event) (n : Nat) : (s.completed c evs n).wy1 = s.wy1 := rfl
@[simp] theorem completed_rowbuf (s : State) (c : Byte) (evs : List Event) (n : Nat) : (s.completed c evs n).rowbuf = s.rowbuf := rfl
@[simp] theorem completed_rowlen (s : State) (c : Byte) (evs : List Event) (n : Nat) : (s.completed c evs n).rowlen = s.rowlen := rfl
@[simp] theorem completed_rows (s : State) (c : Byte) (evs : List Event) (n : Nat) : (s.completed c evs n).rows = s.rows := rfl
@[simp] theorem completed_row (s : State) (c : Byte) (evs : List Event) (n : Nat) : (s.completed c evs n).row = s.row := rfl
@[simp] theorem completed_sp (s : State) (c : Byte) (evs : List Event) (n : Nat) : (s.completed c evs n).sp = s.sp := rfl
@[simp] theorem completed_phase (s : State) (c : Byte) (evs : List Event) (n : Nat) : (s.completed c evs n).phase = .none := rfl
@[simp] theorem completed_mode (s : State) (c : Byte) (evs : List Event) (n : Nat) : (s.completed c evs n).mode = .idle := rfl
@[simp] theorem completed_initDone (s : State) (c : Byte) (evs : List Event) (n : Nat) : (s.completed c evs n).initDone = s.initDone := rfl
@[simp] theorem completed_faultFlag (s : State) (c : Byte) (evs : List Event) (n : Nat) : (s.completed c evs n).faultFlag = s.faultFlag := rfl
@[simp] theorem completed_primed (s : State) (c : Byte) (evs : List Event) (n : Nat) : (s.completed c evs n).primed = s.primed := rfl
@[simp] theorem completed_dc (s : State) (c : Byte) (evs : List Event) (n : Nat) : (s.completed c evs n).dc = s.dc := rfl
@[simp] theorem completed_lastStatus (s : State) (c : Byte) (evs : List Event) (n : Nat) : (s.completed c evs n).lastStatus = .ok := rfl
@[simp] theorem completed_op (s : State) (c : Byte) (evs : List Event) (n : Nat) : (s.completed c evs n).op = c := rfl
@[simp] theorem completed_params (s : State) (c : Byte) (evs : List Event) (n : Nat) : (s.completed c evs n).params = s.params := rfl
@[simp] theorem completed_trace (s : State) (c : Byte) (evs : List Event) (n : Nat) : (s.completed c evs n).trace = s.trace ++ evs ++ [.done c .ok] := rfl
@[simp] theorem completed_stub (s : State) (c : Byte) (evs : List Event) (n : Nat) : (s.completed c evs n).stub = consumed s.params evs s.stub := rfl
@[simp] theorem completed_port (s : State) (c : Byte) (evs : List Event) (n : Nat) : (s.completed c evs n).port = s.port := rfl
@[simp] theorem completed_answers (s : State) (c : Byte) (evs : List Event) (n : Nat) : (s.completed c evs n).answers = s.answers.drop n := rfl
@[simp] theorem completed_frames (s : State) (c : Byte) (evs : List Event) (n : Nat) : (s.completed c evs n).frames = s.frames + n := rfl
@[simp] theorem completed_moves (s : State) (c : Byte) (evs : List Event) (n : Nat) : (s.completed c evs n).moves = s.moves := rfl
@[simp] theorem completed_reads (s : State) (c : Byte) (evs : List Event) (n : Nat) : (s.completed c evs n).reads = s.reads := rfl

@[simp] theorem afterAnswer_rx (s : State) : (afterAnswer s).rx = s.rx := rfl
@[simp] theorem afterAnswer_ry (s : State) : (afterAnswer s).ry = s.ry := rfl
@[simp] theorem afterAnswer_rw (s : State) : (afterAnswer s).rw = s.rw := rfl
@[simp] theorem afterAnswer_rh (s : State) : (afterAnswer s).rh = s.rh := rfl
@[simp] theorem afterAnswer_rc (s : State) : (afterAnswer s).rc = s.rc := rfl
@[simp] theorem afterAnswer_wx0 (s : State) : (afterAnswer s).wx0 = s.wx0 := rfl
@[simp] theorem afterAnswer_wy0 (s : State) : (afterAnswer s).wy0 = s.wy0 := rfl
@[simp] theorem afterAnswer_wx1 (s : State) : (afterAnswer s).wx1 = s.wx1 := rfl
@[simp] theorem afterAnswer_wy1 (s : State) : (afterAnswer s).wy1 = s.wy1 := rfl
@[simp] theorem afterAnswer_rowbuf (s : State) : (afterAnswer s).rowbuf = s.rowbuf := rfl
@[simp] theorem afterAnswer_rowlen (s : State) : (afterAnswer s).rowlen = s.rowlen := rfl
@[simp] theorem afterAnswer_rows (s : State) : (afterAnswer s).rows = s.rows := rfl
@[simp] theorem afterAnswer_row (s : State) : (afterAnswer s).row = s.row := rfl
@[simp] theorem afterAnswer_sp (s : State) : (afterAnswer s).sp = s.sp := rfl
@[simp] theorem afterAnswer_phase (s : State) : (afterAnswer s).phase = s.phase := rfl
@[simp] theorem afterAnswer_mode (s : State) : (afterAnswer s).mode = s.mode := rfl
@[simp] theorem afterAnswer_initDone (s : State) : (afterAnswer s).initDone = s.initDone := rfl
@[simp] theorem afterAnswer_faultFlag (s : State) : (afterAnswer s).faultFlag = s.faultFlag := rfl
@[simp] theorem afterAnswer_primed (s : State) : (afterAnswer s).primed = s.primed := rfl
@[simp] theorem afterAnswer_dc (s : State) : (afterAnswer s).dc = s.dc := rfl
@[simp] theorem afterAnswer_lastStatus (s : State) : (afterAnswer s).lastStatus = s.lastStatus := rfl
@[simp] theorem afterAnswer_op (s : State) : (afterAnswer s).op = s.op := rfl
@[simp] theorem afterAnswer_params (s : State) : (afterAnswer s).params = s.params := rfl
@[simp] theorem afterAnswer_trace (s : State) : (afterAnswer s).trace = s.trace := rfl
@[simp] theorem afterAnswer_stub (s : State) : (afterAnswer s).stub = s.stub := rfl
@[simp] theorem afterAnswer_port (s : State) : (afterAnswer s).port = s.port := rfl
@[simp] theorem afterAnswer_answers (s : State) : (afterAnswer s).answers = s.answers.tail := rfl
@[simp] theorem afterAnswer_frames (s : State) : (afterAnswer s).frames = s.frames + 1 := rfl
@[simp] theorem afterAnswer_moves (s : State) : (afterAnswer s).moves = s.moves := rfl
@[simp] theorem afterAnswer_reads (s : State) : (afterAnswer s).reads = s.reads := rfl

@[simp] theorem faultState_rx (f : Frame) (s : State) : (faultState f s).rx = s.rx := rfl
@[simp] theorem faultState_ry (f : Frame) (s : State) : (faultState f s).ry = s.ry := rfl
@[simp] theorem faultState_rw (f : Frame) (s : State) : (faultState f s).rw = s.rw := rfl
@[simp] theorem faultState_rh (f : Frame) (s : State) : (faultState f s).rh = s.rh := rfl
@[simp] theorem faultState_rc (f : Frame) (s : State) : (faultState f s).rc = s.rc := rfl
@[simp] theorem faultState_wx0 (f : Frame) (s : State) : (faultState f s).wx0 = s.wx0 := rfl
@[simp] theorem faultState_wy0 (f : Frame) (s : State) : (faultState f s).wy0 = s.wy0 := rfl
@[simp] theorem faultState_wx1 (f : Frame) (s : State) : (faultState f s).wx1 = s.wx1 := rfl
@[simp] theorem faultState_wy1 (f : Frame) (s : State) : (faultState f s).wy1 = s.wy1 := rfl
@[simp] theorem faultState_rowbuf (f : Frame) (s : State) : (faultState f s).rowbuf = s.rowbuf := rfl
@[simp] theorem faultState_rowlen (f : Frame) (s : State) : (faultState f s).rowlen = s.rowlen := rfl
@[simp] theorem faultState_rows (f : Frame) (s : State) : (faultState f s).rows = s.rows := rfl
@[simp] theorem faultState_row (f : Frame) (s : State) : (faultState f s).row = s.row := rfl
@[simp] theorem faultState_sp (f : Frame) (s : State) : (faultState f s).sp = s.sp := rfl
@[simp] theorem faultState_phase (f : Frame) (s : State) : (faultState f s).phase = s.phase := rfl
@[simp] theorem faultState_mode (f : Frame) (s : State) : (faultState f s).mode = .halted := rfl
@[simp] theorem faultState_initDone (f : Frame) (s : State) : (faultState f s).initDone = s.initDone := rfl
@[simp] theorem faultState_faultFlag (f : Frame) (s : State) : (faultState f s).faultFlag = true := rfl
@[simp] theorem faultState_primed (f : Frame) (s : State) : (faultState f s).primed = false := rfl
@[simp] theorem faultState_dc (f : Frame) (s : State) : (faultState f s).dc = s.dc := rfl
@[simp] theorem faultState_lastStatus (f : Frame) (s : State) : (faultState f s).lastStatus = .fault := rfl
@[simp] theorem faultState_op (f : Frame) (s : State) : (faultState f s).op = s.op := rfl
@[simp] theorem faultState_params (f : Frame) (s : State) : (faultState f s).params = s.params := rfl
@[simp] theorem faultState_trace (f : Frame) (s : State) : (faultState f s).trace = s.trace ++ [.fault f] ++ [.done s.op .fault] := rfl
@[simp] theorem faultState_stub (f : Frame) (s : State) : (faultState f s).stub = none := rfl
@[simp] theorem faultState_port (f : Frame) (s : State) : (faultState f s).port = s.port := rfl
@[simp] theorem faultState_answers (f : Frame) (s : State) : (faultState f s).answers = s.answers := rfl
@[simp] theorem faultState_frames (f : Frame) (s : State) : (faultState f s).frames = s.frames := rfl
@[simp] theorem faultState_moves (f : Frame) (s : State) : (faultState f s).moves = s.moves := rfl
@[simp] theorem faultState_reads (f : Frame) (s : State) : (faultState f s).reads = s.reads := rfl

@[simp] theorem completeOk_rx (s : State) : (completeOk s).rx = s.rx := rfl
@[simp] theorem completeOk_ry (s : State) : (completeOk s).ry = s.ry := rfl
@[simp] theorem completeOk_rw (s : State) : (completeOk s).rw = s.rw := rfl
@[simp] theorem completeOk_rh (s : State) : (completeOk s).rh = s.rh := rfl
@[simp] theorem completeOk_rc (s : State) : (completeOk s).rc = s.rc := rfl
@[simp] theorem completeOk_wx0 (s : State) : (completeOk s).wx0 = s.wx0 := rfl
@[simp] theorem completeOk_wy0 (s : State) : (completeOk s).wy0 = s.wy0 := rfl
@[simp] theorem completeOk_wx1 (s : State) : (completeOk s).wx1 = s.wx1 := rfl
@[simp] theorem completeOk_wy1 (s : State) : (completeOk s).wy1 = s.wy1 := rfl
@[simp] theorem completeOk_rowbuf (s : State) : (completeOk s).rowbuf = s.rowbuf := rfl
@[simp] theorem completeOk_rowlen (s : State) : (completeOk s).rowlen = s.rowlen := rfl
@[simp] theorem completeOk_rows (s : State) : (completeOk s).rows = s.rows := rfl
@[simp] theorem completeOk_row (s : State) : (completeOk s).row = s.row := rfl
@[simp] theorem completeOk_sp (s : State) : (completeOk s).sp = s.sp := rfl
@[simp] theorem completeOk_phase (s : State) : (completeOk s).phase = .none := rfl
@[simp] theorem completeOk_mode (s : State) : (completeOk s).mode = .idle := rfl
@[simp] theorem completeOk_initDone (s : State) : (completeOk s).initDone = s.initDone := rfl
@[simp] theorem completeOk_faultFlag (s : State) : (completeOk s).faultFlag = s.faultFlag := rfl
@[simp] theorem completeOk_primed (s : State) : (completeOk s).primed = s.primed := rfl
@[simp] theorem completeOk_dc (s : State) : (completeOk s).dc = s.dc := rfl
@[simp] theorem completeOk_lastStatus (s : State) : (completeOk s).lastStatus = .ok := rfl
@[simp] theorem completeOk_op (s : State) : (completeOk s).op = s.op := rfl
@[simp] theorem completeOk_params (s : State) : (completeOk s).params = s.params := rfl
@[simp] theorem completeOk_trace (s : State) : (completeOk s).trace = s.trace ++ [.done s.op .ok] := rfl
@[simp] theorem completeOk_stub (s : State) : (completeOk s).stub = s.stub := rfl
@[simp] theorem completeOk_port (s : State) : (completeOk s).port = s.port := rfl
@[simp] theorem completeOk_answers (s : State) : (completeOk s).answers = s.answers := rfl
@[simp] theorem completeOk_frames (s : State) : (completeOk s).frames = s.frames := rfl
@[simp] theorem completeOk_moves (s : State) : (completeOk s).moves = s.moves := rfl
@[simp] theorem completeOk_reads (s : State) : (completeOk s).reads = s.reads := rfl

@[simp] theorem rejected_rx (c : Byte) (s : State) : (rejected c s).rx = s.rx := rfl
@[simp] theorem rejected_ry (c : Byte) (s : State) : (rejected c s).ry = s.ry := rfl
@[simp] theorem rejected_rw (c : Byte) (s : State) : (rejected c s).rw = s.rw := rfl
@[simp] theorem rejected_rh (c : Byte) (s : State) : (rejected c s).rh = s.rh := rfl
@[simp] theorem rejected_rc (c : Byte) (s : State) : (rejected c s).rc = s.rc := rfl
@[simp] theorem rejected_wx0 (c : Byte) (s : State) : (rejected c s).wx0 = s.wx0 := rfl
@[simp] theorem rejected_wy0 (c : Byte) (s : State) : (rejected c s).wy0 = s.wy0 := rfl
@[simp] theorem rejected_wx1 (c : Byte) (s : State) : (rejected c s).wx1 = s.wx1 := rfl
@[simp] theorem rejected_wy1 (c : Byte) (s : State) : (rejected c s).wy1 = s.wy1 := rfl
@[simp] theorem rejected_rowbuf (c : Byte) (s : State) : (rejected c s).rowbuf = s.rowbuf := rfl
@[simp] theorem rejected_rowlen (c : Byte) (s : State) : (rejected c s).rowlen = s.rowlen := rfl
@[simp] theorem rejected_rows (c : Byte) (s : State) : (rejected c s).rows = s.rows := rfl
@[simp] theorem rejected_row (c : Byte) (s : State) : (rejected c s).row = s.row := rfl
@[simp] theorem rejected_sp (c : Byte) (s : State) : (rejected c s).sp = s.sp := rfl
@[simp] theorem rejected_phase (c : Byte) (s : State) : (rejected c s).phase = s.phase := rfl
@[simp] theorem rejected_mode (c : Byte) (s : State) : (rejected c s).mode = s.mode := rfl
@[simp] theorem rejected_initDone (c : Byte) (s : State) : (rejected c s).initDone = s.initDone := rfl
@[simp] theorem rejected_faultFlag (c : Byte) (s : State) : (rejected c s).faultFlag = s.faultFlag := rfl
@[simp] theorem rejected_primed (c : Byte) (s : State) : (rejected c s).primed = s.primed := rfl
@[simp] theorem rejected_dc (c : Byte) (s : State) : (rejected c s).dc = s.dc := rfl
@[simp] theorem rejected_lastStatus (c : Byte) (s : State) : (rejected c s).lastStatus = .rejected := rfl
@[simp] theorem rejected_op (c : Byte) (s : State) : (rejected c s).op = s.op := rfl
@[simp] theorem rejected_params (c : Byte) (s : State) : (rejected c s).params = s.params := rfl
@[simp] theorem rejected_trace (c : Byte) (s : State) : (rejected c s).trace = s.trace ++ [.done c .rejected] := rfl
@[simp] theorem rejected_stub (c : Byte) (s : State) : (rejected c s).stub = s.stub := rfl
@[simp] theorem rejected_port (c : Byte) (s : State) : (rejected c s).port = s.port := rfl
@[simp] theorem rejected_answers (c : Byte) (s : State) : (rejected c s).answers = s.answers := rfl
@[simp] theorem rejected_frames (c : Byte) (s : State) : (rejected c s).frames = s.frames := rfl
@[simp] theorem rejected_moves (c : Byte) (s : State) : (rejected c s).moves = s.moves := rfl
@[simp] theorem rejected_reads (c : Byte) (s : State) : (rejected c s).reads = s.reads := rfl

@[simp] theorem loadOperands_rx (f1 f2 f3 f4 f5 : Half) (s : State) : (loadOperands f1 f2 f3 f4 f5 s).rx = f1 := rfl
@[simp] theorem loadOperands_ry (f1 f2 f3 f4 f5 : Half) (s : State) : (loadOperands f1 f2 f3 f4 f5 s).ry = f2 := rfl
@[simp] theorem loadOperands_rw (f1 f2 f3 f4 f5 : Half) (s : State) : (loadOperands f1 f2 f3 f4 f5 s).rw = f3 := rfl
@[simp] theorem loadOperands_rh (f1 f2 f3 f4 f5 : Half) (s : State) : (loadOperands f1 f2 f3 f4 f5 s).rh = f4 := rfl
@[simp] theorem loadOperands_rc (f1 f2 f3 f4 f5 : Half) (s : State) : (loadOperands f1 f2 f3 f4 f5 s).rc = f5 := rfl
@[simp] theorem loadOperands_wx0 (f1 f2 f3 f4 f5 : Half) (s : State) : (loadOperands f1 f2 f3 f4 f5 s).wx0 = s.wx0 := rfl
@[simp] theorem loadOperands_wy0 (f1 f2 f3 f4 f5 : Half) (s : State) : (loadOperands f1 f2 f3 f4 f5 s).wy0 = s.wy0 := rfl
@[simp] theorem loadOperands_wx1 (f1 f2 f3 f4 f5 : Half) (s : State) : (loadOperands f1 f2 f3 f4 f5 s).wx1 = s.wx1 := rfl
@[simp] theorem loadOperands_wy1 (f1 f2 f3 f4 f5 : Half) (s : State) : (loadOperands f1 f2 f3 f4 f5 s).wy1 = s.wy1 := rfl
@[simp] theorem loadOperands_rowbuf (f1 f2 f3 f4 f5 : Half) (s : State) : (loadOperands f1 f2 f3 f4 f5 s).rowbuf = s.rowbuf := rfl
@[simp] theorem loadOperands_rowlen (f1 f2 f3 f4 f5 : Half) (s : State) : (loadOperands f1 f2 f3 f4 f5 s).rowlen = s.rowlen := rfl
@[simp] theorem loadOperands_rows (f1 f2 f3 f4 f5 : Half) (s : State) : (loadOperands f1 f2 f3 f4 f5 s).rows = s.rows := rfl
@[simp] theorem loadOperands_row (f1 f2 f3 f4 f5 : Half) (s : State) : (loadOperands f1 f2 f3 f4 f5 s).row = s.row := rfl
@[simp] theorem loadOperands_sp (f1 f2 f3 f4 f5 : Half) (s : State) : (loadOperands f1 f2 f3 f4 f5 s).sp = s.sp := rfl
@[simp] theorem loadOperands_phase (f1 f2 f3 f4 f5 : Half) (s : State) : (loadOperands f1 f2 f3 f4 f5 s).phase = s.phase := rfl
@[simp] theorem loadOperands_mode (f1 f2 f3 f4 f5 : Half) (s : State) : (loadOperands f1 f2 f3 f4 f5 s).mode = s.mode := rfl
@[simp] theorem loadOperands_initDone (f1 f2 f3 f4 f5 : Half) (s : State) : (loadOperands f1 f2 f3 f4 f5 s).initDone = s.initDone := rfl
@[simp] theorem loadOperands_faultFlag (f1 f2 f3 f4 f5 : Half) (s : State) : (loadOperands f1 f2 f3 f4 f5 s).faultFlag = s.faultFlag := rfl
@[simp] theorem loadOperands_primed (f1 f2 f3 f4 f5 : Half) (s : State) : (loadOperands f1 f2 f3 f4 f5 s).primed = s.primed := rfl
@[simp] theorem loadOperands_dc (f1 f2 f3 f4 f5 : Half) (s : State) : (loadOperands f1 f2 f3 f4 f5 s).dc = s.dc := rfl
@[simp] theorem loadOperands_lastStatus (f1 f2 f3 f4 f5 : Half) (s : State) : (loadOperands f1 f2 f3 f4 f5 s).lastStatus = s.lastStatus := rfl
@[simp] theorem loadOperands_op (f1 f2 f3 f4 f5 : Half) (s : State) : (loadOperands f1 f2 f3 f4 f5 s).op = s.op := rfl
@[simp] theorem loadOperands_params (f1 f2 f3 f4 f5 : Half) (s : State) : (loadOperands f1 f2 f3 f4 f5 s).params = s.params := rfl
@[simp] theorem loadOperands_trace (f1 f2 f3 f4 f5 : Half) (s : State) : (loadOperands f1 f2 f3 f4 f5 s).trace = s.trace := rfl
@[simp] theorem loadOperands_stub (f1 f2 f3 f4 f5 : Half) (s : State) : (loadOperands f1 f2 f3 f4 f5 s).stub = s.stub := rfl
@[simp] theorem loadOperands_port (f1 f2 f3 f4 f5 : Half) (s : State) : (loadOperands f1 f2 f3 f4 f5 s).port = s.port := rfl
@[simp] theorem loadOperands_answers (f1 f2 f3 f4 f5 : Half) (s : State) : (loadOperands f1 f2 f3 f4 f5 s).answers = s.answers := rfl
@[simp] theorem loadOperands_frames (f1 f2 f3 f4 f5 : Half) (s : State) : (loadOperands f1 f2 f3 f4 f5 s).frames = s.frames := rfl
@[simp] theorem loadOperands_moves (f1 f2 f3 f4 f5 : Half) (s : State) : (loadOperands f1 f2 f3 f4 f5 s).moves = s.moves := rfl
@[simp] theorem loadOperands_reads (f1 f2 f3 f4 f5 : Half) (s : State) : (loadOperands f1 f2 f3 f4 f5 s).reads = s.reads := rfl

@[simp] theorem packRow_rx (cw ch : Nat) (c : Half) (s : State) : (packRow cw ch c s).rx = s.rx := rfl
@[simp] theorem packRow_ry (cw ch : Nat) (c : Half) (s : State) : (packRow cw ch c s).ry = s.ry := rfl
@[simp] theorem packRow_rw (cw ch : Nat) (c : Half) (s : State) : (packRow cw ch c s).rw = s.rw := rfl
@[simp] theorem packRow_rh (cw ch : Nat) (c : Half) (s : State) : (packRow cw ch c s).rh = s.rh := rfl
@[simp] theorem packRow_rc (cw ch : Nat) (c : Half) (s : State) : (packRow cw ch c s).rc = s.rc := rfl
@[simp] theorem packRow_wx0 (cw ch : Nat) (c : Half) (s : State) : (packRow cw ch c s).wx0 = s.wx0 := rfl
@[simp] theorem packRow_wy0 (cw ch : Nat) (c : Half) (s : State) : (packRow cw ch c s).wy0 = s.wy0 := rfl
@[simp] theorem packRow_wx1 (cw ch : Nat) (c : Half) (s : State) : (packRow cw ch c s).wx1 = s.wx1 := rfl
@[simp] theorem packRow_wy1 (cw ch : Nat) (c : Half) (s : State) : (packRow cw ch c s).wy1 = s.wy1 := rfl
@[simp] theorem packRow_rowbuf (cw ch : Nat) (c : Half) (s : State) : (packRow cw ch c s).rowbuf = Memory.writeList s.rowbuf 0 (rowBytes cw c) := rfl
@[simp] theorem packRow_rowlen (cw ch : Nat) (c : Half) (s : State) : (packRow cw ch c s).rowlen = BitVec.ofNat 16 (2 * cw) := rfl
@[simp] theorem packRow_rows (cw ch : Nat) (c : Half) (s : State) : (packRow cw ch c s).rows = BitVec.ofNat 16 ch := rfl
@[simp] theorem packRow_row (cw ch : Nat) (c : Half) (s : State) : (packRow cw ch c s).row = 0 := rfl
@[simp] theorem packRow_sp (cw ch : Nat) (c : Half) (s : State) : (packRow cw ch c s).sp = s.sp := rfl
@[simp] theorem packRow_phase (cw ch : Nat) (c : Half) (s : State) : (packRow cw ch c s).phase = s.phase := rfl
@[simp] theorem packRow_mode (cw ch : Nat) (c : Half) (s : State) : (packRow cw ch c s).mode = s.mode := rfl
@[simp] theorem packRow_initDone (cw ch : Nat) (c : Half) (s : State) : (packRow cw ch c s).initDone = s.initDone := rfl
@[simp] theorem packRow_faultFlag (cw ch : Nat) (c : Half) (s : State) : (packRow cw ch c s).faultFlag = s.faultFlag := rfl
@[simp] theorem packRow_primed (cw ch : Nat) (c : Half) (s : State) : (packRow cw ch c s).primed = s.primed := rfl
@[simp] theorem packRow_dc (cw ch : Nat) (c : Half) (s : State) : (packRow cw ch c s).dc = s.dc := rfl
@[simp] theorem packRow_lastStatus (cw ch : Nat) (c : Half) (s : State) : (packRow cw ch c s).lastStatus = s.lastStatus := rfl
@[simp] theorem packRow_op (cw ch : Nat) (c : Half) (s : State) : (packRow cw ch c s).op = s.op := rfl
@[simp] theorem packRow_params (cw ch : Nat) (c : Half) (s : State) : (packRow cw ch c s).params = s.params := rfl
@[simp] theorem packRow_trace (cw ch : Nat) (c : Half) (s : State) : (packRow cw ch c s).trace = s.trace := rfl
@[simp] theorem packRow_stub (cw ch : Nat) (c : Half) (s : State) : (packRow cw ch c s).stub = s.stub := rfl
@[simp] theorem packRow_port (cw ch : Nat) (c : Half) (s : State) : (packRow cw ch c s).port = s.port := rfl
@[simp] theorem packRow_answers (cw ch : Nat) (c : Half) (s : State) : (packRow cw ch c s).answers = s.answers := rfl
@[simp] theorem packRow_frames (cw ch : Nat) (c : Half) (s : State) : (packRow cw ch c s).frames = s.frames := rfl

@[simp] theorem restartStub_rx (s : State) : (restartStub s).rx = s.rx := rfl
@[simp] theorem restartStub_ry (s : State) : (restartStub s).ry = s.ry := rfl
@[simp] theorem restartStub_rw (s : State) : (restartStub s).rw = s.rw := rfl
@[simp] theorem restartStub_rh (s : State) : (restartStub s).rh = s.rh := rfl
@[simp] theorem restartStub_rc (s : State) : (restartStub s).rc = s.rc := rfl
@[simp] theorem restartStub_wx0 (s : State) : (restartStub s).wx0 = s.wx0 := rfl
@[simp] theorem restartStub_wy0 (s : State) : (restartStub s).wy0 = s.wy0 := rfl
@[simp] theorem restartStub_wx1 (s : State) : (restartStub s).wx1 = s.wx1 := rfl
@[simp] theorem restartStub_wy1 (s : State) : (restartStub s).wy1 = s.wy1 := rfl
@[simp] theorem restartStub_rowbuf (s : State) : (restartStub s).rowbuf = s.rowbuf := rfl
@[simp] theorem restartStub_rowlen (s : State) : (restartStub s).rowlen = s.rowlen := rfl
@[simp] theorem restartStub_rows (s : State) : (restartStub s).rows = s.rows := rfl
@[simp] theorem restartStub_row (s : State) : (restartStub s).row = s.row := rfl
@[simp] theorem restartStub_sp (s : State) : (restartStub s).sp = s.sp := rfl
@[simp] theorem restartStub_phase (s : State) : (restartStub s).phase = s.phase := rfl
@[simp] theorem restartStub_mode (s : State) : (restartStub s).mode = s.mode := rfl
@[simp] theorem restartStub_initDone (s : State) : (restartStub s).initDone = s.initDone := rfl
@[simp] theorem restartStub_faultFlag (s : State) : (restartStub s).faultFlag = s.faultFlag := rfl
@[simp] theorem restartStub_primed (s : State) : (restartStub s).primed = s.primed := rfl
@[simp] theorem restartStub_dc (s : State) : (restartStub s).dc = s.dc := rfl
@[simp] theorem restartStub_lastStatus (s : State) : (restartStub s).lastStatus = s.lastStatus := rfl
@[simp] theorem restartStub_op (s : State) : (restartStub s).op = s.op := rfl
@[simp] theorem restartStub_params (s : State) : (restartStub s).params = s.params := rfl
@[simp] theorem restartStub_trace (s : State) : (restartStub s).trace = s.trace := rfl
@[simp] theorem restartStub_stub (s : State) : (restartStub s).stub = some (initStub s) := rfl
@[simp] theorem restartStub_port (s : State) : (restartStub s).port = s.port := rfl
@[simp] theorem restartStub_answers (s : State) : (restartStub s).answers = s.answers := rfl
@[simp] theorem restartStub_frames (s : State) : (restartStub s).frames = s.frames := rfl
@[simp] theorem restartStub_moves (s : State) : (restartStub s).moves = s.moves := rfl
@[simp] theorem restartStub_reads (s : State) : (restartStub s).reads = s.reads := rfl

@[simp] theorem resetBlock_rx (s : State) : (resetBlock s).rx = 0 := rfl
@[simp] theorem resetBlock_ry (s : State) : (resetBlock s).ry = 0 := rfl
@[simp] theorem resetBlock_rw (s : State) : (resetBlock s).rw = 0 := rfl
@[simp] theorem resetBlock_rh (s : State) : (resetBlock s).rh = 0 := rfl
@[simp] theorem resetBlock_rc (s : State) : (resetBlock s).rc = 0 := rfl
@[simp] theorem resetBlock_wx0 (s : State) : (resetBlock s).wx0 = 0 := rfl
@[simp] theorem resetBlock_wy0 (s : State) : (resetBlock s).wy0 = 0 := rfl
@[simp] theorem resetBlock_wx1 (s : State) : (resetBlock s).wx1 = 0 := rfl
@[simp] theorem resetBlock_wy1 (s : State) : (resetBlock s).wy1 = 0 := rfl
@[simp] theorem resetBlock_rowbuf (s : State) : (resetBlock s).rowbuf = [] := rfl
@[simp] theorem resetBlock_rowlen (s : State) : (resetBlock s).rowlen = 0 := rfl
@[simp] theorem resetBlock_rows (s : State) : (resetBlock s).rows = 0 := rfl
@[simp] theorem resetBlock_row (s : State) : (resetBlock s).row = 0 := rfl
@[simp] theorem resetBlock_sp (s : State) : (resetBlock s).sp = 0 := rfl
@[simp] theorem resetBlock_phase (s : State) : (resetBlock s).phase = .none := rfl
@[simp] theorem resetBlock_mode (s : State) : (resetBlock s).mode = .idle := rfl
@[simp] theorem resetBlock_initDone (s : State) : (resetBlock s).initDone = false := rfl
@[simp] theorem resetBlock_faultFlag (s : State) : (resetBlock s).faultFlag = false := rfl
@[simp] theorem resetBlock_primed (s : State) : (resetBlock s).primed = false := rfl
@[simp] theorem resetBlock_dc (s : State) : (resetBlock s).dc = 0 := rfl
@[simp] theorem resetBlock_lastStatus (s : State) : (resetBlock s).lastStatus = .ok := rfl
@[simp] theorem resetBlock_op (s : State) : (resetBlock s).op = 0 := rfl
@[simp] theorem resetBlock_params (s : State) : (resetBlock s).params = s.params := rfl
@[simp] theorem resetBlock_trace (s : State) : (resetBlock s).trace = s.trace := rfl
@[simp] theorem resetBlock_stub (s : State) : (resetBlock s).stub = s.stub := rfl
@[simp] theorem resetBlock_port (s : State) : (resetBlock s).port = s.port := rfl
@[simp] theorem resetBlock_answers (s : State) : (resetBlock s).answers = s.answers := rfl
@[simp] theorem resetBlock_frames (s : State) : (resetBlock s).frames = s.frames := rfl
@[simp] theorem resetBlock_moves (s : State) : (resetBlock s).moves = s.moves := rfl
@[simp] theorem resetBlock_reads (s : State) : (resetBlock s).reads = s.reads := rfl

@[simp] theorem cutOff_rx (s : State) : (cutOff s).rx = 0 := rfl
@[simp] theorem cutOff_ry (s : State) : (cutOff s).ry = 0 := rfl
@[simp] theorem cutOff_rw (s : State) : (cutOff s).rw = 0 := rfl
@[simp] theorem cutOff_rh (s : State) : (cutOff s).rh = 0 := rfl
@[simp] theorem cutOff_rc (s : State) : (cutOff s).rc = 0 := rfl
@[simp] theorem cutOff_wx0 (s : State) : (cutOff s).wx0 = 0 := rfl
@[simp] theorem cutOff_wy0 (s : State) : (cutOff s).wy0 = 0 := rfl
@[simp] theorem cutOff_wx1 (s : State) : (cutOff s).wx1 = 0 := rfl
@[simp] theorem cutOff_wy1 (s : State) : (cutOff s).wy1 = 0 := rfl
@[simp] theorem cutOff_rowbuf (s : State) : (cutOff s).rowbuf = [] := rfl
@[simp] theorem cutOff_rowlen (s : State) : (cutOff s).rowlen = 0 := rfl
@[simp] theorem cutOff_rows (s : State) : (cutOff s).rows = 0 := rfl
@[simp] theorem cutOff_row (s : State) : (cutOff s).row = 0 := rfl
@[simp] theorem cutOff_sp (s : State) : (cutOff s).sp = 0 := rfl
@[simp] theorem cutOff_phase (s : State) : (cutOff s).phase = .none := rfl
@[simp] theorem cutOff_mode (s : State) : (cutOff s).mode = .idle := rfl
@[simp] theorem cutOff_initDone (s : State) : (cutOff s).initDone = false := rfl
@[simp] theorem cutOff_faultFlag (s : State) : (cutOff s).faultFlag = false := rfl
@[simp] theorem cutOff_primed (s : State) : (cutOff s).primed = false := rfl
@[simp] theorem cutOff_dc (s : State) : (cutOff s).dc = 0 := rfl
@[simp] theorem cutOff_lastStatus (s : State) : (cutOff s).lastStatus = .ok := rfl
@[simp] theorem cutOff_op (s : State) : (cutOff s).op = 0 := rfl
@[simp] theorem cutOff_params (s : State) : (cutOff s).params = s.params := rfl
@[simp] theorem cutOff_trace (s : State) : (cutOff s).trace = s.trace := rfl
@[simp] theorem cutOff_stub (s : State) : (cutOff s).stub = none := rfl
@[simp] theorem cutOff_port (s : State) : (cutOff s).port = s.port := rfl
@[simp] theorem cutOff_answers (s : State) : (cutOff s).answers = s.answers := rfl
@[simp] theorem cutOff_frames (s : State) : (cutOff s).frames = s.frames := rfl
@[simp] theorem cutOff_moves (s : State) : (cutOff s).moves = s.moves := rfl
@[simp] theorem cutOff_reads (s : State) : (cutOff s).reads = s.reads := rfl

end Sys2Proof.Machine
end

