-- ==== Sys2Proof/Laws/Memory.lean ====
section
/-! SUPPORT. The laws of memory: a read after a write, and that every operation keeps the canonical form. -/

namespace Sys2Proof.Machine

theorem Memory.read?_write_same (m : Memory) (a : Nat) (b : Byte) : Memory.read? (Memory.write m a b) a = some b := by
  induction m with
  | nil => simp [Memory.write, Memory.read?]
  | cons c m ih =>
    obtain ⟨k, v⟩ := c
    simp only [Memory.write]
    split
    · simp [Memory.read?]
    · split
      · simp [Memory.read?]
      · simp [Memory.read?, *]

theorem Memory.read?_write_other (m : Memory) {a k : Nat} (b : Byte) (h : k ≠ a) :
    Memory.read? (Memory.write m a b) k = Memory.read? m k := by
  induction m with
  | nil => simp [Memory.write, Memory.read?, h]
  | cons c m ih =>
    obtain ⟨j, v⟩ := c
    simp only [Memory.write]
    split
    · simp [Memory.read?, h]
    · split
      · subst_vars
        simp [Memory.read?, h]
      · simp [Memory.read?, ih]

theorem Memory.read?_writeList_outside (bs : List Byte) (m : Memory) (a : Nat) {k : Nat} (h : k < a ∨ a + bs.length ≤ k) :
    Memory.read? (Memory.writeList m a bs) k = Memory.read? m k := by
  induction bs generalizing m a with
  | nil => rfl
  | cons b bs ih =>
    simp only [List.length_cons] at h
    rw [Memory.writeList, ih _ _ (by omega), Memory.read?_write_other _ _ (by omega)]

theorem Memory.read?_writeList_inside (bs : List Byte) (m : Memory) (a i : Nat) (h : i < bs.length) :
    Memory.read? (Memory.writeList m a bs) (a + i) = bs[i]? := by
  induction bs generalizing m a i with
  | nil => simp at h
  | cons b bs ih =>
    cases i with
    | zero =>
      rw [Memory.writeList, Memory.read?_writeList_outside _ _ _ (by omega)]
      simpa using Memory.read?_write_same m a b
    | succ i =>
      have := ih (Memory.write m a b) (a + 1) i (by simpa using h)
      rw [Memory.writeList, show a + (i + 1) = a + 1 + i by omega, this]
      simp

/-- A row buffer read back after it was written from its start is what was written (R51, R22). -/
theorem rowRead_writeList (m : Memory) (bs : List Byte) : rowRead (Memory.writeList m 0 bs) bs.length = bs := by
  apply List.ext_getElem?
  intro i
  simp only [rowRead, List.getElem?_map]
  rcases Nat.lt_or_ge i bs.length with h | h
  · have := Memory.read?_writeList_inside bs m 0 i h
    simp only [Nat.zero_add] at this
    simp [List.getElem?_range h, this, List.getElem?_eq_getElem h]
  · simp [h]

theorem Memory.mem_write {m : Memory} {a : Nat} {b : Byte} {c : Host.Cell} (h : c ∈ Memory.write m a b) : c = (a, b) ∨ c ∈ m := by
  induction m with
  | nil => simpa [Memory.write] using h
  | cons d m ih =>
    obtain ⟨k, v⟩ := d
    simp only [Memory.write] at h
    split at h
    · simpa using h
    · split at h
      · rcases List.mem_cons.mp h with h | h
        · exact .inl h
        · exact .inr (List.mem_cons_of_mem _ h)
      · rcases List.mem_cons.mp h with h | h
        · exact .inr (by simp [h])
        · rcases ih h with h | h
          · exact .inl h
          · exact .inr (List.mem_cons_of_mem _ h)

theorem Memory.write_wf {m : Memory} (a : Nat) (b : Byte) (h : m.wf = true) : (Memory.write m a b).wf = true := by
  simp only [Memory.wf, decide_eq_true_eq] at h ⊢
  induction m with
  | nil => simp [Memory.write]
  | cons d m ih =>
    obtain ⟨k, v⟩ := d
    have ⟨hk, hm⟩ := List.pairwise_cons.mp h
    simp only [Memory.write]
    split
    · refine List.pairwise_cons.mpr ⟨fun c hc => ?_, h⟩
      rcases List.mem_cons.mp hc with hc | hc
      · subst hc; assumption
      · exact Nat.lt_trans ‹a < k› (hk c hc)
    · split
      · subst_vars
        exact List.pairwise_cons.mpr ⟨hk, hm⟩
      · refine List.pairwise_cons.mpr ⟨fun c hc => ?_, ih hm⟩
        rcases Memory.mem_write hc with hc | hc
        · subst hc
          show k < a
          omega
        · exact hk c hc

theorem Memory.write_below {m : Memory} {n a : Nat} (b : Byte) (ha : a < n) (h : m.below n = true) :
    (Memory.write m a b).below n = true := by
  simp only [Memory.below, decide_eq_true_eq] at h ⊢
  intro c hc
  rcases Memory.mem_write hc with hc | hc
  · subst hc; exact ha
  · exact h c hc

theorem Memory.writeList_wf (bs : List Byte) (m : Memory) (a : Nat) (h : m.wf = true) : (Memory.writeList m a bs).wf = true := by
  induction bs generalizing m a with
  | nil => exact h
  | cons b bs ih => exact ih _ _ (Memory.write_wf a b h)

theorem Memory.writeList_below (bs : List Byte) (m : Memory) {a n : Nat} (ha : a + bs.length ≤ n) (h : m.below n = true) :
    (Memory.writeList m a bs).below n = true := by
  induction bs generalizing m a with
  | nil => exact h
  | cons b bs ih =>
    simp only [List.length_cons] at ha
    exact ih _ (by omega) (Memory.write_below b (by omega) h)

@[simp] theorem rowBytes_length (cw : Nat) (c : Half) : (rowBytes cw c).length = 2 * cw := by
  simp [rowBytes, be16, Nat.mul_comm]

/-- The memories of the reset state are canonical. -/
theorem reset_memory_wf : State.reset.rowbuf.wf = true ∧ Panel.fresh.gram.wf = true := by decide

end Sys2Proof.Machine
end

