-- ==== Sys2Proof/Laws/Ops.lean ====
section
/-! SUPPORT. What each shared operation does where the transport answers `ok`, and everything it can do (one case lemma each). -/

namespace Sys2Proof.Machine

/-! ## Composition -/

@[simp] theorem andThen_run (s : State) (k : State → Micro) : (Micro.run s).andThen k = k s := rfl
@[simp] theorem andThen_ended (s : State) (k : State → Micro) : (Micro.ended s).andThen k = .ended s := rfl
@[simp] theorem state_run (s : State) : (Micro.run s).state = s := rfl
@[simp] theorem state_ended (s : State) : (Micro.ended s).state = s := rfl
@[simp] theorem finish_ended (s : State) : finish (.ended s) = s := rfl

/-! ## Answers -/

theorem nextAnswer_eq (s : State) : nextAnswer s = s.answerAt 0 := by
  cases h : s.answers <;> simp [nextAnswer, State.answerAt, h]

@[simp] theorem answerAt_sent (s : State) (evs : List Event) (n k : Nat) : (s.sent evs n).answerAt k = s.answerAt (n + k) := by
  simp [State.answerAt, State.sent, Nat.add_assoc]

@[simp] theorem answerAt_setPhase (ph : Phase) (s : State) (k : Nat) : (setPhase ph s).answerAt k = s.answerAt k := rfl
@[simp] theorem answerAt_setPrimed (v : Bool) (s : State) (k : Nat) : (setPrimed v s).answerAt k = s.answerAt k := rfl
@[simp] theorem answerAt_setInitDone (v : Bool) (s : State) (k : Nat) : (setInitDone v s).answerAt k = s.answerAt k := rfl
@[simp] theorem answerAt_setSp (i : Byte) (s : State) (k : Nat) : (setSp i s).answerAt k = s.answerAt k := rfl
@[simp] theorem answerAt_glimpse (s : State) (k : Nat) : (glimpse s).answerAt k = s.answerAt k := rfl
@[simp] theorem answerAt_enterPhase (ph : Phase) (s : State) (k : Nat) : (enterPhase ph s).answerAt k = s.answerAt k := rfl
@[simp] theorem answerAt_drivenCmd (s : State) (k : Nat) : (drivenCmd s).answerAt k = s.answerAt k := rfl
@[simp] theorem answerAt_setColumns (a b : Half) (s : State) (k : Nat) : (setColumns a b s).answerAt k = s.answerAt k := rfl
@[simp] theorem answerAt_setRows (a b : Half) (s : State) (k : Nat) : (setRows a b s).answerAt k = s.answerAt k := rfl
@[simp] theorem answerAt_packed (w h : Nat) (c : Half) (s : State) (k : Nat) : (packed w h c s).answerAt k = s.answerAt k := rfl
@[simp] theorem answerAt_writeColumns (a b : Half) (s : State) (k : Nat) : (writeColumns a b s).answerAt k = s.answerAt k := rfl
@[simp] theorem answerAt_writeRows (a b : Half) (s : State) (k : Nat) : (writeRows a b s).answerAt k = s.answerAt k := rfl
@[simp] theorem answerAt_writeRowCounts (l n : Half) (s : State) (k : Nat) : (writeRowCounts l n s).answerAt k = s.answerAt k := rfl
@[simp] theorem answerAt_countRow (s : State) (k : Nat) : (countRow s).answerAt k = s.answerAt k := rfl
@[simp] theorem answerAt_driveCmd (s : State) (k : Nat) : (driveCmd s).answerAt k = s.answerAt k := rfl
@[simp] theorem answerAt_driveData (s : State) (k : Nat) : (driveData s).answerAt k = s.answerAt k := rfl
@[simp] theorem answerAt_setHost (m : List HostMove) (rs : List StatusPort) (s : State) (k : Nat) :
    (setHost m rs s).answerAt k = s.answerAt k := rfl
@[simp] theorem answerAt_beginRequest (c : Byte) (s : State) (k : Nat) : (beginRequest c s).answerAt k = s.answerAt k := rfl
@[simp] theorem answerAt_loadOperands (a b c d e : Half) (s : State) (k : Nat) :
    (loadOperands a b c d e s).answerAt k = s.answerAt k := rfl
@[simp] theorem answerAt_packRow (w h : Nat) (c : Half) (s : State) (k : Nat) : (packRow w h c s).answerAt k = s.answerAt k := rfl
@[simp] theorem answerAt_restartStub (s : State) (k : Nat) : (restartStub s).answerAt k = s.answerAt k := rfl

/-! ## Events sent -/

theorem flat_append (a b : List Event) : flat (a ++ b) = flat a ++ flat b := by simp [flat]

@[simp] theorem flat_nil : flat [] = [] := rfl
@[simp] theorem flat_cons (e : Event) (t : List Event) : flat (e :: t) = e.flat ++ flat t := by simp [flat]

theorem Panel.run_append (p : Params) (q : Panel) (a b : List Tagged) : q.run p (a ++ b) = (q.run p a).run p b := by
  simp [Panel.run]

theorem consumed_append (p : Params) (a b : List Event) (q : Option Panel) :
    consumed p (a ++ b) q = consumed p b (consumed p a q) := by
  cases q <;> simp [consumed, flat_append, Panel.run_append]

theorem consumed_nil (p : Params) (q : Option Panel) : consumed p [] q = q := by
  cases q <;> simp [consumed, Panel.run]

theorem sent_sent (s : State) (a b : List Event) (m n : Nat) : (s.sent a m).sent b n = s.sent (a ++ b) (m + n) := by
  simp [State.sent, consumed_append, Nat.add_assoc]

theorem sent_nil (s : State) : s.sent [] 0 = s := by
  simp [State.sent, consumed_nil]

/-- An event with a frame, after its answer was taken. -/
theorem emit_afterAnswer (e : Event) (s : State) : emit e (afterAnswer s) = s.sent [e] 1 := by
  simp [emit, afterAnswer, State.sent, consumed]

/-- An event without a frame. -/
theorem emit_eq_sent (e : Event) (s : State) : emit e s = s.sent [e] 0 := by
  simp [emit, State.sent, consumed]

/-! ## Register writes the host may look at (R12, R26) -/

/-- t is s after some reads of the host: some of its moves are behind it, some readings are made, nothing else has changed. -/
def Watched (s t : State) : Prop := ∃ m rs, m <:+ s.moves ∧ s.reads <+: rs ∧ t = setHost m rs s

theorem Watched.refl (s : State) : Watched s s := ⟨s.moves, s.reads, List.suffix_rfl, List.prefix_rfl, rfl⟩

theorem Watched.trans {s t u : State} (h : Watched s t) (k : Watched t u) : Watched s u := by
  obtain ⟨m, rs, hm, hr, rfl⟩ := h
  obtain ⟨m', rs', hm', hr', rfl⟩ := k
  exact ⟨m', rs', hm'.trans hm, hr.trans hr', rfl⟩

/-- A register write commutes with the host's reads. -/
theorem Watched.map {s t : State} (h : Watched s t) (g : State → State) (hg : ∀ m rs s, g (setHost m rs s) = setHost m rs (g s))
    (hm : (g s).moves = s.moves) (hr : (g s).reads = s.reads) : Watched (g s) (g t) := by
  obtain ⟨m, rs, h, h', rfl⟩ := h
  exact ⟨m, rs, hm ▸ h, hr ▸ h', hg m rs s⟩

theorem readsBetween_suffix (ms : List HostMove) : (readsBetween ms).2 <:+ ms := by
  induction ms with
  | nil => exact List.suffix_rfl
  | cons a ms ih =>
    cases a with
    | readBetween => exact ih.trans (List.suffix_cons _ _)
    | nextWrite => exact List.suffix_cons _ _
    | proceed | readStatus | reset => exact List.suffix_rfl

/-- Everything the host can do after a register write. -/
theorem glimpse_watched (s : State) : Watched s (glimpse s) := ⟨_, _, readsBetween_suffix _, List.prefix_append _ _, rfl⟩

theorem writeColumns_watched (x0 x1 : Half) (s : State) : Watched (setColumns x0 x1 s) (writeColumns x0 x1 s) :=
  ((glimpse_watched { s with wx0 := x0 }).map (fun s => { s with wx1 := x1 }) (fun _ _ _ => rfl) rfl rfl).trans (glimpse_watched _)

theorem writeRows_watched (y0 y1 : Half) (s : State) : Watched (setRows y0 y1 s) (writeRows y0 y1 s) :=
  ((glimpse_watched { s with wy0 := y0 }).map (fun s => { s with wy1 := y1 }) (fun _ _ _ => rfl) rfl rfl).trans (glimpse_watched _)

theorem writeRowCounts_watched (l n : Half) (s : State) : Watched (setRowCounts l n s) (writeRowCounts l n s) := by
  obtain ⟨m, rs, h, h', e⟩ := glimpse_watched { s with rowlen := l }
  obtain ⟨m', rs', k, k', e'⟩ := glimpse_watched { setHost m rs { s with rowlen := l } with rows := n }
  obtain ⟨m'', rs'', l', l'', e''⟩ := glimpse_watched { setHost m' rs' { setHost m rs { s with rowlen := l } with rows := n } with row := 0 }
  exact ⟨m'', rs'', (l'.trans k).trans h, (h'.trans k').trans l'', by unfold writeRowCounts; rw [e, e', e'']; rfl⟩

theorem packRow_watched (cw ch : Nat) (c : Half) (s : State) : Watched (packed cw ch c s) (packRow cw ch c s) :=
  writeRowCounts_watched _ _ _

theorem driveCmd_watched (s : State) : Watched (drivenCmd s) (driveCmd s) :=
  (glimpse_watched { s with dc := s.params.dcCmd }).map (fun s => { s with primed := false }) (fun _ _ _ => rfl) rfl rfl

/-- The writes before the completion of a fault, whatever the host reads meanwhile (R222). -/
abbrev haltedEarly (s : State) : State := { s with primed := false, faultFlag := true, mode := .halted }

theorem halting_watched (s : State) : Watched (haltedEarly s) (halting s) :=
  ((glimpse_watched { s with primed := false }).map (fun s => { s with faultFlag := true, mode := .halted })
    (fun _ _ _ => rfl) rfl rfl).trans (glimpse_watched _)

/-- The writes before a completion `OK`, whatever the host reads meanwhile (R115). -/
abbrev idleEarly (s : State) : State := { s with phase := .none, mode := .idle }

theorem completing_watched (s : State) : Watched (idleEarly s) (completing s) :=
  ((glimpse_watched { s with phase := .none }).map (fun s => { s with mode := .idle }) (fun _ _ _ => rfl) rfl rfl).trans
    (glimpse_watched _)

/-- While the host does nothing, a register write is all that happens. -/
@[simp] theorem glimpse_nil (s : State) (hr : s.moves = []) : glimpse s = s := by
  unfold glimpse
  rw [hr]
  ext1 <;> simp [readsBetween, hr]

@[simp] theorem enterPhase_nil (ph : Phase) (s : State) (hr : s.moves = []) : enterPhase ph s = setPhase ph s :=
  glimpse_nil (setPhase ph s) hr

@[simp] theorem writeColumns_nil (x0 x1 : Half) (s : State) (hr : s.moves = []) : writeColumns x0 x1 s = setColumns x0 x1 s := by
  unfold writeColumns
  rw [glimpse_nil { s with wx0 := x0 } hr]
  exact glimpse_nil _ hr

@[simp] theorem writeRows_nil (y0 y1 : Half) (s : State) (hr : s.moves = []) : writeRows y0 y1 s = setRows y0 y1 s := by
  unfold writeRows
  rw [glimpse_nil { s with wy0 := y0 } hr]
  exact glimpse_nil _ hr

@[simp] theorem writeRowCounts_nil (l n : Half) (s : State) (hr : s.moves = []) : writeRowCounts l n s = setRowCounts l n s := by
  unfold writeRowCounts
  rw [glimpse_nil { s with rowlen := l } hr, glimpse_nil { s with rowlen := l, rows := n } hr]
  exact glimpse_nil _ hr

@[simp] theorem packRow_nil (cw ch : Nat) (c : Half) (s : State) (hr : s.moves = []) : packRow cw ch c s = packed cw ch c s :=
  writeRowCounts_nil _ _ { s with rowbuf := Memory.writeList s.rowbuf 0 (rowBytes cw c) } hr

@[simp] theorem driveCmd_nil (s : State) (hr : s.moves = []) : driveCmd s = drivenCmd s := by
  unfold driveCmd
  rw [glimpse_nil { s with dc := s.params.dcCmd } hr]
  rfl

theorem halting_nil (s : State) (hr : s.moves = []) : halting s = haltedEarly s := by
  unfold halting
  rw [glimpse_nil { s with primed := false } hr]
  exact glimpse_nil _ hr

theorem completing_nil (s : State) (hr : s.moves = []) : completing s = idleEarly s := by
  unfold completing
  rw [glimpse_nil { s with phase := .none } hr]
  exact glimpse_nil _ hr

/-! ## The frame primitives (R112, R113), the delay (R232) -/

/-- While the host does nothing, a micro-step runs on. -/
theorem inProgress_nil (k : State → Micro) (s : State) (hr : s.moves = []) : inProgress k s = k s := by
  unfold inProgress during
  rw [hr]
  exact congrArg k (by rw [← hr]; rfl)

/-- While the host does nothing, a completion is what it writes. -/
theorem complete_nil (w : State → State) (s : State) (hr : s.moves = []) : complete w s = w s := by
  unfold complete
  rw [inProgress_nil _ s hr]
  rfl

theorem finish_run (s : State) (hr : s.moves = []) : finish (.run s) = completeOk s := by
  simp only [finish]
  rw [completing_nil s hr, complete_nil _ (idleEarly s) hr]
  rfl

theorem reject_nil (op : Byte) (s : State) (hr : s.moves = []) : reject op s = rejected op s := complete_nil _ s hr

theorem raiseFault_nil (f : Frame) (s : State) (hr : s.moves = []) : raiseFault f s = faultState f s := by
  unfold raiseFault
  rw [halting_nil (markFault f s) hr, complete_nil _ (haltedEarly (markFault f s)) hr]
  rfl

theorem transferCmd_ok (b : Byte) (s : State) (ha : s.answerAt 0 = .ok) :
    transferCmd b s = .run (glimpse (setPrimed (primedAfter s.params b) (s.sent [.cmd b] 1))) := by
  unfold transferCmd
  rw [nextAnswer_eq, ha]
  simp only [emit_afterAnswer]

theorem transferCmd_fault (b : Byte) (s : State) (ha : s.answerAt 0 = .fault) :
    transferCmd b s = .ended (raiseFault (.command b) (afterAnswer s)) := by
  unfold transferCmd
  rw [nextAnswer_eq, ha]

theorem transferData_ok (bs : List Byte) (s : State) (ha : s.answerAt 0 = .ok) :
    transferData bs s = .run (s.sent [.data bs] 1) := by
  unfold transferData
  rw [nextAnswer_eq, ha, emit_afterAnswer]

theorem transferData_fault (bs : List Byte) (s : State) (ha : s.answerAt 0 = .fault) :
    transferData bs s = .ended (raiseFault (.data bs) (afterAnswer s)) := by
  unfold transferData
  rw [nextAnswer_eq, ha]

theorem busCmd_ok (b : Byte) (s : State) (hr : s.moves = []) (ha : s.answerAt 0 = .ok) :
    busCmd b s = .run (setPrimed (primedAfter s.params b) ((drivenCmd s).sent [.cmd b] 1)) := by
  unfold busCmd
  rw [driveCmd_nil s hr, inProgress_nil _ (drivenCmd s) hr, transferCmd_ok b (drivenCmd s) ha]
  exact congrArg Micro.run (glimpse_nil _ hr)

theorem busCmd_fault (b : Byte) (s : State) (hr : s.moves = []) (ha : s.answerAt 0 = .fault) :
    busCmd b s = .ended (faultState (.command b) (afterAnswer (drivenCmd s))) := by
  unfold busCmd
  rw [driveCmd_nil s hr, inProgress_nil _ (drivenCmd s) hr, transferCmd_fault b (drivenCmd s) ha]
  exact congrArg Micro.ended (raiseFault_nil _ (afterAnswer (drivenCmd s)) hr)

theorem busData_ok (bs : List Byte) (s : State) (hr : s.moves = []) (ha : s.answerAt 0 = .ok) :
    busData bs s = .run ((driveData s).sent [.data bs] 1) :=
  (inProgress_nil _ (driveData s) hr).trans (transferData_ok bs (driveData s) ha)

theorem busData_fault (bs : List Byte) (s : State) (hr : s.moves = []) (ha : s.answerAt 0 = .fault) :
    busData bs s = .ended (faultState (.data bs) (afterAnswer (driveData s))) :=
  (inProgress_nil _ (driveData s) hr).trans ((transferData_fault bs (driveData s) ha).trans
    (congrArg Micro.ended (raiseFault_nil _ (afterAnswer (driveData s)) hr)))

theorem delayFor_ok (n : Half) (s : State) (hr : s.moves = []) : delayFor n s = .run (s.sent [.wait n] 0) :=
  (inProgress_nil _ s hr).trans (congrArg Micro.run (emit_eq_sent _ s))

theorem during_cases (k : State → Micro) (ms : List HostMove) (s : State) :
    (∃ m rs, .reset :: m <:+ ms ∧ s.reads <+: rs ∧ during k ms s = .ended (cutOff (setHost m rs s))) ∨
    ∃ m rs, m <:+ ms ∧ s.reads <+: rs ∧ during k ms s = k (setHost m rs s) := by
  induction ms generalizing s with
  | nil => exact .inr ⟨[], s.reads, List.suffix_rfl, List.prefix_rfl, rfl⟩
  | cons a ms ih =>
    cases a with
    | proceed => exact .inr ⟨ms, s.reads, List.suffix_cons _ _, List.prefix_rfl, rfl⟩
    | reset => exact .inl ⟨ms, s.reads, List.suffix_rfl, List.prefix_rfl, rfl⟩
    | nextWrite =>
      have w := List.suffix_cons HostMove.nextWrite ms
      rcases ih s with ⟨m, rs, h, h', e⟩ | ⟨m, rs, h, h', e⟩
      · exact .inl ⟨m, rs, h.trans w, h', e⟩
      · exact .inr ⟨m, rs, h.trans w, h', e⟩
    | readStatus | readBetween =>
      have w {a : HostMove} := List.suffix_cons a ms
      have p : s.reads <+: (statusRead s).reads := List.prefix_append _ _
      rcases ih (statusRead s) with ⟨m, rs, h, h', e⟩ | ⟨m, rs, h, h', e⟩
      · exact .inl ⟨m, rs, h.trans w, p.trans h', e⟩
      · exact .inr ⟨m, rs, h.trans w, p.trans h', e⟩

/-- Everything the host's moves can make of a micro-step: a reset cuts it off, or it runs on; either way with some of the moves behind it
and perhaps some readings more. -/
theorem inProgress_cases (k : State → Micro) (s : State) :
    (∃ m rs, .reset :: m <:+ s.moves ∧ s.reads <+: rs ∧ inProgress k s = .ended (cutOff (setHost m rs s))) ∨
    ∃ m rs, m <:+ s.moves ∧ s.reads <+: rs ∧ inProgress k s = k (setHost m rs s) := during_cases k s.moves s

/-- Everything a completion can do (R228, R250): a reset cuts it off, or it writes what it writes. -/
theorem complete_cases (w : State → State) (s : State) :
    (∃ m rs, .reset :: m <:+ s.moves ∧ s.reads <+: rs ∧ complete w s = cutOff (setHost m rs s)) ∨
    ∃ m rs, m <:+ s.moves ∧ s.reads <+: rs ∧ complete w s = w (setHost m rs s) := by
  rcases inProgress_cases (fun s => .ended (w s)) s with ⟨m, rs, h, h', e⟩ | ⟨m, rs, h, h', e⟩
  · exact .inl ⟨m, rs, h, h', congrArg Micro.state e⟩
  · exact .inr ⟨m, rs, h, h', congrArg Micro.state e⟩

/-- Everything a rejection can do (R227, R250). -/
theorem reject_cases (op : Byte) (s : State) :
    (∃ m rs, .reset :: m <:+ s.moves ∧ s.reads <+: rs ∧ reject op s = cutOff (setHost m rs s)) ∨
    ∃ m rs, m <:+ s.moves ∧ s.reads <+: rs ∧ reject op s = rejected op (setHost m rs s) := complete_cases _ s

/-- Everything a transport fault can do (R222, R250). -/
theorem raiseFault_cases (f : Frame) (s : State) :
    (∃ m rs, .reset :: m <:+ s.moves ∧ s.reads <+: rs ∧ raiseFault f s = cutOff (setHost m rs (markFault f s))) ∨
    ∃ m rs, m <:+ s.moves ∧ s.reads <+: rs ∧ raiseFault f s = faultState f (setHost m rs s) := by
  obtain ⟨m, rs, hm, hr, hw⟩ := halting_watched (markFault f s)
  unfold raiseFault
  rw [hw]
  rcases complete_cases faultEntry (setHost m rs (haltedEarly (markFault f s))) with
    ⟨m', rs', h, h', e⟩ | ⟨m', rs', h, h', e⟩
  · exact .inl ⟨m', rs', h.trans hm, hr.trans h', e⟩
  · exact .inr ⟨m', rs', h.trans hm, hr.trans h', e⟩

/-- Everything a command frame can do (R112): cut off, faulted, or sent. -/
theorem busCmd_cases (b : Byte) (s : State) :
    (∃ m rs, .reset :: m <:+ s.moves ∧ s.reads <+: rs ∧ busCmd b s = .ended (cutOff (setHost m rs (drivenCmd s)))) ∨
    ∃ m rs, m <:+ s.moves ∧ s.reads <+: rs ∧
      ((s.answerAt 0 = .fault ∧ busCmd b s = .ended (raiseFault (.command b) (afterAnswer (drivenCmd (setHost m rs s))))) ∨
       (s.answerAt 0 = .ok ∧
        busCmd b s = .run (glimpse (setPrimed (primedAfter s.params b) ((drivenCmd (setHost m rs s)).sent [.cmd b] 1))))) := by
  obtain ⟨m, rs, hm, hr, hw⟩ := driveCmd_watched s
  unfold busCmd
  rw [hw]
  rcases inProgress_cases (transferCmd b) (setHost m rs (drivenCmd s)) with ⟨m', rs', h, h', e⟩ | ⟨m', rs', h, h', e⟩
  · exact .inl ⟨m', rs', h.trans hm, hr.trans h', e⟩
  · refine .inr ⟨m', rs', h.trans hm, hr.trans h', ?_⟩
    cases ha : s.answerAt 0 with
    | ok => exact .inr ⟨rfl, e.trans (transferCmd_ok b (drivenCmd (setHost m' rs' s)) ha)⟩
    | fault => exact .inl ⟨rfl, e.trans (transferCmd_fault b (drivenCmd (setHost m' rs' s)) ha)⟩

/-- Everything a data frame can do (R113): cut off, faulted, or sent. -/
theorem busData_cases (bs : List Byte) (s : State) :
    (∃ m rs, .reset :: m <:+ s.moves ∧ s.reads <+: rs ∧ busData bs s = .ended (cutOff (setHost m rs (driveData s)))) ∨
    ∃ m rs, m <:+ s.moves ∧ s.reads <+: rs ∧
      ((s.answerAt 0 = .fault ∧ busData bs s = .ended (raiseFault (.data bs) (afterAnswer (driveData (setHost m rs s))))) ∨
       (s.answerAt 0 = .ok ∧ busData bs s = .run ((driveData (setHost m rs s)).sent [.data bs] 1))) := by
  rcases inProgress_cases (transferData bs) (driveData s) with ⟨m, rs, h, h', e⟩ | ⟨m, rs, h, h', e⟩
  · exact .inl ⟨m, rs, h, h', e⟩
  · refine .inr ⟨m, rs, h, h', ?_⟩
    cases ha : s.answerAt 0 with
    | ok => exact .inr ⟨rfl, e.trans (transferData_ok bs (driveData (setHost m rs s)) ha)⟩
    | fault => exact .inl ⟨rfl, e.trans (transferData_fault bs (driveData (setHost m rs s)) ha)⟩

/-- Everything a delay can do (R232): cut off, or served. -/
theorem delayFor_cases (n : Half) (s : State) :
    (∃ m rs, .reset :: m <:+ s.moves ∧ s.reads <+: rs ∧ delayFor n s = .ended (cutOff (setHost m rs s))) ∨
    ∃ m rs, m <:+ s.moves ∧ s.reads <+: rs ∧ delayFor n s = .run ((setHost m rs s).sent [.wait n] 0) := by
  rcases inProgress_cases (fun s => .run (emit (.wait n) s)) s with ⟨m, rs, h, h', e⟩ | ⟨m, rs, h, h', e⟩
  · exact .inl ⟨m, rs, h, h', e⟩
  · exact .inr ⟨m, rs, h, h', e.trans (congrArg Micro.run (emit_eq_sent _ (setHost m rs s)))⟩

/-- Everything the end of a request can do (R228, R250): the operation had ended, or a reset cuts the completion off, or it completes `OK`. -/
theorem finish_cases (m : Micro) :
    (∃ s, m = .ended s ∧ finish m = s) ∨
    ∃ s, m = .run s ∧
      ((∃ r rs, .reset :: r <:+ s.moves ∧ s.reads <+: rs ∧ finish m = cutOff (setHost r rs s)) ∨
       ∃ r rs, r <:+ s.moves ∧ s.reads <+: rs ∧ finish m = completeOk (setHost r rs s)) := by
  cases m with
  | ended s => exact .inl ⟨s, rfl, rfl⟩
  | run s =>
    refine .inr ⟨s, rfl, ?_⟩
    obtain ⟨r, rs, hm, hr, hw⟩ := completing_watched s
    simp only [finish]
    rw [hw]
    rcases complete_cases completeOk (setHost r rs (idleEarly s)) with ⟨m, rs', h, h', e⟩ | ⟨m, rs', h, h', e⟩
    · exact .inl ⟨m, rs', h.trans hm, hr.trans h', e⟩
    · exact .inr ⟨m, rs', h.trans hm, hr.trans h', e⟩

/-! ## The window program (R171) -/

/-- The state after a window program (R171, R172). -/
def windowDone (x0 y0 x1 y1 : Half) (s : State) : State :=
  { s.sent (windowEvents s.params x0 y0 x1 y1) 5 with
    phase := .ramwrC, dc := s.params.dcCmd, primed := true, wx0 := x0, wy0 := y0, wx1 := x1, wy1 := y1 }

theorem windowProgram_ok (x0 y0 x1 y1 : Half) (s : State) (hr : s.moves = []) (ha : s.AnswersOk 5) :
    windowProgram x0 y0 x1 y1 s = .run (windowDone x0 y0 x1 y1 s) := by
  have h0 := ha 0 (by omega)
  have h1 := ha 1 (by omega)
  have h2 := ha 2 (by omega)
  have h3 := ha 3 (by omega)
  have h4 := ha 4 (by omega)
  simp only [windowProgram, cmdStep, columnData, rowData]
  simp [busCmd_ok, busData_ok, hr, h0, h1, h2, h3, h4]
  ext1 <;> simp [windowDone, primedAfter, windowEvents, hr, ← consumed_append]

/-! ## The replay (R184) -/

theorem rowWrite_ok (s : State) (hr : s.moves = []) (ha : s.answerAt 0 = .ok) :
    rowWrite s = .run (countRow ((driveData (setPhase .rowD s)).sent [.data (rowRead s.rowbuf s.rowlen.toNat)] 1)) := by
  simp [rowWrite, busData_ok, hr, ha]

theorem rowLoop_ok (n : Nat) (s : State) (hr : s.moves = []) (ha : s.AnswersOk (n + 1)) :
    rowLoop (n + 1) s = .run { s.sent (List.replicate (n + 1) (.data (rowRead s.rowbuf s.rowlen.toNat))) (n + 1) with
      phase := .rowD, dc := s.params.dcData, row := s.row + BitVec.ofNat 16 (n + 1) } := by
  induction n generalizing s with
  | zero =>
    rw [rowLoop, rowWrite_ok s hr (ha 0 (by omega)), andThen_run]
    rfl
  | succ n ih =>
    rw [rowLoop, rowWrite_ok s hr (ha 0 (by omega)), andThen_run,
      ih _ (by simpa using hr) (fun k hk => by simpa using ha (1 + k) (by omega))]
    have r : s.row + 1#16 + BitVec.ofNat 16 (n + 1) = s.row + BitVec.ofNat 16 (n + 2) := by
      rw [BitVec.add_assoc, ← BitVec.ofNat_add, Nat.add_comm]
    congr 1
    ext1 <;> simp [← consumed_append, r, Nat.add_comm 1, Nat.add_assoc, List.replicate_succ]

/-- The whole replay, in terms of the row that was packed (R183, R184). -/
theorem rowLoop_packed (cw ch : Nat) (c : Half) (s : State) (hr : s.moves = []) (hc : 0 < ch) (ha : s.AnswersOk ch)
    (hb : rowRead s.rowbuf s.rowlen.toNat = rowBytes cw c) :
    rowLoop ch s = .run { s.sent (List.replicate ch (.data (rowBytes cw c))) ch with
      phase := .rowD, dc := s.params.dcData, row := s.row + BitVec.ofNat 16 ch } := by
  obtain ⟨n, rfl⟩ : ∃ n, ch = n + 1 := ⟨ch - 1, by omega⟩
  rw [rowLoop_ok n s hr ha, hb]

/-! ## The fill (R179) -/

theorem rowRead_packed (cw ch : Nat) (c : Half) (s : State) (h : cw ≤ Config.panelWidth) :
    rowRead (packed cw ch c s).rowbuf (packed cw ch c s).rowlen.toNat = rowBytes cw c := by
  have : (BitVec.ofNat 16 (2 * cw)).toNat = (rowBytes cw c).length := by
    rw [BitVec.toNat_ofNat, rowBytes_length, Nat.mod_eq_of_lt (by simp only [Config.panelWidth] at h; omega)]
  simp only [packed_rowbuf, packed_rowlen, this]
  exact rowRead_writeList _ _

theorem fill_ok (cw ch : Nat) (x y : Int) (c : Half) (s : State) (hw : cw ≤ Config.panelWidth) (hc : 0 < ch)
    (hr : s.moves = []) (ha : s.AnswersOk (5 + ch)) :
    fill (some (cw, ch)) x y c s = .run { s.sent (fillEvents s.params x y cw ch c) (5 + ch) with
      rowbuf := Memory.writeList s.rowbuf 0 (rowBytes cw c), rowlen := BitVec.ofNat 16 (2 * cw), rows := BitVec.ofNat 16 ch,
      row := BitVec.ofNat 16 ch, phase := .rowD, dc := s.params.dcData, primed := true,
      wx0 := bound x, wy0 := bound y, wx1 := bound (x + cw - 1), wy1 := bound (y + ch - 1) } := by
  have hp := rowRead_packed cw ch c s hw
  simp only [fill]
  rw [packRow_nil cw ch c s hr, windowProgram_ok _ _ _ _ (packed cw ch c s) hr (fun k hk => ha k (by omega)), andThen_run,
    rowLoop_packed cw ch c (windowDone _ _ _ _ (packed cw ch c s)) hr hc
      (fun k hk => (answerAt_sent (packed cw ch c s) [] 5 k).trans (ha (5 + k) (by omega))) hp]
  congr 1
  ext1 <;> simp [windowDone, fillEvents, consumed_append, Nat.add_assoc]

/-! ## The record executor (R131) -/

theorem execRecord_ok (r : ScriptRecord) (s : State) (hr : s.moves = []) (ha : s.AnswersOk (recordFrames r)) :
    execRecord r s = .run { s.sent (recordEvents r) (recordFrames r) with
      phase := recordPhase r, dc := if r.payload = [] then s.params.dcCmd else s.params.dcData,
      primed := primedAfter s.params r.opcode } := by
  by_cases hp : r.payload = []
  · have h0 := ha 0 (by simp [recordFrames, hp])
    by_cases hd : r.delay = 0#16
    · simp [execRecord, busDataIf, busCmd_ok, hr, h0, hp, hd]
      ext1 <;> simp [recordEvents, recordFrames, recordPhase, hp, hd, hr]
    · simp [execRecord, busDataIf, busCmd_ok, delayFor_ok, hr, h0, hp, hd]
      ext1 <;> simp [recordEvents, recordFrames, recordPhase, hp, hd, hr, ← consumed_append]
  · have h0 := ha 0 (by simp [recordFrames, hp])
    have h1 := ha 1 (by simp [recordFrames, hp])
    by_cases hd : r.delay = 0#16
    · simp [execRecord, busDataIf, busCmd_ok, busData_ok, hr, h0, h1, hp, hd]
      ext1 <;> simp [recordEvents, recordFrames, recordPhase, hp, hd, hr, ← consumed_append]
    · simp [execRecord, busDataIf, busCmd_ok, busData_ok, delayFor_ok, hr, h0, h1, hp, hd]
      ext1 <;> simp [recordEvents, recordFrames, recordPhase, hp, hd, hr, ← consumed_append]

end Sys2Proof.Machine
end

