-- ==== Sys2Proof/Laws/Script.lean ====
section
/-! SUPPORT. The loop of INIT (R130): what it does where the transport answers `ok`. -/

namespace Sys2Proof.Machine

theorem fetchRecord_of_drop {s : State} {r : ScriptRecord} {rs : List ScriptRecord}
    (h : s.params.script.drop s.sp.toNat = r :: rs) : fetchRecord s = some r := by
  have := congrArg (fun l : List ScriptRecord => l[0]?) h
  simpa [fetchRecord, List.getElem?_drop] using this

theorem sp_succ {i : Byte} (h : i.toNat < 255) : (i + 1).toNat = i.toNat + 1 := by
  have h1 : (1 : Byte).toNat = 1 := rfl
  rw [BitVec.toNat_add, h1]
  omega

theorem drop_sp_succ {script : List ScriptRecord} {i : Byte} {r : ScriptRecord} {rs : List ScriptRecord} (h : i.toNat < 255)
    (hd : script.drop i.toNat = r :: rs) : script.drop (i + 1).toNat = rs := by
  rw [sp_succ h, ← List.drop_drop, hd]
  rfl

theorem scriptDc_cons (p : Params) (r : ScriptRecord) (rs : List ScriptRecord) (d : BitVec 1) :
    scriptDc p rs (if r.payload = [] then p.dcCmd else p.dcData) = scriptDc p (r :: rs) d := by
  cases rs <;> rfl

theorem scriptPrimed_cons (p : Params) (r : ScriptRecord) (rs : List ScriptRecord) (v : Bool) :
    scriptPrimed p rs (primedAfter p r.opcode) = scriptPrimed p (r :: rs) v := by
  cases rs <;> rfl

theorem runScript_glimpse (n : Nat) (s : State) (hr : s.moves = []) : runScript n (glimpse s) = runScript n s := by
  rw [glimpse_nil s hr]

/-- The records from SP on, all of them executed (R130): their events in order, SP at K. -/
theorem runScript_ok (rs : List ScriptRecord) (s : State) (hd : s.params.script.drop s.sp.toNat = rs)
    (hk : s.sp.toNat + rs.length ≤ 255) (hr : s.moves = []) (ha : s.AnswersOk (scriptFrames rs)) :
    ∃ ph, runScript rs.length s = .run { s.sent (scriptEvents rs) (scriptFrames rs) with
      sp := BitVec.ofNat 8 (s.sp.toNat + rs.length), phase := ph, dc := scriptDc s.params rs s.dc,
      primed := scriptPrimed s.params rs s.primed } := by
  induction rs generalizing s with
  | nil => exact ⟨s.phase, by simp [runScript, scriptEvents, scriptFrames, scriptDc, scriptPrimed, sent_nil]⟩
  | cons r rs ih =>
    have hl : s.sp.toNat < 255 := by simp only [List.length_cons] at hk; omega
    have hf : scriptFrames (r :: rs) = recordFrames r + scriptFrames rs := by simp [scriptFrames]
    rw [hf] at ha
    obtain ⟨ph, ih⟩ := ih
      (setSp (s.sp + 1) { s.sent (recordEvents r) (recordFrames r) with
        phase := recordPhase r, dc := if r.payload = [] then s.params.dcCmd else s.params.dcData,
        primed := primedAfter s.params r.opcode })
      (drop_sp_succ hl hd)
      (by simp only [setSp_sp, sp_succ hl]; simp only [List.length_cons] at hk; omega)
      hr
      (fun k hk => (answerAt_sent s (recordEvents r) (recordFrames r) k).trans (ha _ (by omega)))
    refine ⟨ph, ?_⟩
    rw [List.length_cons, runScript, fetchRecord_of_drop hd]
    simp only
    rw [execRecord_ok r s hr (fun k hk => ha k (by omega)), andThen_run]
    refine (runScript_glimpse _ _ ?_).trans (ih.trans (congrArg Micro.run ?_))
    · exact hr
    have hs : (s.sp + 1#8).toNat + rs.length = s.sp.toNat + (rs.length + 1) := by
      have := sp_succ hl
      simp only [BitVec.ofNat_eq_ofNat] at this
      omega
    have hs' : BitVec.ofNat 8 ((s.sp + 1#8).toNat + rs.length) = BitVec.ofNat 8 (s.sp.toNat + (rs.length + 1)) := congrArg _ hs
    ext1 <;> simp only [BitVec.ofNat_eq_ofNat, setSp_sp, hs'] <;> simp [hf, scriptEvents, consumed_append, scriptDc_cons _ _ _ s.dc, scriptPrimed_cons _ _ _ s.primed, Nat.add_assoc]

end Sys2Proof.Machine
end

