-- ==== Sys2Proof/Laws/Faults.lean ====
section
/-! SUPPORT. What each shared operation does where the transport answers `fault` to one of its frames (R144, R172, R188, R222). -/

namespace Sys2Proof.Machine

/-! ## One frame -/

theorem busCmd_faulted (b : Byte) (s : State) (hr : s.moves = []) (ha : s.answerAt 0 = .fault) :
    busCmd b s = .ended (s.faulted s.op [] 0 (.command b)) := by
  rw [busCmd_fault b s hr ha]
  congr 1
  ext1 <;> simp [Frame.level]

theorem busData_faulted (bs : List Byte) (s : State) (hr : s.moves = []) (ha : s.answerAt 0 = .fault) :
    busData bs s = .ended (s.faulted s.op [] 0 (.data bs)) := by
  rw [busData_fault bs s hr ha]
  congr 1
  ext1 <;> simp [Frame.level]

/-! ## The window program (R172) -/

/-- The state after a window program whose frame k, 0 to 4, is answered `fault`: the registers written so far keep their new values (R172). -/
def windowFaulted (x0 y0 x1 y1 : Half) (k : Nat) (ph : Phase) (f : Frame) (s : State) : State :=
  { s.faulted s.op ((windowEvents s.params x0 y0 x1 y1).take k) k f with
    phase := ph, wx0 := if 1 < k then x0 else s.wx0, wx1 := if 1 < k then x1 else s.wx1,
    wy0 := if 3 < k then y0 else s.wy0, wy1 := if 3 < k then y1 else s.wy1 }

theorem windowProgram_fault (x0 y0 x1 y1 : Half) (s : State) (k : Nat) (ph : Phase) (f : Frame) (hr : s.moves = [])
    (hf : (windowFrames s.params x0 y0 x1 y1)[k]? = some (ph, f)) (ha : s.FaultsAt k) :
    windowProgram x0 y0 x1 y1 s = .ended (windowFaulted x0 y0 x1 y1 k ph f s) := by
  obtain ⟨ho, hk⟩ := ha
  have hlt : k < 5 := by simpa [windowFrames] using (List.getElem?_eq_some_iff.mp hf).1
  simp only [windowProgram, cmdStep, columnData, rowData]
  match k, hlt with
  | 0, _ =>
    simp only [windowFrames, List.getElem?_cons_zero, Option.some.injEq, Prod.mk.injEq] at hf
    obtain ⟨rfl, rfl⟩ := hf
    simp [busCmd_faulted, hr, hk]
    ext1 <;> simp [windowFaulted, windowEvents, hr]
  | 1, _ =>
    have h0 := ho 0 (by omega)
    simp [windowFrames] at hf
    obtain ⟨rfl, rfl⟩ := hf
    simp [busCmd_ok, busData_faulted, hr, hk, h0]
    ext1 <;> simp [windowFaulted, windowEvents, hr]
  | 2, _ =>
    have h0 := ho 0 (by omega)
    have h1 := ho 1 (by omega)
    simp [windowFrames] at hf
    obtain ⟨rfl, rfl⟩ := hf
    simp [busCmd_ok, busData_ok, busCmd_faulted, hr, hk, h0, h1]
    ext1 <;> simp [windowFaulted, windowEvents, hr]
  | 3, _ =>
    have h0 := ho 0 (by omega)
    have h1 := ho 1 (by omega)
    have h2 := ho 2 (by omega)
    simp [windowFrames] at hf
    obtain ⟨rfl, rfl⟩ := hf
    simp [busCmd_ok, busData_ok, busData_faulted, hr, hk, h0, h1, h2]
    ext1 <;> simp [windowFaulted, windowEvents, hr]
  | 4, _ =>
    have h0 := ho 0 (by omega)
    have h1 := ho 1 (by omega)
    have h2 := ho 2 (by omega)
    have h3 := ho 3 (by omega)
    simp [windowFrames] at hf
    obtain ⟨rfl, rfl⟩ := hf
    simp [busCmd_ok, busData_ok, busCmd_faulted, hr, hk, h0, h1, h2, h3]
    ext1 <;> simp [windowFaulted, windowEvents, hr]

/-! ## A record and the script (R144) -/

theorem execRecord_fault (r : ScriptRecord) (s : State) (k : Nat) (ph : Phase) (f : Frame) (hr : s.moves = [])
    (hf : (recordSteps r)[k]? = some (ph, f)) (ha : s.FaultsAt k) :
    execRecord r s = .ended { s.faulted s.op ((recordEvents r).take k) k f with phase := ph } := by
  obtain ⟨ho, hk⟩ := ha
  match k with
  | 0 =>
    simp only [recordSteps, List.getElem?_cons_zero, Option.some.injEq, Prod.mk.injEq] at hf
    obtain ⟨rfl, rfl⟩ := hf
    simp only [execRecord]
    rw [enterPhase_nil _ s hr, busCmd_faulted _ (setPhase .recCmd s) hr hk, andThen_ended]
    rfl
  | 1 =>
    by_cases hp : r.payload = []
    · simp [recordSteps, hp] at hf
    · simp [recordSteps, hp] at hf
      obtain ⟨rfl, rfl⟩ := hf
      have h0 := ho 0 (by omega)
      simp [execRecord, busDataIf, busCmd_ok, busData_faulted, hr, h0, hk, hp]
      ext1 <;> simp [recordEvents, hp, hr]
  | k + 2 =>
    by_cases hp : r.payload = [] <;> simp [recordSteps, hp] at hf

/-- The records before r are sent whole, and frame k of r is answered `fault`: SP is the index of r (R24, R144). -/
theorem runScript_fault (pre post : List ScriptRecord) (r : ScriptRecord) (s : State) (n k : Nat) (ph : Phase) (f : Frame)
    (hd : s.params.script.drop s.sp.toNat = pre ++ r :: post) (hn : pre.length < n)
    (hk : s.sp.toNat + pre.length < 255) (hr : s.moves = [])
    (hf : (recordSteps r)[k]? = some (ph, f)) (ha : s.FaultsAt (scriptFrames pre + k)) :
    runScript n s = .ended
      { s.faulted s.op (scriptEvents pre ++ (recordEvents r).take k) (scriptFrames pre + k) f with
        sp := BitVec.ofNat 8 (s.sp.toNat + pre.length), phase := ph } := by
  induction pre generalizing s n with
  | nil =>
    obtain ⟨n, rfl⟩ : ∃ m, n = m + 1 := ⟨n - 1, by simp at hn; omega⟩
    rw [runScript, fetchRecord_of_drop hd]
    simp only
    rw [execRecord_fault r s k ph f hr hf (by simpa [scriptFrames] using ha), andThen_ended]
    congr 1
    ext1 <;> simp [scriptEvents, scriptFrames]
  | cons q pre ih =>
    obtain ⟨n, rfl⟩ : ∃ m, n = m + 1 := ⟨n - 1, by simp only [List.length_cons] at hn; omega⟩
    simp only [List.length_cons] at hk hn
    have hl : s.sp.toNat < 255 := by omega
    have hq : scriptFrames (q :: pre) = recordFrames q + scriptFrames pre := by simp [scriptFrames]
    rw [hq] at ha
    rw [runScript, fetchRecord_of_drop hd]
    simp only
    rw [execRecord_ok q s hr (fun i hi => ha.1 i (by omega)), andThen_run]
    refine (runScript_glimpse _ _ ?_).trans ((ih
      (setSp (s.sp + 1) { s.sent (recordEvents q) (recordFrames q) with
        phase := recordPhase q, dc := if q.payload = [] then s.params.dcCmd else s.params.dcData,
        primed := primedAfter s.params q.opcode })
      n (drop_sp_succ hl hd) (by omega) (by simp only [setSp_sp, sp_succ hl]; omega) hr
      ⟨fun i hi => (answerAt_sent s (recordEvents q) (recordFrames q) i).trans (ha.1 _ (by omega)),
       (answerAt_sent s (recordEvents q) (recordFrames q) (scriptFrames pre + k)).trans
         ((congrArg s.answerAt (Nat.add_assoc _ _ _).symm).trans ha.2)⟩).trans ?_)
    · exact hr
    have hs : (s.sp + 1#8).toNat + pre.length = s.sp.toNat + (pre.length + 1) := by
      have := sp_succ hl
      simp only [BitVec.ofNat_eq_ofNat] at this
      omega
    have hs' : BitVec.ofNat 8 ((s.sp + 1#8).toNat + pre.length) = BitVec.ofNat 8 (s.sp.toNat + (pre.length + 1)) := congrArg _ hs
    congr 1
    ext1 <;> simp only [BitVec.ofNat_eq_ofNat, setSp_sp, hs'] <;> simp [hq, scriptEvents, Nat.add_assoc, Frame.level]

/-! ## The replay and the fill (R188) -/

theorem rowWrite_fault (s : State) (hr : s.moves = []) (ha : s.answerAt 0 = .fault) :
    rowWrite s = .ended { s.faulted s.op [] 0 (.data (rowRead s.rowbuf s.rowlen.toNat)) with phase := .rowD } := by
  simp only [rowWrite]
  rw [enterPhase_nil _ s hr, busData_faulted _ (setPhase .rowD s) hr ha, andThen_ended]
  rfl

/-- Row-write j of n is answered `fault`: j rows were written whole (R23, R188). -/
theorem rowLoop_fault (n j : Nat) (s : State) (hj : j < n) (hr : s.moves = []) (ha : s.FaultsAt j) :
    rowLoop n s = .ended
      { s.faulted s.op (List.replicate j (.data (rowRead s.rowbuf s.rowlen.toNat))) j (.data (rowRead s.rowbuf s.rowlen.toNat)) with
        phase := .rowD, row := s.row + BitVec.ofNat 16 j } := by
  induction n generalizing s j with
  | zero => omega
  | succ n ih =>
    cases j with
    | zero =>
      rw [rowLoop, rowWrite_fault s hr ha.2, andThen_ended]
      congr 1
      ext1 <;> simp
    | succ j =>
      rw [rowLoop, rowWrite_ok s hr (ha.1 0 (by omega)), andThen_run,
        ih j _ (by omega) (by simpa using hr)
          ⟨fun k hk => by simpa using ha.1 (1 + k) (by omega), by simpa [Nat.add_comm] using ha.2⟩]
      have r : s.row + 1#16 + BitVec.ofNat 16 j = s.row + BitVec.ofNat 16 (j + 1) := by
        rw [BitVec.add_assoc, ← BitVec.ofNat_add, Nat.add_comm]
      congr 1
      have e : 1 + (j + 1) = j + 2 := by omega
      ext1 <;> simp [r, e, Nat.add_assoc, List.replicate_succ]

/-- A fill whose window program faults at frame k. -/
theorem fill_fault_window (cw ch : Nat) (x y : Int) (c : Half) (s : State) (k : Nat) (ph : Phase) (f : Frame) (hr : s.moves = [])
    (hf : (windowFrames s.params (bound x) (bound y) (bound (x + cw - 1)) (bound (y + ch - 1)))[k]? = some (ph, f))
    (ha : s.FaultsAt k) :
    fill (some (cw, ch)) x y c s = .ended
      (windowFaulted (bound x) (bound y) (bound (x + cw - 1)) (bound (y + ch - 1)) k ph f (packed cw ch c s)) := by
  simp only [fill]
  rw [packRow_nil cw ch c s hr, windowProgram_fault _ _ _ _ (packed cw ch c s) k ph f hr hf ⟨fun i hi => ha.1 i hi, ha.2⟩, andThen_ended]

/-- A fill whose row-write j is answered `fault` (R188). -/
theorem fill_fault_row (cw ch j : Nat) (x y : Int) (c : Half) (s : State) (hw : cw ≤ Config.panelWidth) (hj : j < ch)
    (hr : s.moves = []) (ha : s.FaultsAt (5 + j)) :
    fill (some (cw, ch)) x y c s = .ended
      { s.faulted s.op 
          (windowEvents s.params (bound x) (bound y) (bound (x + cw - 1)) (bound (y + ch - 1)) ++ List.replicate j (.data (rowBytes cw c)))
          (5 + j) (.data (rowBytes cw c)) with
        rowbuf := Memory.writeList s.rowbuf 0 (rowBytes cw c), rowlen := BitVec.ofNat 16 (2 * cw), rows := BitVec.ofNat 16 ch,
        row := BitVec.ofNat 16 j, phase := .rowD,
        wx0 := bound x, wy0 := bound y, wx1 := bound (x + cw - 1), wy1 := bound (y + ch - 1) } := by
  have hp := rowRead_packed cw ch c s hw
  simp only [fill]
  rw [packRow_nil cw ch c s hr, windowProgram_ok _ _ _ _ (packed cw ch c s) hr (fun k hk => ha.1 k (by omega)), andThen_run,
    rowLoop_fault ch j (windowDone _ _ _ _ (packed cw ch c s)) hj hr
      ⟨fun k hk => (answerAt_sent (packed cw ch c s) [] 5 k).trans (ha.1 (5 + k) (by omega)),
       (answerAt_sent (packed cw ch c s) [] 5 j).trans ha.2⟩]
  have hb : rowRead (windowDone (bound x) (bound y) (bound (x + cw - 1)) (bound (y + ch - 1)) (packed cw ch c s)).rowbuf
      (windowDone (bound x) (bound y) (bound (x + cw - 1)) (bound (y + ch - 1)) (packed cw ch c s)).rowlen.toNat = rowBytes cw c := hp
  rw [hb]
  congr 1
  ext1 <;> simp [windowDone, Nat.add_assoc]

end Sys2Proof.Machine
end

