-- ==== Sys2Proof/Laws/Panel.lean ====
section
/-! SUPPORT. The panel stub: what it does with a window program (R71, R72) and with a pixel stream (R73), and that every tagged byte
keeps its form. -/

namespace Sys2Proof.Machine

/-! ## Bytes and runs -/

@[simp] theorem Collect.isOpen_none : Collect.none.isOpen = false := rfl
@[simp] theorem Collect.isOpen_full : Collect.full.isOpen = false := rfl
@[simp] theorem Collect.isOpen_other : Collect.other.isOpen = false := rfl
@[simp] theorem Collect.isOpen_col (bs : List Byte) : (Collect.col bs).isOpen = decide (bs.length < 4) := rfl
@[simp] theorem Collect.isOpen_row (bs : List Byte) : (Collect.row bs).isOpen = decide (bs.length < 4) := rfl
@[simp] theorem Collect.isOpen_write (x y : Nat) (h : Option Byte) : (Collect.write x y h).isOpen = h.isSome := rfl

@[simp] theorem Panel.run_nil (p : Params) (q : Panel) : q.run p [] = q := rfl
@[simp] theorem Panel.run_cons (p : Params) (q : Panel) (t : Tagged) (ts : List Tagged) : q.run p (t :: ts) = (q.feed p t).run p ts := rfl
@[simp] theorem Panel.feed_c (p : Params) (q : Panel) (b : Byte) : q.feed p (.c b) = q.feedCmd p b := rfl
@[simp] theorem Panel.feed_d (p : Params) (q : Panel) (b : Byte) : q.feed p (.d b) = q.feedData b := rfl

/-! ## A window program -/

/-- The stub after a window program for a valid window (R71, R72): `bad` where the first command found a payload or a pixel cut short. -/
def Panel.opened (q : Panel) (x0 y0 x1 y1 : Half) : Panel :=
  { q with
    cx0 := some x0, cx1 := some x1, py0 := some y0, py1 := some y1, st := .write x0.toNat y0.toNat none, bad := q.bad || q.st.isOpen }

theorem Panel.run_windowEvents (p : Params) (q : Panel) (x0 y0 x1 y1 : Half) (hp : p.WindowOpcodesDistinct)
    (hw : WindowValid x0 y0 x1 y1) : q.run p (flat (windowEvents p x0 y0 x1 y1)) = q.opened x0 y0 x1 y1 := by
  obtain ⟨h1, h2, h3⟩ := hp
  simp [windowEvents, addr4Bytes, be16, Event.flat, Panel.feedCmd, Panel.feedData, h1.symm, h2.symm, h3.symm,
    ofBytes_hi_lo, Panel.window?, Panel.opened, hw]

/-! ## Pixels -/

theorem Panel.window?_bounds {q : Panel} {x0 y0 x1 y1 : Nat} (h : q.window? = some (x0, y0, x1, y1)) :
    x0 ≤ x1 ∧ x1 < Config.panelWidth ∧ y0 ≤ y1 ∧ y1 < Config.panelHeight := by
  unfold Panel.window? at h
  split at h
  · split at h
    · simp only [Option.some.injEq, Prod.mk.injEq] at h
      obtain ⟨rfl, rfl, rfl, rfl⟩ := h
      assumption
    · cases h
  · cases h

theorem pixelAddr_ne {x y u v : Nat} (hx : x < Config.panelWidth) (hu : u < Config.panelWidth) (h : (x, y) ≠ (u, v)) :
    pixelAddr x y + 2 ≤ pixelAddr u v ∨ pixelAddr u v + 2 ≤ pixelAddr x y := by
  simp only [pixelAddr, Config.panelWidth] at *
  have : x ≠ u ∨ y ≠ v := by
    by_contra hc
    exact h (by rw [not_or, not_not, not_not] at hc; rw [hc.1, hc.2])
  omega

theorem Panel.pixel?_setPixel_same (q : Panel) {x y : Nat} (h l : Byte) (hx : x < Config.panelWidth) (hy : y < Config.panelHeight) :
    (q.setPixel x y h l).pixel? x y = some (ofBytes h l) := by
  have h0 := Memory.read?_writeList_inside [h, l] q.gram (pixelAddr x y) 0 (by simp)
  have h1 := Memory.read?_writeList_inside [h, l] q.gram (pixelAddr x y) 1 (by simp)
  simp only [Nat.add_zero] at h0
  simp only [Panel.pixel?, hx, hy, and_self, if_true, Panel.setPixel, h0, h1]
  rfl

theorem Panel.pixel?_setPixel_other (q : Panel) {x y u v : Nat} (h l : Byte) (hx : x < Config.panelWidth) (hu : u < Config.panelWidth)
    (hn : (x, y) ≠ (u, v)) : (q.setPixel x y h l).pixel? u v = q.pixel? u v := by
  have ha := pixelAddr_ne hx hu hn
  have h0 := Memory.read?_writeList_outside [h, l] q.gram (pixelAddr x y) (k := pixelAddr u v) (by simp; omega)
  have h1 := Memory.read?_writeList_outside [h, l] q.gram (pixelAddr x y) (k := pixelAddr u v + 1) (by simp; omega)
  simp [Panel.pixel?, Panel.setPixel, h0, h1]

/-- One pixel in a write state (R73). -/
theorem Panel.run_pixel (p : Params) (q : Panel) (px py : Nat) (c : Half) (h : q.st = .write px py none) :
    q.run p ((be16 c).map .d) = { q.setPixel px py (hiByte c) (loByte c) with st := q.advance px py } := by
  simp [be16, Panel.feedData, h, Panel.setPixel, Panel.advance, Panel.window?]

/-- How many pixels of a window come before (x, y) in row-major order (R73). -/
def windowIndex (x0 y0 x1 x y : Nat) : Nat := (y - y0) * (x1 + 1 - x0) + (x - x0)

theorem windowIndex_inj {x0 y0 x1 x y u v : Nat} (hx : x0 ≤ x ∧ x ≤ x1) (hu : x0 ≤ u ∧ u ≤ x1) (hy : y0 ≤ y) (hv : y0 ≤ v)
    (h : windowIndex x0 y0 x1 x y = windowIndex x0 y0 x1 u v) : x = u ∧ y = v := by
  unfold windowIndex at h
  have hp : 0 < x1 + 1 - x0 := by omega
  have d : ((y - y0) * (x1 + 1 - x0) + (x - x0)) / (x1 + 1 - x0) = y - y0 := by
    rw [Nat.mul_comm, Nat.mul_add_div hp, Nat.div_eq_of_lt (by omega)]; omega
  have e : ((v - y0) * (x1 + 1 - x0) + (u - x0)) / (x1 + 1 - x0) = v - y0 := by
    rw [Nat.mul_comm, Nat.mul_add_div hp, Nat.div_eq_of_lt (by omega)]; omega
  have m : ((y - y0) * (x1 + 1 - x0) + (x - x0)) % (x1 + 1 - x0) = x - x0 := by
    rw [Nat.mul_comm, Nat.mul_add_mod, Nat.mod_eq_of_lt (by omega)]
  have n : ((v - y0) * (x1 + 1 - x0) + (u - x0)) % (x1 + 1 - x0) = u - x0 := by
    rw [Nat.mul_comm, Nat.mul_add_mod, Nat.mod_eq_of_lt (by omega)]
  have k1 : y - y0 = v - y0 := by rw [← d, ← e, h]
  have k2 : x - x0 = u - x0 := by rw [← m, ← n, h]
  omega

/-- A stream of pixels from the write position (px, py) on: the pixel of index i in the window gets the colour of index i minus the
start, every other pixel keeps its value, and the position is after the last one (R73). -/
theorem Panel.run_pixels (p : Params) (cs : List Half) (q : Panel) (x0 y0 x1 y1 px py : Nat)
    (hw : q.window? = some (x0, y0, x1, y1)) (hst : q.st = .write px py none) (hx : x0 ≤ px ∧ px ≤ x1) (hy : y0 ≤ py ∧ py ≤ y1)
    (hx1 : x1 < Config.panelWidth)
    (hlen : windowIndex x0 y0 x1 px py + cs.length ≤ (x1 + 1 - x0) * (y1 + 1 - y0)) :
    (q.run p ((pixelStream cs).map .d)).bad = q.bad ∧
    (q.run p ((pixelStream cs).map .d)).window? = q.window? ∧
    (∀ x y, x < Config.panelWidth →
      (q.run p ((pixelStream cs).map .d)).pixel? x y =
        if x0 ≤ x ∧ x ≤ x1 ∧ y0 ≤ y ∧ y ≤ y1 ∧ windowIndex x0 y0 x1 px py ≤ windowIndex x0 y0 x1 x y ∧
            windowIndex x0 y0 x1 x y < windowIndex x0 y0 x1 px py + cs.length then
          cs[windowIndex x0 y0 x1 x y - windowIndex x0 y0 x1 px py]?
        else q.pixel? x y) ∧
    (windowIndex x0 y0 x1 px py + cs.length = (x1 + 1 - x0) * (y1 + 1 - y0) → 0 < cs.length →
      (q.run p ((pixelStream cs).map .d)).st = .full) := by
  induction cs generalizing q px py with
  | nil =>
    refine ⟨rfl, rfl, fun x y _ => ?_, fun _ h => absurd h (by simp)⟩
    rw [if_neg (by simp only [List.length_nil]; omega)]
    rfl
  | cons c cs ih =>
    have hsplit : (pixelStream (c :: cs)).map Tagged.d = (be16 c).map .d ++ (pixelStream cs).map .d := by simp [pixelStream]
    rw [hsplit, Panel.run_append, Panel.run_pixel p q px py c hst]
    have hadv : q.advance px py =
        if px < x1 then .write (px + 1) py none else if py < y1 then .write x0 (py + 1) none else .full := by
      simp [Panel.advance, hw]
    have hpx : px < Config.panelWidth := by omega
    have hpy : py < Config.panelHeight := by have := (Panel.window?_bounds hw).2.2.2; omega
    set q1 : Panel := { q.setPixel px py (hiByte c) (loByte c) with st := q.advance px py } with hq1
    have hw1 : q1.window? = some (x0, y0, x1, y1) := hw
    have hb1 : q1.bad = q.bad := rfl
    have hpix : ∀ x y, x < Config.panelWidth → q1.pixel? x y = if (x, y) = (px, py) then some c else q.pixel? x y := by
      intro x y hxx
      by_cases he : (x, y) = (px, py)
      · rw [if_pos he]
        obtain ⟨rfl, rfl⟩ := Prod.mk.injEq .. ▸ he
        exact (Panel.pixel?_setPixel_same q _ _ hpx hpy).trans (by rw [ofBytes_hi_lo])
      · rw [if_neg he]
        exact Panel.pixel?_setPixel_other q _ _ hpx hxx (fun h => he h.symm)
    simp only [List.length_cons] at hlen ⊢
    have key : ∀ (px' py' : Nat), q1.st = .write px' py' none → x0 ≤ px' ∧ px' ≤ x1 → y0 ≤ py' ∧ py' ≤ y1 →
        windowIndex x0 y0 x1 px' py' = windowIndex x0 y0 x1 px py + 1 →
        (q1.run p ((pixelStream cs).map .d)).bad = q.bad ∧
        (q1.run p ((pixelStream cs).map .d)).window? = q.window? ∧
        (∀ x y, x < Config.panelWidth →
          (q1.run p ((pixelStream cs).map .d)).pixel? x y =
            if x0 ≤ x ∧ x ≤ x1 ∧ y0 ≤ y ∧ y ≤ y1 ∧ windowIndex x0 y0 x1 px py ≤ windowIndex x0 y0 x1 x y ∧
                windowIndex x0 y0 x1 x y < windowIndex x0 y0 x1 px py + (cs.length + 1) then
              (c :: cs)[windowIndex x0 y0 x1 x y - windowIndex x0 y0 x1 px py]?
            else q.pixel? x y) ∧
        (windowIndex x0 y0 x1 px py + (cs.length + 1) = (x1 + 1 - x0) * (y1 + 1 - y0) → 0 < cs.length →
          (q1.run p ((pixelStream cs).map .d)).st = .full) := by
      intro px' py' hst' hx' hy' hidx
      obtain ⟨i1, i2, i3, i4⟩ := ih q1 px' py' hw1 hst' hx' hy' (by omega)
      refine ⟨i1.trans hb1, i2.trans (hw1.trans hw.symm), fun x y hxx => ?_, fun h1 h2 => i4 (by omega) h2⟩
      rw [i3 x y hxx, hpix x y hxx]
      by_cases he : (x, y) = (px, py)
      · obtain ⟨rfl, rfl⟩ := Prod.mk.injEq .. ▸ he
        rw [if_neg (by omega), if_pos rfl, if_pos (by omega)]
        simp
      · rw [if_neg he]
        by_cases hin : x0 ≤ x ∧ x ≤ x1 ∧ y0 ≤ y ∧ y ≤ y1
        · have hne : windowIndex x0 y0 x1 x y ≠ windowIndex x0 y0 x1 px py := by
            intro h
            obtain ⟨rfl, rfl⟩ := windowIndex_inj ⟨hin.1, hin.2.1⟩ hx hin.2.2.1 hy.1 h
            exact he rfl
          by_cases hr : windowIndex x0 y0 x1 px py + 1 ≤ windowIndex x0 y0 x1 x y ∧
              windowIndex x0 y0 x1 x y < windowIndex x0 y0 x1 px py + 1 + cs.length
          · rw [if_pos (by omega), if_pos (by omega)]
            obtain ⟨d, hd⟩ : ∃ d, windowIndex x0 y0 x1 x y = windowIndex x0 y0 x1 px py + 1 + d :=
              ⟨windowIndex x0 y0 x1 x y - (windowIndex x0 y0 x1 px py + 1), by omega⟩
            rw [hidx, hd, Nat.add_sub_cancel_left, Nat.add_assoc, Nat.add_sub_cancel_left, Nat.add_comm 1 d, List.getElem?_cons_succ]
          · rw [if_neg (by omega), if_neg (by omega)]
        · rw [if_neg (by omega), if_neg (by omega)]
    by_cases hlast : px < x1
    · have hst1 : q1.st = .write (px + 1) py none := by simp [hq1, hadv, hlast]
      obtain ⟨k1, k2, k3, k4⟩ := key (px + 1) py hst1 (by omega) hy (by unfold windowIndex; omega)
      refine ⟨k1, k2, k3, fun h1 _ => ?_⟩
      rcases Nat.eq_zero_or_pos cs.length with h0 | h0
      · exfalso
        rw [h0] at h1
        unfold windowIndex at h1
        have : (py - y0 + 1) * (x1 + 1 - x0) ≤ (x1 + 1 - x0) * (y1 + 1 - y0) := by
          rw [Nat.mul_comm]
          exact Nat.mul_le_mul_left _ (by omega)
        rw [Nat.add_mul] at this
        omega
      · exact k4 h1 h0
    · have hpe : px = x1 := by omega
      by_cases hrow : py < y1
      · have hst1 : q1.st = .write x0 (py + 1) none := by simp [hq1, hadv, hlast, hrow]
        have hidx : windowIndex x0 y0 x1 x0 (py + 1) = windowIndex x0 y0 x1 px py + 1 := by
          unfold windowIndex
          rw [show py + 1 - y0 = py - y0 + 1 by omega, Nat.add_mul]
          omega
        obtain ⟨k1, k2, k3, k4⟩ := key x0 (py + 1) hst1 (by omega) (by omega) hidx
        refine ⟨k1, k2, k3, fun h1 _ => ?_⟩
        rcases Nat.eq_zero_or_pos cs.length with h0 | h0
        · exfalso
          rw [h0] at h1
          unfold windowIndex at h1
          have : (py - y0 + 1 + 1) * (x1 + 1 - x0) ≤ (x1 + 1 - x0) * (y1 + 1 - y0) := by
            rw [Nat.mul_comm]
            exact Nat.mul_le_mul_left _ (by omega)
          rw [Nat.add_mul, Nat.add_mul] at this
          omega
        · exact k4 h1 h0
      · have hye : py = y1 := by omega
        have hfull : windowIndex x0 y0 x1 px py + 1 = (x1 + 1 - x0) * (y1 + 1 - y0) := by
          unfold windowIndex
          rw [hpe, hye, show y1 + 1 - y0 = y1 - y0 + 1 by omega, Nat.mul_add, Nat.mul_comm]
          omega
        have hnil : cs = [] := List.eq_nil_of_length_eq_zero (by omega)
        subst hnil
        have hst1 : q1.st = .full := by simp [hq1, hadv, hlast, hrow]
        refine ⟨rfl, hw1.trans hw.symm, fun x y hxx => ?_, fun _ _ => hst1⟩
        show q1.pixel? x y = _
        rw [hpix x y hxx]
        by_cases he : (x, y) = (px, py)
        · obtain ⟨rfl, rfl⟩ := Prod.mk.injEq .. ▸ he
          rw [if_pos rfl, if_pos (by simp; omega)]
          simp
        · rw [if_neg he, if_neg]
          rintro ⟨a, b, c', d, e, f⟩
          obtain ⟨rfl, rfl⟩ := windowIndex_inj ⟨a, b⟩ hx c' hy.1 (by simp at f; omega)
          exact he rfl

/-! ## The form of the stub -/

theorem Panel.fresh_inv : Panel.fresh.Inv := ⟨by decide, by decide, trivial⟩

theorem Panel.feedCmd_inv (p : Params) {q : Panel} (b : Byte) (h : q.Inv) : (q.feedCmd p b).Inv := by
  obtain ⟨hw, hb, _⟩ := h
  unfold Panel.feedCmd
  simp only
  split
  · exact ⟨hw, hb, by simp⟩
  · split
    · exact ⟨hw, hb, by simp⟩
    · split
      · split
        · rename_i x0 y0 x1 y1 he
          refine ⟨hw, hb, ?_⟩
          have := Panel.window?_bounds he
          have hq : Panel.window? { q with bad := q.bad || q.st.isOpen, st := .write x0 y0 none } = some (x0, y0, x1, y1) := he
          simp only [hq]
          omega
        · exact ⟨hw, hb, trivial⟩
      · exact ⟨hw, hb, trivial⟩

theorem Panel.feedData_inv {q : Panel} (d : Byte) (h : q.Inv) : q.feedData d |>.Inv := by
  obtain ⟨hw, hb, hs⟩ := h
  unfold Panel.feedData
  split
  · exact ⟨hw, hb, by simp⟩
  · split
    · exact ⟨hw, hb, by simp; omega⟩
    · exact ⟨hw, hb, hs⟩
  · exact ⟨hw, hb, by simp⟩
  · split
    · exact ⟨hw, hb, by simp; omega⟩
    · exact ⟨hw, hb, hs⟩
  · rename_i he
    rw [he] at hs
    exact ⟨hw, hb, hs⟩
  · rename_i px py h he
    rw [he] at hs
    simp only at hs
    cases hq : q.window? with
    | none => simp [hq] at hs
    | some v =>
      obtain ⟨x0, y0, x1, y1⟩ := v
      rw [hq] at hs
      simp only at hs
      have hbd := Panel.window?_bounds hq
      simp only [Config.panelWidth, Config.panelHeight] at hbd
      refine ⟨Memory.writeList_wf _ _ _ hw, Memory.writeList_below _ _ (by simp only [pixelAddr, Config.panelWidth, Config.gramBytes, List.length_cons, List.length_nil]; omega) hb, ?_⟩
      have hadv : q.advance px py = if px < x1 then .write (px + 1) py none else if py < y1 then .write x0 (py + 1) none else .full := by
        simp [Panel.advance, hq]
      have hq' : Panel.window? { q.setPixel px py h d with st := q.advance px py } = some (x0, y0, x1, y1) := hq
      simp only [hq']
      rw [hadv]
      split
      · rename_i heq
        split at heq
        · cases heq
        · split at heq <;> cases heq
      · rename_i heq
        split at heq
        · cases heq
        · split at heq <;> cases heq
      · rename_i heq
        split at heq
        · cases heq; omega
        · split at heq
          · cases heq; omega
          · cases heq
      · trivial
      · trivial
      · trivial
  · exact ⟨hw, hb, hs⟩
  · exact ⟨hw, hb, hs⟩
  · exact ⟨hw, hb, hs⟩

theorem Panel.run_inv (p : Params) (ts : List Tagged) {q : Panel} (h : q.Inv) : (q.run p ts).Inv := by
  induction ts generalizing q with
  | nil => exact h
  | cons t ts ih =>
    cases t with
    | c b => exact ih (Panel.feedCmd_inv p b h)
    | d b => exact ih (Panel.feedData_inv b h)

end Sys2Proof.Machine
end

