-- ==== Sys2Proof/Laws/Effects.lean ====
section
/-! SUPPORT. Everything an operation made of micro-steps can do, whatever the transport answers, the host reads and whenever a reset
comes: it runs to its end, or it ends in one transport fault, or a reset cuts it off, in a micro-step or in the completion of a
fault. One lemma for each shared operation. -/

namespace Sys2Proof.Machine

/-- What no micro-step changes, and how each one moves the observers: it appends events that are neither completions nor faults, and
the stub consumes exactly their bytes. -/
structure Plain (s t : State) : Prop where
  rx : t.rx = s.rx
  ry : t.ry = s.ry
  rw : t.rw = s.rw
  rh : t.rh = s.rh
  rc : t.rc = s.rc
  mode : t.mode = s.mode
  initDone : t.initDone = s.initDone
  faultFlag : t.faultFlag = s.faultFlag
  lastStatus : t.lastStatus = s.lastStatus
  op : t.op = s.op
  params : t.params = s.params
  port : t.port = s.port
  moves : t.moves <:+ s.moves
  reads : s.reads <+: t.reads
  primed : (s.primed = true → lastCommand s.trace = some s.params.opRamwr) →
    t.primed = true → lastCommand t.trace = some t.params.opRamwr
  events : ∃ evs, t.trace = s.trace ++ evs ∧ t.stub = consumed s.params evs s.stub ∧ ∀ e ∈ evs, e.isDone = false ∧ e.isFault = false

/-- Everything an operation can do, with E the relation its registers keep while it goes on. -/
def Micro.From (E : State → State → Prop) (s : State) : Micro → Prop
  | .run t => Plain s t ∧ E s t
  | .ended t => ∃ u, Plain s u ∧ E s u ∧
      ((∃ f, t = faultState f (afterAnswer u) ∧ u.dc = f.level u.params) ∨
       (¬s.NoReset ∧ (t = cutOff u ∨ ∃ f, t = cutOff (markFault f (afterAnswer u)))))

theorem Plain.refl (s : State) : Plain s s :=
  ⟨rfl, rfl, rfl, rfl, rfl, rfl, rfl, rfl, rfl, rfl, rfl, rfl, List.suffix_rfl, List.prefix_rfl, id, [], by simp [consumed_nil]⟩

theorem Plain.trans {s t u : State} (h : Plain s t) (k : Plain t u) : Plain s u := by
  obtain ⟨a, ha, hs, hn⟩ := h.events
  obtain ⟨b, hb, ks, kn⟩ := k.events
  refine ⟨k.rx.trans h.rx, k.ry.trans h.ry, k.rw.trans h.rw, k.rh.trans h.rh, k.rc.trans h.rc, k.mode.trans h.mode,
    k.initDone.trans h.initDone, k.faultFlag.trans h.faultFlag, k.lastStatus.trans h.lastStatus, k.op.trans h.op,
    k.params.trans h.params, k.port.trans h.port, k.moves.trans h.moves, h.reads.trans k.reads, fun hs => k.primed (h.primed hs), a ++ b, by simp [hb, ha], ?_, ?_⟩
  · rw [ks, hs, h.params, consumed_append]
  · intro e he
    rcases List.mem_append.mp he with he | he
    · exact hn e he
    · exact kn e he

/-- Writing the registers of the block that Plain leaves free. -/
theorem Plain.set (s : State) (wx0 wy0 wx1 wy1 : Half) (rowbuf : Memory) (rowlen rows row : Half) (sp : Byte) (phase : Phase)
    (dc : BitVec 1) (answers : List Answer) (frames : Nat) :
    Plain s { s with
      wx0 := wx0, wy0 := wy0, wx1 := wx1, wy1 := wy1, rowbuf := rowbuf, rowlen := rowlen, rows := rows, row := row, sp := sp,
      phase := phase, dc := dc, answers := answers, frames := frames } :=
  ⟨rfl, rfl, rfl, rfl, rfl, rfl, rfl, rfl, rfl, rfl, rfl, rfl, List.suffix_rfl, List.prefix_rfl, id, [], by simp [consumed_nil]⟩

theorem lastCommand_append (t : List Event) (e : Event) :
    lastCommand (t ++ [e]) = match e.command? with
      | some b => some b
      | none => lastCommand t := by
  cases e <;> simp [lastCommand, Event.command?, List.findSome?_cons]

/-- Sending one event that is no command. -/
theorem Plain.sent (s : State) (e : Event) (n : Nat) (h : e.isDone = false ∧ e.isFault = false) (hc : e.command? = none) :
    Plain s (s.sent [e] n) :=
  ⟨rfl, rfl, rfl, rfl, rfl, rfl, rfl, rfl, rfl, rfl, rfl, rfl, List.suffix_rfl, List.prefix_rfl,
    fun hs hp => by rw [sent_trace, lastCommand_append, hc]; exact hs hp, [e], rfl, rfl, by simpa using h⟩

/-- A command frame and its flag (R112, R29). -/
theorem Plain.command (s : State) (b : Byte) : Plain s (setPrimed (primedAfter s.params b) ((drivenCmd s).sent [.cmd b] 1)) :=
  ⟨rfl, rfl, rfl, rfl, rfl, rfl, rfl, rfl, rfl, rfl, rfl, rfl, List.suffix_rfl, List.prefix_rfl,
    fun _ hp => by
      have hb : b = s.params.opRamwr := by simpa [primedAfter] using hp
      simp [lastCommand_append, Event.command?, hb],
    [.cmd b], rfl, rfl, by simp [Event.isDone, Event.isFault]⟩

theorem Plain.setHost (s : State) {m : List HostMove} {rs : List StatusPort} (h : m <:+ s.moves) (h' : s.reads <+: rs) :
    Plain s (setHost m rs s) :=
  ⟨rfl, rfl, rfl, rfl, rfl, rfl, rfl, rfl, rfl, rfl, rfl, rfl, h, h', id, [], by simp [consumed_nil]⟩

theorem Plain.watched {s t : State} (h : Watched s t) : Plain s t := by
  obtain ⟨m, rs, hm, hr, rfl⟩ := h
  exact Plain.setHost s hm hr

theorem Plain.glimpse (s : State) : Plain s (glimpse s) := Plain.watched (glimpse_watched s)

theorem Plain.noReset {s t : State} (h : Plain s t) (hs : s.NoReset) : t.NoReset := fun hm => hs (h.moves.subset hm)

theorem reset_next {s : State} {m : List HostMove} (h : .reset :: m <:+ s.moves) : ¬s.NoReset :=
  fun hn => hn (h.subset (List.mem_cons_self ..))

/-- One operation after another. -/
theorem Micro.From.andThen {E F G : State → State → Prop} {s : State} {m : Micro} {k : State → Micro} (hm : m.From E s)
    (hk : ∀ t, E s t → Plain s t → (k t).From F t) (hEG : ∀ t, E s t → G s t)
    (hEF : ∀ t u, E s t → Plain s t → F t u → G s u) : (m.andThen k).From G s := by
  cases m with
  | ended t =>
    obtain ⟨u, hp, he, h⟩ := hm
    exact ⟨u, hp, hEG u he, h⟩
  | run t =>
    obtain ⟨hp, he⟩ := hm
    have h := hk t he hp
    show (k t).From G s
    cases hkt : k t with
    | run v =>
      rw [hkt] at h
      exact ⟨hp.trans h.1, hEF t v he hp h.2⟩
    | ended v =>
      rw [hkt] at h
      obtain ⟨u, hu, hf, h⟩ := h
      refine ⟨u, hp.trans hu, hEF t u he hp hf, h.imp id fun h => ⟨fun hn => h.1 (hp.noReset hn), h.2⟩⟩

theorem Micro.From.mono {E F : State → State → Prop} {s : State} {m : Micro} (h : m.From E s) (hf : ∀ t, E s t → F s t) : m.From F s := by
  cases m with
  | run t => exact ⟨h.1, hf t h.2⟩
  | ended t =>
    obtain ⟨u, hp, he, h⟩ := h
    exact ⟨u, hp, hf u he, h⟩

/-- An operation that begins by writing registers (PHASE, say). -/
theorem Micro.From.after {E F : State → State → Prop} {s s1 : State} {m : Micro} (hp : Plain s s1) (h : m.From E s1)
    (hf : ∀ t, E s1 t → F s t) : m.From F s := by
  cases m with
  | run t => exact ⟨hp.trans h.1, hf t h.2⟩
  | ended t =>
    obtain ⟨u, hu, he, h⟩ := h
    exact ⟨u, hp.trans hu, hf u he, h.imp id fun h => ⟨fun hn => h.1 (hp.noReset hn), h.2⟩⟩

/-! ## Registers an operation leaves alone -/

/-- A frame or a delay alone: window, rows and SP are unchanged. -/
abbrev BusOnly (s t : State) : Prop := SameWindow s t ∧ SameRows s t ∧ t.sp = s.sp

theorem SameWindow.trans {s t u : State} (h : SameWindow s t) (k : SameWindow t u) : SameWindow s u :=
  ⟨k.1.trans h.1, k.2.1.trans h.2.1, k.2.2.1.trans h.2.2.1, k.2.2.2.trans h.2.2.2⟩

theorem SameRows.trans {s t u : State} (h : SameRows s t) (k : SameRows t u) : SameRows s u :=
  ⟨k.1.trans h.1, k.2.1.trans h.2.1, k.2.2.1.trans h.2.2.1, k.2.2.2.trans h.2.2.2⟩

theorem BusOnly.refl (s : State) : BusOnly s s := ⟨⟨rfl, rfl, rfl, rfl⟩, ⟨rfl, rfl, rfl, rfl⟩, rfl⟩

theorem BusOnly.trans {s t u : State} (h : BusOnly s t) (k : BusOnly t u) : BusOnly s u :=
  ⟨h.1.trans k.1, h.2.1.trans k.2.1, k.2.2.trans h.2.2⟩

theorem Micro.From.run_refl {E : State → State → Prop} {s : State} (h : E s s) : (Micro.run s).From E s := ⟨Plain.refl s, h⟩

theorem Micro.From.bus_andThen {s : State} {m : Micro} {k : State → Micro} (hm : m.From BusOnly s)
    (hk : ∀ t, (k t).From BusOnly t) : (m.andThen k).From BusOnly s :=
  hm.andThen (fun t _ _ => hk t) (fun _ h => h) (fun _ _ h _ h' => h.trans h')

/-! ## The operations -/

theorem plain_setPhase (ph : Phase) (s : State) : Plain s (setPhase ph s) := Plain.set s _ _ _ _ _ _ _ _ _ ph _ _ _

theorem plain_enterPhase (ph : Phase) (s : State) : Plain s (enterPhase ph s) := (plain_setPhase ph s).trans (Plain.glimpse _)

theorem plain_drivenCmd (s : State) : Plain s (drivenCmd s) :=
  ⟨rfl, rfl, rfl, rfl, rfl, rfl, rfl, rfl, rfl, rfl, rfl, rfl, List.suffix_rfl, List.prefix_rfl, fun _ h => absurd h (by simp), [], by simp [consumed_nil]⟩

theorem plain_driveData (s : State) : Plain s (driveData s) := Plain.set s _ _ _ _ _ _ _ _ _ _ s.params.dcData _ _

theorem bus_drivenCmd (s : State) : BusOnly s (drivenCmd s) := BusOnly.refl s
theorem bus_driveData (s : State) : BusOnly s (driveData s) := BusOnly.refl s
theorem bus_setPrimed (v : Bool) (s : State) : BusOnly s (setPrimed v s) := BusOnly.refl s
theorem bus_setHost (m : List HostMove) (rs : List StatusPort) (s : State) : BusOnly s (setHost m rs s) := BusOnly.refl s
theorem bus_glimpse (s : State) : BusOnly s (glimpse s) := bus_setHost _ _ s
theorem bus_sent (s : State) (evs : List Event) (n : Nat) : BusOnly s (s.sent evs n) := BusOnly.refl s

/-- A frame f that the transport answers `fault`: the block halts, or a reset cuts the completion off (R222, R250). -/
theorem raiseFault_from {s u : State} {f : Frame} (hp : Plain s u) (hb : BusOnly s u) (hd : u.dc = f.level u.params) :
    (Micro.ended (raiseFault f (afterAnswer u))).From BusOnly s := by
  rcases raiseFault_cases f (afterAnswer u) with ⟨m, rs, h, h', e⟩ | ⟨m, rs, h, h', e⟩
  · rw [e]
    exact ⟨setHost m rs u, hp.trans (Plain.setHost u ((List.suffix_cons _ m).trans h) h'), hb.trans (bus_setHost m rs u),
      .inr ⟨fun hn => reset_next h (hp.noReset hn), .inr ⟨f, rfl⟩⟩⟩
  · rw [e]
    exact ⟨setHost m rs u, hp.trans (Plain.setHost u h h'), hb.trans (bus_setHost m rs u), .inl ⟨f, rfl, hd⟩⟩

theorem busCmd_from (b : Byte) (s : State) : (busCmd b s).From BusOnly s := by
  rcases busCmd_cases b s with ⟨m, rs, h, h', e⟩ | ⟨m, rs, h, h', ⟨_, e⟩ | ⟨_, e⟩⟩
  · rw [e]
    exact ⟨_, (plain_drivenCmd s).trans (Plain.setHost _ ((List.suffix_cons _ m).trans h) h'), BusOnly.refl s,
      .inr ⟨reset_next h, .inl rfl⟩⟩
  · rw [e]
    exact raiseFault_from ((Plain.setHost s h h').trans (plain_drivenCmd _)) ((bus_setHost m rs s).trans (bus_drivenCmd _)) rfl
  · rw [e]
    exact ⟨((Plain.setHost s h h').trans (Plain.command _ b)).trans (Plain.glimpse _),
      ((((bus_setHost m rs s).trans (bus_drivenCmd _)).trans (bus_sent _ _ _)).trans (bus_setPrimed _ _)).trans (bus_glimpse _)⟩

theorem busData_from (bs : List Byte) (s : State) : (busData bs s).From BusOnly s := by
  rcases busData_cases bs s with ⟨m, rs, h, h', e⟩ | ⟨m, rs, h, h', ⟨_, e⟩ | ⟨_, e⟩⟩
  · rw [e]
    exact ⟨_, (plain_driveData s).trans (Plain.setHost _ ((List.suffix_cons _ m).trans h) h'), BusOnly.refl s,
      .inr ⟨reset_next h, .inl rfl⟩⟩
  · rw [e]
    exact raiseFault_from ((Plain.setHost s h h').trans (plain_driveData _)) ((bus_setHost m rs s).trans (bus_driveData _)) rfl
  · rw [e]
    exact ⟨((Plain.setHost s h h').trans (plain_driveData _)).trans (Plain.sent _ (.data bs) 1 ⟨rfl, rfl⟩ rfl),
      ((bus_setHost m rs s).trans (bus_driveData _)).trans (bus_sent _ _ _)⟩

theorem delayFor_from (n : Half) (s : State) : (delayFor n s).From BusOnly s := by
  rcases delayFor_cases n s with ⟨m, rs, h, h', e⟩ | ⟨m, rs, h, h', e⟩
  · rw [e]
    exact ⟨setHost m rs s, Plain.setHost s ((List.suffix_cons _ m).trans h) h', BusOnly.refl s, .inr ⟨reset_next h, .inl rfl⟩⟩
  · rw [e]
    exact ⟨(Plain.setHost s h h').trans (Plain.sent (setHost m rs s) (.wait n) 0 ⟨rfl, rfl⟩ rfl),
      (bus_setHost m rs s).trans (bus_sent _ _ _)⟩

theorem busDataIf_from (ph : Phase) (bs : List Byte) (s : State) : (busDataIf ph bs s).From BusOnly s := by
  unfold busDataIf
  split
  · exact .run_refl (BusOnly.refl s)
  · exact (busData_from bs (enterPhase ph s)).after (plain_enterPhase ph s) fun _ h => h

theorem cmdStep_from (ph : Phase) (b : Byte) (s : State) : (cmdStep ph b s).From BusOnly s :=
  (busCmd_from b (enterPhase ph s)).after (plain_enterPhase ph s) fun _ h => h

theorem execRecord_from (r : ScriptRecord) (s : State) : (execRecord r s).From BusOnly s := by
  refine (Micro.From.bus_andThen ((busCmd_from r.opcode (enterPhase .recCmd s)).after (plain_enterPhase _ s) fun _ h => h) fun t => ?_)
  refine (busDataIf_from _ _ t).bus_andThen fun t => ?_
  split
  · exact .run_refl (BusOnly.refl t)
  · exact (delayFor_from r.delay (enterPhase .recWait t)).after (plain_enterPhase _ t) fun _ h => h

/-- A run of script records: SP stays an index from 0 to K (R24). -/
abbrev ScriptOnly (s t : State) : Prop :=
  SameWindow s t ∧ SameRows s t ∧ (s.sp.toNat ≤ s.params.script.length → t.sp.toNat ≤ s.params.script.length)

theorem BusOnly.script {s t : State} (h : BusOnly s t) : ScriptOnly s t := ⟨h.1, h.2.1, fun hs => by rw [h.2.2]; exact hs⟩

theorem ScriptOnly.trans {s t u : State} (h : ScriptOnly s t) (hp : t.params = s.params) (k : ScriptOnly t u) : ScriptOnly s u := by
  obtain ⟨a, b, c⟩ := h
  obtain ⟨d, e, f⟩ := k
  rw [hp] at f
  exact ⟨a.trans d, b.trans e, fun hs => f (c hs)⟩

theorem runScript_from (n : Nat) (s : State) (hk : s.params.script.length ≤ 255) : (runScript n s).From ScriptOnly s := by
  induction n generalizing s with
  | zero => exact .run_refl (BusOnly.refl s).script
  | succ n ih =>
    rw [runScript]
    cases hf : fetchRecord s with
    | none => exact .run_refl (BusOnly.refl s).script
    | some r =>
      have hl : s.sp.toNat < s.params.script.length := (List.getElem?_eq_some_iff.mp hf).1
      refine (execRecord_from r s).andThen (F := fun t u => t.params = s.params → ScriptOnly (setSp (t.sp + 1) t) u)
        (fun t _ hp => ((ih (glimpse (setSp (t.sp + 1) t)) (by rw [glimpse_params, setSp_params, hp.params]; exact hk)).after
          ((Plain.set t _ _ _ _ _ _ _ _ (t.sp + 1) _ _ _ _).trans (Plain.glimpse _)) fun _ h _ => h)) (fun _ h => h.script) ?_
      intro t u he hp h
      have h := h hp.params
      obtain ⟨hw, hr, hs⟩ := he
      obtain ⟨kw, kr, ks⟩ := h
      refine ⟨hw.trans kw, hr.trans kr, fun _ => ?_⟩
      simp only [setSp_sp, setSp_params, hp.params, hs] at ks
      refine ks ?_
      rw [sp_succ (by omega)]
      omega

/-- One record of the table at its index. -/
theorem scriptStep_from (i : Byte) (r : ScriptRecord) (s : State) :
    (scriptStep i r s).From (fun s t => SameWindow s t ∧ SameRows s t ∧ (t.sp = i ∨ t.sp = i + 1)) s := by
  refine ((execRecord_from r (glimpse (setSp i s))).after (F := fun s t => SameWindow s t ∧ SameRows s t ∧ t.sp = i)
    ((Plain.set s _ _ _ _ _ _ _ _ i _ _ _ _).trans (Plain.glimpse _)) fun t h => h).andThen
    (F := fun t u => SameWindow t u ∧ SameRows t u ∧ u.sp = i + 1)
    (fun t _ _ => ⟨(Plain.set t _ _ _ _ _ _ _ _ (i + 1) _ _ _ _).trans (Plain.glimpse _), ⟨rfl, rfl, rfl, rfl⟩, ⟨rfl, rfl, rfl, rfl⟩, rfl⟩)
    (fun t h => ⟨h.1, h.2.1, .inl h.2.2⟩) ?_
  intro t u h _ k
  exact ⟨h.1.trans k.1, h.2.1.trans k.2.1, .inr k.2.2⟩

/-- A window program: rows and SP are unchanged. -/
abbrev WindowOnly (s t : State) : Prop := SameRows s t ∧ t.sp = s.sp

theorem WindowOnly.trans {s t u : State} (h : WindowOnly s t) (k : WindowOnly t u) : WindowOnly s u :=
  ⟨h.1.trans k.1, k.2.trans h.2⟩

theorem Micro.From.window_andThen {s : State} {m : Micro} {k : State → Micro} (hm : m.From WindowOnly s)
    (hk : ∀ t, (k t).From WindowOnly t) : (m.andThen k).From WindowOnly s :=
  hm.andThen (fun t _ _ => hk t) (fun _ h => h) (fun _ _ h _ h' => h.trans h')

theorem columnData_from (x0 x1 : Half) (s : State) : (columnData x0 x1 s).From WindowOnly s :=
  (((busData_from _ (enterPhase .casetD s)).after (F := WindowOnly) (plain_enterPhase _ s) fun _ h => h.2)).window_andThen fun t =>
    ⟨(Plain.set t x0 _ x1 _ _ _ _ _ _ _ _ _ _).trans (Plain.watched (writeColumns_watched x0 x1 t)), ⟨rfl, rfl, rfl, rfl⟩, rfl⟩

theorem rowData_from (y0 y1 : Half) (s : State) : (rowData y0 y1 s).From WindowOnly s :=
  (((busData_from _ (enterPhase .pasetD s)).after (F := WindowOnly) (plain_enterPhase _ s) fun _ h => h.2)).window_andThen fun t =>
    ⟨(Plain.set t _ y0 _ y1 _ _ _ _ _ _ _ _ _).trans (Plain.watched (writeRows_watched y0 y1 t)), ⟨rfl, rfl, rfl, rfl⟩, rfl⟩

theorem windowProgram_from (x0 y0 x1 y1 : Half) (s : State) : (windowProgram x0 y0 x1 y1 s).From WindowOnly s := by
  refine ((cmdStep_from _ _ s).mono fun _ h => h.2).window_andThen fun t => ?_
  refine (columnData_from _ _ t).window_andThen fun t => ?_
  refine ((cmdStep_from _ _ t).mono fun _ h => h.2).window_andThen fun t => ?_
  refine (rowData_from _ _ t).window_andThen fun t => ?_
  exact (cmdStep_from _ _ t).mono fun _ h => h.2

/-- A replay: only ROW counts on (R23). -/
abbrev RowsWritten (n : Nat) (s t : State) : Prop :=
  SameWindow s t ∧ (t.rowbuf = s.rowbuf ∧ t.rowlen = s.rowlen ∧ t.rows = s.rows) ∧ t.sp = s.sp ∧
    ∃ j ≤ n, t.row = s.row + BitVec.ofNat 16 j

theorem rowWrite_from (s : State) :
    (rowWrite s).From (fun s t => SameWindow s t ∧ (t.rowbuf = s.rowbuf ∧ t.rowlen = s.rowlen ∧ t.rows = s.rows) ∧ t.sp = s.sp ∧
      (t.row = s.row ∨ t.row = s.row + 1)) s := by
  refine ((busData_from _ (enterPhase .rowD s)).after (F := BusOnly) (plain_enterPhase _ s) fun _ h => h).andThen
    (F := fun t u => u = glimpse (countRow t))
    (fun t _ _ => ⟨(Plain.set t _ _ _ _ _ _ _ (t.row + 1) _ _ _ _ _).trans (Plain.glimpse _), rfl⟩)
    (fun t h => ⟨h.1, ⟨h.2.1.1, h.2.1.2.1, h.2.1.2.2.1⟩, h.2.2, .inl h.2.1.2.2.2⟩) ?_
  rintro t u ⟨hw, hr, hs⟩ _ rfl
  exact ⟨hw, ⟨hr.1, hr.2.1, hr.2.2.1⟩, hs, .inr (by simp [hr.2.2.2])⟩

theorem rowLoop_from (n : Nat) (s : State) : (rowLoop n s).From (RowsWritten n) s := by
  induction n generalizing s with
  | zero => exact .run_refl ⟨⟨rfl, rfl, rfl, rfl⟩, ⟨rfl, rfl, rfl⟩, rfl, 0, Nat.le_refl _, by simp⟩
  | succ n ih =>
    refine (rowWrite_from s).andThen (F := RowsWritten n) (fun t _ _ => ih t) ?_ ?_
    · rintro t ⟨hw, hr, hs, h | h⟩
      · exact ⟨hw, hr, hs, 0, by omega, by simp [h]⟩
      · exact ⟨hw, hr, hs, 1, by omega, h⟩
    · rintro t u ⟨hw, hr, hs, h⟩ _ ⟨kw, kr, ks, j, hj, k⟩
      refine ⟨hw.trans kw, ⟨kr.1.trans hr.1, kr.2.1.trans hr.2.1, kr.2.2.trans hr.2.2⟩, ks.trans hs, ?_⟩
      rcases h with h | h
      · exact ⟨j, by omega, by rw [k, h]⟩
      · exact ⟨j + 1, by omega, by rw [k, h, BitVec.add_assoc, Nat.add_comm, BitVec.ofNat_add]; rfl⟩

/-- A replay that runs to its end has counted every row (R23). -/
theorem rowLoop_run (n : Nat) (s t : State) (h : rowLoop n s = .run t) : t.row = s.row + BitVec.ofNat 16 n := by
  induction n generalizing s with
  | zero =>
    cases h
    simp
  | succ n ih =>
    rw [rowLoop, rowWrite] at h
    rcases busData_cases (rowRead s.rowbuf s.rowlen.toNat) (enterPhase .rowD s) with ⟨_, _, _, _, e⟩ | ⟨_, _, _, _, ⟨_, e⟩ | ⟨_, e⟩⟩
    · rw [e] at h; cases h
    · rw [e] at h; cases h
    · rw [e] at h
      rw [ih _ h]
      simp [BitVec.add_assoc, Nat.add_comm n, BitVec.ofNat_add]

/-- A fill that draws: the row is packed, ROWLEN and ROWS are set, ROW counts to at most ROWS; SP is unchanged (R179). -/
theorem fill_from (cw ch : Nat) (x y : Int) (c : Half) (s : State) :
    (fill (some (cw, ch)) x y c s).From (fun s t =>
      t.rowbuf = Memory.writeList s.rowbuf 0 (rowBytes cw c) ∧ t.rowlen = BitVec.ofNat 16 (2 * cw) ∧ t.rows = BitVec.ofNat 16 ch ∧
      t.sp = s.sp ∧ ∃ j ≤ ch, t.row = BitVec.ofNat 16 j) s := by
  refine ((windowProgram_from _ _ _ _ (packRow cw ch c s)).after
    (F := fun s t => SameRows (packRow cw ch c s) t ∧ t.sp = s.sp)
    ((Plain.set s _ _ _ _ (Memory.writeList s.rowbuf 0 (rowBytes cw c)) (BitVec.ofNat 16 (2 * cw)) (BitVec.ofNat 16 ch) 0 _ _ _ _ _).trans
      (Plain.watched (packRow_watched cw ch c s))) fun _ h => h).andThen (F := RowsWritten ch) (fun t _ _ => rowLoop_from ch t) ?_ ?_
  · rintro t ⟨⟨a, b, c', d⟩, e⟩
    exact ⟨a, b, c', e, 0, by omega, by simpa using d⟩
  · rintro t u ⟨⟨a, b, c', d⟩, e⟩ _ ⟨_, ⟨f, g, h⟩, i, j, hj, k⟩
    refine ⟨f.trans a, g.trans b, h.trans c', i.trans e, j, hj, ?_⟩
    rw [k, d]
    simp

end Sys2Proof.Machine
end

