-- ==== Sys2Proof/Laws/Exec.lean ====
section
/-! SUPPORT. Everything exec can do: how each row runs, as a request or as a micro-step, and what a request or a micro-step leaves. -/

namespace Sys2Proof.Machine

/-! ## The rows below the host interface -/

/-- The micro-steps of a row below the host interface (for a host request: nothing). -/
def microBody : Instr → State → Micro
  | .init _ _ _ _ _, s | .sendCommand _ _ _ _ _, s | .sendData _ _ _ _ _, s | .sendDataBuffer _ _ _ _ _ _, s
  | .setWindow _ _ _ _ _, s | .fillRect _ _ _ _ _, s | .fillScreen _ _ _ _ _, s | .reservedHostOp _ _ _ _ _ _, s => .run s
  | .cmdFrame b, s => busCmd b s
  | .dataFrame bs, s => busDataIf s.phase bs s
  | .addr4 a b, s =>
    if s.phase = .casetC then columnData a b s
    else if s.phase = .pasetC then rowData a b s
    else busData (addr4Bytes a b) s
  | .pix2 r g b, s => busData (be16 (rgb565 r g b)) s
  | .srec o pl d, s => execRecord ⟨o, pl, d⟩ s
  | .swreset, s => cmdStep .recCmd s.params.opSwreset s
  | .slpout, s => cmdStep .recCmd s.params.opSlpout s
  | .noron, s => cmdStep .recCmd s.params.opNoron s
  | .dispon, s => cmdStep .recCmd s.params.opDispon s
  | .caset, s => cmdStep .casetC s.params.opCaset s
  | .paset, s => cmdStep .pasetC s.params.opPaset s
  | .ramwr, s => cmdStep .ramwrC s.params.opRamwr s
  | .madctl, s => cmdStep .recCmd s.params.opMadctl s
  | .colmod, s => cmdStep .recCmd s.params.opColmod s
  | .frmctr, s => cmdStep .recCmd s.params.opFrmctr s
  | .dfunctr, s => cmdStep .recCmd s.params.opDfunctr s
  | .pwctrA, s => cmdStep .recCmd s.params.opPwctrA s
  | .pwctrB, s => cmdStep .recCmd s.params.opPwctrB s
  | .vmctr, s => cmdStep .recCmd s.params.opVmctr s
  | .pgamctrl, s => cmdStep .recCmd s.params.opPgamctrl s
  | .ngamctrl, s => cmdStep .recCmd s.params.opNgamctrl s
  | .rec0Swreset, s => scriptStep 0 (recSwreset s.params) s
  | .rec1Colmod, s => scriptStep 1 (recColmod s.params) s
  | .rec2PwctrA, s => scriptStep 2 (recPwctrA s.params) s
  | .rec3PwctrB, s => scriptStep 3 (recPwctrB s.params) s
  | .rec4Vmctr, s => scriptStep 4 (recVmctr s.params) s
  | .rec5Slpout, s => scriptStep 5 (recSlpout1 s.params) s
  | .rec6Madctl, s => scriptStep 6 (recMadctl s.params) s
  | .rec7Dfunctr, s => scriptStep 7 (recDfunctr s.params) s
  | .rec8Frmctr, s => scriptStep 8 (recFrmctr s.params) s
  | .rec9Pgamctrl, s => scriptStep 9 (recPgamctrl s.params) s
  | .rec10Ngamctrl, s => scriptStep 10 (recNgamctrl s.params) s
  | .rec11Slpout, s => scriptStep 11 (recSlpout2 s.params) s
  | .rec12Dispon, s => scriptStep 12 (recDispon s.params) s
  | .rec13Noron, s => scriptStep 13 (recNoron s.params) s

theorem exec_micro {i : Instr} (h : isHostRequest i = false) (s : State) : exec i s = micro (microBody i) s := by
  cases i with
  | addr4 a b =>
    simp only [exec, execAddr4, micro, microBody]
    cases s.mode <;> cases hp : s.phase <;> simp
  | init | sendCommand | sendData | sendDataBuffer | setWindow | fillRect | fillScreen | reservedHostOp => cases h
  | _ => rfl

/-- What a row below the host interface keeps while it goes on: the rows and SP, but for the fourteen records, which set SP to their index or
one more, at most 14. -/
theorem microBody_from (i : Instr) (s : State) :
    (microBody i s).From (fun s t => SameRows s t ∧ (t.sp = s.sp ∨ t.sp.toNat ≤ 14)) s := by
  have bus {m : Micro} (h : m.From BusOnly s) : m.From (fun s t => SameRows s t ∧ (t.sp = s.sp ∨ t.sp.toNat ≤ 14)) s :=
    h.mono fun _ h => ⟨h.2.1, .inl h.2.2⟩
  have rec' (j : Byte) (r : ScriptRecord) (hj : j.toNat ≤ 13) :
      (scriptStep j r s).From (fun s t => SameRows s t ∧ (t.sp = s.sp ∨ t.sp.toNat ≤ 14)) s := by
    refine (scriptStep_from j r s).mono fun t h => ⟨h.2.1, .inr ?_⟩
    rcases h.2.2 with e | e <;> rw [e]
    · omega
    · rw [sp_succ (by omega)]; omega
  cases i with
  | cmdFrame b => exact bus (busCmd_from b s)
  | dataFrame bs => exact bus (busDataIf_from _ bs s)
  | addr4 a b =>
    simp only [microBody]
    split
    · exact (columnData_from a b s).mono fun _ h => ⟨h.1, .inl h.2⟩
    · split
      · exact (rowData_from a b s).mono fun _ h => ⟨h.1, .inl h.2⟩
      · exact bus (busData_from _ s)
  | pix2 r g b => exact bus (busData_from _ s)
  | srec o pl d => exact bus (execRecord_from _ s)
  | swreset | slpout | noron | dispon | caset | paset | ramwr | madctl | colmod | frmctr | dfunctr | pwctrA | pwctrB | vmctr
  | pgamctrl | ngamctrl => exact bus (cmdStep_from _ _ s)
  | rec0Swreset | rec1Colmod | rec2PwctrA | rec3PwctrB | rec4Vmctr | rec5Slpout | rec6Madctl | rec7Dfunctr | rec8Frmctr
  | rec9Pgamctrl | rec10Ngamctrl | rec11Slpout | rec12Dispon | rec13Noron => exact rec' _ _ (by decide)
  | init | sendCommand | sendData | sendDataBuffer | setWindow | fillRect | fillScreen | reservedHostOp =>
    exact .run_refl ⟨⟨rfl, rfl, rfl, rfl⟩, .inl rfl⟩

/-- What a lone micro-step leaves (R222, R250, R231): nothing happens to a halted block; otherwise it runs, faults or is cut off. -/
theorem micro_cases {body : State → Micro} {s t : State} (h : micro body s = .next t) :
    (s.mode = .halted ∧ t = s) ∨ (s.mode ≠ .halted ∧ t = (body s).state) := by
  unfold micro at h
  split at h
  · exact .inl ⟨by assumption, by cases h; rfl⟩
  all_goals
    rename_i hm
    exact .inr ⟨by simp [hm], by cases h; rfl⟩

/-! ## The host requests -/

/-- The micro-steps of a host request of an idle block without its completion (R115 to R117, R130, R170, R178, R190). -/
def requestBody : Instr → State → Micro
  | .init _ _ _ _ _, s => initBody s
  | .sendCommand _ _ _ _ _, s => cmdStep .prim (byteOperand s) s
  | .sendData _ _ _ _ _, s => busData [byteOperand s] (enterPhase .prim s)
  | .sendDataBuffer _ _ _ _ _ hp, s => busDataIf .prim hp s
  | .setWindow _ _ _ _ _, s => windowProgram s.rx s.ry s.rw s.rh s
  | .fillRect _ _ _ _ _, s => fill (clip (sint16 s.rx) (sint16 s.ry) (sint16 s.rw) (sint16 s.rh)) (sint16 s.rx) (sint16 s.ry) s.rc s
  | .fillScreen _ _ _ _ _, s => fill (some (Config.panelWidth, Config.panelHeight)) 0 0 s.rc s
  | .reservedHostOp _ _ _ _ _ _, s | .cmdFrame _, s | .dataFrame _, s | .addr4 _ _, s | .pix2 _ _ _, s | .srec _ _ _, s | .swreset, s
  | .slpout, s | .noron, s | .dispon, s | .caset, s | .paset, s | .ramwr, s | .madctl, s | .colmod, s | .frmctr, s | .dfunctr, s
  | .pwctrA, s | .pwctrB, s | .vmctr, s | .pgamctrl, s | .ngamctrl, s | .rec0Swreset, s | .rec1Colmod, s | .rec2PwctrA, s
  | .rec3PwctrB, s | .rec4Vmctr, s | .rec5Slpout, s | .rec6Madctl, s | .rec7Dfunctr, s | .rec8Frmctr, s | .rec9Pgamctrl, s
  | .rec10Ngamctrl, s | .rec11Slpout, s | .rec12Dispon, s | .rec13Noron, s => .run s

/-- Whether a request has a reserved code (R91). -/
def isReserved : Instr → Bool
  | .reservedHostOp _ _ _ _ _ _ => true
  | _ => false

/-- Everything a request with an assigned code can do (R82, R230): not accepted while BUSY, rejected while HALTED, or run. -/
theorem request_cases {op : Byte} {f1 f2 f3 f4 f5 : Half} {body : State → Micro} {s t : State}
    (h : request op f1 f2 f3 f4 f5 body s = .next t) :
    (s.mode = .busy ∧ t = s) ∨ (s.mode = .halted ∧ t = reject op (loadOperands f1 f2 f3 f4 f5 s)) ∨
    (s.mode = .idle ∧ t = finish (body (glimpse (beginRequest op (loadOperands f1 f2 f3 f4 f5 s))))) := by
  unfold request at h
  cases hm : s.mode <;> simp only [hm, Host.Outcome.next.injEq] at h <;> subst h <;> simp

theorem request_next (op : Byte) (f1 f2 f3 f4 f5 : Half) (body : State → Micro) (s : State) :
    ∃ t, request op f1 f2 f3 f4 f5 body s = .next t := by
  unfold request
  cases s.mode <;> exact ⟨_, rfl⟩

/-- A request with an assigned code runs its body (R115 to R117, R130, R170, R178, R190). -/
theorem exec_assigned {op : Byte} {hp : List Byte} {f1 f2 f3 f4 f5 : Half} {r : Byte × Instr}
    (hr : r ∈ hostRequests op hp f1 f2 f3 f4 f5) (hn : isReserved r.2 = false) {s t : State} (h : exec r.2 s = .next t) :
    request r.1 f1 f2 f3 f4 f5 (requestBody r.2) s = .next t ∧ (r.1 = 0x01 → s.params.script.length ≤ 255) := by
  have ne {P : Prop} {c : Byte} (hc : (c == 1) = false) : c = 0x01 → P := fun e => by simp [e] at hc
  simp only [hostRequests, List.mem_cons, List.not_mem_nil, or_false] at hr
  rcases hr with rfl | rfl | rfl | rfl | rfl | rfl | rfl | rfl
  · simp only [exec, execInit] at h
    split at h
    · exact ⟨h, fun _ => by assumption⟩
    · cases h
  · exact ⟨h, ne rfl⟩
  · exact ⟨h, ne rfl⟩
  · simp only [exec, execSendDataBuffer] at h
    split at h
    · exact ⟨h, ne rfl⟩
    · cases h
  · exact ⟨h, ne rfl⟩
  · exact ⟨h, ne rfl⟩
  · exact ⟨h, ne rfl⟩
  · cases hn

/-- A request with a reserved code (R91, R227, R230). -/
theorem exec_reserved (op : Byte) (f1 f2 f3 f4 f5 : Half) (s : State) :
    exec (.reservedHostOp op f1 f2 f3 f4 f5) s =
      .next (if s.mode = .busy then s else reject op (loadOperands f1 f2 f3 f4 f5 s)) := by
  simp only [exec, execReservedHostOp]
  cases s.mode <;> rfl

theorem reserved_code {op : Byte} {hp : List Byte} {f1 f2 f3 f4 f5 : Half} {r : Byte × Instr}
    (hr : r ∈ hostRequests op hp f1 f2 f3 f4 f5) (hn : isReserved r.2 = true) : r = (op, .reservedHostOp op f1 f2 f3 f4 f5) := by
  simp only [hostRequests, List.mem_cons, List.not_mem_nil, or_false] at hr
  rcases hr with rfl | rfl | rfl | rfl | rfl | rfl | rfl | rfl
  all_goals first | rfl | cases hn

/-- Everything a host request that answers a next state can do (R82, R230): not accepted while BUSY, rejected, or run. -/
theorem exec_request_cases {op : Byte} {hp : List Byte} {f1 f2 f3 f4 f5 : Half} {r : Byte × Instr}
    (hr : r ∈ hostRequests op hp f1 f2 f3 f4 f5) {s t : State} (h : exec r.2 s = .next t) :
    (s.mode = .busy ∧ t = s) ∨
    (s.mode ≠ .busy ∧ (s.mode = .halted ∨ isReserved r.2 = true) ∧ t = reject r.1 (loadOperands f1 f2 f3 f4 f5 s)) ∨
    (s.mode = .idle ∧ isReserved r.2 = false ∧ (r.1 = 0x01 → s.params.script.length ≤ 255) ∧
      t = finish (requestBody r.2 (glimpse (beginRequest r.1 (loadOperands f1 f2 f3 f4 f5 s))))) := by
  cases hn : isReserved r.2 with
  | false =>
    obtain ⟨h, hk⟩ := exec_assigned hr hn h
    rcases request_cases h with h | ⟨h, e⟩ | ⟨h, e⟩
    · exact .inl h
    · exact .inr (.inl ⟨by simp [h], .inl h, e⟩)
    · exact .inr (.inr ⟨h, rfl, hk, e⟩)
  | true =>
    have e := reserved_code hr hn
    subst e
    rw [exec_reserved] at h
    simp only [Host.Outcome.next.injEq] at h
    subst h
    by_cases hm : s.mode = .busy
    · exact .inl ⟨hm, if_pos hm⟩
    · exact .inr (.inl ⟨hm, .inr rfl, if_neg hm⟩)

/-- A request the block can be asked answers a next state. -/
theorem exec_request_next {op : Byte} {hp : List Byte} {f1 f2 f3 f4 f5 : Half} {r : Byte × Instr}
    (hr : r ∈ hostRequests op hp f1 f2 f3 f4 f5) {s : State} (h : Presentable s r.2) : ∃ t, exec r.2 s = .next t := by
  obtain ⟨hw, hk⟩ := h
  simp only [hostRequests, List.mem_cons, List.not_mem_nil, or_false] at hr
  rcases hr with rfl | rfl | rfl | rfl | rfl | rfl | rfl | rfl
  · simp only [exec, execInit, hk, if_true]
    exact request_next ..
  · simp only [exec, execSendCommand]
    exact request_next ..
  · simp only [exec, execSendData]
    exact request_next ..
  · simp only [wellFormed, decide_eq_true_eq] at hw
    simp only [exec, execSendDataBuffer, hw, if_true]
    exact request_next ..
  · simp only [exec, execSetWindow]
    exact request_next ..
  · simp only [exec, execFillRect]
    exact request_next ..
  · simp only [exec, execFillScreen]
    exact request_next ..
  · exact ⟨_, exec_reserved ..⟩

/-- The row buffer and the row registers are in their range (R22, R23). -/
abbrev RowsGood (s : State) : Prop :=
  (s.rowbuf.wf = true ∧ s.rowbuf.below Config.rowBufBytes = true) ∧ (s.rowlen.toNat ≤ Config.rowBufBytes ∧ s.rowlen.toNat % 2 = 0) ∧
    (s.rows.toNat ≤ Config.panelHeight ∧ s.row.toNat ≤ s.rows.toNat)

theorem SameRows.good {s t : State} (h : SameRows s t) (hs : RowsGood s) : RowsGood t := by
  unfold RowsGood
  rw [h.1, h.2.1, h.2.2.1, h.2.2.2]
  exact hs

/-- What the clip can answer: a rectangle inside the panel (R180). -/
theorem clip_bounds {x y w h : Int} {cw ch : Nat} (e : clip x y w h = some (cw, ch)) :
    0 ≤ x ∧ x + cw ≤ 480 ∧ 0 ≤ y ∧ y + ch ≤ 320 ∧ 1 ≤ cw ∧ 1 ≤ ch := by
  unfold clip at e
  simp only [Config.panelWidth, Config.panelHeight] at e
  split_ifs at e <;> simp only [Option.some.injEq, Prod.mk.injEq] at e <;> omega

theorem fill_good {cw ch : Nat} (x y : Int) (c : Half) (s : State) (hw : cw ≤ 480) (hc : ch ≤ 320) :
    (fill (some (cw, ch)) x y c s).From (fun s t => (RowsGood s → RowsGood t) ∧ t.sp = s.sp) s := by
  refine (fill_from cw ch x y c s).mono ?_
  rintro t ⟨hb, hl, hn, hs, j, hj, hr⟩
  refine ⟨fun hg => ?_, hs⟩
  unfold RowsGood
  rw [hb, hl, hn, hr]
  simp only [BitVec.toNat_ofNat, Config.rowBufBytes, Config.panelHeight]
  exact ⟨⟨Memory.writeList_wf _ _ _ hg.1.1, Memory.writeList_below _ _ (by rw [rowBytes_length]; omega) hg.1.2⟩, by omega, by omega⟩

/-- A fill leaves ROW = ROWS where it runs to its end (R23). -/
theorem fill_run {r : Option (Nat × Nat)} {x y : Int} {c : Half} {s t : State} (h : fill r x y c s = .run t) : t.row = t.rows := by
  cases r with
  | none =>
    cases h
    rfl
  | some v =>
    obtain ⟨cw, ch⟩ := v
    have hf := fill_from cw ch x y c s
    rw [h] at hf
    obtain ⟨_, _, _, hn, _, _⟩ := hf
    rw [hn]
    have hw := windowProgram_from (bound x) (bound y) (bound (x + cw - 1)) (bound (y + ch - 1)) (packRow cw ch c s)
    simp only [fill] at h
    cases hm : windowProgram (bound x) (bound y) (bound (x + cw - 1)) (bound (y + ch - 1)) (packRow cw ch c s) with
    | ended u => rw [hm] at h; cases h
    | run u =>
      rw [hm] at h hw
      rw [rowLoop_run ch u t h, hw.2.1.2.2.2]
      simp

/-- What a request other than INIT keeps while it goes on. -/
theorem requestBody_from {i : Instr} (hi : ∀ f1 f2 f3 f4 f5, i ≠ .init f1 f2 f3 f4 f5) (s : State) :
    (requestBody i s).From (fun s t => (RowsGood s → RowsGood t) ∧ t.sp = s.sp) s := by
  have bus {m : Micro} (h : m.From BusOnly s) : m.From (fun s t => (RowsGood s → RowsGood t) ∧ t.sp = s.sp) s :=
    h.mono fun _ h => ⟨h.2.1.good, h.2.2⟩
  cases i with
  | init f1 f2 f3 f4 f5 => exact absurd rfl (hi f1 f2 f3 f4 f5)
  | sendCommand f1 f2 f3 f4 f5 => exact bus (cmdStep_from _ _ s)
  | sendData f1 f2 f3 f4 f5 => exact bus ((busData_from _ (enterPhase .prim s)).after (plain_enterPhase _ s) fun _ h => h)
  | sendDataBuffer f1 f2 f3 f4 f5 hp => exact bus (busDataIf_from _ _ s)
  | setWindow f1 f2 f3 f4 f5 => exact (windowProgram_from _ _ _ _ s).mono fun _ h => ⟨h.1.good, h.2⟩
  | fillRect f1 f2 f3 f4 f5 =>
    simp only [requestBody]
    cases hc : clip (sint16 s.rx) (sint16 s.ry) (sint16 s.rw) (sint16 s.rh) with
    | none =>
      refine ⟨(Plain.set s _ _ _ _ _ 0 0 0 _ _ _ _ _).trans (Plain.watched (writeRowCounts_watched 0 0 s)), fun hg => ⟨hg.1, ?_⟩, rfl⟩
      simp
    | some v =>
      obtain ⟨cw, ch⟩ := v
      have := clip_bounds hc
      exact fill_good _ _ _ s (by omega) (by omega)
  | fillScreen f1 f2 f3 f4 f5 => exact fill_good _ _ _ s (by decide) (by decide)
  | _ => exact .run_refl ⟨id, rfl⟩

theorem requestBody_run {i : Instr} (hi : ∀ f1 f2 f3 f4 f5, i ≠ .init f1 f2 f3 f4 f5) {s t : State}
    (h : requestBody i s = .run t) (hs : s.row = s.rows) : t.row = t.rows := by
  have bus {m : Micro} (h : m.From BusOnly s) (e : m = .run t) : t.row = t.rows := by
    rw [e] at h
    rw [h.2.2.1.2.2.2, h.2.2.1.2.2.1, hs]
  cases i with
  | init f1 f2 f3 f4 f5 => exact absurd rfl (hi f1 f2 f3 f4 f5)
  | sendCommand f1 f2 f3 f4 f5 => exact bus (cmdStep_from _ _ s) h
  | sendData f1 f2 f3 f4 f5 => exact bus ((busData_from _ (enterPhase .prim s)).after (plain_enterPhase _ s) fun _ h => h) h
  | sendDataBuffer f1 f2 f3 f4 f5 hp => exact bus (busDataIf_from _ _ s) h
  | setWindow f1 f2 f3 f4 f5 =>
    have hf := windowProgram_from s.rx s.ry s.rw s.rh s
    simp only [requestBody] at h
    rw [h] at hf
    rw [hf.2.1.2.2.2, hf.2.1.2.2.1, hs]
  | fillRect f1 f2 f3 f4 f5 => exact fill_run (r := clip (sint16 s.rx) (sint16 s.ry) (sint16 s.rw) (sint16 s.rh)) h
  | fillScreen f1 f2 f3 f4 f5 => exact fill_run (r := some (Config.panelWidth, Config.panelHeight)) h
  | _ =>
    cases h
    exact hs

/-- Where INIT begins its script: SP and INIT_DONE are 0, the stub is known (R130, A17). -/
abbrev initStart (s : State) : State := setSp 0 (setInitDone false (restartStub s))

/-- Everything INIT can do (R130): run its whole script and set INIT_DONE, or end in a transport fault or a reset. -/
theorem initBody_cases (s : State) (hk : s.params.script.length ≤ 255) :
    (∃ u, initBody s = .run (glimpse (setInitDone true u)) ∧ Plain (initStart s) u ∧ ScriptOnly (initStart s) u) ∨
    (∃ t u, initBody s = .ended t ∧ Plain (initStart s) u ∧ ScriptOnly (initStart s) u ∧
      ((∃ f, t = faultState f (afterAnswer u) ∧ u.dc = f.level u.params) ∨
       (¬s.NoReset ∧ (t = cutOff u ∨ ∃ f, t = cutOff (markFault f (afterAnswer u)))))) := by
  have hw : Watched (initStart s) (glimpse (setSp 0 (glimpse (setInitDone false (restartStub s))))) :=
    ((glimpse_watched (setInitDone false (restartStub s))).map (setSp 0) (fun _ _ _ => rfl) rfl rfl).trans (glimpse_watched _)
  have h := (runScript_from s.params.script.length (glimpse (setSp 0 (glimpse (setInitDone false (restartStub s))))) hk).after
    (F := ScriptOnly) (Plain.watched hw) fun t h => h
  unfold initBody
  cases hm : runScript s.params.script.length (glimpse (setSp 0 (glimpse (setInitDone false (restartStub s))))) with
  | run u =>
    rw [hm] at h
    exact .inl ⟨u, rfl, h.1, h.2⟩
  | ended t =>
    rw [hm] at h
    obtain ⟨u, hp, he, h⟩ := h
    exact .inr ⟨t, u, rfl, hp, he, h⟩

end Sys2Proof.Machine
end

