-- ==== Sys2Proof/Laws/PerInstr.lean ====
section
/-! SUPPORT. Statements made per instruction. EncodedForm: the bytes of a well-formed instruction have the form its format gives them. -/

namespace Sys2Proof.Laws.EncodedForm

/-- The form the spec gives the bytes of an item: eleven bytes of request word with whatever the payload port holds (R80), a frame of 1 to
65535 bytes (R86, R93), two or four payload bytes (R88, R89), a serialised record of N + 4 bytes (R84), one command byte (R87). -/
def Form (e : Presented) : Prop :=
  match e.fmt with
  | .hreq88 => 11 ≤ e.bytes.length
  | .frame _ => 1 ≤ e.bytes.length ∧ e.bytes.length ≤ 65535
  | .payload => e.bytes.length = 2 ∨ e.bytes.length = 4
  | .srec => ∃ r : ScriptRecord, e.bytes = serialiseRecord r ∧ e.bytes.length = r.payload.length + 4
  | .cmd8 => e.bytes.length = 1

/-- Every well-formed instruction is encoded in the form its format gives, under all parameters. -/
def Statement (i : Instr) : Prop := ∀ p : Params, wellFormed p i = true → Form (encode p i)

theorem form_record (r : ScriptRecord) : Form ⟨.srec, serialiseRecord r⟩ := ⟨r, rfl, by simp [serialiseRecord, be16]⟩

theorem form_request (op : Byte) (f1 f2 f3 f4 f5 : Half) (hp : List Byte) : Form ⟨.hreq88, requestBytes op f1 f2 f3 f4 f5 ++ hp⟩ := by
  simp [Form, requestBytes, be16]

theorem init (f1 f2 f3 f4 f5 : Half) : Statement (.init f1 f2 f3 f4 f5) := fun _ _ => form_request _ f1 f2 f3 f4 f5 []

theorem sendCommand (f1 f2 f3 f4 f5 : Half) : Statement (.sendCommand f1 f2 f3 f4 f5) := fun _ _ => form_request _ f1 f2 f3 f4 f5 []

theorem sendData (f1 f2 f3 f4 f5 : Half) : Statement (.sendData f1 f2 f3 f4 f5) := fun _ _ => form_request _ f1 f2 f3 f4 f5 []

theorem sendDataBuffer (f1 f2 f3 f4 f5 : Half) (hp : List Byte) : Statement (.sendDataBuffer f1 f2 f3 f4 f5 hp) :=
  fun _ _ => form_request _ f1 f2 f3 f4 f5 hp

theorem setWindow (f1 f2 f3 f4 f5 : Half) : Statement (.setWindow f1 f2 f3 f4 f5) := fun _ _ => form_request _ f1 f2 f3 f4 f5 []

theorem fillRect (f1 f2 f3 f4 f5 : Half) : Statement (.fillRect f1 f2 f3 f4 f5) := fun _ _ => form_request _ f1 f2 f3 f4 f5 []

theorem fillScreen (f1 f2 f3 f4 f5 : Half) : Statement (.fillScreen f1 f2 f3 f4 f5) := fun _ _ => form_request _ f1 f2 f3 f4 f5 []

theorem reservedHostOp (op : Byte) (f1 f2 f3 f4 f5 : Half) : Statement (.reservedHostOp op f1 f2 f3 f4 f5) :=
  fun _ _ => form_request op f1 f2 f3 f4 f5 []

theorem cmdFrame (b : Byte) : Statement (.cmdFrame b) := fun _ _ => by simp [Form, encode]

theorem dataFrame (bs : List Byte) : Statement (.dataFrame bs) := fun _ h => by simpa [Form, encode, wellFormed] using h

theorem addr4 (first last : Half) : Statement (.addr4 first last) := fun _ _ => .inr rfl

theorem pix2 (r : BitVec 5) (g : BitVec 6) (b : BitVec 5) : Statement (.pix2 r g b) := fun _ _ => .inl rfl

theorem srec (opcode : Byte) (payload : List Byte) (delay : Half) : Statement (.srec opcode payload delay) :=
  fun _ _ => form_record _

theorem swreset : Statement .swreset := fun _ _ => rfl
theorem slpout : Statement .slpout := fun _ _ => rfl
theorem noron : Statement .noron := fun _ _ => rfl
theorem dispon : Statement .dispon := fun _ _ => rfl
theorem caset : Statement .caset := fun _ _ => rfl
theorem paset : Statement .paset := fun _ _ => rfl
theorem ramwr : Statement .ramwr := fun _ _ => rfl
theorem madctl : Statement .madctl := fun _ _ => rfl
theorem colmod : Statement .colmod := fun _ _ => rfl
theorem frmctr : Statement .frmctr := fun _ _ => rfl
theorem dfunctr : Statement .dfunctr := fun _ _ => rfl
theorem pwctrA : Statement .pwctrA := fun _ _ => rfl
theorem pwctrB : Statement .pwctrB := fun _ _ => rfl
theorem vmctr : Statement .vmctr := fun _ _ => rfl
theorem pgamctrl : Statement .pgamctrl := fun _ _ => rfl
theorem ngamctrl : Statement .ngamctrl := fun _ _ => rfl
theorem rec0Swreset : Statement .rec0Swreset := fun _ _ => form_record _
theorem rec1Colmod : Statement .rec1Colmod := fun _ _ => form_record _
theorem rec2PwctrA : Statement .rec2PwctrA := fun _ _ => form_record _
theorem rec3PwctrB : Statement .rec3PwctrB := fun _ _ => form_record _
theorem rec4Vmctr : Statement .rec4Vmctr := fun _ _ => form_record _
theorem rec5Slpout : Statement .rec5Slpout := fun _ _ => form_record _
theorem rec6Madctl : Statement .rec6Madctl := fun _ _ => form_record _
theorem rec7Dfunctr : Statement .rec7Dfunctr := fun _ _ => form_record _
theorem rec8Frmctr : Statement .rec8Frmctr := fun _ _ => form_record _
theorem rec9Pgamctrl : Statement .rec9Pgamctrl := fun _ _ => form_record _
theorem rec10Ngamctrl : Statement .rec10Ngamctrl := fun _ _ => form_record _
theorem rec11Slpout : Statement .rec11Slpout := fun _ _ => form_record _
theorem rec12Dispon : Statement .rec12Dispon := fun _ _ => form_record _
theorem rec13Noron : Statement .rec13Noron := fun _ _ => form_record _

end Sys2Proof.Laws.EncodedForm
end

