-- ==== Sys2Proof/Tests/Slice0.lean ====
section
/-! SUPPORT. Tests: ill-formed terms refused, words written out from the spec's encodings decoded, single steps of 95_test_vectors.md, and a
witness for the hypotheses of each statement. V<n> and S<n> name the vectors of spec/95_test_vectors.md. -/

namespace Sys2Proof.Tests

open Sys2Proof.Machine

/-! ## Helpers -/

/-- The reset state with n answers `ok` to come. -/
def ready (n : Nat) : State := { State.reset with answers := List.replicate n .ok }

/-- The reset state with n answers `ok` and then `fault`. -/
def faulting (n : Nat) : State := { State.reset with answers := List.replicate n .ok ++ [.fault] }

/-- A halted state, PHASE and SP as V11 leaves them (V52). -/
def haltedState : State :=
  { State.reset with mode := .halted, faultFlag := true, lastStatus := .fault, sp := 4, phase := .recData, stub := none }

/-- A state in the middle of a request. -/
def busyState : State := { State.reset with mode := .busy, op := 0x06 }

/-- The state after an instruction that answers one. -/
def after (i : Instr) (s : State) : State :=
  match exec i s with
  | .next t => t
  | .fault _ => s
  | .refused _ => s

/-- The state after a step that answers one. -/
def stepped (s : State) : State :=
  match step s with
  | .next t => t
  | .fault _ => s
  | .refused _ => s

theorem answers_ready (n : Nat) : (ready n).AnswersOk n := by
  intro k hk
  simp [State.answerAt, ready, hk]

theorem ready_ready (n : Nat) : (ready n).Ready n := ⟨rfl, rfl, answers_ready n⟩

theorem faulting_faults (n : Nat) : (faulting n).FaultsAt n := by
  refine ⟨fun k hk => ?_, by simp [State.answerAt, faulting]⟩
  simp [State.answerAt, faulting, List.getElem?_append, hk]

/-! ## Ill-formed terms -/

theorem test_illformed_buffer : wellFormed referenceParams (.sendDataBuffer 3 0 0 0 0 [1, 2]) = false := by decide
theorem test_illformed_reserved : wellFormed referenceParams (.reservedHostOp 7 0 0 0 0 0) = false := by decide
theorem test_illformed_reserved_one : wellFormed referenceParams (.reservedHostOp 1 0 0 0 0 0) = false := by decide
theorem test_illformed_data_empty : wellFormed referenceParams (.dataFrame []) = false := by decide
theorem test_illformed_data_long : wellFormed referenceParams (.dataFrame (List.replicate 65536 0)) = false := by
  simp only [wellFormed, List.length_replicate]
  decide
theorem test_illformed_record_long : wellFormed referenceParams (.srec 0x00 (List.replicate 256 0) 0) = false := by
  simp only [wellFormed, List.length_replicate]
  rfl
theorem test_illformed_record_reference : wellFormed referenceParams (.srec 0x3A [0x55] 0) = false := by decide

/-! ## Decoding: every constructor from its word -/

theorem test_decode_requests :
    decodeTableWord 88 0x0100000000000000000000 = some (.init 0 0 0 0 0) ∧
    decodeTableWord 88 0x0200000000000000000029 = some (.sendCommand 0 0 0 0 0x29) ∧
    decodeTableWord 88 0x0300000000000000000055 = some (.sendData 0 0 0 0 0x55) ∧
    decodeTableWord 88 0x0400020003000400050006 = some (.sendDataBuffer 2 3 4 5 6 [0, 0]) ∧
    decodeTableWord 88 0x05000A0014000B00140000 = some (.setWindow 10 20 11 20 0) ∧
    decodeTableWord 88 0x0601C200320064006407E0 = some (.fillRect 450 50 100 100 0x07E0) ∧
    decodeTableWord 88 0x070000000000000000001F = some (.fillScreen 0 0 0 0 0x001F) ∧
    decodeTableWord 88 0x0000000000000000000000 = some (.reservedHostOp 0 0 0 0 0 0) ∧
    decodeTableWord 88 0x0800AA00BB00CC00DD00EE = some (.reservedHostOp 8 0xAA 0xBB 0xCC 0xDD 0xEE) := by decide

theorem test_decode_frames :
    decodeTableWord 9 0x02C = some (.cmdFrame 0x2C) ∧ decodeTableWord 9 0x1F8 = some (.dataFrame [0xF8]) ∧
    decode referenceParams ⟨.frame 1, [0xF8, 0x00, 0xF8, 0x00]⟩ = .ok (.dataFrame [0xF8, 0x00, 0xF8, 0x00]) := ⟨by decide, by decide, rfl⟩

theorem test_decode_payloads :
    decodeTableWord 32 0x01C201DF = some (.addr4 450 479) ∧ decodeTableWord 16 0x07E0 = some (.pix2 0 63 0) ∧
    decodeTableWord 16 0x8410 = some (.pix2 16 32 16) := by decide

theorem test_decode_record : decodeTableWord 48 0xF60201020003 = some (.srec 0xF6 [0x01, 0x02] 3) := by decide

theorem test_decode_commands :
    decodeTableWord 8 0x01 = some .swreset ∧ decodeTableWord 8 0x11 = some .slpout ∧ decodeTableWord 8 0x13 = some .noron ∧
    decodeTableWord 8 0x29 = some .dispon ∧ decodeTableWord 8 0x2A = some .caset ∧ decodeTableWord 8 0x2B = some .paset ∧
    decodeTableWord 8 0x2C = some .ramwr ∧ decodeTableWord 8 0x36 = some .madctl ∧ decodeTableWord 8 0x3A = some .colmod ∧
    decodeTableWord 8 0xB1 = some .frmctr ∧ decodeTableWord 8 0xB6 = some .dfunctr ∧ decodeTableWord 8 0xC0 = some .pwctrA ∧
    decodeTableWord 8 0xC1 = some .pwctrB ∧ decodeTableWord 8 0xC5 = some .vmctr ∧ decodeTableWord 8 0xE0 = some .pgamctrl ∧
    decodeTableWord 8 0xE1 = some .ngamctrl := by decide

theorem test_decode_script :
    decodeTableWord 32 0x01000078 = some .rec0Swreset ∧ decodeTableWord 40 0x3A01550000 = some .rec1Colmod ∧
    decodeTableWord 48 0xC0020E0E0000 = some .rec2PwctrA ∧ decodeTableWord 48 0xC10241000000 = some .rec3PwctrB ∧
    decodeTableWord 64 0xC504000000000000 = some .rec4Vmctr ∧ decodeTableWord 32 0x11000000 = some .rec5Slpout ∧
    decodeTableWord 40 0x3601280000 = some .rec6Madctl ∧ decodeTableWord 56 0xB60300023B0000 = some .rec7Dfunctr ∧
    decodeTableWord 48 0xB102B0110000 = some .rec8Frmctr ∧
    decodeTableWord 152 0xE00F0F1F1C0C0F084898370A1304110D000000 = some .rec9Pgamctrl ∧
    decodeTableWord 152 0xE10F0F322E0B0D054775370610032420000000 = some .rec10Ngamctrl ∧
    decodeTableWord 32 0x11000078 = some .rec11Slpout ∧ decodeTableWord 32 0x29000019 = some .rec12Dispon ∧
    decodeTableWord 32 0x13000000 = some .rec13Noron := by decide

/-- R139 and D10: the first sleep-out before the second one, index K − 4; R134 and R136: a table with another payload is not well formed. -/
theorem test_script_conditions :
    scriptWellFormed { referenceBase with
      script := ((referenceScript referenceBase).eraseIdx 5).insertIdx 10 (recSlpout1 referenceBase) } = true ∧
    scriptWellFormed { referenceBase with
      script := ((referenceScript referenceBase).eraseIdx 5).insertIdx 9 (recSlpout1 referenceBase) } = false ∧
    scriptWellFormed { referenceBase with script := (referenceScript referenceBase).set 1 ⟨0x3A, [0x66], 0⟩ } = false ∧
    scriptWellFormed { referenceBase with script := (referenceScript referenceBase).set 6 ⟨0x36, [], 0⟩ } = false := by decide

/-- The first step after reset runs the instruction placed for it. -/
theorem test_fetch_runs :
    (stepped (State.reset.withFetchWord 88 0x0800AA00BB00CC00DD00EE)).trace = [.done 0x08 .rejected] ∧
    (stepped ((ready 1).withFetchWord 8 0x2C)).primed = true := by decide

/-! ## Single steps -/

theorem test_v1_sendCommand :
    (after (.sendCommand 0 0 0 0 0x0029) (ready 1)).trace = [.cmd 0x29, .done 0x02 .ok] ∧
    (after (.sendCommand 0 0 0 0 0x0029) (ready 1)).primed = false := by decide
theorem test_v3_sendCommand :
    (after (.sendCommand 0xFFFF 0xFFFF 0xFFFF 0xFFFF 0xAB11) (ready 1)).trace = [.cmd 0x11, .done 0x02 .ok] ∧
    (after (.sendCommand 0xFFFF 0xFFFF 0xFFFF 0xFFFF 0xAB11) (ready 1)).rc = 0xAB11 := by decide
theorem test_v4_sendData :
    (after (.sendData 0 0 0 0 0x55) (ready 1)).trace = [.data [0x55], .done 0x03 .ok] ∧
    (after (.sendData 0 0 0 0 0x55) (ready 1)).dc = 1 := by decide
theorem test_v8_fault :
    (after (.sendCommand 0 0 0 0 0x29) (faulting 0)).trace = [.fault (.command 0x29), .done 0x02 .fault] ∧
    (after (.sendCommand 0 0 0 0 0x29) (faulting 0)).phase.code = 10 ∧
    (after (.sendCommand 0 0 0 0 0x29) (faulting 0)).mode = .halted := by decide
theorem test_v5_buffer :
    (after (.sendDataBuffer 4 0 0 0 0 [0xF8, 0, 0xF8, 0]) (ready 1)).trace = [.data [0xF8, 0, 0xF8, 0], .done 0x04 .ok] := by decide
theorem test_v6_buffer :
    (after (.sendDataBuffer 0 0 0 0 0 []) (faulting 0)).trace = [.done 0x04 .ok] ∧
    (after (.sendDataBuffer 0 0 0 0 0 []) (faulting 0)).dc = 0 := by decide

theorem test_v10_init_trace : (after (.init 0 0 0 0 0) (ready 23)).trace =
    [.cmd 0x01, .wait 120, .cmd 0x3A, .data [0x55], .cmd 0xC0, .data [0x0E, 0x0E], .cmd 0xC1, .data [0x41, 0x00], .cmd 0xC5,
     .data [0, 0, 0, 0], .cmd 0x11, .cmd 0x36, .data [0x28], .cmd 0xB6, .data [0x00, 0x02, 0x3B], .cmd 0xB1, .data [0xB0, 0x11],
     .cmd 0xE0, .data [0x0F, 0x1F, 0x1C, 0x0C, 0x0F, 0x08, 0x48, 0x98, 0x37, 0x0A, 0x13, 0x04, 0x11, 0x0D, 0x00],
     .cmd 0xE1, .data [0x0F, 0x32, 0x2E, 0x0B, 0x0D, 0x05, 0x47, 0x75, 0x37, 0x06, 0x10, 0x03, 0x24, 0x20, 0x00],
     .cmd 0x11, .wait 120, .cmd 0x29, .wait 25, .cmd 0x13, .done 0x01 .ok] := by decide
theorem test_v11_init_fault :
    (after (.init 0 0 0 0 0) (faulting 8)).sp = 4 ∧ (after (.init 0 0 0 0 0) (faulting 8)).phase.code = 2 ∧
    (after (.init 0 0 0 0 0) (faulting 8)).trace.drop 9 = [.fault (.data [0, 0, 0, 0]), .done 0x01 .fault] := by decide

theorem test_v20_window :
    (after (.setWindow 50 50 149 149 0) (ready 5)).trace =
      [.cmd 0x2A, .data [0x00, 0x32, 0x00, 0x95], .cmd 0x2B, .data [0x00, 0x32, 0x00, 0x95], .cmd 0x2C, .done 0x05 .ok] ∧
    (after (.setWindow 50 50 149 149 0) (ready 5)).primed = true := by decide
theorem test_v25_window_fault :
    (after (.setWindow 50 50 149 149 0) (faulting 2)).wx1 = 149 ∧ (after (.setWindow 50 50 149 149 0) (faulting 2)).wy1 = 0 ∧
    (after (.setWindow 50 50 149 149 0) (faulting 2)).phase.code = 6 := by decide

theorem test_v36_fill :
    (after (.fillRect 479 319 100 100 0xABCD) (ready 6)).trace =
      [.cmd 0x2A, .data [0x01, 0xDF, 0x01, 0xDF], .cmd 0x2B, .data [0x01, 0x3F, 0x01, 0x3F], .cmd 0x2C, .data [0xAB, 0xCD],
       .done 0x06 .ok] ∧
    (after (.fillRect 479 319 100 100 0xABCD) (ready 6)).rowlen = 2 := by decide
theorem test_v32_v33_fill :
    (after (.fillRect 0xFFFF 0 10 10 0xFFFF) (faulting 0)).trace = [.done 0x06 .ok] ∧
    (after (.fillRect 10 10 5 0xFFFD 0xFFFF) (faulting 0)).trace = [.done 0x06 .ok] := by decide
theorem test_v30_to_v39_clip :
    clip 50 50 100 100 = some (100, 100) ∧ clip 450 50 100 100 = some (30, 100) ∧ clip 0 300 480 100 = some (480, 20) ∧
    clip 400 0 32767 1 = some (80, 1) ∧ clip 470 310 20 20 = some (10, 10) ∧ clip 0 0 32767 32767 = some (480, 320) ∧
    clip 479 0 (-1) 5 = none ∧ clip 100 100 (-32768) 5 = none ∧ clip 32767 0 1 1 = none := by decide
theorem test_v40_fillScreen_fault :
    (after (.fillScreen 1 2 3 4 0xF800) (faulting 4)).trace =
      [.cmd 0x2A, .data [0x00, 0x00, 0x01, 0xDF], .cmd 0x2B, .data [0x00, 0x00, 0x01, 0x3F], .fault (.command 0x2C), .done 0x07 .fault] ∧
    (after (.fillScreen 1 2 3 4 0xF800) (faulting 4)).rh = 4 := by
  refine ⟨?_, ?_⟩ <;> rfl

theorem test_v51_reserved :
    (after (.reservedHostOp 0xFF 1 2 3 4 5) State.reset).trace = [.done 0xFF .rejected] ∧
    (after (.reservedHostOp 0xFF 1 2 3 4 5) State.reset).rc = 5 := by decide
theorem test_v52_halted :
    (after (.fillScreen 0 0 0 0 0xF800) haltedState).trace = [.done 0x07 .rejected] ∧
    (after (.fillScreen 0 0 0 0 0xF800) haltedState).sp = 4 ∧ (after (.init 0 0 0 0 0) haltedState).lastStatus = .rejected := by decide
theorem test_v53_reset :
    (stepped { haltedState with port := [.reset] }).mode = .idle ∧ (stepped { haltedState with port := [.reset] }).sp = 0 ∧
    (stepped { haltedState with port := [.reset] }).trace = [] := by decide

theorem test_cmdFrame : (after (.cmdFrame 0x2C) (ready 1)).primed = true ∧ (after (.cmdFrame 0x2C) (ready 1)).dc = 0 := by decide
theorem test_dataFrame : (after (.dataFrame [0x00, 0x32, 0x00, 0x95]) (ready 1)).trace = [.data [0x00, 0x32, 0x00, 0x95]] := by decide
theorem test_addr4 :
    (after (.addr4 450 479) { ready 1 with phase := .casetC }).wx1 = 479 ∧
    (after (.addr4 450 479) { ready 1 with phase := .pasetC }).wy0 = 450 ∧
    (after (.addr4 450 479) (ready 1)).trace = [.data [0x01, 0xC2, 0x01, 0xDF]] := by decide
theorem test_pix2 : (after (.pix2 31 0 0) (ready 1)).trace = [.data [0xF8, 0x00]] := by decide
theorem test_srec : (after (.srec 0xF6 [1, 2] 3) (ready 2)).trace = [.cmd 0xF6, .data [1, 2], .wait 3] := by decide
theorem test_commands :
    (after .dispon (ready 1)).trace = [.cmd 0x29] ∧ (after .caset (ready 1)).phase.code = 4 ∧ (after .paset (ready 1)).phase.code = 6 ∧
    (after .ramwr (ready 1)).primed = true ∧ (after .madctl haltedState).trace = [] := by decide
theorem test_records :
    (after .rec0Swreset (ready 1)).trace = [.cmd 0x01, .wait 120] ∧ (after .rec6Madctl (ready 2)).sp = 7 ∧
    (after .rec6Madctl (faulting 1)).sp = 6 ∧ (after .rec12Dispon (ready 1)).trace = [.cmd 0x29, .wait 25] := by decide

/-- R32: a read while the third frame of a window program is in flight shows BUSY, PH_PASET_C and the new WX1. -/
theorem test_read_in_flight :
    (after (.setWindow 50 50 149 149 0) { ready 5 with moves := [.proceed, .proceed, .readStatus] }).reads.map
      (fun v => (v.mode, v.phase, v.wx1, v.wy1)) = [(1, 6, 149, 0)] := by decide
/-- R12, R32, R250: two reads and then a reset in the same frame; both reads show it, and it leaves no event (A3). -/
theorem test_reads_then_reset :
    (after (.setWindow 50 50 149 149 0) { ready 5 with moves := [.proceed, .readStatus, .readStatus, .reset] }).reads.map
      (fun v => (v.mode, v.phase)) = [(1, 5), (1, 5)] ∧
    (after (.setWindow 50 50 149 149 0) { ready 5 with moves := [.proceed, .readStatus, .readStatus, .reset] }).trace = [.cmd 0x2A] := by decide
/-- R250: a reset during the delay of the first record: no `Wait` (A3), no `Done`, the controller unknown; and a second reset may follow. -/
theorem test_reset_in_delay :
    (after (.init 0 0 0 0 0) { ready 23 with moves := [.proceed, .reset, .reset] }).trace = [.cmd 0x01] ∧
    (after (.init 0 0 0 0 0) { ready 23 with moves := [.proceed, .reset, .reset] }).stub = none ∧
    (after (.init 0 0 0 0 0) { ready 23 with moves := [.proceed, .reset, .reset] }).moves = [.reset] := by decide

/-- R12, R26, R29: after the memory-write frame of a fill a read shows PRIMED = 1 with the command level on DC and PHASE PH_RAMWR_C. -/
theorem test_read_between :
    (after (.fillRect 479 319 1 1 0xABCD) { ready 6 with moves := List.replicate 5 .proceed ++ [.readBetween] }).reads.map
      (fun v => (v.mode, v.phase, v.primed, v.dc)) = [(1, 8, true, 0)] := by decide
/-- R172: after the column frame a read shows the new WX0 with the old WX1, one write later both. -/
theorem test_read_between_columns :
    (after (.setWindow 50 50 149 149 0)
        { ready 5 with moves := [.proceed, .proceed, .readBetween, .nextWrite, .readBetween] }).reads.map
      (fun v => (v.phase, v.wx0, v.wx1)) = [(5, 50, 0), (5, 50, 149)] := by decide
/-- R8, R250: a reset in the completion of a faulted request, and in that of a rejected one: no `Done`, the block reset. -/
theorem test_reset_in_completion :
    (after (.sendCommand 0 0 0 0 0x29) { faulting 0 with moves := [.proceed, .readStatus, .reset] }).trace = [.fault (.command 0x29)] ∧
    (after (.sendCommand 0 0 0 0 0x29) { faulting 0 with moves := [.proceed, .readStatus, .reset] }).reads.map
      (fun v => (v.mode, v.fault, v.lastStatus)) = [(2, true, 0)] ∧
    (after (.init 0 0 0 0 0) { haltedState with moves := [.reset] }).trace = [] ∧
    (after (.init 0 0 0 0 0) { haltedState with moves := [.reset] }).mode = .idle := by decide

/-! ## The panel stub -/

/-- The flat stream of V22 and the four pixel bytes of V60. -/
def v60 : List Tagged := flat (windowEvents referenceParams 10 20 11 20) ++ [.d 0x12, .d 0x34, .d 0x56, .d 0x78]

theorem test_v60 :
    (Panel.fresh.run referenceParams v60).readback 10 20 11 20 = [some 0x12, some 0x34, some 0x56, some 0x78] ∧
    (Panel.fresh.run referenceParams v60).st = .full ∧ (Panel.fresh.run referenceParams v60).bad = false := by decide
theorem test_v61_v62_v64 :
    (Panel.fresh.run referenceParams (v60 ++ [.d 0x00])).bad = true ∧
    (Panel.fresh.run referenceParams (flat (windowEvents referenceParams 10 20 11 20) ++ [.d 0x12, .c 0x29])).bad = true ∧
    (Panel.fresh.run referenceParams [.d 0x55]).bad = true := by decide
/-- R255, U9: what was drawn before INIT is not claimed after it. -/
theorem test_init_forgets :
    ((panelView (after (.init 0 0 0 0 0) { ready 23 with stub := some (Panel.fresh.run referenceParams v60) })).map
      (fun q => (q.pixel? 10 20))) = some none ∧ (Panel.fresh.run referenceParams v60).pixel? 10 20 = some 0x1234 := by decide
/-- A26: a column outside the panel reads as unknown. -/
theorem test_readback_outside : ((Panel.fresh.setPixel 0 1 0x12 0x34).pixelBytes 480 0) = [none, none] := by decide
theorem test_v23_v24 :
    (Panel.fresh.run referenceParams (flat (windowEvents referenceParams 149 50 50 149))).bad = true ∧
    (Panel.fresh.run referenceParams (flat (windowEvents referenceParams 0 0 480 320))).bad = true := by decide

/-! ## Witnesses: states and operands that meet the hypotheses of each statement, at the ends of their ranges -/

theorem reference_valid : referenceParams.Valid := by decide

theorem witness_DecodeOfEncode :
    referenceParams.Valid ∧ wellFormed referenceParams (.sendDataBuffer 1 0 0 0 0 [0x55]) = true ∧
    wellFormed referenceParams (.sendDataBuffer 0 0 0 0 0 []) = true ∧ wellFormed referenceParams (.reservedHostOp 0 1 2 3 4 5) = true ∧
    wellFormed referenceParams (.reservedHostOp 8 1 2 3 4 5) = true ∧ wellFormed referenceParams (.reservedHostOp 0xFF 1 2 3 4 5) = true ∧
    wellFormed referenceParams (.dataFrame [0]) = true ∧ wellFormed referenceParams (.srec 0x3A [0x55] 1) = true ∧
    wellFormed referenceParams (.srec 0 [] 0xFFFF) = true := by decide
theorem witness_DecodeOfEncode_longest : wellFormed referenceParams (.dataFrame (List.replicate 65535 0)) = true := by
  simp only [wellFormed, List.length_replicate]
  decide
theorem witness_EncodeOfDecode :
    decode referenceParams ⟨.frame 1, [0x2C]⟩ = .ok (.dataFrame [0x2C]) ∧ decode referenceParams ⟨.payload, [0xF8, 0x00]⟩ = .ok (.pix2 31 0 0) :=
  ⟨rfl, rfl⟩
theorem witness_EncodeOfDecode_wellFormed : decode referenceParams ⟨.srec, [0x3A, 0x01, 0x55, 0x00, 0x00]⟩ = .ok .rec1Colmod := rfl
theorem witness_HostOperationCodes :
    ([0xF8, 0x00] : List Byte).length = (2 : Half).toNat ∧ ((0 : Byte) = 0 ∨ 8 ≤ (0 : Byte).toNat) ∧ ((8 : Byte) = 0 ∨ 8 ≤ (8 : Byte).toNat) ∧
    State.reset.mode ≠ .busy ∧ haltedState.mode ≠ .busy ∧ State.reset.moves = [] ∧ haltedState.moves = [] := by decide
theorem witness_RecordSerialisation :
    (⟨0x3A, [0x55], 0⟩ : ScriptRecord).payload.length ≤ 255 ∧ (∀ r ∈ referenceParams.script, r.payload.length ≤ 255) ∧
    parseRecord [0x01, 0x00, 0x00, 0x78] = some ⟨0x01, [], 120⟩ := by decide
theorem witness_StepRunsDecoded :
    decode (State.reset.withFetchWord 8 0x29).params ⟨.cmd8, [0x29]⟩ = .ok .dispon ∧ (State.reset.withFetchWord 8 0x29).port = [.item ⟨.cmd8, [0x29]⟩] ∧
    State.reset.port = [] ∧ decode referenceParams ⟨.frame 0, []⟩ = .error .commandFrameLength := ⟨rfl, rfl, rfl, rfl⟩
theorem witness_ResetEvent : ({ haltedState with port := [.reset] } : State).port = .reset :: [] := rfl
theorem witness_ResetCutsOff :
    (∀ pre ∈ [[], [HostMove.readBetween, .readStatus, .readStatus], [HostMove.readStatus, .proceed, .nextWrite, .readStatus]],
      ({ ready 1 with moves := pre ++ [.reset] } : State).mode ≠ .busy ∧ HostMove.reset ∉ pre ∧
      (0x02, Instr.sendCommand 0 0 0 0 0x29) ∈ hostRequests 0 [] 0 0 0 0 0x29 ∧ pre.count .proceed ≤ [Event.cmd 0x29].length ∧
      (after (.sendCommand 0 0 0 0 0x29) { ready 1 with moves := pre }).trace = (ready 1).trace ++ [.cmd 0x29] ++ [.done 0x02 .ok] ∧
      (after (.sendCommand 0 0 0 0 0x29) { ready 1 with moves := pre }).lastStatus = .ok) ∧
    (after (.sendCommand 0 0 0 0 0x29) { faulting 0 with moves := [.proceed] }).trace =
      (faulting 0).trace ++ [.fault (.command 0x29)] ++ [.done 0x02 .fault] ∧
    (after (.sendCommand 0 0 0 0 0x29) { faulting 0 with moves := [.proceed] }).lastStatus = .fault ∧
    (after (.fillScreen 0 0 0 0 0) { haltedState with moves := [.readStatus] }).trace = haltedState.trace ++ [] ++ [.done 0x07 .rejected] ∧
    (after (.fillScreen 0 0 0 0 0) { haltedState with moves := [.readStatus] }).lastStatus = .rejected := by decide
theorem witness_ReadsChangeNothing : ({ ready 1 with moves := [.readStatus, .proceed, .readBetween, .nextWrite] } : State).NoReset := by decide
theorem witness_StatusPortReads :
    ({ State.reset with port := [.readStatus] } : State).port = .readStatus :: [] ∧
    (windowFrames (ready 4).params 50 50 149 149)[4]? = some (.ramwrC, .command 0x2C) ∧ (ready 4).AnswersOk 4 ∧
    State.reset.params.script = [] ++ recSwreset referenceParams :: State.reset.params.script.drop 1 ∧
    (recordPhases (recSwreset referenceParams))[1]? = some .recWait ∧ (ready 1).AnswersOk (scriptFrames [] + min 1 1) ∧
    DrawingFill 478 318 9 9 0xABCD 0x06 (.fillRect 478 318 9 9 0xABCD) 478 318 2 2 ∧ (ready 6).AnswersOk (5 + 1) ∧
    DrawingFill 1 2 3 4 5 0x07 (.fillScreen 1 2 3 4 5) 0 0 480 320 := by decide
theorem witness_StatusPortBetween :
    (∀ r ∈ (hostRequests 0 [9] 1 2 3 4 5).take 7, Presentable (ready 6) r.2 ∧ 1 ≤ r.1.toNat ∧ r.1.toNat ≤ 7) ∧
    (ready 6).mode = .idle ∧ (ready 6).AnswersOk (6 + 0) ∧ (ready 5).AnswersOk 5 ∧ (ready 4).AnswersOk 4 ∧ (ready 2).AnswersOk 2 ∧
    DrawingFill 478 318 9 9 0xABCD 0x06 (.fillRect 478 318 9 9 0xABCD) 478 318 2 2 ∧
    DrawingFill 1 2 3 4 5 0x07 (.fillScreen 1 2 3 4 5) 0 0 480 320 ∧
    State.reset.params.script = [] ++ recSwreset referenceParams :: State.reset.params.script.drop 1 ∧
    State.reset.params.script = State.reset.params.script.take 13 ++ recNoron referenceParams :: [] ∧
    (ready 23).AnswersOk (scriptFrames (State.reset.params.script.take 13) + recordFrames (recNoron referenceParams)) :=
  ⟨by decide, by decide, by decide, by decide, by decide, by decide, by decide, by decide, by decide, by decide, answers_ready 23⟩
theorem witness_RejectedRequests :
    (0x07, Instr.fillScreen 1 2 3 4 5) ∈ hostRequests 0 [] 1 2 3 4 5 ∧ Presentable haltedState (.fillScreen 1 2 3 4 5) ∧
    haltedState.mode = .halted ∧ haltedState.moves = [] ∧ haltedState.NoReset ∧ State.reset.mode = .idle ∧ State.reset.moves = [] := by decide
theorem witness_RejectedRequests_halted : ∃ t, exec .dispon haltedState = .next t := ⟨_, rfl⟩
theorem witness_Acceptance :
    (0x06, Instr.fillRect 1 2 3 4 5) ∈ hostRequests 0 [] 1 2 3 4 5 ∧ Presentable busyState (.fillRect 1 2 3 4 5) ∧
    busyState.mode = .busy ∧ State.reset.mode ≠ .busy ∧ State.reset.NoReset ∧ isHostRequest .dispon = false := by decide
theorem witness_ExactlyOneCompletion :
    (0x04, Instr.sendDataBuffer 1 2 3 4 5 [9]) ∈ hostRequests 8 [9] 1 2 3 4 5 ∧ Presentable State.reset (.sendDataBuffer 1 2 3 4 5 [9]) ∧
    (8, Instr.reservedHostOp 8 1 2 3 4 5) ∈ hostRequests 8 [9] 1 2 3 4 5 ∧ Presentable haltedState (.reservedHostOp 8 1 2 3 4 5) ∧
    State.reset.mode ≠ .busy ∧ haltedState.mode ≠ .busy := by decide
theorem witness_FaultEntry :
    (0x02, Instr.sendCommand 0 0 0 0 0x29) ∈ hostRequests 0 [] 0 0 0 0 0x29 ∧ (faulting 0).mode = .idle ∧ (faulting 0).moves = [] ∧
    (after (.sendCommand 0 0 0 0 0x29) (faulting 0)).mode = .halted ∧ (after (.init 0 0 0 0 0) (faulting 22)).mode = .halted := by decide
theorem witness_HaltedLeftOnlyByReset :
    (∃ t, step (haltedState.withFetchWord 8 0x29) = .next t) ∧ (haltedState.withFetchWord 8 0x29).NoReset ∧
    (haltedState.withFetchWord 8 0x29).mode = .halted := ⟨⟨_, rfl⟩, by decide, rfl⟩

/-- One frame that runs, one that faults: all hypotheses of SendCommandRuns, SendDataRuns, CommandFrame, DataFrame, Addr4Payload and
PixelPayload, and those of SendDataBufferRuns, ControllerCommands, RecordExecuted and TableRecords on the state. -/
theorem witness_one_frame : (ready 1).Ready 1 ∧ (faulting 0).FaultsAt 0 ∧ (faulting 0).mode = .idle ∧ (faulting 0).moves = [] ∧
    (ready 1).answerAt 0 = .ok ∧ (faulting 0).answerAt 0 = .fault ∧ busyState.mode ≠ .halted := by decide
theorem witness_SendDataBufferRuns :
    (ready 1).Ready 1 ∧ (faulting 0).FaultsAt 0 ∧ ([0xF8] : List Byte).length = (1 : Half).toNat ∧ ([0xF8] : List Byte) ≠ [] ∧ ([] : List Byte).length = (0 : Half).toNat := by decide
theorem witness_SendDataBufferRuns_longest : (List.replicate 65535 (0 : Byte)).length = (0xFFFF : Half).toNat := by
  rw [List.length_replicate]
  rfl
theorem witness_PayloadPortLength : ([1, 2] : List Byte).length ≠ (1 : Half).toNat ∧ ([1] : List Byte).length ≠ (2 : Half).toNat ∧ (0x05 : Byte) ≠ 0x04 := by decide
theorem witness_ControllerCommands :
    (Instr.ramwr, Phase.ramwrC, (0x2C : Byte)) ∈ controllerCommands (ready 1).params ∧
    (Instr.swreset, Phase.recCmd, (0x01 : Byte)) ∈ controllerCommands (ready 1).params ∧ (ready 1).mode ≠ .halted ∧
    (ready 1).moves = [] ∧ (ready 1).answerAt 0 = .ok ∧ (faulting 0).answerAt 0 = .fault := by decide
theorem witness_RecordExecuted :
    (ready 2).AnswersOk (recordFrames ⟨0xF6, [1, 2], 3⟩) ∧ (recordSteps ⟨0xF6, [1, 2], 3⟩)[0]? = some (.recCmd, .command 0xF6) ∧
    (recordSteps ⟨0xF6, [1, 2], 3⟩)[1]? = some (.recData, .data [1, 2]) ∧ (faulting 0).FaultsAt 0 ∧ (faulting 1).FaultsAt 1 := by decide
theorem witness_TableRecords :
    (Instr.rec13Noron, 13, (⟨0x13, [], 0⟩ : ScriptRecord)) ∈ scriptRecords (ready 1).params ∧
    (Instr.rec6Madctl, 6, (⟨0x36, [0x28], 0⟩ : ScriptRecord)) ∈ scriptRecords (faulting 1).params ∧
    (recordSteps ⟨0x36, [0x28], 0⟩)[1]? = some (.recData, .data [0x28]) ∧ (faulting 1).FaultsAt 1 := by decide
theorem witness_InitCompletes :
    (ready 23).params.script.length ≤ 255 ∧ scriptFrames (ready 23).params.script = 23 ∧ (ready 23).Ready 23 := ⟨by decide, by decide, ready_ready 23⟩
theorem witness_InitCompletes_tooLong :
    255 < ({ State.reset with params := { referenceParams with script := List.replicate 256 ⟨0x29, [], 0⟩ } } : State).params.script.length := by
  simp only [List.length_replicate]
  decide
theorem witness_InitFaultLocation :
    State.reset.params.script = [] ++ recSwreset referenceParams :: State.reset.params.script.drop 1 ∧
    State.reset.params.script = State.reset.params.script.take 10 ++ recNgamctrl referenceParams :: State.reset.params.script.drop 11 ∧
    (recordSteps (recSwreset referenceParams))[0]? = some (.recCmd, .command 0x01) ∧ (faulting 0).FaultsAt (scriptFrames [] + 0) ∧
    ((recordSteps (recNgamctrl referenceParams))[1]?).isSome = true ∧
    scriptFrames (State.reset.params.script.take 10) + 1 = 19 ∧ (faulting 19).FaultsAt 19 := by decide
theorem witness_InitDoneMeaning : (∃ t, exec (.init 0 0 0 0 0) (ready 23) = .next t) ∧ (∃ t, exec (.init 0 0 0 0 0) (faulting 0) = .next t) ∧
    ∃ t, exec .dispon (ready 1) = .next t := ⟨⟨_, rfl⟩, ⟨_, rfl⟩, ⟨_, rfl⟩⟩
theorem witness_DelaySumFloor : scriptWellFormed (ready 23).params = true ∧ (ready 23).Ready (scriptFrames (ready 23).params.script) :=
  ⟨by decide, ready_ready 23⟩
theorem witness_WellFormedScriptUnprimed : referenceParams.Valid ∧ scriptWellFormed referenceParams = true ∧ (ready 23).params = referenceParams := by decide
theorem witness_LogicalOperations :
    (ready 23).params.script.length ≤ 255 ∧ (ready 23).Ready (scriptFrames (ready 23).params.script) ∧ (ready 7).Ready (5 + 2) ∧
    DrawingFill 478 318 9 9 0xABCD 0x06 (.fillRect 478 318 9 9 0xABCD) 478 318 2 2 ∧ (ready 5).Ready 5 :=
  ⟨by decide, ready_ready 23, ready_ready 7, by decide, ready_ready 5⟩
theorem witness_InitIsItsRecords : State.reset.params.script = referenceScript State.reset.params := by decide
/-- SetWindowCompletes, WindowProgramBytes, SetWindowFault where nothing faults, SetWindowIsItsMicroSteps. -/
theorem witness_SetWindow : (ready 5).Ready 5 := ready_ready 5
theorem witness_SetWindowFault :
    (windowFrames (faulting 0).params 50 50 149 149)[0]? = some (.casetC, .command 0x2A) ∧ (faulting 0).FaultsAt 0 ∧ (faulting 0).mode = .idle ∧
    (windowFrames (faulting 4).params 50 50 149 149)[4]? = some (.ramwrC, .command 0x2C) ∧ (faulting 4).FaultsAt 4 := by decide
theorem witness_ClipRule : (0 : Int) ≤ 479 ∧ (479 : Int) < 480 ∧ (0 : Int) ≤ 319 ∧ (319 : Int) < 320 ∧ (0 : Int) < 1 := by decide
/-- FillRectDraws, RowBufferPacked, PixelCountExact. -/
theorem witness_FillRectDraws :
    clip (479 : Half).toInt (319 : Half).toInt (100 : Half).toInt (100 : Half).toInt = some (1, 1) ∧ (ready 6).Ready (5 + 1) ∧
    clip (0 : Half).toInt (0 : Half).toInt (0x7FFF : Half).toInt (0x7FFF : Half).toInt = some (480, 320) := ⟨by decide, ready_ready 6, by decide⟩
/-- FillScreenCompletes, and FillRectDraws, RowBufferPacked, PixelCountExact and FillPaintsWindow for the whole panel. -/
theorem witness_full_screen : (ready 325).Ready 325 := ready_ready 325
theorem witness_FillRectNothing :
    (0xFFFF : Half).toInt < 0 ∧ 480 ≤ (480 : Half).toInt ∧ 320 ≤ (320 : Half).toInt ∧ (0 : Half).toInt ≤ 0 ∧ (0x8000 : Half).toInt ≤ 0 := by decide
theorem witness_FillFault :
    DrawingFill 0 0 2 2 0xABCD 0x06 (.fillRect 0 0 2 2 0xABCD) 0 0 2 2 ∧ DrawingFill 1 2 3 4 5 0x07 (.fillScreen 1 2 3 4 5) 0 0 480 320 ∧
    (windowFrames (faulting 0).params 0 0 1 1)[0]? = some (.casetC, .command 0x2A) ∧ (faulting 0).FaultsAt 0 ∧
    (windowFrames (faulting 4).params 0 0 1 1)[4]? = some (.ramwrC, .command 0x2C) ∧ (faulting 4).FaultsAt 4 ∧
    bound (0 + (2 : Nat) - 1) = (1 : Half) ∧ (faulting 5).FaultsAt (5 + 0) ∧ (faulting 6).FaultsAt (5 + 1) := by decide
theorem witness_FillScreenIsFillRect : (faulting 324).mode = .idle ∧ (faulting 324).NoReset ∧ (ready 325).mode = .idle := by decide
theorem witness_WindowThenBufferIsFill :
    clip (478 : Half).toInt (318 : Half).toInt (9 : Half).toInt (9 : Half).toInt = some (2, 2) ∧ (8 : Half).toNat = 2 * 2 * 2 ∧ (ready 7).Ready (5 + 2) :=
  ⟨by decide, by decide, ready_ready 7⟩
theorem witness_FillPaintsWindow : (ready 6).stub = some Panel.fresh ∧ (ready 6).params.WindowOpcodesDistinct ∧
    clip (479 : Half).toInt (319 : Half).toInt (100 : Half).toInt (100 : Half).toInt = some (1, 1) ∧ (ready 6).Ready (5 + 1) :=
  ⟨by decide, by decide, by decide, ready_ready 6⟩
theorem witness_FillScreenReadback :
    (ready 325).stub = some Panel.fresh ∧ Panel.fresh.Settled ∧ (ready 325).params.WindowOpcodesDistinct ∧ (ready 325).Ready 325 :=
  ⟨by decide, by decide, by decide, ready_ready 325⟩
theorem witness_WindowStreamRowMajor :
    (ready 6).stub = some Panel.fresh ∧ Panel.fresh.Settled ∧ (ready 6).params.WindowOpcodesDistinct ∧ WindowValid 10 20 11 20 ∧
    ([0x1234, 0x5678] : List Half).length = ((11 : Half).toNat + 1 - (10 : Half).toNat) * ((20 : Half).toNat + 1 - (20 : Half).toNat) ∧
    (4 : Half).toNat = 2 * ([0x1234, 0x5678] : List Half).length ∧ WindowValid 479 319 479 319 ∧ (ready 6).Ready 6 :=
  ⟨by decide, by decide, by decide, by decide, by decide, by decide, by decide, ready_ready 6⟩
theorem witness_BringUpThenPaint :
    (ready 348).params.Valid ∧ scriptWellFormed (ready 348).params = true ∧ (ready 348).faultFlag = false ∧
    (ready 348).Ready (scriptFrames (ready 348).params.script + 325) ∧ (ready 348).initDone = false ∧
    (∀ q, ({ ready 348 with initDone := true } : State).stub = some q → q.Settled) ∧ (ready 23).Ready (scriptFrames (ready 23).params.script) :=
  ⟨by decide, by decide, rfl, ready_ready 348, rfl, fun _ h => by cases h; decide, ready_ready 23⟩
theorem witness_StepKeepsInv : ∃ t, step State.reset = .next t := ⟨_, rfl⟩
theorem witness_ParametersAndTrace : ∃ t, step ((ready 1).withFetchWord 8 0x2C) = .next t := ⟨_, rfl⟩
theorem witness_FrameBus :
    (∃ t, exec (.sendCommand 0 0 0 0 0x29) (faulting 0) = .next t) ∧ (∃ t, exec (.sendDataBuffer 1 0 0 0 0 [5]) (ready 1) = .next t) ∧
    (∃ t, exec (.reservedHostOp 8 0 0 0 0 0) haltedState = .next t) ∧ (∃ t, exec (.dataFrame [1]) (ready 1) = .next t) ∧
    (∃ t, exec (.srec 0xF6 [1, 2] 3) (faulting 1) = .next t) ∧ ∃ t, exec .ramwr (ready 1) = .next t :=
  ⟨⟨_, rfl⟩, ⟨_, rfl⟩, ⟨_, rfl⟩, ⟨_, rfl⟩, ⟨_, rfl⟩, ⟨_, rfl⟩⟩
/-- The second clause of FrameBus. -/
theorem witness_FrameBus_primed :
    (∃ t, exec (.sendData 0 0 0 0 0x55) (ready 1) = .next t ∧ t.mode ≠ .halted) ∧
    (∃ t, exec (.pix2 31 0 0) (faulting 0) = .next t ∧ t.mode = .halted) ∧ (faulting 0).mode ≠ .halted :=
  ⟨⟨_, rfl, by decide⟩, ⟨_, rfl, by decide⟩, by decide⟩
theorem witness_FrameBringUp :
    (∃ t, exec (.init 0 0 0 0 0) (faulting 22) = .next t) ∧ (Instr.rec13Noron, 13, (⟨0x13, [], 0⟩ : ScriptRecord)) ∈ scriptRecords (ready 1).params ∧
    ∃ t, exec .rec13Noron (ready 1) = .next t := ⟨⟨_, rfl⟩, by decide, ⟨_, rfl⟩⟩
theorem witness_FrameRaster :
    (∃ t, exec (.setWindow 149 50 50 149 0) (ready 5) = .next t) ∧ (∃ t, exec (.addr4 450 479) { ready 1 with phase := .casetC } = .next t) ∧
    (∃ t, exec (.fillRect 479 319 1 1 0xABCD) (ready 6) = .next t) ∧ (∃ t, exec (.fillRect 480 0 10 10 0xFFFF) (faulting 0) = .next t) ∧
    clip (480 : Half).toInt (0 : Half).toInt (10 : Half).toInt (10 : Half).toInt = none ∧
    ∃ t, exec (.fillScreen 0 0 0 0 0x001F) (faulting 0) = .next t := ⟨⟨_, rfl⟩, ⟨_, rfl⟩, ⟨_, rfl⟩, ⟨_, rfl⟩, by decide, ⟨_, rfl⟩⟩
theorem witness_FrameMemoryKeptOutside :
    (∃ t, exec (.setWindow 149 50 50 149 0) (ready 5) = .next t ∧ t.stub ≠ none) ∧
    (∃ t, exec .rec9Pgamctrl (ready 2) = .next t ∧ t.stub ≠ none) ∧ (ready 2).params.Valid ∧
    (∃ t, exec (.srec 0xF6 [1, 2] 3) (ready 2) = .next t ∧ t.stub ≠ none) ∧ (0xF6 : Byte) ≠ (ready 2).params.opRamwr :=
  ⟨⟨_, rfl, by decide⟩, ⟨_, rfl, by decide⟩, by decide, ⟨_, rfl, by decide⟩, by decide⟩

/-- A stub in the middle of the first pixel of the window of V22. -/
def midWindow : Panel := Panel.fresh.run referenceParams (flat (windowEvents referenceParams 10 20 11 20) ++ [.d 0x12])

theorem witness_FrameMemoryKeptOutside_data :
    midWindow.Inv ∧ midWindow.st = .write 10 20 (some 0x12) ∧ midWindow.window? = some (10, 20, 11, 20) ∧
    (∃ t q', exec (.sendData 0 0 0 0 0x34) { ready 1 with stub := some midWindow } = .next t ∧ t.stub = some q') ∧
    (∀ px py h, Panel.fresh.st ≠ .write px py h) :=
  ⟨Panel.run_inv _ _ Panel.fresh_inv, by decide, by decide, ⟨_, _, rfl, rfl⟩, fun _ _ _ h => by cases h⟩

end Sys2Proof.Tests
end

section
/-! What the host's reads of the status port cannot change (R12, R32): every operation of the block, run from a state whose moves hold no
reset, does what it does from the same state with the host's moves taken out and any readings put in. -/

namespace Sys2Proof.Machine

/-! ## The step (R11, R80) -/

/-- Settles O6, through what `fetch` finds on the port. -/
theorem stepRunsDecoded : Obligations.StepRunsDecoded := by
  refine ⟨fun s e rest i hp hd => ?_, fun s hp => ?_, fun s e rest why hp hd => ?_⟩
  · have hf : fetch s = .instr i { s with port := rest } := by simp only [fetch, hp, hd]
    simp only [step, hf]
  · have hf : fetch s = .nothing := by simp only [fetch, hp]
    simp only [step, hf]
  · have hf : fetch s = .malformed why := by simp only [fetch, hp, hd]
    simp only [step, hf]

/-! ## Functions that take no notice of the host -/

/-- The host's moves and readings set in either outcome of micro-steps. -/
def Micro.setHost (ms : List HostMove) (rs : List StatusPort) : Micro → Micro
  | .run s => .run (Machine.setHost ms rs s)
  | .ended s => .ended (Machine.setHost ms rs s)

theorem Micro.state_setHost (ms : List HostMove) (rs : List StatusPort) (m : Micro) :
    (m.setHost ms rs).state = Machine.setHost ms rs m.state := by
  cases m <;> rfl

/-- Without a reset to come, g leaves the same registers whatever the host does meanwhile, and no reset still to come. -/
def Unseen (g : State → State) : Prop :=
  ∀ s, s.NoReset → (∀ rs, g (setHost [] rs s) = setHost [] rs (g s)) ∧ (g s).NoReset

/-- The same of micro-steps, from one state. -/
def BlindAt (k : State → Micro) (s : State) : Prop :=
  (∀ rs, k (setHost [] rs s) = (k s).setHost [] rs) ∧ (k s).state.NoReset

/-- The same of micro-steps, from every state without a reset to come. -/
def Blind (k : State → Micro) : Prop := ∀ s, s.NoReset → BlindAt k s

/-- A register write that neither looks at the host's moves and readings nor changes them. -/
abbrev OffHost (g : State → State) : Prop := ∀ ms rs s, g (setHost ms rs s) = setHost ms rs (g s)

theorem OffHost.moves {g : State → State} (hg : OffHost g) (s : State) : (g s).moves = s.moves :=
  (congrArg State.moves (hg s.moves s.reads s) :)

theorem OffHost.reads {g : State → State} (hg : OffHost g) (s : State) : (g s).reads = s.reads :=
  (congrArg State.reads (hg s.moves s.reads s) :)

theorem Unseen.write {g : State → State} (hg : OffHost g) : Unseen g := fun s hs =>
  ⟨fun rs => hg [] rs s, by rwa [State.NoReset, hg.moves]⟩

theorem Unseen.comp {g h : State → State} (hg : Unseen g) (hh : Unseen h) : Unseen fun s => g (h s) := fun s hs =>
  ⟨fun rs => (congrArg g ((hh s hs).1 rs)).trans ((hg _ (hh s hs).2).1 rs), (hg _ (hh s hs).2).2⟩

theorem Unseen.glimpse : Unseen glimpse := fun s hs =>
  ⟨fun rs => glimpse_nil (setHost [] rs s) rfl, (Plain.glimpse s).noReset hs⟩

/-- A register write and the host's look at it. -/
theorem Unseen.seenWrite {g : State → State} (hg : OffHost g) :
    Unseen fun s => Machine.glimpse (g s) := Unseen.glimpse.comp (.write hg)

theorem Unseen.run {g : State → State} (hg : Unseen g) : Blind fun s => .run (g s) := fun s hs =>
  ⟨fun rs => congrArg Micro.run ((hg s hs).1 rs), (hg s hs).2⟩

theorem Unseen.ended {g : State → State} (hg : Unseen g) : Blind fun s => .ended (g s) := fun s hs =>
  ⟨fun rs => congrArg Micro.ended ((hg s hs).1 rs), (hg s hs).2⟩

theorem Blind.comp {k : State → Micro} {g : State → State} (hk : Blind k) (hg : Unseen g) : Blind fun s => k (g s) := fun s hs =>
  ⟨fun rs => (congrArg k ((hg s hs).1 rs)).trans ((hk _ (hg s hs).2).1 rs), (hk _ (hg s hs).2).2⟩

theorem Blind.state {k : State → Micro} (hk : Blind k) : Unseen fun s => (k s).state := fun s hs =>
  ⟨fun rs => (congrArg Micro.state ((hk s hs).1 rs)).trans (Micro.state_setHost [] rs (k s)), (hk s hs).2⟩

/-- One operation after another. -/
theorem Blind.andThen {k l : State → Micro} (hk : Blind k) (hl : Blind l) : Blind fun s => (k s).andThen l := fun s hs => by
  obtain ⟨he, hn⟩ := hk s hs
  simp only [BlindAt, he]
  cases hks : k s with
  | ended t => exact ⟨fun _ => rfl, by rwa [hks] at hn⟩
  | run t => exact hl t (by rwa [hks] at hn)

/-- A branch of a definition: k' does from s, whatever the host does, what k does. -/
theorem Blind.branch {k k' : State → Micro} {s : State} (hk : Blind k) (hs : s.NoReset)
    (h : ∀ ms rs, k' (setHost ms rs s) = k (setHost ms rs s)) : BlindAt k' s := by
  have hks : k' s = k s := h s.moves s.reads
  simp only [BlindAt, h, hks]
  exact hk s hs

/-- A function of a register that the host does not write. -/
theorem Blind.ofRegister {α : Type} {f : State → α} {k : α → State → Micro} (hk : ∀ a, Blind (k a))
    (hf : ∀ ms rs s, f (setHost ms rs s) = f s) : Blind fun s => k (f s) s := fun s hs =>
  (hk (f s)).branch hs fun ms rs => congrArg (fun a => k a (setHost ms rs s)) (hf ms rs s)

/-- A micro-step in progress: without a reset it runs on with some moves behind it. -/
theorem Blind.inProgress {k : State → Micro} (hk : Blind k) : Blind (inProgress k) := fun s hs => by
  rcases inProgress_cases k s with ⟨m, rs, h, _⟩ | ⟨m, rs, h, _, e⟩
  · exact absurd hs (reset_next h)
  · obtain ⟨he, hn⟩ := hk (setHost m rs s) fun hm => hs (h.subset hm)
    simp only [BlindAt, e]
    exact ⟨fun rs' => (inProgress_nil k (setHost [] rs' s) rfl).trans (he rs'), hn⟩

/-! ## The operations of the block -/

theorem complete_unseen {w : State → State} (hw : Unseen w) : Unseen (complete w) := hw.ended.inProgress.state

theorem enterPhase_unseen (ph : Phase) : Unseen (enterPhase ph) := .seenWrite (g := setPhase ph) fun _ _ _ => rfl

theorem writeColumns_unseen (x0 x1 : Half) : Unseen (writeColumns x0 x1) :=
  (Unseen.seenWrite (g := fun s => { s with wx1 := x1 }) fun _ _ _ => rfl).comp
    (.seenWrite (g := fun s => { s with wx0 := x0 }) fun _ _ _ => rfl)

theorem writeRows_unseen (y0 y1 : Half) : Unseen (writeRows y0 y1) :=
  (Unseen.seenWrite (g := fun s => { s with wy1 := y1 }) fun _ _ _ => rfl).comp
    (.seenWrite (g := fun s => { s with wy0 := y0 }) fun _ _ _ => rfl)

theorem writeRowCounts_unseen (l n : Half) : Unseen (writeRowCounts l n) :=
  (Unseen.seenWrite (g := fun s => { s with row := 0 }) fun _ _ _ => rfl).comp
    ((Unseen.seenWrite (g := fun s => { s with rows := n }) fun _ _ _ => rfl).comp
      (.seenWrite (g := fun s => { s with rowlen := l }) fun _ _ _ => rfl))

theorem packRow_unseen (cw ch : Nat) (c : Half) : Unseen (packRow cw ch c) :=
  (writeRowCounts_unseen _ _).comp
    (.write (g := fun s => { s with rowbuf := Memory.writeList s.rowbuf 0 (rowBytes cw c) }) fun _ _ _ => rfl)

theorem halting_unseen : Unseen halting :=
  (Unseen.seenWrite (g := fun s => { s with faultFlag := true, mode := .halted }) fun _ _ _ => rfl).comp
    (.seenWrite (g := fun s => { s with primed := false }) fun _ _ _ => rfl)

theorem completing_unseen : Unseen completing :=
  (Unseen.seenWrite (g := fun s => { s with mode := .idle }) fun _ _ _ => rfl).comp
    (.seenWrite (g := fun s => { s with phase := .none }) fun _ _ _ => rfl)

theorem driveCmd_unseen : Unseen driveCmd :=
  (Unseen.write (g := fun s => { s with primed := false }) fun _ _ _ => rfl).comp
    (.seenWrite (g := fun s => { s with dc := s.params.dcCmd }) fun _ _ _ => rfl)

/-- A frame answered `fault`, with the exception and its completion (R222). -/
theorem faulted_blind (f : Frame) : Blind fun s => .ended (raiseFault f (afterAnswer s)) :=
  Unseen.ended (((complete_unseen (.write (g := faultEntry) fun _ _ _ => rfl)).comp halting_unseen).comp
    (.write (g := fun s => markFault f (afterAnswer s)) fun _ _ _ => rfl))

theorem transferCmd_blind (b : Byte) : Blind (transferCmd b) := fun s hs => by
  cases ha : s.answerAt 0 with
  | ok =>
    exact (Unseen.run (.seenWrite (g := fun s => setPrimed (primedAfter s.params b) (s.sent [.cmd b] 1)) fun _ _ _ => rfl)).branch hs
      fun ms rs => transferCmd_ok b (setHost ms rs s) ha
  | fault => exact (faulted_blind (.command b)).branch hs fun ms rs => transferCmd_fault b (setHost ms rs s) ha

theorem transferData_blind (bs : List Byte) : Blind (transferData bs) := fun s hs => by
  cases ha : s.answerAt 0 with
  | ok =>
    exact (Unseen.run (.write (g := fun s => s.sent [.data bs] 1) fun _ _ _ => rfl)).branch hs
      fun ms rs => transferData_ok bs (setHost ms rs s) ha
  | fault => exact (faulted_blind (.data bs)).branch hs fun ms rs => transferData_fault bs (setHost ms rs s) ha

theorem busCmd_blind (b : Byte) : Blind (busCmd b) := (transferCmd_blind b).inProgress.comp driveCmd_unseen

theorem busData_blind (bs : List Byte) : Blind (busData bs) :=
  (transferData_blind bs).inProgress.comp (.write (g := driveData) fun _ _ _ => rfl)

theorem run_blind : Blind .run := Unseen.run (.write (g := id) fun _ _ _ => rfl)

theorem busDataIf_blind (ph : Phase) (bs : List Byte) : Blind (busDataIf ph bs) := by
  by_cases hb : bs = []
  · exact fun s hs => run_blind.branch hs fun ms rs => if_pos hb
  · exact fun s hs => ((busData_blind bs).comp (enterPhase_unseen ph)).branch hs fun ms rs => if_neg hb

theorem delayFor_blind (n : Half) : Blind (delayFor n) := (Unseen.run (.write (g := emit (.wait n)) fun _ _ _ => rfl)).inProgress

theorem cmdStep_blind (ph : Phase) (b : Byte) : Blind (cmdStep ph b) := (busCmd_blind b).comp (enterPhase_unseen ph)

theorem execRecord_blind (r : ScriptRecord) : Blind (execRecord r) := by
  refine (cmdStep_blind .recCmd r.opcode).andThen ((busDataIf_blind .recData r.payload).andThen ?_)
  by_cases hd : r.delay = 0
  · exact fun s hs => run_blind.branch hs fun ms rs => if_pos hd
  · exact fun s hs => ((delayFor_blind r.delay).comp (enterPhase_unseen .recWait)).branch hs fun ms rs => if_neg hd

theorem runScript_blind (n : Nat) : Blind (runScript n) := by
  induction n with
  | zero => exact run_blind
  | succ n ih =>
    intro s hs
    cases hf : fetchRecord s with
    | none => exact run_blind.branch hs fun ms rs => by rw [runScript, show fetchRecord (setHost ms rs s) = none from hf]
    | some r =>
      have hn : Blind fun s => runScript n (glimpse (setSp (s.sp + 1) s)) :=
        ih.comp (.seenWrite (g := fun s => setSp (s.sp + 1) s) fun _ _ _ => rfl)
      exact ((execRecord_blind r).andThen hn).branch hs fun ms rs => by
        rw [runScript, show fetchRecord (setHost ms rs s) = some r from hf]

theorem scriptStep_blind (i : Byte) (r : ScriptRecord) : Blind (scriptStep i r) :=
  ((execRecord_blind r).comp (.seenWrite (g := setSp i) fun _ _ _ => rfl)).andThen
    (Unseen.run (.seenWrite (g := setSp (i + 1)) fun _ _ _ => rfl))

theorem columnData_blind (x0 x1 : Half) : Blind (columnData x0 x1) :=
  ((busData_blind _).comp (enterPhase_unseen .casetD)).andThen (writeColumns_unseen x0 x1).run

theorem rowData_blind (y0 y1 : Half) : Blind (rowData y0 y1) :=
  ((busData_blind _).comp (enterPhase_unseen .pasetD)).andThen (writeRows_unseen y0 y1).run

/-- A command frame whose byte the block holds. -/
theorem cmdStep_register_blind (ph : Phase) (b : State → Byte) (hb : ∀ ms rs s, b (setHost ms rs s) = b s) :
    Blind fun s => cmdStep ph (b s) s := .ofRegister (cmdStep_blind ph) hb

theorem windowProgram_blind (x0 y0 x1 y1 : Half) : Blind (windowProgram x0 y0 x1 y1) :=
  (cmdStep_register_blind .casetC (·.params.opCaset) fun _ _ _ => rfl).andThen ((columnData_blind x0 x1).andThen
    ((cmdStep_register_blind .pasetC (·.params.opPaset) fun _ _ _ => rfl).andThen ((rowData_blind y0 y1).andThen
      (cmdStep_register_blind .ramwrC (·.params.opRamwr) fun _ _ _ => rfl))))

theorem rowWrite_blind : Blind rowWrite :=
  (Blind.ofRegister (f := fun s => rowRead s.rowbuf s.rowlen.toNat) (fun bs => (busData_blind bs).comp (enterPhase_unseen .rowD))
    fun _ _ _ => rfl).andThen (Unseen.run (.seenWrite (g := countRow) fun _ _ _ => rfl))

theorem rowLoop_blind (n : Nat) : Blind (rowLoop n) := by
  induction n with
  | zero => exact run_blind
  | succ n ih => exact rowWrite_blind.andThen ih

theorem fill_blind (r : Option (Nat × Nat)) (x y : Int) (c : Half) : Blind (fill r x y c) := by
  cases r with
  | none => exact (writeRowCounts_unseen 0 0).run
  | some size => exact ((windowProgram_blind _ _ _ _).comp (packRow_unseen size.1 size.2 c)).andThen (rowLoop_blind size.2)

theorem initBody_blind : Blind initBody :=
  (Blind.ofRegister (f := fun s => s.params.script.length)
    (fun n => (runScript_blind n).comp ((Unseen.seenWrite (g := setSp 0) fun _ _ _ => rfl).comp
      (.seenWrite (g := fun s => setInitDone false (restartStub s)) fun _ _ _ => rfl)))
    fun _ _ _ => rfl).andThen (Unseen.run (.seenWrite (g := setInitDone true) fun _ _ _ => rfl))

theorem finish_unseen {k : State → Micro} (hk : Blind k) : Unseen fun s => finish (k s) := by
  have hf : Unseen fun s => complete completeOk (completing s) :=
    (complete_unseen (.write (g := completeOk) fun _ _ _ => rfl)).comp completing_unseen
  have hfinish (m : Micro) : (m.andThen fun s => .ended (complete completeOk (completing s))).state = finish m := by cases m <;> rfl
  simpa only [hfinish] using (hk.andThen hf.ended).state

/-- Whatever a host request does after its acceptance. -/
theorem requestBody_blind (i : Instr) : Blind (requestBody i) := by
  cases i with
  | init => exact initBody_blind
  | sendCommand => exact cmdStep_register_blind .prim byteOperand fun _ _ _ => rfl
  | sendData =>
    exact .ofRegister (f := byteOperand) (fun b => (busData_blind [b]).comp (enterPhase_unseen .prim)) fun _ _ _ => rfl
  | sendDataBuffer _ _ _ _ _ hp => exact busDataIf_blind .prim hp
  | setWindow =>
    exact .ofRegister (f := fun s => (s.rx, s.ry, s.rw, s.rh)) (fun w => windowProgram_blind w.1 w.2.1 w.2.2.1 w.2.2.2) fun _ _ _ => rfl
  | fillRect =>
    exact .ofRegister (f := fun s => (s.rx, s.ry, s.rw, s.rh, s.rc))
      (fun w => fill_blind (clip (sint16 w.1) (sint16 w.2.1) (sint16 w.2.2.1) (sint16 w.2.2.2.1)) (sint16 w.1) (sint16 w.2.1)
        w.2.2.2.2) fun _ _ _ => rfl
  | fillScreen => exact .ofRegister (f := State.rc) (fill_blind (some (Config.panelWidth, Config.panelHeight)) 0 0) fun _ _ _ => rfl
  | _ => exact run_blind

/-- Whatever a row below the host interface does. -/
theorem microBody_blind (i : Instr) : Blind (microBody i) := by
  cases i with
  | cmdFrame b => exact busCmd_blind b
  | dataFrame bs => exact .ofRegister (f := State.phase) (busDataIf_blind · bs) fun _ _ _ => rfl
  | addr4 first last =>
    intro s hs
    by_cases hc : s.phase = .casetC
    · exact (columnData_blind first last).branch hs fun ms rs => if_pos hc
    by_cases hp : s.phase = .pasetC
    · exact (rowData_blind first last).branch hs fun ms rs => (if_neg hc).trans (if_pos hp)
    · exact (busData_blind _).branch hs fun ms rs => (if_neg hc).trans (if_neg hp)
  | pix2 => exact busData_blind _
  | srec => exact execRecord_blind _
  | swreset | slpout | noron | dispon | caset | paset | ramwr | madctl | colmod | frmctr | dfunctr | pwctrA | pwctrB | vmctr
  | pgamctrl | ngamctrl => exact .ofRegister (f := State.params) (fun _ => cmdStep_blind _ _) fun _ _ _ => rfl
  | rec0Swreset | rec1Colmod | rec2PwctrA | rec3PwctrB | rec4Vmctr | rec5Slpout | rec6Madctl | rec7Dfunctr | rec8Frmctr
  | rec9Pgamctrl | rec10Ngamctrl | rec11Slpout | rec12Dispon | rec13Noron =>
    exact .ofRegister (f := State.params) (fun _ => scriptStep_blind _ _) fun _ _ _ => rfl
  | init | sendCommand | sendData | sendDataBuffer | setWindow | fillRect | fillScreen | reservedHostOp => exact run_blind

/-! ## Instructions (R82, R230, R231) -/

/-- What a meaning answers, watched and unwatched: a next state and the same without the host's part. -/
def AlikeUnwatched (f : State → Result) (s : State) : Prop := ∃ t, f s = .next t ∧ f s.unwatched = .next t.unwatched

theorem Unseen.alikeUnwatched {g : State → State} (hg : Unseen g) {f : State → Result} {s : State} (hs : s.NoReset)
    (h : f s = .next (g s)) (h' : f s.unwatched = .next (g s.unwatched)) : AlikeUnwatched f s :=
  ⟨g s, h, h'.trans (congrArg Host.Outcome.next ((hg s hs).1 []))⟩

theorem micro_alikeUnwatched {body : State → Micro} (hb : Blind body) {s : State} (hs : s.NoReset) : AlikeUnwatched (micro body) s := by
  have hu : s.unwatched.mode = s.mode := rfl
  cases hm : s.mode with
  | halted =>
    exact (Unseen.write (g := id) fun _ _ _ => rfl).alikeUnwatched hs (by simp only [micro, hm, id]) (by simp only [micro, hu, hm, id])
  | idle | busy => exact hb.state.alikeUnwatched hs (by simp only [micro, hm]) (by simp only [micro, hu, hm])

theorem reject_unseen (op : Byte) (f1 f2 f3 f4 f5 : Half) : Unseen fun s => reject op (loadOperands f1 f2 f3 f4 f5 s) :=
  (complete_unseen (.write (g := rejected op) fun _ _ _ => rfl)).comp (.write (g := loadOperands f1 f2 f3 f4 f5) fun _ _ _ => rfl)

/-- An accepted request, from its acceptance to its completion. -/
theorem accepted_unseen {body : State → Micro} (hb : Blind body) (op : Byte) (f1 f2 f3 f4 f5 : Half) :
    Unseen fun s => finish (body (glimpse (beginRequest op (loadOperands f1 f2 f3 f4 f5 s)))) :=
  finish_unseen (hb.comp (.seenWrite (g := fun s => beginRequest op (loadOperands f1 f2 f3 f4 f5 s)) fun _ _ _ => rfl))

theorem request_alikeUnwatched {body : State → Micro} (hb : Blind body) (op : Byte) (f1 f2 f3 f4 f5 : Half) {s : State}
    (hs : s.NoReset) : AlikeUnwatched (request op f1 f2 f3 f4 f5 body) s := by
  have hu : s.unwatched.mode = s.mode := rfl
  cases hm : s.mode with
  | busy =>
    exact (Unseen.write (g := id) fun _ _ _ => rfl).alikeUnwatched hs (by simp only [request, hm, id])
      (by simp only [request, hu, hm, id])
  | halted =>
    exact (reject_unseen op f1 f2 f3 f4 f5).alikeUnwatched hs (by simp only [request, hm]) (by simp only [request, hu, hm])
  | idle =>
    exact (accepted_unseen hb op f1 f2 f3 f4 f5).alikeUnwatched hs (by simp only [request, hm]) (by simp only [request, hu, hm])

theorem reserved_alikeUnwatched (op : Byte) (f1 f2 f3 f4 f5 : Half) {s : State} (hs : s.NoReset) :
    AlikeUnwatched (exec (.reservedHostOp op f1 f2 f3 f4 f5)) s := by
  have hu : s.unwatched.mode = s.mode := rfl
  by_cases hm : s.mode = .busy
  · exact (Unseen.write (g := id) fun _ _ _ => rfl).alikeUnwatched hs (by simp only [exec_reserved, hm, if_true, id])
      (by simp only [exec_reserved, hu, hm, if_true, id])
  · exact (reject_unseen op f1 f2 f3 f4 f5).alikeUnwatched hs (by simp only [exec_reserved, hm, if_false])
      (by simp only [exec_reserved, hu, hm, if_false])

/-- Settles O10: no operation takes notice of the host's reads, and the two stops do not look at them. -/
theorem readsChangeNothing : Obligations.ReadsChangeNothing := by
  intro i s hs
  have alike (h : AlikeUnwatched (exec i) s) : exec i s.unwatched = match exec i s with
      | .next t => .next t.unwatched
      | .fault f => .fault f
      | .refused r => .refused r := by
    obtain ⟨t, e, e'⟩ := h
    rw [e, e']
  cases i with
  | init f1 f2 f3 f4 f5 =>
    by_cases hk : s.params.script.length ≤ Config.maxScript
    · refine alike ?_
      obtain ⟨t, e, e'⟩ := request_alikeUnwatched initBody_blind 0x01 f1 f2 f3 f4 f5 hs
      exact ⟨t, (if_pos hk).trans e, (if_pos hk).trans e'⟩
    · have stop (u : State) (hu : u.params = s.params) : exec (.init f1 f2 f3 f4 f5) u = .fault .scriptTooLong :=
        if_neg (hu ▸ hk)
      rw [stop s rfl, stop s.unwatched rfl]
  | sendDataBuffer f1 f2 f3 f4 f5 hp =>
    by_cases hl : hp.length = f1.toNat
    · refine alike ?_
      obtain ⟨t, e, e'⟩ := request_alikeUnwatched (busDataIf_blind .prim hp) 0x04 f1 f2 f3 f4 f5 hs
      exact ⟨t, (if_pos hl).trans e, (if_pos hl).trans e'⟩
    · have stop (u : State) : exec (.sendDataBuffer f1 f2 f3 f4 f5 hp) u = .refused .payloadPort := if_neg hl
      rw [stop s, stop s.unwatched]
  | sendCommand f1 f2 f3 f4 f5 =>
    exact alike (request_alikeUnwatched (requestBody_blind (.sendCommand f1 f2 f3 f4 f5)) 0x02 f1 f2 f3 f4 f5 hs)
  | sendData f1 f2 f3 f4 f5 =>
    exact alike (request_alikeUnwatched (requestBody_blind (.sendData f1 f2 f3 f4 f5)) 0x03 f1 f2 f3 f4 f5 hs)
  | setWindow f1 f2 f3 f4 f5 =>
    exact alike (request_alikeUnwatched (requestBody_blind (.setWindow f1 f2 f3 f4 f5)) 0x05 f1 f2 f3 f4 f5 hs)
  | fillRect f1 f2 f3 f4 f5 =>
    exact alike (request_alikeUnwatched (requestBody_blind (.fillRect f1 f2 f3 f4 f5)) 0x06 f1 f2 f3 f4 f5 hs)
  | fillScreen f1 f2 f3 f4 f5 =>
    exact alike (request_alikeUnwatched (requestBody_blind (.fillScreen f1 f2 f3 f4 f5)) 0x07 f1 f2 f3 f4 f5 hs)
  | reservedHostOp op f1 f2 f3 f4 f5 => exact alike (reserved_alikeUnwatched op f1 f2 f3 f4 f5 hs)
  | _ =>
    refine alike ?_
    obtain ⟨t, e, e'⟩ := micro_alikeUnwatched (microBody_blind _) hs
    exact ⟨t, (exec_micro rfl s).trans e, (exec_micro rfl s.unwatched).trans e'⟩

end Sys2Proof.Machine
end

section
/-! What the host's reads show (R12, R26, R32): where the host lets some micro-steps go on and then reads after a register write, every one
of its readings shows the registers as that write left them, and nothing later is read. -/

namespace Sys2Proof.Machine

/-! ## Nothing more is read where the host has no moves left -/

theorem Unseen.quiet {g : State → State} (hg : Unseen g) {s : State} (hm : s.moves = []) : (g s).reads = s.reads := by
  have hs : s.NoReset := by simp [State.NoReset, hm]
  have h := (hg s hs).1 s.reads
  rw [← hm] at h
  exact (congrArg State.reads h :)

/-! ## Where a micro-step ends in the host's moves -/

/-- Micro-steps begun with the readings rs, where they run to their end, leave the moves ms, and n readings more, which show the registers as
they are then. -/
def Observed (rs : List StatusPort) (m : Micro) (ms : List HostMove) (n : Nat) : Prop :=
  ∀ t, m = .run t → t.moves = ms ∧ t.reads = rs ++ List.replicate n (readStatus t)

/-- The host does not look on between two micro-steps: it lets the next one go on, or has no moves left. -/
abbrev State.Waits (s : State) : Prop := readsBetween s.moves = (0, s.moves)

@[simp] theorem readsBetween_replicate (n : Nat) : readsBetween (List.replicate n HostMove.readBetween) = (n, []) := by
  induction n with
  | zero => rfl
  | succ n ih => simp [List.replicate_succ, readsBetween, ih]

theorem glimpse_waits {s : State} (h : s.Waits) : glimpse s = s := by
  unfold glimpse
  rw [h]
  simp only [List.replicate_zero, List.append_nil]
  rfl

theorem Observed.run (s : State) : Observed s.reads (.run s) s.moves 0 := by
  rintro t ⟨⟩
  simp

theorem Observed.ended {rs : List StatusPort} {u : State} {ms : List HostMove} {n : Nat} : Observed rs (.ended u) ms n := by
  rintro t ⟨⟩

/-- The moment after a register write. -/
theorem Observed.glimpse (u : State) : Observed u.reads (.run (glimpse u)) (readsBetween u.moves).2 (readsBetween u.moves).1 := by
  rintro t ⟨⟩
  exact ⟨rfl, rfl⟩

/-- One operation after another, none of them read before the last. -/
theorem Observed.andThen {rs : List StatusPort} {m : Micro} {k : State → Micro} {ms ms' : List HostMove} {n : Nat}
    (hm : Observed rs m ms 0) (hk : ∀ t, m = .run t → t.moves = ms → Observed t.reads (k t) ms' n) :
    Observed rs (m.andThen k) ms' n := by
  cases m with
  | ended t => exact Observed.ended
  | run t =>
    obtain ⟨hms, hrs⟩ := hm t rfl
    rw [List.replicate_zero, List.append_nil] at hrs
    exact hrs ▸ hk t rfl hms

/-- k reads n times at its end, and l goes on from there with no moves of the host left: the readings are those n, of the registers that k
leaves where the host does nothing. -/
theorem Observed.shown {k l : State → Micro} {s x : State} {n : Nat} (ho : Observed s.reads (k s) [] n) (hk : Blind k) (hl : Blind l)
    (hs : s.NoReset) (hx : k (setHost [] s.reads s) = .run x) :
    (finish ((k s).andThen l)).reads = s.reads ++ List.replicate n (readStatus x) := by
  rw [(hk s hs).1] at hx
  cases hks : k s with
  | ended t => rw [hks] at hx; cases hx
  | run t =>
    rw [hks] at hx
    cases hx
    obtain ⟨hm, hr⟩ := ho t hks
    exact ((finish_unseen hl).quiet hm).trans hr

/-! ## The micro-steps (R112, R113, R232) -/

theorem inProgress_proceed (k : State → Micro) {s : State} {ms : List HostMove} (h : s.moves = .proceed :: ms) :
    inProgress k s = k (setHost ms s.reads s) := by
  unfold inProgress
  rw [h]
  rfl

theorem waits_of_proceed {s : State} {ms : List HostMove} (h : s.moves = .proceed :: ms) : s.Waits := by
  rw [State.Waits, h]
  rfl

theorem enterPhase_waits (ph : Phase) {s : State} (h : s.Waits) : enterPhase ph s = setPhase ph s :=
  glimpse_waits (s := setPhase ph s) h

theorem busCmd_observed (b : Byte) {s : State} {ms : List HostMove} (h : s.moves = .proceed :: ms) :
    Observed s.reads (busCmd b s) (readsBetween ms).2 (readsBetween ms).1 := by
  have hd : driveCmd s = drivenCmd s := by
    unfold driveCmd
    rw [glimpse_waits (s := { s with dc := s.params.dcCmd }) (waits_of_proceed h)]
    rfl
  unfold busCmd
  rw [hd, inProgress_proceed _ (s := drivenCmd s) h, drivenCmd_reads]
  cases ha : s.answerAt 0 with
  | ok =>
    rw [transferCmd_ok b (setHost ms s.reads (drivenCmd s)) ha]
    exact Observed.glimpse (setPrimed (primedAfter s.params b) ((setHost ms s.reads (drivenCmd s)).sent [.cmd b] 1))
  | fault =>
    rw [transferCmd_fault b (setHost ms s.reads (drivenCmd s)) ha]
    exact Observed.ended

theorem busData_observed (bs : List Byte) {s : State} {ms : List HostMove} (h : s.moves = .proceed :: ms) :
    Observed s.reads (busData bs s) ms 0 := by
  unfold busData
  rw [inProgress_proceed _ (s := driveData s) h, driveData_reads]
  cases ha : s.answerAt 0 with
  | ok =>
    rw [transferData_ok bs (setHost ms s.reads (driveData s)) ha]
    exact Observed.run ((setHost ms s.reads (driveData s)).sent [.data bs] 1)
  | fault =>
    rw [transferData_fault bs (setHost ms s.reads (driveData s)) ha]
    exact Observed.ended

theorem delayFor_observed (d : Half) {s : State} {ms : List HostMove} (h : s.moves = .proceed :: ms) :
    Observed s.reads (delayFor d s) ms 0 := by
  unfold delayFor
  rw [inProgress_proceed _ h]
  exact Observed.run (emit (.wait d) (setHost ms s.reads s))

theorem cmdStep_observed (ph : Phase) (b : Byte) {s : State} {ms : List HostMove} (h : s.moves = .proceed :: ms) :
    Observed s.reads (cmdStep ph b s) (readsBetween ms).2 (readsBetween ms).1 := by
  unfold cmdStep
  rw [enterPhase_waits ph (waits_of_proceed h)]
  exact busCmd_observed b (s := setPhase ph s) h

/-- A data frame in the micro-step `ph` names. -/
theorem dataStep_observed (ph : Phase) (bs : List Byte) {s : State} {ms : List HostMove} (h : s.moves = .proceed :: ms) :
    Observed s.reads (busData bs (enterPhase ph s)) ms 0 := by
  rw [enterPhase_waits ph (waits_of_proceed h)]
  exact busData_observed bs (s := setPhase ph s) h

/-! ## Two writes, with the host looking on after one of them -/

/-- Of the writes g and h those up to the moment j. -/
def writesUntil (j : Nat) (g h : State → State) (s : State) : State :=
  if j = 0 then glimpse (g s) else glimpse (h (glimpse (g s)))

/-- The write left after the moment j. -/
def writesAfter (j : Nat) (h : State → State) (s : State) : State := if j = 0 then glimpse (h s) else s

theorem writesAfter_writesUntil (j : Nat) (g h : State → State) (s : State) :
    writesAfter j h (writesUntil j g h s) = glimpse (h (glimpse (g s))) := by
  by_cases hj : j = 0 <;> simp [writesAfter, writesUntil, hj]

theorem writesAfter_unseen (j : Nat) {h : State → State} (hh : OffHost h) : Unseen (writesAfter j h) := by
  by_cases hj : j = 0
  · have e : writesAfter j h = fun s => glimpse (h s) := funext fun s => if_pos hj
    exact e ▸ .seenWrite hh
  · have e : writesAfter j h = fun s => s := funext fun s => if_neg hj
    exact e ▸ .write fun _ _ _ => rfl

theorem writesUntil_unseen (j : Nat) {g h : State → State} (hg : OffHost g) (hh : OffHost h) : Unseen (writesUntil j g h) := by
  by_cases hj : j = 0
  · have e : writesUntil j g h = fun s => glimpse (g s) := funext fun s => if_pos hj
    exact e ▸ .seenWrite hg
  · have e : writesUntil j g h = fun s => glimpse (h (glimpse (g s))) := funext fun s => if_neg hj
    exact e ▸ (Unseen.seenWrite hh).comp (.seenWrite hg)

/-- The host reads after a register write. -/
theorem Observed.write {g : State → State} (hg : OffHost g) {s : State} {n : Nat}
    (hm : s.moves = List.replicate n HostMove.readBetween) :
    Observed s.reads (.run (Machine.glimpse (g s))) [] n := by
  have ho := Observed.glimpse (g s)
  rwa [hg.moves, hg.reads, hm, readsBetween_replicate] at ho

/-- The host lets the block go on to its next register write. -/
theorem glimpse_nextWrite {s : State} {ms : List HostMove} (hm : s.moves = .nextWrite :: ms) : glimpse s = setHost ms s.reads s := by
  unfold glimpse
  rw [hm]
  simp only [readsBetween, List.replicate_zero, List.append_nil]

/-- The host lets the block go on to the moment j and reads there. -/
theorem writesUntil_observed {j : Nat} {g h : State → State} (hg : OffHost g) (hh : OffHost h) (hj : j ≤ 1) {s : State} {n : Nat}
    (hm : s.moves = List.replicate j HostMove.nextWrite ++ List.replicate n HostMove.readBetween) :
    Observed s.reads (.run (writesUntil j g h s)) [] n := by
  obtain rfl | rfl : j = 0 ∨ j = 1 := by omega
  · exact Observed.write hg hm
  · show Observed s.reads (.run (glimpse (h (glimpse (g s))))) [] n
    rw [glimpse_nextWrite ((hg.moves s).trans hm), ← hg.reads s]
    exact Observed.write hh rfl

/-- Where the host does nothing, the writes are all that happens. -/
theorem writesUntil_nil (j : Nat) {g h : State → State} {s : State} (hg : (g s).moves = []) (hh : (h (g s)).moves = []) :
    writesUntil j g h s = if j = 0 then g s else h (g s) := by
  unfold writesUntil
  rw [glimpse_nil _ hg, glimpse_nil _ hh]

/-! ## The window program (R171, R172) -/

/-- A command frame and its address payload, before the window registers are written (R171). -/
def addressStep (phC : Phase) (b : Params → Byte) (phD : Phase) (bs : List Byte) (s : State) : Micro :=
  (cmdStep phC (b s.params) s).andThen fun s => busData bs (enterPhase phD s)

/-- The state after it. -/
def addressSent (b : Params → Byte) (phD : Phase) (bs : List Byte) (s : State) : State :=
  { s.sent [.cmd (b s.params), .data bs] 2 with
    phase := phD, dc := s.params.dcData, primed := primedAfter s.params (b s.params) }

/-- The memory-write command of a window program (R171). -/
def memoryWriteStep (s : State) : Micro := cmdStep .ramwrC s.params.opRamwr s

/-- The column address of a window program, before WX0 and WX1 are written. -/
abbrev columnStep (x0 x1 : Half) : State → Micro := addressStep .casetC (·.opCaset) .casetD (addr4Bytes x0 x1)

/-- The row address of a window program, before WY0 and WY1 are written. -/
abbrev rowStep (y0 y1 : Half) : State → Micro := addressStep .pasetC (·.opPaset) .pasetD (addr4Bytes y0 y1)

/-- A window program after its columns. -/
def rowsAndMemoryWrite (y0 y1 : Half) (s : State) : Micro :=
  (rowStep y0 y1 s).andThen fun s => memoryWriteStep (writeRows y0 y1 s)

theorem andThen_assoc (m : Micro) (k l : State → Micro) : (m.andThen k).andThen l = m.andThen fun s => (k s).andThen l := by
  cases m <;> rfl

theorem windowProgram_eq (x0 y0 x1 y1 : Half) (s : State) :
    windowProgram x0 y0 x1 y1 s =
      (columnStep x0 x1 s).andThen fun s => rowsAndMemoryWrite y0 y1 (writeColumns x0 x1 s) := by
  simp only [windowProgram, columnData, rowData, rowsAndMemoryWrite, addressStep, andThen_assoc, andThen_run]
  rfl

theorem addressStep_blind (phC : Phase) (b : Params → Byte) (phD : Phase) (bs : List Byte) : Blind (addressStep phC b phD bs) :=
  (cmdStep_register_blind phC (fun s => b s.params) fun _ _ _ => rfl).andThen ((busData_blind bs).comp (enterPhase_unseen phD))

theorem memoryWriteStep_blind : Blind memoryWriteStep := cmdStep_register_blind .ramwrC (·.params.opRamwr) fun _ _ _ => rfl

theorem rowsAndMemoryWrite_blind (y0 y1 : Half) : Blind (rowsAndMemoryWrite y0 y1) :=
  (addressStep_blind _ _ _ _).andThen (memoryWriteStep_blind.comp (writeRows_unseen y0 y1))

theorem addressStep_ok (phC : Phase) (b : Params → Byte) (phD : Phase) (bs : List Byte) {s : State} (hr : s.moves = [])
    (ha : s.AnswersOk 2) : addressStep phC b phD bs s = .run (addressSent b phD bs s) := by
  have h0 := ha 0 (by omega)
  have h1 := ha 1 (by omega)
  simp [addressStep, cmdStep, busCmd_ok, busData_ok, hr, h0, h1]
  ext1 <;> simp [addressSent, hr, ← consumed_append]

theorem addressStep_observed (phC : Phase) (b : Params → Byte) (phD : Phase) (bs : List Byte) {s : State} {ms : List HostMove}
    (h : s.moves = .proceed :: .proceed :: ms) : Observed s.reads (addressStep phC b phD bs s) ms 0 :=
  Observed.andThen (ms := .proceed :: ms) (cmdStep_observed phC _ h) fun _ _ ht => dataStep_observed phD bs ht

theorem writeColumns_waits (x0 x1 : Half) {s : State} (h : s.Waits) : writeColumns x0 x1 s = setColumns x0 x1 s := by
  unfold writeColumns
  rw [glimpse_waits (s := { s with wx0 := x0 }) h]
  exact glimpse_waits (s := setColumns x0 x1 s) h

theorem writeRows_waits (y0 y1 : Half) {s : State} (h : s.Waits) : writeRows y0 y1 s = setRows y0 y1 s := by
  unfold writeRows
  rw [glimpse_waits (s := { s with wy0 := y0 }) h]
  exact glimpse_waits (s := setRows y0 y1 s) h

theorem windowProgram_observed (x0 y0 x1 y1 : Half) {s : State} {ms : List HostMove}
    (h : s.moves = List.replicate 5 HostMove.proceed ++ ms) :
    Observed s.reads (windowProgram x0 y0 x1 y1 s) (readsBetween ms).2 (readsBetween ms).1 := by
  rw [windowProgram_eq]
  refine (addressStep_observed _ _ _ _ h).andThen fun t _ ht => ?_
  rw [writeColumns_waits x0 x1 (waits_of_proceed ht)]
  refine (addressStep_observed _ _ _ _ (s := setColumns x0 x1 t) ht).andThen fun u _ hu => ?_
  rw [writeRows_waits y0 y1 (waits_of_proceed hu)]
  exact cmdStep_observed _ _ (s := setRows y0 y1 u) hu

/-- An address step and the window registers written after it, up to the moment j between the writes g and h. -/
def addressUntil (j : Nat) (phC : Phase) (b : Params → Byte) (phD : Phase) (bs : List Byte) (g h : State → State)
    (s : State) : Micro :=
  (addressStep phC b phD bs s).andThen fun s => .run (writesUntil j g h s)

theorem addressUntil_andThen (j : Nat) (phC : Phase) (b : Params → Byte) (phD : Phase) (bs : List Byte) (g h : State → State)
    (k : State → Micro) (s : State) :
    ((addressUntil j phC b phD bs g h s).andThen fun s => k (writesAfter j h s)) =
      (addressStep phC b phD bs s).andThen fun s => k (glimpse (h (glimpse (g s)))) := by
  simp only [addressUntil, andThen_assoc, andThen_run, writesAfter_writesUntil]

theorem addressUntil_blind (j : Nat) (phC : Phase) (b : Params → Byte) (phD : Phase) (bs : List Byte) {g h : State → State}
    (hg : OffHost g) (hh : OffHost h) : Blind (addressUntil j phC b phD bs g h) :=
  (addressStep_blind phC b phD bs).andThen (writesUntil_unseen j hg hh).run

theorem addressUntil_observed {j : Nat} (phC : Phase) (b : Params → Byte) (phD : Phase) (bs : List Byte) {g h : State → State}
    (hg : OffHost g) (hh : OffHost h) (hj : j ≤ 1) {s : State} {n : Nat}
    (hm : s.moves = .proceed :: .proceed :: (List.replicate j HostMove.nextWrite ++ List.replicate n HostMove.readBetween)) :
    Observed s.reads (addressUntil j phC b phD bs g h s) [] n :=
  (addressStep_observed phC b phD bs hm).andThen fun _ _ ht => writesUntil_observed hg hh hj ht

theorem addressUntil_ok (j : Nat) (phC : Phase) (b : Params → Byte) (phD : Phase) (bs : List Byte) {g h : State → State}
    (hg : OffHost g) (hh : OffHost h) {s : State} (hr : s.moves = []) (ha : s.AnswersOk 2) :
    addressUntil j phC b phD bs g h s =
      .run (if j = 0 then g (addressSent b phD bs s) else h (g (addressSent b phD bs s))) := by
  have hgm : (g (addressSent b phD bs s)).moves = [] := (hg.moves _).trans hr
  rw [addressUntil, addressStep_ok phC b phD bs hr ha, andThen_run, writesUntil_nil j hgm ((hh.moves _).trans hgm)]

/-! ## The fill (R179, R184) -/

theorem packRow_waits (cw ch : Nat) (c : Half) {s : State} (h : s.Waits) : packRow cw ch c s = packed cw ch c s := by
  let s₁ : State := { s with rowbuf := Memory.writeList s.rowbuf 0 (rowBytes cw c), rowlen := BitVec.ofNat 16 (2 * cw) }
  unfold packRow writeRowCounts
  rw [glimpse_waits (s := s₁) h, glimpse_waits (s := { s₁ with rows := BitVec.ofNat 16 ch }) h]
  exact glimpse_waits (s := packed cw ch c s) h

theorem rowWrite_observed {s : State} {ms : List HostMove} (h : s.moves = .proceed :: ms) :
    Observed s.reads (rowWrite s) (readsBetween ms).2 (readsBetween ms).1 :=
  (dataStep_observed .rowD _ h).andThen fun t _ ht => by
    have ho := Observed.glimpse (countRow t)
    rwa [countRow_moves, countRow_reads, ht] at ho

theorem rowLoop_observed (n : Nat) {s : State} {ms : List HostMove} (h : s.moves = List.replicate (n + 1) HostMove.proceed ++ ms) :
    Observed s.reads (rowLoop (n + 1) s) (readsBetween ms).2 (readsBetween ms).1 := by
  induction n generalizing s with
  | zero =>
    have hrun : rowLoop 1 s = rowWrite s := by
      rw [rowLoop]
      cases rowWrite s <;> rfl
    rw [hrun]
    exact rowWrite_observed h
  | succ n ih =>
    rw [rowLoop]
    exact Observed.andThen (rowWrite_observed (ms := List.replicate (n + 1) HostMove.proceed ++ ms) h) fun t _ ht => ih ht

theorem rowLoop_add (m n : Nat) (s : State) : rowLoop (m + n) s = (rowLoop m s).andThen (rowLoop n) := by
  induction m generalizing s with
  | zero => rw [Nat.zero_add]; rfl
  | succ m ih =>
    rw [Nat.succ_add, rowLoop, rowLoop, andThen_assoc, funext ih]

/-! ## The script (R130, R131) -/

theorem runScript_add (m n : Nat) (s : State) : runScript (m + n) s = (runScript m s).andThen (runScript n) := by
  induction m generalizing s with
  | zero => rw [Nat.zero_add]; rfl
  | succ m ih =>
    rw [Nat.succ_add, runScript, runScript]
    cases hf : fetchRecord s with
    | none => cases n <;> simp [runScript, hf]
    | some r => simp only [andThen_assoc, ih]

/-- The moves that let the micro-steps of a record after its command frame go on. -/
def recordRest (r : ScriptRecord) : List HostMove :=
  (if r.payload = [] then [] else [HostMove.proceed]) ++ (if r.delay = 0 then [] else [HostMove.proceed])

theorem replicate_recordEvents (r : ScriptRecord) :
    List.replicate (recordEvents r).length HostMove.proceed = .proceed :: recordRest r := by
  by_cases hp : r.payload = [] <;> by_cases hd : r.delay = 0#16 <;> simp [recordEvents, recordRest, hp, hd]

theorem execRecord_observed (r : ScriptRecord) {s : State} {ms ms' : List HostMove}
    (h : s.moves = List.replicate (recordEvents r).length HostMove.proceed ++ ms)
    (hms : if r.payload = [] ∧ r.delay = 0 then readsBetween ms = (0, ms') else ms = ms') :
    Observed s.reads (execRecord r s) ms' 0 := by
  rw [replicate_recordEvents, List.cons_append] at h
  have hrest : readsBetween (recordRest r ++ ms) = (0, recordRest r ++ ms') := by
    by_cases hp : r.payload = [] <;> by_cases hd : r.delay = 0#16 <;> simp_all [recordRest, readsBetween]
  have hc := cmdStep_observed .recCmd r.opcode h
  rw [hrest] at hc
  refine hc.andThen fun t _ ht => ?_
  rw [recordRest, List.append_assoc] at ht
  refine Observed.andThen (ms := (if r.delay = 0 then [] else [HostMove.proceed]) ++ ms') ?_ fun u _ hu => ?_
  · by_cases hp : r.payload = []
    · simp only [busDataIf, hp, if_true, List.nil_append] at ht ⊢
      exact ht ▸ Observed.run t
    · simp only [busDataIf, hp, if_false] at ht ⊢
      exact dataStep_observed .recData r.payload ht
  · by_cases hd : r.delay = 0
    · simp only [hd, if_true, List.nil_append] at hu ⊢
      exact hu ▸ Observed.run u
    · simp only [hd, if_false] at hu ⊢
      rw [enterPhase_waits _ (waits_of_proceed hu)]
      exact delayFor_observed r.delay (s := setPhase .recWait u) hu

/-- The same where the host lets the micro-step after the record go on too. -/
theorem execRecord_observed_waits (r : ScriptRecord) {s : State} {ms : List HostMove}
    (h : s.moves = List.replicate (recordEvents r).length HostMove.proceed ++ ms) (hms : readsBetween ms = (0, ms)) :
    Observed s.reads (execRecord r s) ms 0 :=
  execRecord_observed r h (by
    split
    · exact hms
    · rfl)

end Sys2Proof.Machine
end

section
/-! The readings between two micro-steps (O12): each clause names the micro-steps k that the host lets go on, what the host then sees, and
the rest of the operation, which nothing reads. -/

namespace Sys2Proof.Machine

theorem waits_of_replicate {s : State} {m : Nat} {ms : List HostMove} (hm : 0 < m)
    (h : s.moves = List.replicate m HostMove.proceed ++ ms) :
    s.Waits := by
  obtain ⟨m, rfl⟩ := Nat.exists_eq_succ_of_ne_zero hm.ne'
  exact waits_of_proceed h

/-! ## A request (R82) -/

/-- The state in which an idle block begins a request (R82). -/
abbrev accepted (op : Byte) (f1 f2 f3 f4 f5 : Half) (s : State) : State := beginRequest op (loadOperands f1 f2 f3 f4 f5 s)

/-- A request whose micro-steps k the host lets go on, n reads at their end, and the rest l of the operation. -/
theorem request_shows {op : Byte} {f1 f2 f3 f4 f5 : Half} {body k l : State → Micro} {s x : State} {n : Nat} (hi : s.mode = .idle)
    (hs : s.NoReset) (hw : s.Waits) (hb : body (accepted op f1 f2 f3 f4 f5 s) = (k (accepted op f1 f2 f3 f4 f5 s)).andThen l)
    (hk : Blind k) (hl : Blind l) (ho : Observed s.reads (k (accepted op f1 f2 f3 f4 f5 s)) [] n)
    (hx : k (setHost [] s.reads (accepted op f1 f2 f3 f4 f5 s)) = .run x) :
    ∃ t, request op f1 f2 f3 f4 f5 body s = .next t ∧ t.reads = s.reads ++ List.replicate n (readStatus x) := by
  refine ⟨finish (body (glimpse (accepted op f1 f2 f3 f4 f5 s))), by simp only [request, hi], ?_⟩
  rw [glimpse_waits (s := accepted op f1 f2 f3 f4 f5 s) hw, hb]
  exact Observed.shown (s := accepted op f1 f2 f3 f4 f5 s) ho hk hl hs hx

/-- Reads at acceptance show BUSY and all else as it was (R82, R26). -/
theorem acceptance_shows {op : Byte} {hp : List Byte} {f1 f2 f3 f4 f5 : Half} {s : State} {n : Nat} {r : Byte × Instr}
    (hr : r ∈ hostRequests op hp f1 f2 f3 f4 f5) (hpr : Presentable s r.2) (h1 : 1 ≤ r.1.toNat) (h7 : r.1.toNat ≤ 7)
    (hi : s.mode = .idle) (hm : s.moves = List.replicate n HostMove.readBetween) :
    ∃ t, exec r.2 s = .next t ∧ t.reads = s.reads ++ List.replicate n { readStatus s with mode := 1 } := by
  obtain ⟨t, ht⟩ := exec_request_next hr hpr
  refine ⟨t, ht, ?_⟩
  rcases exec_request_cases hr ht with ⟨hb, _⟩ | ⟨_, hrej, _⟩ | ⟨_, _, _, rfl⟩
  · rw [hi] at hb
    cases hb
  · rcases hrej with hh | hres
    · rw [hi] at hh
      cases hh
    · have hcode := hpr.1
      rw [reserved_code hr hres] at hcode h1 h7
      have hop : op = 0 ∨ 8 ≤ op.toNat := of_decide_eq_true hcode
      have hpos : 1 ≤ op.toNat := h1
      have hle : op.toNat ≤ 7 := h7
      rcases hop with rfl | h8
      · exact absurd hpos (by decide)
      · omega
  · obtain ⟨hms, hrs⟩ := Observed.write (g := accepted r.1 f1 f2 f3 f4 f5) (fun _ _ _ => rfl) hm _ rfl
    exact ((finish_unseen (requestBody_blind r.2)).quiet hms).trans hrs

/-! ## SET_WINDOW (R171, R172) -/

/-- `WX0 <- x0` (R172). -/
def writeWx0 (x0 : Half) (s : State) : State := { s with wx0 := x0 }

/-- `WX1 <- x1` (R172). -/
def writeWx1 (x1 : Half) (s : State) : State := { s with wx1 := x1 }

/-- `WY0 <- y0` (R172). -/
def writeWy0 (y0 : Half) (s : State) : State := { s with wy0 := y0 }

/-- `WY1 <- y1` (R172). -/
def writeWy1 (y1 : Half) (s : State) : State := { s with wy1 := y1 }

/-- A window program up to the moment j of its column writes. -/
def columnsUntil (j : Nat) (x0 x1 : Half) : State → Micro :=
  addressUntil j .casetC (·.opCaset) .casetD (addr4Bytes x0 x1) (writeWx0 x0) (writeWx1 x1)

/-- The rest of it. -/
def columnsRest (j : Nat) (y0 x1 y1 : Half) (s : State) : Micro := rowsAndMemoryWrite y0 y1 (writesAfter j (writeWx1 x1) s)

/-- The state at that moment. -/
def columnsSent (j : Nat) (x0 x1 : Half) (s : State) : State :=
  let t := addressSent (·.opCaset) .casetD (addr4Bytes x0 x1) s
  if j = 0 then writeWx0 x0 t else writeWx1 x1 (writeWx0 x0 t)

theorem windowProgram_columnsUntil (j : Nat) (x0 y0 x1 y1 : Half) (s : State) :
    windowProgram x0 y0 x1 y1 s = (columnsUntil j x0 x1 s).andThen (columnsRest j y0 x1 y1) := by
  rw [windowProgram_eq]
  exact (addressUntil_andThen j _ _ _ _ (writeWx0 x0) (writeWx1 x1) (rowsAndMemoryWrite y0 y1) s).symm

theorem columnsUntil_blind (j : Nat) (x0 x1 : Half) : Blind (columnsUntil j x0 x1) :=
  addressUntil_blind _ _ _ _ _ (fun _ _ _ => rfl) fun _ _ _ => rfl

theorem columnsRest_blind (j : Nat) (y0 x1 y1 : Half) : Blind (columnsRest j y0 x1 y1) :=
  (rowsAndMemoryWrite_blind y0 y1).comp (writesAfter_unseen j (h := writeWx1 x1) fun _ _ _ => rfl)

theorem columnsUntil_observed {j : Nat} (x0 x1 : Half) (hj : j ≤ 1) {s : State} {n : Nat}
    (hm : s.moves = .proceed :: .proceed :: (List.replicate j HostMove.nextWrite ++ List.replicate n HostMove.readBetween)) :
    Observed s.reads (columnsUntil j x0 x1 s) [] n :=
  addressUntil_observed _ _ _ _ (fun _ _ _ => rfl) (fun _ _ _ => rfl) hj hm

theorem columnsUntil_ok (j : Nat) (x0 x1 : Half) {s : State} (hr : s.moves = []) (ha : s.AnswersOk 2) :
    columnsUntil j x0 x1 s = .run (columnsSent j x0 x1 s) :=
  addressUntil_ok _ _ _ _ _ (fun _ _ _ => rfl) (fun _ _ _ => rfl) hr ha

/-- Reads after the column frame: WX0 new, WX1 once it is written too (R172). -/
theorem columns_show {f1 f2 f3 f4 f5 : Half} {s : State} {j n : Nat} (hj : j ≤ 1) (hi : s.mode = .idle) (ha : s.AnswersOk 2)
    (hm : s.moves = List.replicate 2 HostMove.proceed ++ List.replicate j HostMove.nextWrite ++ List.replicate n HostMove.readBetween) :
    ∃ (t : State) (v : StatusPort), exec (.setWindow f1 f2 f3 f4 f5) s = .next t ∧ t.reads = s.reads ++ List.replicate n v ∧
      v.mode = 1 ∧ v.phase = 5 ∧ v.dc = s.params.dcData ∧ v.wx0 = f1 ∧
      v.wx1 = (if j = 0 then s.wx1 else f3) ∧ v.wy0 = s.wy0 ∧ v.wy1 = s.wy1 := by
  rw [List.append_assoc] at hm
  obtain ⟨t, ht, hr⟩ := request_shows (body := requestBody (.setWindow f1 f2 f3 f4 f5)) hi (by simp [State.NoReset, hm])
    (waits_of_replicate (by omega) hm) (windowProgram_columnsUntil j f1 f2 f3 f4 (accepted 0x05 f1 f2 f3 f4 f5 s))
    (columnsUntil_blind j f1 f3) (columnsRest_blind j f2 f3 f4)
    (columnsUntil_observed f1 f3 hj (s := accepted 0x05 f1 f2 f3 f4 f5 s) hm)
    (columnsUntil_ok j f1 f3 (s := setHost [] s.reads (accepted 0x05 f1 f2 f3 f4 f5 s)) rfl ha)
  refine ⟨t, _, ht, hr, ?_⟩
  obtain rfl | rfl : j = 0 ∨ j = 1 := by omega
  · exact ⟨rfl, rfl, rfl, rfl, rfl, rfl, rfl⟩
  · exact ⟨rfl, rfl, rfl, rfl, rfl, rfl, rfl⟩

/-- The row part of a window program up to the moment j of its row writes. -/
def rowsUntil (j : Nat) (y0 y1 : Half) : State → Micro :=
  addressUntil j .pasetC (·.opPaset) .pasetD (addr4Bytes y0 y1) (writeWy0 y0) (writeWy1 y1)

/-- A window program up to that moment. -/
def windowUntilRows (j : Nat) (x0 y0 x1 y1 : Half) (s : State) : Micro :=
  (columnStep x0 x1 s).andThen fun s => rowsUntil j y0 y1 (writeColumns x0 x1 s)

/-- The rest of it. -/
def rowsRest (j : Nat) (y1 : Half) (s : State) : Micro := memoryWriteStep (writesAfter j (writeWy1 y1) s)

/-- The state at that moment. -/
def rowsSent (j : Nat) (x0 y0 x1 y1 : Half) (s : State) : State :=
  let t := addressSent (·.opPaset) .pasetD (addr4Bytes y0 y1) (setColumns x0 x1 (addressSent (·.opCaset) .casetD (addr4Bytes x0 x1) s))
  if j = 0 then writeWy0 y0 t else writeWy1 y1 (writeWy0 y0 t)

theorem windowProgram_windowUntilRows (j : Nat) (x0 y0 x1 y1 : Half) (s : State) :
    windowProgram x0 y0 x1 y1 s = (windowUntilRows j x0 y0 x1 y1 s).andThen (rowsRest j y1) := by
  have hrows (u : State) : rowsAndMemoryWrite y0 y1 u = (rowsUntil j y0 y1 u).andThen (rowsRest j y1) :=
    (addressUntil_andThen j _ _ _ _ (writeWy0 y0) (writeWy1 y1) memoryWriteStep u).symm
  simp only [windowProgram_eq, windowUntilRows, andThen_assoc, hrows]

theorem windowUntilRows_blind (j : Nat) (x0 y0 x1 y1 : Half) : Blind (windowUntilRows j x0 y0 x1 y1) :=
  (addressStep_blind _ _ _ _).andThen
    ((addressUntil_blind _ _ _ _ _ (g := writeWy0 y0) (h := writeWy1 y1) (fun _ _ _ => rfl) fun _ _ _ => rfl).comp
      (writeColumns_unseen x0 x1))

theorem rowsRest_blind (j : Nat) (y1 : Half) : Blind (rowsRest j y1) :=
  memoryWriteStep_blind.comp (writesAfter_unseen j (h := writeWy1 y1) fun _ _ _ => rfl)

theorem windowUntilRows_observed {j : Nat} (x0 y0 x1 y1 : Half) (hj : j ≤ 1) {s : State} {n : Nat}
    (hm : s.moves = List.replicate 4 HostMove.proceed ++ (List.replicate j HostMove.nextWrite ++ List.replicate n HostMove.readBetween)) :
    Observed s.reads (windowUntilRows j x0 y0 x1 y1 s) [] n :=
  (addressStep_observed _ _ _ _ hm).andThen fun t _ ht => by
    rw [writeColumns_waits x0 x1 (waits_of_proceed ht)]
    exact addressUntil_observed _ _ _ _ (fun _ _ _ => rfl) (fun _ _ _ => rfl) hj (s := setColumns x0 x1 t) ht

theorem windowUntilRows_ok (j : Nat) (x0 y0 x1 y1 : Half) {s : State} (hr : s.moves = []) (ha : s.AnswersOk 4) :
    windowUntilRows j x0 y0 x1 y1 s = .run (rowsSent j x0 y0 x1 y1 s) := by
  rw [windowUntilRows, columnStep, addressStep_ok _ _ _ _ hr fun k hk => ha k (by omega), andThen_run,
    writeColumns_nil x0 x1 (addressSent (·.opCaset) .casetD (addr4Bytes x0 x1) s) hr]
  exact addressUntil_ok _ _ _ _ _ (fun _ _ _ => rfl) (fun _ _ _ => rfl) hr fun k hk =>
    (answerAt_sent s [] 2 k).trans (ha (2 + k) (by omega))

/-- Reads after the row frame: WY0 new, WY1 once it is written too (R172). -/
theorem rows_show {f1 f2 f3 f4 f5 : Half} {s : State} {j n : Nat} (hj : j ≤ 1) (hi : s.mode = .idle) (ha : s.AnswersOk 4)
    (hm : s.moves = List.replicate 4 HostMove.proceed ++ List.replicate j HostMove.nextWrite ++ List.replicate n HostMove.readBetween) :
    ∃ (t : State) (v : StatusPort), exec (.setWindow f1 f2 f3 f4 f5) s = .next t ∧ t.reads = s.reads ++ List.replicate n v ∧
      v.mode = 1 ∧ v.phase = 7 ∧ v.dc = s.params.dcData ∧ v.wx0 = f1 ∧
      v.wx1 = f3 ∧ v.wy0 = f2 ∧ v.wy1 = (if j = 0 then s.wy1 else f4) := by
  rw [List.append_assoc] at hm
  obtain ⟨t, ht, hr⟩ := request_shows (body := requestBody (.setWindow f1 f2 f3 f4 f5)) hi (by simp [State.NoReset, hm])
    (waits_of_replicate (by omega) hm) (windowProgram_windowUntilRows j f1 f2 f3 f4 (accepted 0x05 f1 f2 f3 f4 f5 s))
    (windowUntilRows_blind j f1 f2 f3 f4) (rowsRest_blind j f4)
    (windowUntilRows_observed f1 f2 f3 f4 hj (s := accepted 0x05 f1 f2 f3 f4 f5 s) hm)
    (windowUntilRows_ok j f1 f2 f3 f4 (s := setHost [] s.reads (accepted 0x05 f1 f2 f3 f4 f5 s)) rfl ha)
  refine ⟨t, _, ht, hr, ?_⟩
  obtain rfl | rfl : j = 0 ∨ j = 1 := by omega
  · exact ⟨rfl, rfl, rfl, rfl, rfl, rfl, rfl⟩
  · exact ⟨rfl, rfl, rfl, rfl, rfl, rfl, rfl⟩

/-! ## The fills (R179) -/

theorem drawingFill_exec {f1 f2 f3 f4 c : Half} {op : Byte} {i : Instr} {x y : Int} {cw ch : Nat}
    (h : DrawingFill f1 f2 f3 f4 c op i x y cw ch) (s : State) :
    exec i s = request op f1 f2 f3 f4 c (requestBody i) s ∧
      requestBody i (accepted op f1 f2 f3 f4 c s) = fill (some (cw, ch)) x y c (accepted op f1 f2 f3 f4 c s) := by
  rcases h with ⟨rfl, rfl, rfl, rfl, hc⟩ | ⟨rfl, rfl, rfl, rfl, rfl, rfl⟩
  · exact ⟨rfl, congrArg (fun r => fill r f1.toInt f2.toInt c (accepted 0x06 f1 f2 f3 f4 c s)) hc⟩
  · exact ⟨rfl, rfl⟩

/-- The window program of a fill of cw × ch pixels from (x, y), after its row is packed (R179). -/
def fillWindow (x y : Int) (cw ch : Nat) (c : Half) (s : State) : Micro :=
  windowProgram (bound x) (bound y) (bound (x + cw - 1)) (bound (y + ch - 1)) (packRow cw ch c s)

/-- The state after it. -/
def fillWindowDone (x y : Int) (cw ch : Nat) (c : Half) (s : State) : State :=
  windowDone (bound x) (bound y) (bound (x + cw - 1)) (bound (y + ch - 1)) (packed cw ch c s)

theorem fillWindow_blind (x y : Int) (cw ch : Nat) (c : Half) : Blind (fillWindow x y cw ch c) :=
  (windowProgram_blind _ _ _ _).comp (packRow_unseen cw ch c)

theorem fillWindow_ok (x y : Int) (cw ch : Nat) (c : Half) {s : State} (hr : s.moves = []) (ha : s.AnswersOk 5) :
    fillWindow x y cw ch c s = .run (fillWindowDone x y cw ch c s) := by
  unfold fillWindow
  rw [packRow_nil cw ch c s hr]
  exact windowProgram_ok _ _ _ _ (packed cw ch c s) hr ha

theorem fillWindow_observed (x y : Int) (cw ch : Nat) (c : Half) {s : State} {ms : List HostMove}
    (h : s.moves = List.replicate 5 HostMove.proceed ++ ms) :
    Observed s.reads (fillWindow x y cw ch c s) (readsBetween ms).2 (readsBetween ms).1 := by
  unfold fillWindow
  rw [packRow_waits cw ch c (waits_of_replicate (by omega) h)]
  exact windowProgram_observed _ _ _ _ (s := packed cw ch c s) h

/-- Reads after the memory-write frame of a fill: PRIMED = 1 with the command level on DC (R29, R179). -/
theorem memoryWrite_shows {f1 f2 f3 f4 c : Half} {op : Byte} {i : Instr} {x y : Int} {cw ch n : Nat} {s : State}
    (hd : DrawingFill f1 f2 f3 f4 c op i x y cw ch) (hi : s.mode = .idle) (ha : s.AnswersOk 5)
    (hm : s.moves = List.replicate 5 HostMove.proceed ++ List.replicate n HostMove.readBetween) :
    ∃ (t : State) (v : StatusPort), exec i s = .next t ∧ t.reads = s.reads ++ List.replicate n v ∧
      v.mode = 1 ∧ v.phase = 8 ∧ v.primed = true ∧
      v.dc = s.params.dcCmd ∧ v.row = 0 ∧ v.rows = BitVec.ofNat 16 ch ∧ v.wx0 = bound x ∧ v.wy0 = bound y ∧
      v.wx1 = bound (x + cw - 1) ∧ v.wy1 = bound (y + ch - 1) := by
  obtain ⟨he, hb⟩ := drawingFill_exec hd s
  have ho := fillWindow_observed x y cw ch c (s := accepted op f1 f2 f3 f4 c s) hm
  rw [readsBetween_replicate] at ho
  obtain ⟨t, ht, hr⟩ := request_shows (k := fillWindow x y cw ch c) (l := rowLoop ch) hi (by simp [State.NoReset, hm])
    (waits_of_replicate (by omega) hm) hb (fillWindow_blind x y cw ch c) (rowLoop_blind ch) ho
    (fillWindow_ok x y cw ch c (s := setHost [] s.reads (accepted op f1 f2 f3 f4 c s)) rfl ha)
  exact ⟨t, _, he.trans ht, hr, rfl, rfl, rfl, rfl, rfl, rfl, rfl, rfl, rfl, rfl⟩

/-- A fill up to its row-write j (R179). -/
def fillRows (x y : Int) (cw ch j : Nat) (c : Half) (s : State) : Micro := (fillWindow x y cw ch c s).andThen (rowLoop (j + 1))

/-- The state after it. -/
def fillRowsDone (x y : Int) (cw ch j : Nat) (c : Half) (s : State) : State :=
  let t := fillWindowDone x y cw ch c s
  { t.sent (List.replicate (j + 1) (.data (rowRead t.rowbuf t.rowlen.toNat))) (j + 1) with
    phase := .rowD, dc := t.params.dcData, row := t.row + BitVec.ofNat 16 (j + 1) }

theorem fill_fillRows (x y : Int) (cw j rest : Nat) (c : Half) (s : State) :
    fill (some (cw, j + 1 + rest)) x y c s = (fillRows x y cw (j + 1 + rest) j c s).andThen (rowLoop rest) := by
  rw [fillRows, andThen_assoc, ← funext (rowLoop_add (j + 1) rest)]
  rfl

theorem fillRows_blind (x y : Int) (cw ch j : Nat) (c : Half) : Blind (fillRows x y cw ch j c) :=
  (fillWindow_blind x y cw ch c).andThen (rowLoop_blind (j + 1))

theorem fillRows_observed (x y : Int) (cw ch j : Nat) (c : Half) {s : State} {ms : List HostMove}
    (h : s.moves = List.replicate 5 HostMove.proceed ++ (List.replicate (j + 1) HostMove.proceed ++ ms)) :
    Observed s.reads (fillRows x y cw ch j c s) (readsBetween ms).2 (readsBetween ms).1 :=
  (fillWindow_observed x y cw ch c h).andThen fun _ _ ht => rowLoop_observed j ht

theorem fillRows_ok (x y : Int) (cw ch j : Nat) (c : Half) {s : State} (hr : s.moves = []) (ha : s.AnswersOk (6 + j)) :
    fillRows x y cw ch j c s = .run (fillRowsDone x y cw ch j c s) := by
  rw [fillRows, fillWindow_ok x y cw ch c hr fun k hk => ha k (by omega), andThen_run]
  exact rowLoop_ok j (fillWindowDone x y cw ch c s) hr fun k hk => (answerAt_sent s [] 5 k).trans (ha (5 + k) (by omega))

/-- Reads after row-write j of a fill: the new ROW (R23, R179). -/
theorem rowWrite_shows {f1 f2 f3 f4 c : Half} {op : Byte} {i : Instr} {x y : Int} {cw ch j n : Nat} {s : State}
    (hd : DrawingFill f1 f2 f3 f4 c op i x y cw ch) (hj : j < ch) (hi : s.mode = .idle) (ha : s.AnswersOk (6 + j))
    (hm : s.moves = List.replicate (6 + j) HostMove.proceed ++ List.replicate n HostMove.readBetween) :
    ∃ (t : State) (v : StatusPort), exec i s = .next t ∧ t.reads = s.reads ++ List.replicate n v ∧
      v.mode = 1 ∧ v.phase = 9 ∧ v.primed = true ∧
      v.dc = s.params.dcData ∧ v.row = BitVec.ofNat 16 (j + 1) ∧ v.rows = BitVec.ofNat 16 ch := by
  obtain ⟨he, hb⟩ := drawingFill_exec hd s
  obtain ⟨rest, rfl⟩ : ∃ rest, ch = j + 1 + rest := ⟨ch - (j + 1), by omega⟩
  have hm' : s.moves =
      List.replicate 5 HostMove.proceed ++ (List.replicate (j + 1) HostMove.proceed ++ List.replicate n HostMove.readBetween) := by
    rw [hm, ← List.append_assoc, List.replicate_append_replicate, show 6 + j = 5 + (j + 1) by omega]
  have ho := fillRows_observed x y cw (j + 1 + rest) j c (s := accepted op f1 f2 f3 f4 c s) hm'
  rw [readsBetween_replicate] at ho
  obtain ⟨t, ht, hr⟩ := request_shows hi (by simp [State.NoReset, hm]) (waits_of_replicate (by omega) hm)
    (hb.trans (fill_fillRows x y cw j rest c _)) (fillRows_blind x y cw (j + 1 + rest) j c) (rowLoop_blind rest) ho
    (fillRows_ok x y cw (j + 1 + rest) j c (s := setHost [] s.reads (accepted op f1 f2 f3 f4 c s)) rfl ha)
  exact ⟨t, _, he.trans ht, hr, rfl, rfl, rfl, rfl, BitVec.zero_add _, rfl⟩

/-! ## INIT (R130) -/

theorem scriptEvents_cons (q : ScriptRecord) (rs : List ScriptRecord) :
    (scriptEvents (q :: rs)).length = (recordEvents q).length + (scriptEvents rs).length := by simp [scriptEvents]

theorem scriptEvents_pos (before : List ScriptRecord) (r : ScriptRecord) : 0 < (scriptEvents (before ++ [r])).length := by
  simp [scriptEvents, recordEvents]

/-- The records before r and r itself, all let go on; the host reads once SP counts r. -/
theorem runScript_observed {before post : List ScriptRecord} {r : ScriptRecord} {s : State} {n : Nat}
    (hd : s.params.script.drop s.sp.toNat = before ++ r :: post) (hk : s.sp.toNat + before.length < 255)
    (hm : s.moves = List.replicate (scriptEvents (before ++ [r])).length HostMove.proceed ++
      (List.replicate (if r.payload = [] ∧ r.delay = 0 then 1 else 0) HostMove.nextWrite ++ List.replicate n HostMove.readBetween)) :
    Observed s.reads (runScript (before.length + 1) s) [] n := by
  induction before generalizing s with
  | nil =>
    rw [List.nil_append, scriptEvents, List.flatMap_singleton] at hm
    rw [runScript, fetchRecord_of_drop hd]
    refine Observed.andThen (ms := List.replicate n HostMove.readBetween) (execRecord_observed r hm ?_) fun t _ ht => ?_
    · by_cases hpd : r.payload = [] ∧ r.delay = 0
      · rw [if_pos hpd, if_pos hpd]
        rfl
      · rw [if_neg hpd, if_neg hpd]
        rfl
    · have ho := Observed.write (g := fun s => setSp (s.sp + 1) s) (fun _ _ _ => rfl) ht
      exact ho
  | cons q pre ih =>
    have hl : s.sp.toNat < 255 := by omega
    rw [List.cons_append, scriptEvents_cons, List.replicate_add, List.append_assoc] at hm
    rw [runScript, fetchRecord_of_drop hd]
    refine Observed.andThen (execRecord_observed_waits q hm ?_) fun t hrun ht => ?_
    · obtain ⟨m, hm'⟩ := Nat.exists_eq_succ_of_ne_zero (scriptEvents_pos pre r).ne'
      rw [hm']
      rfl
    · have hf := execRecord_from q s
      rw [hrun] at hf
      obtain ⟨hplain, _, _, hsp⟩ := hf
      have hw : (setSp (t.sp + 1) t).Waits := waits_of_replicate (scriptEvents_pos pre r) ht
      rw [glimpse_waits hw]
      refine ih (s := setSp (t.sp + 1) t) ?_ ?_ ht
      · rw [setSp_params, setSp_sp, hplain.params, hsp]
        exact drop_sp_succ hl hd
      · rw [setSp_sp, hsp, sp_succ hl]
        rw [List.length_cons] at hk
        omega

/-- Where the host does nothing and the transport answers `ok`, the records before r and r itself run whole: SP counts r, PHASE is the one r
ends in (R24, R130). -/
theorem runScript_through {before post : List ScriptRecord} {r : ScriptRecord} {s : State}
    (hd : s.params.script.drop s.sp.toNat = before ++ r :: post) (hk : s.sp.toNat + before.length < 255) (hm : s.moves = [])
    (ha : s.AnswersOk (scriptFrames before + recordFrames r)) :
    ∃ x, runScript (before.length + 1) s = .run x ∧ x.mode = s.mode ∧ x.initDone = s.initDone ∧ x.phase = recordPhase r ∧
      x.sp = BitVec.ofNat 8 (s.sp.toNat + before.length + 1) := by
  induction before generalizing s with
  | nil =>
    rw [runScript, fetchRecord_of_drop hd]
    simp only
    rw [execRecord_ok r s hm fun k hk => ha k (by simpa [scriptFrames] using hk), andThen_run]
    refine ⟨_, runScript_glimpse _ _ hm, rfl, rfl, rfl, ?_⟩
    simp [BitVec.ofNat_add]
  | cons q pre ih =>
    have hl : s.sp.toNat < 255 := by omega
    have hf : scriptFrames (q :: pre) = recordFrames q + scriptFrames pre := by simp [scriptFrames]
    rw [List.length_cons] at hk
    rw [hf] at ha
    rw [runScript, fetchRecord_of_drop hd]
    simp only
    rw [execRecord_ok q s hm fun k hk => ha k (by omega), andThen_run, runScript_glimpse]
    · obtain ⟨x, hx, hmode, hdone, hphase, hsp⟩ := ih (s := setSp (s.sp + 1) { s.sent (recordEvents q) (recordFrames q) with
          phase := recordPhase q, dc := if q.payload = [] then s.params.dcCmd else s.params.dcData,
          primed := primedAfter s.params q.opcode })
        (drop_sp_succ hl hd) (by rw [setSp_sp, sp_succ hl]; omega) hm
        fun k hk => (answerAt_sent s (recordEvents q) (recordFrames q) k).trans (ha _ (by omega))
      refine ⟨x, hx, hmode, hdone, hphase, hsp.trans ?_⟩
      rw [setSp_sp, sp_succ hl, List.length_cons]
      congr 1
      omega
    · exact hm

/-- Where INIT begins its script, whatever the host does (R130). -/
def initBegin (s : State) : State := glimpse (setSp 0 (glimpse (setInitDone false (restartStub s))))

theorem initBegin_unseen : Unseen initBegin :=
  (Unseen.seenWrite (g := setSp 0) fun _ _ _ => rfl).comp
    (.seenWrite (g := fun s => setInitDone false (restartStub s)) fun _ _ _ => rfl)

theorem initBegin_waits {s : State} (h : s.Waits) : initBegin s = initStart s := by
  unfold initBegin
  rw [glimpse_waits (s := setInitDone false (restartStub s)) h]
  exact glimpse_waits (s := initStart s) h

/-- Reads after the last micro-step of a record of INIT: the next SP beside the record's PHASE (R24, R130). -/
theorem record_shows {f1 f2 f3 f4 f5 : Half} {s : State} {before after : List ScriptRecord} {r : ScriptRecord} {n : Nat}
    (hi : s.mode = .idle) (hscript : s.params.script = before ++ r :: after) (hk : s.params.script.length ≤ 255)
    (ha : s.AnswersOk (scriptFrames before + recordFrames r))
    (hm : s.moves = List.replicate (scriptEvents (before ++ [r])).length HostMove.proceed ++
      List.replicate (if r.payload = [] ∧ r.delay = 0 then 1 else 0) HostMove.nextWrite ++ List.replicate n HostMove.readBetween) :
    ∃ (t : State) (v : StatusPort), exec (.init f1 f2 f3 f4 f5) s = .next t ∧ t.reads = s.reads ++ List.replicate n v ∧
      v.mode = 1 ∧ v.phase = (recordPhase r).code ∧ v.sp = BitVec.ofNat 8 (before.length + 1) ∧ v.initDone = false := by
  rw [List.append_assoc] at hm
  have hw : s.Waits := waits_of_replicate (scriptEvents_pos before r) hm
  have hlen : s.params.script.length = before.length + 1 + after.length := by
    rw [hscript, List.length_append, List.length_cons]
    omega
  have hb : before.length < 255 := by omega
  obtain ⟨x, hx, hmode, hdone, hphase, hsp⟩ := runScript_through (r := r)
    (s := initStart (setHost [] s.reads (accepted 0x01 f1 f2 f3 f4 f5 s))) hscript (by simpa using hb) rfl fun k hk => ha k hk
  obtain ⟨t, ht, hr⟩ := request_shows (op := 0x01) (f1 := f1) (f2 := f2) (f3 := f3) (f4 := f4) (f5 := f5) (body := initBody) (n := n)
    (k := fun s => runScript (before.length + 1) (initBegin s))
    (l := fun s => (runScript after.length s).andThen fun s => .run (glimpse (setInitDone true s)))
    hi (by simp [State.NoReset, hm]) hw
    (by
      rw [← andThen_assoc, ← runScript_add, ← hlen]
      rfl)
    ((runScript_blind _).comp initBegin_unseen)
    ((runScript_blind _).andThen (Unseen.run (.seenWrite (g := setInitDone true) fun _ _ _ => rfl)))
    (by
      rw [initBegin_waits (s := accepted 0x01 f1 f2 f3 f4 f5 s) hw]
      exact runScript_observed (s := initStart (accepted 0x01 f1 f2 f3 f4 f5 s)) hscript (by simpa using hb) hm)
    (by
      rw [initBegin_waits rfl]
      exact hx)
  refine ⟨t, readStatus x, (if_pos hk).trans ht, hr, congrArg Mode.code hmode, congrArg Phase.code hphase, hsp.trans ?_, hdone⟩
  simp

/-- Settles O12, clause by clause. -/
theorem statusPortBetween : Obligations.StatusPortBetween :=
  ⟨fun _ _ _ _ _ _ _ _ _ _ hr hpr h1 h7 hi hm => acceptance_shows hr hpr h1 h7 hi hm,
    fun _ _ _ _ _ _ _ _ hj hi ha hm => columns_show hj hi ha hm,
    fun _ _ _ _ _ _ _ _ hj hi ha hm => rows_show hj hi ha hm,
    fun _ _ _ _ _ _ _ _ _ _ _ _ _ hd hi ha hm => memoryWrite_shows hd hi ha hm,
    fun _ _ _ _ _ _ _ _ _ _ _ _ _ _ hd hj hi ha hm => rowWrite_shows hd hj hi ha hm,
    fun _ _ _ _ _ _ _ _ _ _ hi hs hk ha hm => record_shows hi hs hk ha hm⟩

end Sys2Proof.Machine
end

section
/-! What one instruction and one step can leave (R82, R222, R227, R228, R250), and the invariant of the machine. -/

namespace Sys2Proof.Machine

/-! ## Everything an instruction can do -/

/-- An operation begun in s has got to u and ended there in t: in a transport fault, or in a reset that cuts off the micro-step or the
completion of the fault (R222, R250). -/
def Stopped (s u t : State) : Prop :=
  (∃ f, t = faultState f (afterAnswer u) ∧ u.dc = f.level u.params) ∨
    (¬s.NoReset ∧ (t = cutOff u ∨ ∃ f, t = cutOff (markFault f (afterAnswer u))))

theorem hostRequest_mem {i : Instr} (h : isHostRequest i = true) :
    ∃ c op hp f1 f2 f3 f4 f5, (c, i) ∈ hostRequests op hp f1 f2 f3 f4 f5 := by
  cases i with
  | init f1 f2 f3 f4 f5 => exact ⟨0x01, 0, [], f1, f2, f3, f4, f5, by simp [hostRequests]⟩
  | sendCommand f1 f2 f3 f4 f5 => exact ⟨0x02, 0, [], f1, f2, f3, f4, f5, by simp [hostRequests]⟩
  | sendData f1 f2 f3 f4 f5 => exact ⟨0x03, 0, [], f1, f2, f3, f4, f5, by simp [hostRequests]⟩
  | sendDataBuffer f1 f2 f3 f4 f5 hp => exact ⟨0x04, 0, hp, f1, f2, f3, f4, f5, by simp [hostRequests]⟩
  | setWindow f1 f2 f3 f4 f5 => exact ⟨0x05, 0, [], f1, f2, f3, f4, f5, by simp [hostRequests]⟩
  | fillRect f1 f2 f3 f4 f5 => exact ⟨0x06, 0, [], f1, f2, f3, f4, f5, by simp [hostRequests]⟩
  | fillScreen f1 f2 f3 f4 f5 => exact ⟨0x07, 0, [], f1, f2, f3, f4, f5, by simp [hostRequests]⟩
  | reservedHostOp op f1 f2 f3 f4 f5 => exact ⟨op, op, [], f1, f2, f3, f4, f5, by simp [hostRequests]⟩
  | _ => cases h

/-- Everything an instruction that answers a next state can do: nothing (a request of a busy block, a micro-step of a halted one), a
micro-step alone, a rejection, or a request of an idle block (R82, R230, R231). -/
theorem exec_cases {i : Instr} {s t : State} (h : exec i s = .next t) :
    t = s ∨
    (isHostRequest i = false ∧ s.mode ≠ .halted ∧ t = (microBody i s).state) ∨
    (isHostRequest i = true ∧ ∃ op f1 f2 f3 f4 f5, t = reject op (loadOperands f1 f2 f3 f4 f5 s)) ∨
    (isHostRequest i = true ∧ s.mode = .idle ∧
      ∃ op f1 f2 f3 f4 f5, t = finish (requestBody i (glimpse (accepted op f1 f2 f3 f4 f5 s)))) := by
  cases hi : isHostRequest i with
  | false =>
    rw [exec_micro hi] at h
    rcases micro_cases h with ⟨_, e⟩ | ⟨hm, e⟩
    · exact .inl e
    · exact .inr (.inl ⟨rfl, hm, e⟩)
  | true =>
    obtain ⟨c, op, hp, f1, f2, f3, f4, f5, hr⟩ := hostRequest_mem hi
    rcases exec_request_cases hr h with ⟨_, e⟩ | ⟨_, _, e⟩ | ⟨hm, _, _, e⟩
    · exact .inl e
    · exact .inr (.inr (.inl ⟨rfl, c, f1, f2, f3, f4, f5, e⟩))
    · exact .inr (.inr (.inr ⟨rfl, hm, c, f1, f2, f3, f4, f5, e⟩))

/-- An INIT that answers a next state has a script SP can count through (R24, A23). -/
theorem exec_init_script {f1 f2 f3 f4 f5 : Half} {s t : State} (h : exec (.init f1 f2 f3 f4 f5) s = .next t) :
    s.params.script.length ≤ 255 :=
  (exec_assigned (op := 0) (hp := []) (f1 := f1) (f2 := f2) (f3 := f3) (f4 := f4) (f5 := f5) (r := (0x01, .init f1 f2 f3 f4 f5))
    (by simp [hostRequests]) rfl h).2 rfl

/-- Everything a step can do: nothing, a read of the status port, a reset, or an instruction (R11, R32, R250). -/
theorem step_cases {s t : State} (h : step s = .next t) :
    t = s ∨ ∃ rest, (s.port = .readStatus :: rest ∧ t = statusRead { s with port := rest }) ∨
      (s.port = .reset :: rest ∧ t = resetBlock { s with port := rest }) ∨ ∃ i, exec i { s with port := rest } = .next t := by
  simp only [step, fetch] at h
  cases hp : s.port with
  | nil =>
    rw [hp] at h
    cases h
    exact .inl rfl
  | cons x rest =>
    rw [hp] at h
    refine .inr ⟨rest, ?_⟩
    cases x with
    | readStatus =>
      cases h
      exact .inl ⟨rfl, rfl⟩
    | reset =>
      cases h
      exact .inr (.inl ⟨rfl, rfl⟩)
    | item e =>
      cases hd : decode s.params e with
      | error why => simp [hd] at h
      | ok i => exact .inr (.inr ⟨i, by simpa [hd] using h⟩)

/-! ## The invariant while an operation goes on -/

/-- The invariant of a block that is not halted, without what it says of MODE and of ROW = ROWS: what holds in the middle of an operation
too. -/
def State.Sound (s : State) : Prop :=
  s.faultFlag = false ∧ s.lastStatus ≠ .fault ∧ RowsGood s ∧
    (14 ≤ s.params.script.length ∧ s.params.script.length ≤ Config.maxScript) ∧ s.sp.toNat ≤ s.params.script.length ∧
    (s.primed = true → lastCommand s.trace = some s.params.opRamwr) ∧ (∀ q, s.stub = some q → q.Inv)

theorem State.Inv.sound {s : State} (h : s.Inv) (hm : s.mode = .idle) : s.Sound := by
  obtain ⟨_, hfault, _, hstatus, hbuf, hlen, hrow, _, hk, hsp, hprimed, hstub⟩ := h
  have hne : s.mode ≠ .halted := by simp [hm]
  exact ⟨Bool.eq_false_iff.mpr (hne ∘ hfault.mp), hne ∘ hstatus, ⟨hbuf, hlen, hrow⟩, hk, hsp, hprimed, hstub⟩

theorem State.Sound.inv {s : State} (h : s.Sound) (hm : s.mode = .idle) (hr : s.row = s.rows) : s.Inv := by
  obtain ⟨hfault, hstatus, ⟨hbuf, hlen, hrow⟩, hk, hsp, hprimed, hstub⟩ := h
  exact ⟨by simp [hm], by simp [hfault, hm], by simp [hm], fun h => absurd h hstatus, hbuf, hlen, hrow, fun _ => hr, hk, hsp, hprimed,
    hstub⟩

theorem consumed_inv {p : Params} {evs : List Event} {q q' : Option Panel} (h : ∀ x, q = some x → x.Inv)
    (e : q' = consumed p evs q) : ∀ x, q' = some x → x.Inv := by
  subst e
  intro x hx
  obtain ⟨y, hy, rfl⟩ := Option.map_eq_some_iff.mp hx
  exact Panel.run_inv p _ (h y hy)

/-- Micro-steps that keep the rows and SP in their ranges. -/
theorem State.Sound.plain {s t : State} (h : s.Sound) (hp : Plain s t) (hr : RowsGood s → RowsGood t)
    (hsp : s.sp.toNat ≤ s.params.script.length → t.sp.toNat ≤ s.params.script.length) : t.Sound := by
  obtain ⟨hfault, hstatus, hrows, hk, hle, hprimed, hstub⟩ := h
  obtain ⟨evs, _, he, _⟩ := hp.events
  exact ⟨hp.faultFlag.trans hfault, by rwa [hp.lastStatus], hr hrows, by rwa [hp.params], by rw [hp.params]; exact hsp hle,
    hp.primed hprimed, consumed_inv hstub he⟩

theorem resetBlock_inv {s : State} (hk : 14 ≤ s.params.script.length ∧ s.params.script.length ≤ Config.maxScript)
    (hstub : ∀ q, s.stub = some q → q.Inv) : (resetBlock s).Inv :=
  ⟨by simp, by simp, by simp, by simp, by simp [Memory.wf, Memory.below], by simp, by simp, by simp, hk, by simp, by simp, hstub⟩

theorem cutOff_inv {s : State} (hk : 14 ≤ s.params.script.length ∧ s.params.script.length ≤ Config.maxScript) : (cutOff s).Inv :=
  resetBlock_inv (s := { s with stub := none }) hk (by simp)

theorem State.Sound.script {s : State} (h : s.Sound) : 14 ≤ s.params.script.length ∧ s.params.script.length ≤ Config.maxScript := by
  obtain ⟨_, _, _, hk, _⟩ := h
  exact hk

theorem State.Sound.faulted {s : State} (h : s.Sound) (f : Frame) : (faultState f s).Inv := by
  obtain ⟨_, _, ⟨hbuf, hlen, hrow⟩, hk, hsp, _, _⟩ := h
  exact ⟨by simp, by simp, by simp, by simp, hbuf, hlen, hrow, by simp, hk, hsp, by simp, by simp⟩

theorem State.Sound.stopped {s u t : State} (h : u.Sound) (hst : Stopped s u t) : t.Inv := by
  rcases hst with ⟨f, rfl, _⟩ | ⟨_, rfl | ⟨f, rfl⟩⟩
  · exact State.Sound.faulted (s := afterAnswer u) h f
  · exact cutOff_inv h.script
  · exact cutOff_inv (s := markFault f (afterAnswer u)) h.script

/-- An event that is no command leaves what PRIMED says (R29). -/
theorem lastCommand_done (t : List Event) (op : Byte) (st : Status) : lastCommand (t ++ [.done op st]) = lastCommand t :=
  lastCommand_append t (.done op st)

theorem State.Sound.completeOk {s : State} (h : s.Sound) (hr : s.row = s.rows) : (completeOk s).Inv := by
  obtain ⟨hfault, _, hrows, hk, hsp, hprimed, hstub⟩ := h
  refine State.Sound.inv ⟨hfault, by simp, hrows, hk, hsp, ?_, hstub⟩ rfl hr
  simpa [lastCommand_done] using hprimed

theorem State.Inv.reject {s : State} (h : s.Inv) (op : Byte) : (reject op s).Inv := by
  obtain ⟨hbusy, hfault, hhalted, _, hbuf, hlen, hrow, hrows, hk, hsp, hprimed, hstub⟩ := h
  rcases reject_cases op s with ⟨m, rs, _, _, e⟩ | ⟨m, rs, _, _, e⟩ <;> rw [e]
  · exact cutOff_inv (s := setHost m rs s) hk
  · refine ⟨hbusy, hfault, hhalted, by simp, hbuf, hlen, hrow, hrows, hk, hsp, ?_, hstub⟩
    simpa [lastCommand_done] using hprimed

/-! ## The instructions keep the invariant -/

theorem State.Inv.not_busy {s : State} (h : s.Inv) : s.mode ≠ .busy := h.1

theorem State.Inv.row_eq {s : State} (h : s.Inv) (hm : s.mode = .idle) : s.row = s.rows := by
  obtain ⟨_, _, _, _, _, _, _, hrows, _⟩ := h
  exact hrows hm

theorem State.Inv.script {s : State} (h : s.Inv) : 14 ≤ s.params.script.length ∧ s.params.script.length ≤ Config.maxScript := by
  obtain ⟨_, _, _, _, _, _, _, _, hk, _⟩ := h
  exact hk

/-- A row below the host interface, of an idle block. -/
theorem microBody_inv (i : Instr) {s : State} (hs : s.Inv) (hm : s.mode = .idle) : (microBody i s).state.Inv := by
  have sound {t : State} (hp : Plain s t) (he : SameRows s t ∧ (t.sp = s.sp ∨ t.sp.toNat ≤ 14)) : t.Sound := by
    refine (hs.sound hm).plain hp he.1.good fun hsp => ?_
    rcases he.2 with e | e
    · rwa [e]
    · exact e.trans hs.script.1
  have h := microBody_from i s
  cases hb : microBody i s with
  | run t =>
    rw [hb] at h
    obtain ⟨hp, he⟩ := h
    obtain ⟨_, _, hrows, hrow⟩ := he.1
    exact (sound hp he).inv (hp.mode.trans hm) (hrow.trans ((hs.row_eq hm).trans hrows.symm))
  | ended t =>
    rw [hb] at h
    obtain ⟨u, hp, he, hst⟩ := h
    exact (sound hp he).stopped hst

theorem State.Sound.finish_run {s : State} (h : s.Sound) (hr : s.row = s.rows) : (finish (.run s)).Inv := by
  rcases finish_cases (.run s) with ⟨_, e, _⟩ | ⟨v, e, hv⟩
  · cases e
  · cases e
    rcases hv with ⟨ms, rs, _, _, e⟩ | ⟨ms, rs, _, _, e⟩ <;> rw [e]
    · exact cutOff_inv (s := setHost ms rs s) h.script
    · exact State.Sound.completeOk (s := setHost ms rs s) h hr

/-- A request other than INIT. -/
theorem requestBody_inv {i : Instr} (hi : ∀ f1 f2 f3 f4 f5, i ≠ .init f1 f2 f3 f4 f5) {s : State} (hs : s.Sound) (hr : s.row = s.rows) :
    (finish (requestBody i s)).Inv := by
  have h := requestBody_from hi s
  cases hb : requestBody i s with
  | run t =>
    rw [hb] at h
    obtain ⟨hp, hrows, hsp⟩ := h
    exact (hs.plain hp hrows (by rw [hsp]; exact id)).finish_run (requestBody_run hi hb hr)
  | ended t =>
    rw [hb] at h
    obtain ⟨u, hp, ⟨hrows, hsp⟩, hst⟩ := h
    exact (hs.plain hp hrows (by rw [hsp]; exact id)).stopped hst

theorem initStart_sound {s : State} (hs : s.Sound) : (initStart s).Sound := by
  obtain ⟨hfault, hstatus, hrows, hk, _, hprimed, hstub⟩ := hs
  refine ⟨hfault, hstatus, hrows, hk, Nat.zero_le _, hprimed, fun q hq => ?_⟩
  obtain rfl : initStub s = q := Option.some.inj hq
  unfold initStub
  split
  · cases hq : s.stub with
    | none => exact Panel.fresh_inv
    | some q => exact hstub q hq
  · exact Panel.fresh_inv

/-- INIT (R130). -/
theorem initBody_inv {s : State} (hs : s.Sound) (hr : s.row = s.rows) : (finish (initBody s)).Inv := by
  have sound {u : State} (hp : Plain (initStart s) u) (he : ScriptOnly (initStart s) u) : u.Sound :=
    (initStart_sound hs).plain hp he.2.1.good he.2.2
  rcases initBody_cases s hs.script.2 with ⟨u, e, hp, he⟩ | ⟨t, u, e, hp, he, hst⟩ <;> rw [e]
  · obtain ⟨_, _, hrows, hrow⟩ := he.2.1
    have hu : u.Sound := sound hp he
    exact State.Sound.finish_run (s := glimpse (setInitDone true u)) hu (hrow.trans (hr.trans hrows.symm))
  · exact (sound hp he).stopped (s := s) hst

theorem exec_inv {i : Instr} {s t : State} (hs : s.Inv) (h : exec i s = .next t) : t.Inv := by
  rcases exec_cases h with rfl | ⟨_, hm, rfl⟩ | ⟨_, op, f1, f2, f3, f4, f5, rfl⟩ | ⟨_, hm, op, f1, f2, f3, f4, f5, rfl⟩
  · exact hs
  · refine microBody_inv i hs ?_
    cases hmode : s.mode with
    | idle => rfl
    | busy => exact absurd hmode hs.not_busy
    | halted => exact absurd hmode hm
  · exact State.Inv.reject (s := loadOperands f1 f2 f3 f4 f5 s) hs op
  · have ha : (glimpse (accepted op f1 f2 f3 f4 f5 s)).Sound := hs.sound hm
    by_cases hi : ∃ g1 g2 g3 g4 g5, i = .init g1 g2 g3 g4 g5
    · obtain ⟨g1, g2, g3, g4, g5, rfl⟩ := hi
      exact initBody_inv ha (hs.row_eq hm)
    · exact requestBody_inv (fun g1 g2 g3 g4 g5 e => hi ⟨g1, g2, g3, g4, g5, e⟩) ha (hs.row_eq hm)

/-- Settles O55: a step reads the status port, resets the block or runs one instruction (`step_cases`), and each keeps the invariant. -/
theorem stepKeepsInv : Obligations.StepKeepsInv := by
  intro s t hs h
  rcases step_cases h with rfl | ⟨rest, ⟨_, rfl⟩ | ⟨_, rfl⟩ | ⟨i, h⟩⟩
  · exact hs
  · exact hs
  · obtain ⟨_, _, _, _, _, _, _, _, hk, _, _, hstub⟩ := hs
    exact resetBlock_inv (s := { s with port := rest }) hk hstub
  · exact exec_inv (s := { s with port := rest }) hs h

/-- Settles O54: the state after reset is what the reset event leaves of it, and its stub is fresh. -/
theorem invAtReset : Obligations.InvAtReset := by
  refine resetBlock_inv (s := State.reset) (by decide) fun q hq => ?_
  obtain rfl : Panel.fresh = q := Option.some.inj hq
  exact Panel.fresh_inv

/-- Settles O7: each register by its own value in `State.reset` (R39, A17). -/
theorem resetState : Obligations.ResetState :=
  ⟨⟨rfl, rfl, rfl, rfl, rfl, rfl, rfl, rfl, rfl, rfl⟩, rfl, rfl⟩

end Sys2Proof.Machine
end

section
/-! What steps leave alone: the parameters, the trace and the readings made (R33, R254, R16, R32); and, where no reset comes, what a halted
block keeps (R28, R231), INIT_DONE (R27) and the registers that a frame does not write (R21, R29, R119). -/

namespace Sys2Proof.Machine

/-! ## The trace and the readings only grow -/

/-- The parameters are the same, nothing is taken off the trace and no reading is lost. -/
def Grows (s t : State) : Prop := t.params = s.params ∧ s.trace <+: t.trace ∧ s.reads <+: t.reads

theorem Grows.refl (s : State) : Grows s s := ⟨rfl, List.prefix_rfl, List.prefix_rfl⟩

theorem Grows.trans {s t u : State} (h : Grows s t) (k : Grows t u) : Grows s u := by
  obtain ⟨hp, ht, hr⟩ := h
  obtain ⟨kp, kt, kr⟩ := k
  exact ⟨kp.trans hp, ht.trans kt, hr.trans kr⟩

theorem Plain.grows {s t : State} (h : Plain s t) : Grows s t := by
  obtain ⟨evs, ht, _⟩ := h.events
  exact ⟨h.params, ⟨evs, ht.symm⟩, h.reads⟩

theorem setHost_grows (s : State) (ms : List HostMove) {rs : List StatusPort} (h : s.reads <+: rs) : Grows s (setHost ms rs s) :=
  ⟨rfl, List.prefix_rfl, h⟩

/-- An event on the trace and nothing else that `Grows` looks at. -/
theorem grows_of_trace {s t : State} {evs : List Event} (hp : t.params = s.params) (ht : t.trace = s.trace ++ evs)
    (hr : t.reads = s.reads) : Grows s t :=
  ⟨hp, ⟨evs, ht.symm⟩, hr ▸ List.prefix_rfl⟩

theorem cutOff_grows (s : State) : Grows s (cutOff s) := ⟨rfl, List.prefix_rfl, List.prefix_rfl⟩

theorem markFault_grows (f : Frame) (s : State) : Grows s (markFault f s) := grows_of_trace rfl rfl rfl

theorem faultEntry_grows (s : State) : Grows s (faultEntry s) := grows_of_trace rfl rfl rfl

theorem Stopped.grows {s u t : State} (h : Stopped s u t) : Grows u t := by
  have fault (f : Frame) : Grows u (markFault f (afterAnswer u)) := markFault_grows f (afterAnswer u)
  rcases h with ⟨f, rfl, _⟩ | ⟨_, rfl | ⟨f, rfl⟩⟩
  · exact (fault f).trans (faultEntry_grows _)
  · exact cutOff_grows u
  · exact (fault f).trans (cutOff_grows _)

theorem Micro.From.grows {E : State → State → Prop} {s : State} {m : Micro} (h : m.From E s) : Grows s m.state := by
  cases m with
  | run t => exact h.1.grows
  | ended t =>
    obtain ⟨u, hp, _, hst⟩ := h
    exact hp.grows.trans (Stopped.grows hst)

theorem finish_grows (m : Micro) : Grows m.state (finish m) := by
  rcases finish_cases m with ⟨t, rfl, e⟩ | ⟨t, rfl, ⟨ms, rs, _, hrs, e⟩ | ⟨ms, rs, _, hrs, e⟩⟩ <;> rw [e]
  · exact Grows.refl t
  · exact (setHost_grows t ms hrs).trans (cutOff_grows _)
  · exact (setHost_grows t ms hrs).trans (grows_of_trace rfl rfl rfl)

theorem reject_grows (op : Byte) (s : State) : Grows s (reject op s) := by
  rcases reject_cases op s with ⟨ms, rs, _, hrs, e⟩ | ⟨ms, rs, _, hrs, e⟩ <;> rw [e]
  · exact (setHost_grows s ms hrs).trans (cutOff_grows _)
  · exact (setHost_grows s ms hrs).trans (grows_of_trace rfl rfl rfl)

theorem initBody_grows (s : State) (hk : s.params.script.length ≤ 255) : Grows s (initBody s).state := by
  rcases initBody_cases s hk with ⟨u, e, hp, _⟩ | ⟨t, u, e, hp, _, hst⟩ <;> rw [e]
  · exact Grows.trans (t := setInitDone true u) hp.grows (Plain.glimpse _).grows
  · exact Grows.trans (t := u) hp.grows (Stopped.grows (s := s) hst)

theorem exec_grows {i : Instr} {s t : State} (h : exec i s = .next t) : Grows s t := by
  rcases exec_cases h with rfl | ⟨_, _, rfl⟩ | ⟨_, op, f1, f2, f3, f4, f5, rfl⟩ | ⟨_, _, op, f1, f2, f3, f4, f5, rfl⟩
  · exact Grows.refl _
  · exact (microBody_from i s).grows
  · exact reject_grows op (loadOperands f1 f2 f3 f4 f5 s)
  · have ha : Grows s (glimpse (accepted op f1 f2 f3 f4 f5 s)) := (Plain.glimpse (accepted op f1 f2 f3 f4 f5 s)).grows
    refine (ha.trans ?_).trans (finish_grows _)
    by_cases hi : ∃ g1 g2 g3 g4 g5, i = .init g1 g2 g3 g4 g5
    · obtain ⟨g1, g2, g3, g4, g5, rfl⟩ := hi
      have hscript : s.params.script.length ≤ 255 := exec_init_script h
      exact initBody_grows _ hscript
    · exact (requestBody_from (fun g1 g2 g3 g4 g5 e => hi ⟨g1, g2, g3, g4, g5, e⟩) _).grows

/-- Settles O56: every operation of the block only adds to the trace and to the readings (`exec_grows`). -/
theorem parametersAndTrace : Obligations.ParametersAndTrace := by
  intro s t h
  have hg : Grows s t := by
    rcases step_cases h with rfl | ⟨rest, ⟨_, rfl⟩ | ⟨_, rfl⟩ | ⟨i, h⟩⟩
    · exact Grows.refl _
    · exact ⟨rfl, List.prefix_rfl, List.prefix_append _ _⟩
    · exact ⟨rfl, List.prefix_rfl, List.prefix_rfl⟩
    · exact exec_grows (s := { s with port := rest }) h
  obtain ⟨hp, ⟨evs, ht⟩, rs, hr⟩ := hg
  exact ⟨hp, ⟨evs, ht.symm⟩, rs, hr.symm⟩

/-! ## Where no reset comes -/

/-- The registers that neither a frame nor the end of an operation writes, and what no operation writes at all. -/
def RegistersKept (s t : State) : Prop := BusOnly s t ∧ t.initDone = s.initDone ∧ t.params = s.params ∧ t.port = s.port

theorem RegistersKept.refl (s : State) : RegistersKept s s := ⟨BusOnly.refl s, rfl, rfl, rfl⟩

theorem RegistersKept.trans {s t u : State} (h : RegistersKept s t) (k : RegistersKept t u) : RegistersKept s u := by
  obtain ⟨hb, hd, hp, hq⟩ := h
  obtain ⟨kb, kd, kp, kq⟩ := k
  exact ⟨hb.trans kb, kd.trans hd, kp.trans hp, kq.trans hq⟩

theorem Stopped.kept {s u t : State} (hs : s.NoReset) (h : Stopped s u t) : RegistersKept u t := by
  rcases h with ⟨f, rfl, _⟩ | ⟨hn, _⟩
  · simp [RegistersKept, BusOnly, SameWindow, SameRows]
  · exact absurd hs hn

/-- An operation ends in what its micro-steps have written. -/
theorem Micro.From.state_kept {E : State → State → Prop} {s : State} {m : Micro} (h : m.From E s) (hs : s.NoReset) :
    ∃ u, Plain s u ∧ E s u ∧ RegistersKept u m.state := by
  cases m with
  | run t => exact ⟨t, h.1, h.2, RegistersKept.refl t⟩
  | ended t =>
    obtain ⟨u, hp, he, hst⟩ := h
    exact ⟨u, hp, he, Stopped.kept hs hst⟩

theorem finish_kept {m : Micro} (hm : m.state.NoReset) : RegistersKept m.state (finish m) := by
  rcases finish_cases m with ⟨t, rfl, e⟩ | ⟨t, rfl, ⟨ms, rs, h, _⟩ | ⟨ms, rs, _, _, e⟩⟩
  · rw [e]
    exact RegistersKept.refl t
  · exact absurd hm (reset_next h)
  · rw [e]
    exact RegistersKept.refl t

theorem reject_noReset (op : Byte) {s : State} (hs : s.NoReset) :
    ∃ ms rs, ms <:+ s.moves ∧ s.reads <+: rs ∧ reject op s = rejected op (setHost ms rs s) := by
  rcases reject_cases op s with ⟨ms, rs, h, _⟩ | h
  · exact absurd hs (reset_next h)
  · exact h

theorem reject_kept (op : Byte) {s : State} (hs : s.NoReset) : RegistersKept s (reject op s) := by
  obtain ⟨ms, rs, _, _, e⟩ := reject_noReset op hs
  rw [e]
  exact RegistersKept.refl s

theorem accepted_noReset (op : Byte) (f1 f2 f3 f4 f5 : Half) {s : State} (hs : s.NoReset) :
    (glimpse (accepted op f1 f2 f3 f4 f5 s)).NoReset := (Plain.glimpse (accepted op f1 f2 f3 f4 f5 s)).noReset hs

/-! ## A halted block (R28, R231) -/

/-- Settles O17: of the requests a halted block only rejects one, of the rows below them it runs none. -/
theorem haltedLeftOnlyByReset : Obligations.HaltedLeftOnlyByReset := by
  intro s t hm hs h hport
  rcases step_cases h with rfl | ⟨rest, ⟨_, rfl⟩ | ⟨hreset, _⟩ | ⟨i, h⟩⟩
  · exact ⟨hm, rfl, rfl, rfl, rfl, rfl⟩
  · exact ⟨hm, rfl, rfl, rfl, rfl, rfl⟩
  · exact absurd hreset (hport rest)
  · rcases exec_cases h with rfl | ⟨_, hne, _⟩ | ⟨_, op, f1, f2, f3, f4, f5, rfl⟩ | ⟨_, hidle, _⟩
    · exact ⟨hm, rfl, rfl, rfl, rfl, rfl⟩
    · exact absurd hm hne
    · obtain ⟨ms, rs, _, _, e⟩ := reject_noReset op (s := loadOperands f1 f2 f3 f4 f5 { s with port := rest }) hs
      rw [e]
      exact ⟨hm, rfl, rfl, rfl, rfl, rfl⟩
    · exact absurd (hm.symm.trans hidle) (by decide)

/-! ## INIT_DONE (R27) -/

theorem faultsAt_of_not_answersOk {s : State} {n : Nat} (h : ¬s.AnswersOk n) : ∃ m < n, s.FaultsAt m := by
  induction n with
  | zero => exact absurd (fun k hk => absurd hk (Nat.not_lt_zero k)) h
  | succ n ih =>
    by_cases hn : s.AnswersOk n
    · refine ⟨n, Nat.lt_succ_self n, hn, ?_⟩
      cases ha : s.answerAt n with
      | fault => rfl
      | ok => exact absurd (fun k hk => (Nat.lt_succ_iff_lt_or_eq.mp hk).elim (hn k) fun e => e ▸ ha) h
    · obtain ⟨m, hm, hf⟩ := ih hn
      exact ⟨m, by omega, hf⟩

theorem scriptFrames_cons (r : ScriptRecord) (rs : List ScriptRecord) : scriptFrames (r :: rs) = recordFrames r + scriptFrames rs := by
  simp [scriptFrames]

/-- Frame m of a script is frame k of one of its records (R130, R131). -/
theorem frame_of_script {rs : List ScriptRecord} {m : Nat} (h : m < scriptFrames rs) :
    ∃ before r after k, rs = before ++ r :: after ∧ m = scriptFrames before + k ∧ k < recordFrames r := by
  induction rs generalizing m with
  | nil => exact absurd h (Nat.not_lt_zero m)
  | cons q rs ih =>
    rw [scriptFrames_cons] at h
    by_cases hm : m < recordFrames q
    · exact ⟨[], q, rs, m, rfl, (Nat.zero_add m).symm, hm⟩
    · obtain ⟨before, r, after, k, rfl, hk, hr⟩ := ih (m := m - recordFrames q) (by omega)
      exact ⟨q :: before, r, after, k, rfl, by rw [scriptFrames_cons]; omega, hr⟩

theorem recordSteps_length (r : ScriptRecord) : (recordSteps r).length = recordFrames r := by
  by_cases hp : r.payload = [] <;> simp [recordSteps, recordFrames, hp]

/-- The end of an INIT whose script was sent whole (R130). -/
theorem finish_setInitDone {s : State} (hr : s.moves = []) : (finish (.run (glimpse (setInitDone true s)))).initDone = true := by
  rw [glimpse_nil (setInitDone true s) hr, finish_run (setInitDone true s) hr]
  rfl

/-- INIT of a block that the host leaves alone (R130). -/
theorem initDone_iff_answersOk {f1 f2 f3 f4 f5 : Half} {s t : State} (hi : s.mode = .idle) (hr : s.moves = [])
    (h : exec (.init f1 f2 f3 f4 f5) s = .next t) : t.initDone = true ↔ s.AnswersOk (scriptFrames s.params.script) := by
  have hk : s.params.script.length ≤ 255 := exec_init_script h
  let a := initStart (accepted 0x01 f1 f2 f3 f4 f5 s)
  have ht : t = finish ((runScript s.params.script.length a).andThen fun s => .run (glimpse (setInitDone true s))) := by
    have hb : initBegin (glimpse (accepted 0x01 f1 f2 f3 f4 f5 s)) = a := by
      rw [glimpse_nil (accepted 0x01 f1 f2 f3 f4 f5 s) hr]
      exact initBegin_waits (by rw [State.Waits, show (accepted 0x01 f1 f2 f3 f4 f5 s).moves = [] from hr]; rfl)
    rw [← hb]
    simp only [exec, execInit, if_pos hk, request, hi, Host.Outcome.next.injEq] at h
    exact h.symm
  rw [ht]
  by_cases hok : s.AnswersOk (scriptFrames s.params.script)
  · refine iff_of_true ?_ hok
    obtain ⟨ph, e⟩ := runScript_ok s.params.script a rfl (by simpa [a] using hk) hr hok
    rw [e, andThen_run]
    exact finish_setInitDone hr
  · refine iff_of_false ?_ hok
    obtain ⟨m, hm, hf⟩ := faultsAt_of_not_answersOk hok
    obtain ⟨before, r, after, k, hs, rfl, hk'⟩ := frame_of_script hm
    obtain ⟨⟨ph, f⟩, hstep⟩ : ∃ x, (recordSteps r)[k]? = some x := ⟨_, List.getElem?_eq_getElem (by rwa [recordSteps_length])⟩
    have hl := congrArg List.length hs
    rw [List.length_append, List.length_cons] at hl
    rw [runScript_fault before after r a s.params.script.length k ph f hs (by omega) (by simp [a]; omega) hr hstep hf]
    exact Bool.false_ne_true

theorem initDone_kept {i : Instr} {s t : State} (hi : ∀ f1 f2 f3 f4 f5, i ≠ .init f1 f2 f3 f4 f5) (hs : s.NoReset)
    (h : exec i s = .next t) : t.initDone = s.initDone := by
  rcases exec_cases h with rfl | ⟨_, _, rfl⟩ | ⟨_, op, f1, f2, f3, f4, f5, rfl⟩ | ⟨_, _, op, f1, f2, f3, f4, f5, rfl⟩
  · rfl
  · obtain ⟨u, hp, _, _, hd, _⟩ := (microBody_from i s).state_kept hs
    exact hd.trans hp.initDone
  · obtain ⟨_, hd, _⟩ := reject_kept op (s := loadOperands f1 f2 f3 f4 f5 s) hs
    exact hd
  · have ha := accepted_noReset op f1 f2 f3 f4 f5 hs
    obtain ⟨u, hp, _, _, hd, _⟩ := (requestBody_from hi _).state_kept ha
    obtain ⟨_, he, _⟩ := finish_kept (requestBody_blind i _ ha).2
    exact he.trans (hd.trans hp.initDone)

/-- Settles O31: without the host's reads (`readsChangeNothing`) INIT sends its whole script or stops at the first frame answered
`fault`. -/
theorem initDoneMeaning : Obligations.InitDoneMeaning := by
  refine ⟨fun f1 f2 f3 f4 f5 s t hi hs h => ?_, fun i s t hi hs h => initDone_kept hi hs h⟩
  have hu := readsChangeNothing (.init f1 f2 f3 f4 f5) s hs
  rw [h] at hu
  exact initDone_iff_answersOk (s := s.unwatched) (t := t.unwatched) hi rfl hu

/-! ## What a frame leaves alone (R21, R119) -/

/-- The rows whose micro-steps are frames and delays only: the three protocol operations, a reserved code, the lone frames, the pixel,
a lone record and the sixteen commands. -/
def FramesOnly (p : Params) (i : Instr) : Prop :=
  (∃ f1 f2 f3 f4 f5, i = .sendCommand f1 f2 f3 f4 f5 ∨ i = .sendData f1 f2 f3 f4 f5) ∨
    (∃ f1 f2 f3 f4 f5 hp, i = .sendDataBuffer f1 f2 f3 f4 f5 hp) ∨ (∃ op f1 f2 f3 f4 f5, i = .reservedHostOp op f1 f2 f3 f4 f5) ∨
    (∃ b, i = .cmdFrame b) ∨ (∃ bs, i = .dataFrame bs) ∨ (∃ r g b, i = .pix2 r g b) ∨ (∃ o pl d, i = .srec o pl d) ∨
    (∃ c ∈ controllerCommands p, i = c.1)

theorem dataStep_from (ph : Phase) (bs : List Byte) (s : State) : (busData bs (enterPhase ph s)).From BusOnly s :=
  (busData_from bs (enterPhase ph s)).after (plain_enterPhase ph s) fun _ h => h

theorem FramesOnly.from {p : Params} {i : Instr} (h : FramesOnly p i) (s : State) :
    (microBody i s).From BusOnly s ∧ (requestBody i s).From BusOnly s := by
  have none : (Micro.run s).From BusOnly s := .run_refl (BusOnly.refl s)
  rcases h with ⟨_, _, _, _, _, rfl | rfl⟩ | ⟨_, _, _, _, _, hp, rfl⟩ | ⟨_, _, _, _, _, _, rfl⟩ | ⟨b, rfl⟩ | ⟨bs, rfl⟩ | ⟨r, g, b, rfl⟩ |
    ⟨o, pl, d, rfl⟩ | ⟨c, hc, rfl⟩
  · exact ⟨none, cmdStep_from _ _ s⟩
  · exact ⟨none, dataStep_from _ _ s⟩
  · exact ⟨none, busDataIf_from _ _ s⟩
  · exact ⟨none, none⟩
  · exact ⟨busCmd_from b s, none⟩
  · exact ⟨busDataIf_from _ bs s, none⟩
  · exact ⟨busData_from _ s, none⟩
  · exact ⟨execRecord_from _ s, none⟩
  · simp only [controllerCommands, List.mem_cons, List.not_mem_nil, or_false] at hc
    rcases hc with rfl | rfl | rfl | rfl | rfl | rfl | rfl | rfl | rfl | rfl | rfl | rfl | rfl | rfl | rfl | rfl <;>
      exact ⟨cmdStep_from _ _ s, none⟩

theorem RegistersKept.of_from {s : State} {m : Micro} (h : m.From BusOnly s) (hs : s.NoReset) : RegistersKept s m.state := by
  obtain ⟨u, hp, hb, hk⟩ := h.state_kept hs
  exact RegistersKept.trans ⟨hb, hp.initDone, hp.params, hp.port⟩ hk

theorem FramesOnly.kept {p : Params} {i : Instr} {s t : State} (hi : FramesOnly p i) (hs : s.NoReset) (h : exec i s = .next t) :
    RegistersKept s t := by
  rcases exec_cases h with rfl | ⟨_, _, rfl⟩ | ⟨_, op, f1, f2, f3, f4, f5, rfl⟩ | ⟨_, _, op, f1, f2, f3, f4, f5, rfl⟩
  · exact RegistersKept.refl _
  · exact .of_from (hi.from s).1 hs
  · exact reject_kept op (s := loadOperands f1 f2 f3 f4 f5 s) hs
  · have ha := accepted_noReset op f1 f2 f3 f4 f5 hs
    have hb := RegistersKept.of_from (hi.from (glimpse (accepted op f1 f2 f3 f4 f5 s))).2 ha
    exact RegistersKept.trans (t := glimpse (accepted op f1 f2 f3 f4 f5 s)) (RegistersKept.refl s)
      (hb.trans (finish_kept (requestBody_blind i _ ha).2))

/-! ## PRIMED and the data frames (R29, R113) -/

/-- PRIMED is as it was, and the block does not halt. -/
def PrimedKept (s t : State) : Prop := t.primed = s.primed ∧ (t.mode = .halted → s.mode = .halted)

/-- The block halts with PRIMED cleared (R222). -/
def HaltedUnprimed (t : State) : Prop := t.mode = .halted ∧ t.primed = false

/-- Micro-steps that keep PRIMED while they go on, and clear it where they end. -/
def Micro.KeepsPrimed (s : State) : Micro → Prop
  | .run t => PrimedKept s t
  | .ended t => HaltedUnprimed t

theorem Micro.KeepsPrimed.state {s : State} {m : Micro} (h : m.KeepsPrimed s) : PrimedKept s m.state ∨ HaltedUnprimed m.state := by
  cases m with
  | run t => exact .inl h
  | ended t => exact .inr h

/-- Register writes after them that leave PRIMED and MODE alone. -/
theorem Micro.KeepsPrimed.andThen {s : State} {m : Micro} (h : m.KeepsPrimed s) {g : State → State} (hp : ∀ t, (g t).primed = t.primed)
    (hm : ∀ t, (g t).mode = t.mode) : (m.andThen fun t => .run (g t)).KeepsPrimed s := by
  cases m with
  | run t => exact ⟨(hp t).trans h.1, fun e => h.2 ((hm t).symm.trans e)⟩
  | ended t => exact h

/-- The completion of a request (R115). -/
theorem Micro.KeepsPrimed.finish {s : State} {m : Micro} (h : m.KeepsPrimed s) (hn : m.state.NoReset) :
    PrimedKept s (finish m) ∨ HaltedUnprimed (finish m) := by
  rcases finish_cases m with ⟨t, rfl, e⟩ | ⟨t, rfl, ⟨ms, rs, hr, _⟩ | ⟨ms, rs, _, _, e⟩⟩
  · rw [e]
    exact .inr h
  · exact absurd hn (reset_next hr)
  · rw [e]
    exact .inl ⟨h.1, fun e => absurd e (by simp)⟩

theorem busData_keepsPrimed (bs : List Byte) {s : State} (hs : s.NoReset) : (busData bs s).KeepsPrimed s := by
  rcases busData_cases bs s with ⟨m, rs, h, _⟩ | ⟨m, rs, h, _, ⟨_, e⟩ | ⟨_, e⟩⟩
  · exact absurd hs (reset_next h)
  · rw [e]
    rcases raiseFault_cases (.data bs) (afterAnswer (driveData (setHost m rs s))) with ⟨m', rs', h', _⟩ | ⟨m', rs', _, _, e'⟩
    · exact absurd hs (reset_next (h'.trans h))
    · rw [e']
      exact ⟨rfl, rfl⟩
  · rw [e]
    exact ⟨rfl, id⟩

theorem dataStep_keepsPrimed (ph : Phase) (bs : List Byte) {s : State} (hs : s.NoReset) :
    (busData bs (enterPhase ph s)).KeepsPrimed s :=
  busData_keepsPrimed bs ((plain_enterPhase ph s).noReset hs)

theorem busDataIf_keepsPrimed (ph : Phase) (bs : List Byte) {s : State} (hs : s.NoReset) : (busDataIf ph bs s).KeepsPrimed s := by
  unfold busDataIf
  split
  · exact ⟨rfl, id⟩
  · exact dataStep_keepsPrimed ph bs hs

/-- The rows whose frames are data frames only. -/
def DataFramesOnly (i : Instr) : Prop :=
  (∃ f1 f2 f3 f4 f5, i = .sendData f1 f2 f3 f4 f5) ∨ (∃ f1 f2 f3 f4 f5 hp, i = .sendDataBuffer f1 f2 f3 f4 f5 hp) ∨
    (∃ bs, i = .dataFrame bs) ∨ (∃ a b, i = .addr4 a b) ∨ (∃ r g b, i = .pix2 r g b)

theorem DataFramesOnly.keepsPrimed {i : Instr} (hi : DataFramesOnly i) {s : State} (hs : s.NoReset) :
    (microBody i s).KeepsPrimed s ∧ (requestBody i s).KeepsPrimed s := by
  have none : (Micro.run s).KeepsPrimed s := ⟨rfl, id⟩
  rcases hi with ⟨_, _, _, _, _, rfl⟩ | ⟨_, _, _, _, _, hp, rfl⟩ | ⟨bs, rfl⟩ | ⟨a, b, rfl⟩ | ⟨r, g, b, rfl⟩
  · exact ⟨none, dataStep_keepsPrimed _ _ hs⟩
  · exact ⟨none, busDataIf_keepsPrimed _ _ hs⟩
  · exact ⟨busDataIf_keepsPrimed _ _ hs, none⟩
  · refine ⟨?_, none⟩
    simp only [microBody]
    split
    · exact (dataStep_keepsPrimed _ _ hs).andThen (fun _ => rfl) fun _ => rfl
    · split
      · exact (dataStep_keepsPrimed _ _ hs).andThen (fun _ => rfl) fun _ => rfl
      · exact busData_keepsPrimed _ hs
  · exact ⟨busData_keepsPrimed _ hs, none⟩

theorem DataFramesOnly.primed {i : Instr} (hi : DataFramesOnly i) {s t : State} (hs : s.NoReset) (h : exec i s = .next t) :
    PrimedKept s t ∨ HaltedUnprimed t := by
  rcases exec_cases h with rfl | ⟨_, _, rfl⟩ | ⟨_, op, f1, f2, f3, f4, f5, rfl⟩ | ⟨_, hidle, op, f1, f2, f3, f4, f5, rfl⟩
  · exact .inl ⟨rfl, id⟩
  · exact (hi.keepsPrimed hs).1.state
  · obtain ⟨ms, rs, _, _, e⟩ := reject_noReset op (s := loadOperands f1 f2 f3 f4 f5 s) hs
    rw [e]
    exact .inl ⟨rfl, id⟩
  · have ha := accepted_noReset op f1 f2 f3 f4 f5 hs
    refine ((hi.keepsPrimed ha).2.finish (requestBody_blind i _ ha).2).imp_left fun hk => ⟨hk.1, fun e => ?_⟩
    exact absurd (hk.2 e) (by simp)

/-- Settles O57: the rows of its first part keep the registers that no frame writes (`FramesOnly.kept`), the data frames keep PRIMED or
halt (`DataFramesOnly.primed`). -/
theorem frameBus : Obligations.FrameBus := by
  refine ⟨fun i s t hs h hi => ?_, fun i s t hs h hi => ?_⟩
  · obtain ⟨⟨hwindow, ⟨hbuf, hlen, hrows, hrow⟩, hsp⟩, hdone, hparams, hport⟩ := FramesOnly.kept hi hs h
    exact ⟨hwindow, fun a => by rw [hbuf], hlen, hrows, hrow, hsp, hdone, hparams, hport⟩
  · rcases DataFramesOnly.primed hi hs h with ⟨hprimed, hmode⟩ | ⟨hmode, hprimed⟩
    · exact ⟨fun _ => hprimed, fun e hne => absurd (hmode e) hne⟩
    · exact ⟨fun hne => absurd hmode hne, fun _ _ => hprimed⟩

end Sys2Proof.Machine
end

section
/-! The readings in a micro-step (R12, R26, R32): an operation is the list of its micro-steps and of the register writes between them (R8);
where the host lets the first of them go on and reads in the next one, its readings show the registers with that micro-step in progress. -/

namespace Sys2Proof.Machine

/-! ## An operation as the list of its pieces (R8, R25) -/

/-- A piece of an operation: a frame or a delay in the micro-step PHASE names, or a register write between two micro-steps. -/
inductive Piece where
  | frame (ph : Phase) (f : State → Frame)
  | wait (ph : Phase) (n : Half)
  | write (g : State → State)

/-- What is driven before the transfer of a frame (R111 to R113). -/
def Frame.drive : Frame → State → State
  | .command _ => driveCmd
  | .data _ => driveData

/-- The same where the host does not look on. -/
def Frame.driven : Frame → State → State
  | .command _ => drivenCmd
  | .data _ => driveData

/-- The transfer of a frame (R112, R113). -/
def Frame.transfer : Frame → State → Micro
  | .command b => transferCmd b
  | .data bs => transferData bs

/-- A transfer the transport answered `ok`, where the host does not look on after it (R112, R113). -/
def Frame.sent : Frame → State → State
  | .command b, s => setPrimed (primedAfter s.params b) (s.sent [.cmd b] 1)
  | .data bs, s => s.sent [.data bs] 1

/-- What a piece does. -/
def Piece.run : Piece → State → Micro
  | .frame ph f, s => inProgress (f s).transfer ((f s).drive (enterPhase ph s))
  | .wait ph n, s => delayFor n (enterPhase ph s)
  | .write g, s => .run (glimpse (g s))

/-- The pieces of a list one after another. -/
def runPieces : List Piece → State → Micro
  | [], s => .run s
  | p :: ps, s => (p.run s).andThen (runPieces ps)

/-- Whether a piece is a micro-step, in which the host can read. -/
def Piece.isStep : Piece → Bool
  | .frame _ _ | .wait _ _ => true
  | .write _ => false

/-- The registers while a micro-step is in progress. -/
def Piece.shown : Piece → State → State
  | .frame ph f, s => (f s).driven (setPhase ph s)
  | .wait ph _, s => setPhase ph s
  | .write _, s => s

/-- What a piece leaves where the host lets it go on and the transport answers `ok`. -/
def Piece.done : Piece → State → State
  | .frame ph f, s => setHost s.moves.tail s.reads ((f s).sent ((f s).driven (setPhase ph s)))
  | .wait ph n, s => setHost s.moves.tail s.reads ((setPhase ph s).sent [.wait n] 0)
  | .write g, s => g s

/-- What the pieces of a list leave so. -/
abbrev piecesDone (ps : List Piece) (s : State) : State := ps.foldl (fun s p => p.done s) s

/-- A piece that takes no notice of the host, and writes no answer of the transport. -/
def Piece.Good : Piece → Prop
  | .frame _ f => ∀ ms rs s, f (setHost ms rs s) = f s
  | .wait _ _ => True
  | .write g => OffHost g ∧ ∀ s k, (g s).answerAt k = s.answerAt k

/-- How many of the host's moves let a piece go on. -/
def Piece.steps : Piece → Nat
  | .frame _ _ | .wait _ _ => 1
  | .write _ => 0

/-- How many answers of the transport a piece takes. -/
def Piece.frames : Piece → Nat
  | .frame _ _ => 1
  | .wait _ _ | .write _ => 0

/-- The micro-steps of a list. -/
def stepCount (ps : List Piece) : Nat := (ps.map Piece.steps).sum

/-- The frames of a list. -/
def frameCount (ps : List Piece) : Nat := (ps.map Piece.frames).sum

theorem stepCount_cons (p : Piece) (ps : List Piece) : stepCount (p :: ps) = p.steps + stepCount ps := by simp [stepCount]

theorem frameCount_cons (p : Piece) (ps : List Piece) : frameCount (p :: ps) = p.frames + frameCount ps := by simp [frameCount]

theorem stepCount_append (ps qs : List Piece) : stepCount (ps ++ qs) = stepCount ps + stepCount qs := by simp [stepCount]

theorem frameCount_append (ps qs : List Piece) : frameCount (ps ++ qs) = frameCount ps + frameCount qs := by simp [frameCount]

theorem andThen_run_self (m : Micro) : m.andThen .run = m := by cases m <;> rfl

theorem runPieces_append (ps qs : List Piece) (s : State) : runPieces (ps ++ qs) s = (runPieces ps s).andThen (runPieces qs) := by
  induction ps generalizing s with
  | nil => rfl
  | cons p ps ih => simp only [List.cons_append, runPieces, andThen_assoc, ← funext ih]

/-! ## Pieces take no notice of the host -/

theorem Frame.transfer_blind (f : Frame) : Blind f.transfer := by
  cases f with
  | command b => exact transferCmd_blind b
  | data bs => exact transferData_blind bs

theorem Frame.drive_unseen (f : Frame) : Unseen f.drive := by
  cases f with
  | command b => exact driveCmd_unseen
  | data bs => exact .write fun _ _ _ => rfl

theorem Piece.run_blind {p : Piece} (hp : p.Good) : Blind p.run := by
  cases p with
  | frame ph f =>
    exact Blind.ofRegister (f := f)
      (fun f => (Frame.transfer_blind f).inProgress.comp ((Frame.drive_unseen f).comp (enterPhase_unseen ph))) hp
  | wait ph n => exact (delayFor_blind n).comp (enterPhase_unseen ph)
  | write g => exact (Unseen.seenWrite hp.1).run

theorem runPieces_blind {ps : List Piece} (h : ∀ p ∈ ps, p.Good) : Blind (runPieces ps) := by
  induction ps with
  | nil => exact Machine.run_blind
  | cons p ps ih => exact (Piece.run_blind (h p (.head _))).andThen (ih fun q hq => h q (.tail _ hq))

/-! ## Pieces the host lets go on -/

/-- A list of moves by which the host lets m micro-steps go on and reads n times in the next one. -/
abbrev readingIn (m n : Nat) : List HostMove := List.replicate m .proceed ++ List.replicate n .readStatus

theorem readsBetween_readingIn (m n : Nat) : readsBetween (readingIn m n) = (0, readingIn m n) := by
  cases m with
  | succ m => rfl
  | zero => cases n <;> rfl

theorem waits_of_readingIn {s : State} {m n : Nat} (h : s.moves = readingIn m n) : s.Waits := by
  rw [State.Waits, h]
  exact readsBetween_readingIn m n

theorem driveCmd_waits {s : State} (h : s.Waits) : driveCmd s = drivenCmd s := by
  unfold driveCmd
  rw [glimpse_waits (s := { s with dc := s.params.dcCmd }) h]
  rfl

theorem Frame.drive_waits (f : Frame) {s : State} (h : s.Waits) : f.drive s = f.driven s := by
  cases f with
  | command b => exact driveCmd_waits h
  | data bs => rfl

theorem Frame.driven_moves (f : Frame) (s : State) : (f.driven s).moves = s.moves := by cases f <;> rfl

theorem Frame.driven_reads (f : Frame) (s : State) : (f.driven s).reads = s.reads := by cases f <;> rfl

theorem Frame.driven_answerAt (f : Frame) (s : State) (k : Nat) : (f.driven s).answerAt k = s.answerAt k := by cases f <;> rfl

theorem Frame.transfer_ok (f : Frame) {s : State} (hw : s.Waits) (ha : s.answerAt 0 = .ok) : f.transfer s = .run (f.sent s) := by
  cases f with
  | command b => exact (transferCmd_ok b s ha).trans (congrArg Micro.run (glimpse_waits (s := Frame.sent (.command b) s) hw))
  | data bs => exact transferData_ok bs s ha

theorem Frame.sent_setHost (f : Frame) (ms : List HostMove) (rs : List StatusPort) (s : State) :
    f.sent (setHost ms rs s) = setHost ms rs (f.sent s) := by cases f <;> rfl

theorem Frame.sent_answerAt (f : Frame) (s : State) (k : Nat) : (f.sent s).answerAt k = s.answerAt (1 + k) := by
  cases f with
  | command b => exact answerAt_sent s [.cmd b] 1 k
  | data bs => exact answerAt_sent s [.data bs] 1 k

/-- A piece that the host lets go on, where the transport answers `ok`. -/
theorem Piece.run_ok {p : Piece} (hp : p.Good) {s : State} {m n : Nat} (hm : s.moves = readingIn (p.steps + m) n)
    (ha : s.AnswersOk p.frames) : p.run s = .run (p.done s) := by
  have hw : s.Waits := waits_of_readingIn hm
  cases p with
  | frame ph f =>
    have hms : s.moves = .proceed :: readingIn m n := by rw [hm, Piece.steps, Nat.add_comm]; rfl
    let d := (f s).driven (setPhase ph s)
    have hd : d.moves = .proceed :: readingIn m n := ((f s).driven_moves _).trans hms
    have hr : d.reads = s.reads := (f s).driven_reads _
    have hok : (f s).transfer (setHost (readingIn m n) s.reads d) = .run ((f s).sent (setHost (readingIn m n) s.reads d)) :=
      (f s).transfer_ok (waits_of_readingIn (m := m) (n := n) rfl) (((f s).driven_answerAt _ 0).trans (ha 0 Nat.one_pos))
    simp only [Piece.run, Piece.done]
    rw [enterPhase_waits ph hw, (f s).drive_waits (s := setPhase ph s) hw, inProgress_proceed _ hd, hr, hok, Frame.sent_setHost, hms]
    rfl
  | wait ph d =>
    have hms : s.moves = .proceed :: readingIn m n := by rw [hm, Piece.steps, Nat.add_comm]; rfl
    simp only [Piece.run, Piece.done]
    rw [enterPhase_waits ph hw, delayFor, inProgress_proceed _ (s := setPhase ph s) hms, emit_eq_sent, hms]
    rfl
  | write g =>
    have hwg : (g s).Waits := by rwa [State.Waits, hp.1.moves]
    exact congrArg Micro.run (glimpse_waits hwg)

theorem Piece.done_moves {p : Piece} (hp : p.Good) {s : State} {m n : Nat} (hm : s.moves = readingIn (p.steps + m) n) :
    (p.done s).moves = readingIn m n := by
  cases p with
  | frame ph f | wait ph d =>
    rw [Piece.steps, Nat.add_comm] at hm
    exact congrArg List.tail hm
  | write g =>
    rw [Piece.steps, Nat.zero_add] at hm
    exact (hp.1.moves s).trans hm

theorem Piece.done_reads {p : Piece} (hp : p.Good) (s : State) : (p.done s).reads = s.reads := by
  cases p with
  | frame ph f | wait ph d => rfl
  | write g => exact hp.1.reads s

theorem Piece.done_answerAt {p : Piece} (hp : p.Good) (s : State) (k : Nat) : (p.done s).answerAt k = s.answerAt (p.frames + k) := by
  cases p with
  | frame ph f => exact ((f s).sent_answerAt ((f s).driven (setPhase ph s)) k).trans ((f s).driven_answerAt (setPhase ph s) (1 + k))
  | wait ph d => exact answerAt_sent s [] 0 k
  | write g => exact (hp.2 s k).trans (by rw [Piece.frames, Nat.zero_add])

theorem runPieces_ok {ps : List Piece} (h : ∀ p ∈ ps, p.Good) {s : State} {m n : Nat} (hm : s.moves = readingIn (stepCount ps + m) n)
    (ha : s.AnswersOk (frameCount ps)) :
    runPieces ps s = .run (piecesDone ps s) ∧ (piecesDone ps s).moves = readingIn m n ∧ (piecesDone ps s).reads = s.reads := by
  induction ps generalizing s with
  | nil => exact ⟨rfl, hm.trans (by rw [stepCount, List.map_nil, List.sum_nil, Nat.zero_add]), rfl⟩
  | cons p ps ih =>
    have hp : p.Good := h p (.head _)
    rw [stepCount_cons, Nat.add_assoc] at hm
    rw [frameCount_cons] at ha
    obtain ⟨hrun, hmoves, hreads⟩ := ih (fun q hq => h q (.tail _ hq)) (s := p.done s) (Piece.done_moves hp hm)
      fun k hk => (Piece.done_answerAt hp s k).trans (ha _ (by omega))
    rw [runPieces, Piece.run_ok hp hm fun k hk => ha k (by omega), andThen_run]
    exact ⟨hrun, hmoves, hreads.trans (Piece.done_reads hp s)⟩

/-! ## Reads in a micro-step -/

theorem during_reads (k : State → Micro) (n : Nat) (s : State) :
    during k (List.replicate n .readStatus) s = k (setHost [] (s.reads ++ List.replicate n (readStatus s)) s) := by
  induction n generalizing s with
  | zero => simp [during]
  | succ n ih =>
    have hreads : (statusRead s).reads ++ List.replicate n (readStatus s) = s.reads ++ List.replicate (n + 1) (readStatus s) := by
      simp [statusRead, List.replicate_succ]
    rw [List.replicate_succ, during, ih]
    exact congrArg (fun rs => k (setHost [] rs s)) hreads

/-- A micro-step in which the host reads n times and does nothing more. -/
theorem inProgress_reads (k : State → Micro) {s : State} {n : Nat} (hm : s.moves = readingIn 0 n) :
    inProgress k s = k (setHost [] (s.reads ++ List.replicate n (readStatus s)) s) := by
  unfold inProgress
  rw [hm]
  exact during_reads k n s

/-- A micro-step in which the host reads n times, and the rest l of the operation, which nothing reads. -/
theorem Piece.reads_within {p : Piece} (hstep : p.isStep = true) {s : State} {n : Nat} (hm : s.moves = readingIn 0 n) {l : State → Micro}
    (hl : Blind l) : (finish ((p.run s).andThen l)).reads = s.reads ++ List.replicate n (readStatus (p.shown s)) := by
  have hw : s.Waits := waits_of_readingIn hm
  cases p with
  | frame ph f =>
    simp only [Piece.run, Piece.shown]
    have hd : ((f s).driven (setPhase ph s)).moves = readingIn 0 n := ((f s).driven_moves _).trans hm
    rw [enterPhase_waits ph hw, (f s).drive_waits (s := setPhase ph s) hw, inProgress_reads _ hd, (f s).driven_reads]
    exact (finish_unseen ((f s).transfer_blind.andThen hl)).quiet rfl
  | wait ph d =>
    simp only [Piece.run, Piece.shown, delayFor]
    rw [enterPhase_waits ph hw, inProgress_reads _ (s := setPhase ph s) hm]
    exact (finish_unseen ((Unseen.run (.write (g := emit (.wait d)) fun _ _ _ => rfl)).andThen hl)).quiet rfl
  | write g => cases hstep

/-- A request whose first pieces the host lets go on, with n reads in the next one. -/
theorem request_shows_within {op : Byte} {f1 f2 f3 f4 f5 : Half} {body : State → Micro} {s : State} {pre post : List Piece} {p : Piece}
    {n : Nat} (hi : s.mode = .idle)
    (hb : body (accepted op f1 f2 f3 f4 f5 s) = runPieces (pre ++ p :: post) (accepted op f1 f2 f3 f4 f5 s))
    (hgood : ∀ q ∈ pre ++ p :: post, q.Good) (hstep : p.isStep = true) (hm : s.moves = readingIn (stepCount pre) n)
    (ha : s.AnswersOk (frameCount pre)) :
    ∃ t, request op f1 f2 f3 f4 f5 body s = .next t ∧
      t.reads = s.reads ++ List.replicate n (readStatus (p.shown (piecesDone pre (accepted op f1 f2 f3 f4 f5 s)))) := by
  refine ⟨finish (body (glimpse (accepted op f1 f2 f3 f4 f5 s))), by simp only [request, hi], ?_⟩
  obtain ⟨hrun, hmoves, hreads⟩ := runPieces_ok (m := 0) (fun q hq => hgood q (List.mem_append_left _ hq))
    (s := accepted op f1 f2 f3 f4 f5 s) hm ha
  rw [glimpse_waits (s := accepted op f1 f2 f3 f4 f5 s) (waits_of_readingIn hm), hb, runPieces_append, hrun, andThen_run, runPieces,
    Piece.reads_within hstep hmoves (runPieces_blind fun q hq => hgood q (List.mem_append_right _ (.tail _ hq))), hreads]
  rfl

end Sys2Proof.Machine
end

section
/-! The status port (O11): the window program, the fill and INIT as lists of pieces, and the readings in each of their micro-steps. -/

namespace Sys2Proof.Machine

/-! ## SET_WINDOW (R171, R172) -/

/-- A window program. -/
def windowPieces (x0 y0 x1 y1 : Half) : List Piece :=
  [.frame .casetC fun s => .command s.params.opCaset, .frame .casetD fun _ => .data (addr4Bytes x0 x1),
    .write (writeWx0 x0), .write (writeWx1 x1),
    .frame .pasetC fun s => .command s.params.opPaset, .frame .pasetD fun _ => .data (addr4Bytes y0 y1),
    .write (writeWy0 y0), .write (writeWy1 y1),
    .frame .ramwrC fun s => .command s.params.opRamwr]

theorem windowPieces_good (x0 y0 x1 y1 : Half) : ∀ p ∈ windowPieces x0 y0 x1 y1, p.Good := by
  simp only [windowPieces, List.forall_mem_cons]
  exact ⟨fun _ _ _ => rfl, fun _ _ _ => rfl, ⟨fun _ _ _ => rfl, fun _ _ => rfl⟩, ⟨fun _ _ _ => rfl, fun _ _ => rfl⟩, fun _ _ _ => rfl,
    fun _ _ _ => rfl, ⟨fun _ _ _ => rfl, fun _ _ => rfl⟩, ⟨fun _ _ _ => rfl, fun _ _ => rfl⟩, fun _ _ _ => rfl, nofun⟩

theorem windowProgram_pieces (x0 y0 x1 y1 : Half) (s : State) :
    windowProgram x0 y0 x1 y1 s = runPieces (windowPieces x0 y0 x1 y1) s := by
  simp only [windowPieces, runPieces, andThen_run_self, windowProgram, columnData, rowData, andThen_assoc, andThen_run]
  rfl

/-- Reads in a micro-step of SET_WINDOW, with P what they show: its pieces before that one are done. -/
theorem window_shows {f1 f2 f3 f4 f5 : Half} {s : State} {n : Nat} {pre post : List Piece} {p : Piece} {P : StatusPort → Prop}
    (hsplit : windowPieces f1 f2 f3 f4 = pre ++ p :: post) (hstep : p.isStep = true) (hi : s.mode = .idle)
    (hm : s.moves = readingIn (stepCount pre) n) (ha : s.AnswersOk (frameCount pre))
    (hP : P (readStatus (p.shown (piecesDone pre (accepted 0x05 f1 f2 f3 f4 f5 s))))) :
    ∃ (t : State) (v : StatusPort), exec (.setWindow f1 f2 f3 f4 f5) s = .next t ∧ t.reads = s.reads ++ List.replicate n v ∧ P v := by
  obtain ⟨t, ht, hr⟩ := request_shows_within (body := requestBody (.setWindow f1 f2 f3 f4 f5)) hi
    (hsplit ▸ windowProgram_pieces f1 f2 f3 f4 _) (hsplit ▸ windowPieces_good f1 f2 f3 f4) hstep hm ha
  exact ⟨t, _, ht, hr, hP⟩

/-- Reads in frame k of SET_WINDOW (R172). -/
theorem windowFrame_shows {f1 f2 f3 f4 f5 : Half} {s : State} {k n : Nat} {ph : Phase} {f : Frame} (hi : s.mode = .idle)
    (hm : s.moves = readingIn k n) (hf : (windowFrames s.params f1 f2 f3 f4)[k]? = some (ph, f)) (ha : s.AnswersOk k) :
    ∃ (t : State) (v : StatusPort), exec (.setWindow f1 f2 f3 f4 f5) s = .next t ∧ t.reads = s.reads ++ List.replicate n v ∧
      v.mode = 1 ∧ v.phase = ph.code ∧ v.dc = f.level s.params ∧ v.initDone = s.initDone ∧ v.fault = s.faultFlag ∧
      v.lastStatus = s.lastStatus.code ∧ v.wx0 = (if 1 < k then f1 else s.wx0) ∧ v.wx1 = (if 1 < k then f3 else s.wx1) ∧
      v.wy0 = (if 3 < k then f2 else s.wy0) ∧ v.wy1 = (if 3 < k then f4 else s.wy1) := by
  have hlt : k < 5 := (List.getElem?_eq_some_iff.mp hf).1
  match k, hlt with
  | 0, _ =>
    obtain ⟨rfl, rfl⟩ := Prod.mk.inj (Option.some.inj hf)
    exact window_shows (pre := []) rfl rfl hi hm ha ⟨rfl, rfl, rfl, rfl, rfl, rfl, rfl, rfl, rfl, rfl⟩
  | 1, _ =>
    obtain ⟨rfl, rfl⟩ := Prod.mk.inj (Option.some.inj hf)
    exact window_shows (pre := (windowPieces f1 f2 f3 f4).take 1) rfl rfl hi hm ha ⟨rfl, rfl, rfl, rfl, rfl, rfl, rfl, rfl, rfl, rfl⟩
  | 2, _ =>
    obtain ⟨rfl, rfl⟩ := Prod.mk.inj (Option.some.inj hf)
    exact window_shows (pre := (windowPieces f1 f2 f3 f4).take 4) rfl rfl hi hm ha ⟨rfl, rfl, rfl, rfl, rfl, rfl, rfl, rfl, rfl, rfl⟩
  | 3, _ =>
    obtain ⟨rfl, rfl⟩ := Prod.mk.inj (Option.some.inj hf)
    exact window_shows (pre := (windowPieces f1 f2 f3 f4).take 5) rfl rfl hi hm ha ⟨rfl, rfl, rfl, rfl, rfl, rfl, rfl, rfl, rfl, rfl⟩
  | 4, _ =>
    obtain ⟨rfl, rfl⟩ := Prod.mk.inj (Option.some.inj hf)
    exact window_shows (pre := (windowPieces f1 f2 f3 f4).take 8) rfl rfl hi hm ha ⟨rfl, rfl, rfl, rfl, rfl, rfl, rfl, rfl, rfl, rfl⟩

/-! ## The fills (R179) -/

/-- `ROWBUF` packed and `ROWLEN <- 2cw` (R179, R183). -/
def packBytes (cw : Nat) (c : Half) (s : State) : State :=
  { s with rowbuf := Memory.writeList s.rowbuf 0 (rowBytes cw c), rowlen := BitVec.ofNat 16 (2 * cw) }

/-- `ROWS <- n` (R179). -/
def writeRowTotal (n : Half) (s : State) : State := { s with rows := n }

/-- `ROW <- 0` (R179). -/
def clearRow (s : State) : State := { s with row := 0 }

/-- The row packed (R179). -/
def packPieces (cw ch : Nat) (c : Half) : List Piece :=
  [.write (packBytes cw c), .write (writeRowTotal (BitVec.ofNat 16 ch)), .write clearRow]

/-- One row-write (R179). -/
def rowPiece : Piece := .frame .rowD fun s => .data (rowRead s.rowbuf s.rowlen.toNat)

/-- n row-writes (R184). -/
def rowPieces : Nat → List Piece
  | 0 => []
  | n + 1 => rowPiece :: .write countRow :: rowPieces n

/-- A fill that draws cw × ch pixels from (x, y), up to its first row-write (R179). -/
def fillStart (x y : Int) (cw ch : Nat) (c : Half) : List Piece :=
  packPieces cw ch c ++ windowPieces (bound x) (bound y) (bound (x + cw - 1)) (bound (y + ch - 1))

theorem packPieces_good (cw ch : Nat) (c : Half) : ∀ p ∈ packPieces cw ch c, p.Good := by
  simp only [packPieces, List.forall_mem_cons]
  exact ⟨⟨fun _ _ _ => rfl, fun _ _ => rfl⟩, ⟨fun _ _ _ => rfl, fun _ _ => rfl⟩, ⟨fun _ _ _ => rfl, fun _ _ => rfl⟩, nofun⟩

theorem rowPieces_good (n : Nat) : ∀ p ∈ rowPieces n, p.Good := by
  induction n with
  | zero => nofun
  | succ n ih =>
    simp only [rowPieces, List.forall_mem_cons]
    exact ⟨fun _ _ _ => rfl, ⟨fun _ _ _ => rfl, fun _ _ => rfl⟩, ih⟩

theorem fillStart_good (x y : Int) (cw ch : Nat) (c : Half) : ∀ p ∈ fillStart x y cw ch c, p.Good :=
  List.forall_mem_append.mpr ⟨packPieces_good cw ch c, windowPieces_good _ _ _ _⟩

theorem rowPieces_add (m n : Nat) : rowPieces (m + n) = rowPieces m ++ rowPieces n := by
  induction m with
  | zero => rw [Nat.zero_add]; rfl
  | succ m ih => rw [Nat.succ_add, rowPieces, rowPieces, ih]; rfl

theorem rowLoop_pieces (n : Nat) (s : State) : rowLoop n s = runPieces (rowPieces n) s := by
  induction n generalizing s with
  | zero => rfl
  | succ n ih =>
    simp only [rowLoop, rowPieces, runPieces, ← funext ih, rowWrite, andThen_assoc]
    rfl

theorem fill_pieces (x y : Int) (cw ch : Nat) (c : Half) (s : State) :
    fill (some (cw, ch)) x y c s = runPieces (fillStart x y cw ch c ++ rowPieces ch) s := by
  rw [fillStart, runPieces_append, runPieces_append, andThen_assoc, ← funext (rowLoop_pieces ch),
    ← funext (windowProgram_pieces _ _ _ _)]
  rfl

theorem rowPieces_stepCount (n : Nat) : stepCount (rowPieces n) = n := by
  induction n with
  | zero => rfl
  | succ n ih => rw [rowPieces, stepCount_cons, stepCount_cons, ih, rowPiece, Piece.steps, Piece.steps]; omega

theorem rowPieces_frameCount (n : Nat) : frameCount (rowPieces n) = n := by
  induction n with
  | zero => rfl
  | succ n ih => rw [rowPieces, frameCount_cons, frameCount_cons, ih, rowPiece, Piece.frames, Piece.frames]; omega

/-- ROW is counted on by n and the other registers of the port but PHASE and DC are left alone (R23, R29). -/
def RowsCounted (n : Nat) (s t : State) : Prop :=
  SameWindow s t ∧ t.mode = s.mode ∧ t.primed = s.primed ∧ t.params = s.params ∧ t.rowlen = s.rowlen ∧ t.rows = s.rows ∧
    t.row = s.row + BitVec.ofNat 16 n

theorem rowPiece_done (s : State) :
    rowPiece.done s =
      setHost s.moves.tail s.reads ((driveData (setPhase .rowD s)).sent [.data (rowRead s.rowbuf s.rowlen.toNat)] 1) := rfl

theorem RowsCounted.one (s : State) : RowsCounted 1 s (countRow (rowPiece.done s)) := by
  simp [RowsCounted, SameWindow, rowPiece_done]

theorem RowsCounted.succ {n : Nat} {s t u : State} (h : RowsCounted 1 s t) (k : RowsCounted n t u) : RowsCounted (n + 1) s u := by
  obtain ⟨hwindow, hmode, hprimed, hparams, hlen, hrows, hrow⟩ := h
  obtain ⟨kwindow, kmode, kprimed, kparams, klen, krows, krow⟩ := k
  refine ⟨hwindow.trans kwindow, kmode.trans hmode, kprimed.trans hprimed, kparams.trans hparams, klen.trans hlen, krows.trans hrows, ?_⟩
  rw [krow, hrow, BitVec.add_assoc, ← BitVec.ofNat_add, Nat.add_comm]

theorem rowPieces_done (n : Nat) (s : State) : RowsCounted n s (piecesDone (rowPieces n) s) := by
  induction n generalizing s with
  | zero => exact ⟨⟨rfl, rfl, rfl, rfl⟩, rfl, rfl, rfl, rfl, rfl, (BitVec.add_zero _).symm⟩
  | succ n ih =>
    rw [rowPieces, piecesDone, List.foldl_cons, List.foldl_cons]
    exact (RowsCounted.one s).succ (ih _)

/-- The registers of the port where the first row-write of a fill begins (R179). -/
theorem fillStart_done (x y : Int) (cw ch : Nat) (c : Half) (s : State) {t : State} (ht : piecesDone (fillStart x y cw ch c) s = t) :
    t.mode = s.mode ∧ t.primed = true ∧ t.params = s.params ∧ t.rowlen = BitVec.ofNat 16 (2 * cw) ∧ t.rows = BitVec.ofNat 16 ch ∧
      t.row = 0 ∧ t.wx0 = bound x ∧ t.wy0 = bound y ∧ t.wx1 = bound (x + cw - 1) ∧ t.wy1 = bound (y + ch - 1) := by
  subst ht
  simp [fillStart, packPieces, windowPieces, Piece.done, Frame.sent, Frame.driven, packBytes, writeRowTotal, clearRow, writeWx0, writeWx1,
    writeWy0, writeWy1, primedAfter]

/-- Reads in row-write j of a fill (R23, R179). -/
theorem rowFrame_shows {f1 f2 f3 f4 c : Half} {op : Byte} {i : Instr} {x y : Int} {cw ch j n : Nat} {s : State}
    (hd : DrawingFill f1 f2 f3 f4 c op i x y cw ch) (hj : j < ch) (hi : s.mode = .idle) (hm : s.moves = readingIn (5 + j) n)
    (ha : s.AnswersOk (5 + j)) :
    ∃ (t : State) (v : StatusPort), exec i s = .next t ∧ t.reads = s.reads ++ List.replicate n v ∧ v.mode = 1 ∧ v.phase = 9 ∧
      v.row = BitVec.ofNat 16 j ∧ v.rows = BitVec.ofNat 16 ch ∧ v.rowlen = BitVec.ofNat 16 (2 * cw) ∧ v.primed = true ∧
      v.dc = s.params.dcData ∧ v.wx0 = bound x ∧ v.wy0 = bound y ∧ v.wx1 = bound (x + cw - 1) ∧ v.wy1 = bound (y + ch - 1) := by
  obtain ⟨he, hb⟩ := drawingFill_exec hd s
  have hsplit : fillStart x y cw ch c ++ rowPieces ch =
      (fillStart x y cw ch c ++ rowPieces j) ++ rowPiece :: .write countRow :: rowPieces (ch - j - 1) := by
    obtain ⟨k, rfl⟩ : ∃ k, ch = j + (k + 1) := ⟨ch - j - 1, by omega⟩
    rw [List.append_assoc, show j + (k + 1) - j - 1 = k by omega]
    exact congrArg _ (rowPieces_add j (k + 1))
  have hsteps : stepCount (fillStart x y cw ch c ++ rowPieces j) = 5 + j := by
    rw [stepCount_append, rowPieces_stepCount]; rfl
  have hframes : frameCount (fillStart x y cw ch c ++ rowPieces j) = 5 + j := by
    rw [frameCount_append, rowPieces_frameCount]; rfl
  obtain ⟨t, ht, hr⟩ := request_shows_within (p := rowPiece) hi (hb.trans ((fill_pieces x y cw ch c _).trans (by rw [hsplit])))
    (hsplit ▸ List.forall_mem_append.mpr ⟨fillStart_good x y cw ch c, rowPieces_good ch⟩) rfl (hsteps ▸ hm) (hframes ▸ ha)
  rw [piecesDone, List.foldl_append] at hr
  obtain ⟨kmode, kprimed, kparams, klen, krows, krow, kwx0, kwy0, kwx1, kwy1⟩ :=
    fillStart_done x y cw ch c (accepted op f1 f2 f3 f4 c s) rfl
  obtain ⟨⟨hwx0, hwy0, hwx1, hwy1⟩, hmode, hprimed, hparams, hlen, hrows, hrow⟩ :=
    rowPieces_done j (piecesDone (fillStart x y cw ch c) (accepted op f1 f2 f3 f4 c s))
  rw [krow] at hrow
  exact ⟨t, _, he.trans ht, hr, congrArg Mode.code (hmode.trans kmode), rfl, hrow.trans (BitVec.zero_add _), hrows.trans krows,
    hlen.trans klen, hprimed.trans kprimed, congrArg Params.dcData (hparams.trans kparams), hwx0.trans kwx0, hwy0.trans kwy0,
    hwx1.trans kwx1, hwy1.trans kwy1⟩

/-! ## INIT (R130, R131) -/

/-- A script record (R131). -/
def recordPieces (r : ScriptRecord) : List Piece :=
  .frame .recCmd (fun _ => .command r.opcode) ::
    ((if r.payload = [] then [] else [.frame .recData fun _ => .data r.payload]) ++
      (if r.delay = 0 then [] else [.wait .recWait r.delay]))

/-- `SP <- SP + 1` (R130). -/
def nextSp (s : State) : State := setSp (s.sp + 1) s

/-- The records of a script, each with the step of SP after it (R130). -/
def scriptPieces (rs : List ScriptRecord) : List Piece := rs.flatMap fun r => recordPieces r ++ [.write nextSp]

/-- Where INIT begins (R130, A17). -/
def initStartPieces : List Piece := [.write fun s => setInitDone false (restartStub s), .write (setSp 0)]

/-- INIT over a script (R130). -/
def initPieces (rs : List ScriptRecord) : List Piece := initStartPieces ++ scriptPieces rs ++ [.write (setInitDone true)]

theorem recordPieces_good (r : ScriptRecord) : ∀ p ∈ recordPieces r, p.Good := by
  refine List.forall_mem_cons.mpr ⟨fun _ _ _ => rfl, List.forall_mem_append.mpr ⟨?_, ?_⟩⟩ <;> split
  · nofun
  · exact List.forall_mem_singleton.mpr fun _ _ _ => rfl
  · nofun
  · exact List.forall_mem_singleton.mpr trivial

theorem scriptPieces_good (rs : List ScriptRecord) : ∀ p ∈ scriptPieces rs, p.Good := by
  intro p hp
  obtain ⟨r, _, hp⟩ := List.mem_flatMap.mp hp
  rcases List.mem_append.mp hp with hp | hp
  · exact recordPieces_good r p hp
  · rw [List.mem_singleton.mp hp]
    exact ⟨fun _ _ _ => rfl, fun _ _ => rfl⟩

theorem initPieces_good (rs : List ScriptRecord) : ∀ p ∈ initPieces rs, p.Good := by
  refine List.forall_mem_append.mpr ⟨List.forall_mem_append.mpr ⟨?_, scriptPieces_good rs⟩, ?_⟩
  · simp only [initStartPieces, List.forall_mem_cons]
    exact ⟨⟨fun _ _ _ => rfl, fun _ _ => rfl⟩, ⟨fun _ _ _ => rfl, fun _ _ => rfl⟩, nofun⟩
  · exact List.forall_mem_singleton.mpr ⟨fun _ _ _ => rfl, fun _ _ => rfl⟩

theorem scriptPieces_cons (r : ScriptRecord) (rs : List ScriptRecord) :
    scriptPieces (r :: rs) = recordPieces r ++ .write nextSp :: scriptPieces rs := by
  simp [scriptPieces]

theorem scriptPieces_append (rs qs : List ScriptRecord) : scriptPieces (rs ++ qs) = scriptPieces rs ++ scriptPieces qs := by
  simp [scriptPieces]

theorem execRecord_pieces (r : ScriptRecord) (s : State) : execRecord r s = runPieces (recordPieces r) s := by
  have hdata : busDataIf .recData r.payload = runPieces (if r.payload = [] then [] else [.frame .recData fun _ => .data r.payload]) := by
    funext t
    unfold busDataIf
    split
    · rfl
    · exact (andThen_run_self _).symm
  have hwait (t : State) : (if r.delay = 0 then .run t else delayFor r.delay (enterPhase .recWait t)) =
      runPieces (if r.delay = 0 then [] else [.wait .recWait r.delay]) t := by
    split
    · rfl
    · exact (andThen_run_self _).symm
  simp only [execRecord, hdata, hwait, recordPieces, runPieces, ← funext (runPieces_append _ _)]
  rfl

/-- The loop of INIT over the records from SP on (R130). -/
theorem runScript_pieces {rs : List ScriptRecord} {s : State} (hd : s.params.script.drop s.sp.toNat = rs)
    (hk : s.sp.toNat + rs.length ≤ 255) : runScript rs.length s = runPieces (scriptPieces rs) s := by
  induction rs generalizing s with
  | nil => rfl
  | cons r rs ih =>
    rw [List.length_cons] at hk
    have hl : s.sp.toNat < 255 := by omega
    rw [List.length_cons, runScript, fetchRecord_of_drop hd, scriptPieces_cons, runPieces_append, ← execRecord_pieces]
    have hf := execRecord_from r s
    show (execRecord r s).andThen _ = _
    cases hr : execRecord r s with
    | ended t => rfl
    | run t =>
      rw [hr] at hf
      obtain ⟨hplain, _, _, hsp⟩ := hf
      refine ih (s := glimpse (nextSp t)) ?_ ?_
      · rw [glimpse_params, glimpse_sp, nextSp, setSp_params, setSp_sp, hplain.params, hsp]
        exact drop_sp_succ hl hd
      · rw [glimpse_sp, nextSp, setSp_sp, hsp, sp_succ hl]
        omega

theorem initBody_pieces {s : State} (hk : s.params.script.length ≤ 255) : initBody s = runPieces (initPieces s.params.script) s := by
  have hsp : (initBegin s).sp.toNat + s.params.script.length ≤ 255 := (Nat.zero_add _).trans_le hk
  have hscript := runScript_pieces (rs := s.params.script) (s := initBegin s) rfl hsp
  rw [initPieces, runPieces_append, runPieces_append]
  show (runScript s.params.script.length (initBegin s)).andThen _ = _
  rw [hscript]
  rfl

theorem recordPieces_steps (r : ScriptRecord) : ∀ p ∈ recordPieces r, p.isStep = true := by
  refine List.forall_mem_cons.mpr ⟨rfl, List.forall_mem_append.mpr ⟨?_, ?_⟩⟩ <;> split
  · nofun
  · exact List.forall_mem_singleton.mpr rfl
  · nofun
  · exact List.forall_mem_singleton.mpr rfl

theorem stepCount_of_steps {ps : List Piece} (h : ∀ p ∈ ps, p.isStep = true) : stepCount ps = ps.length := by
  induction ps with
  | nil => rfl
  | cons p ps ih =>
    have hp : p.steps = 1 := by
      have hs := h p (.head _)
      cases p with
      | frame | wait => rfl
      | write g => cases hs
    rw [stepCount_cons, hp, ih fun q hq => h q (.tail _ hq), List.length_cons, Nat.add_comm]

theorem recordPieces_length (r : ScriptRecord) : (recordPieces r).length = (recordEvents r).length := by
  by_cases hp : r.payload = [] <;> by_cases hd : r.delay = 0#16 <;> simp [recordPieces, recordEvents, hp, hd]

theorem recordPieces_frameCount (r : ScriptRecord) (k : Nat) :
    frameCount ((recordPieces r).take k) = min k (recordFrames r) := by
  by_cases hp : r.payload = [] <;> by_cases hd : r.delay = 0#16 <;> rcases k with _ | _ | _ | k <;>
    simp [recordPieces, recordFrames, frameCount, Piece.frames, hp, hd]

theorem scriptPieces_stepCount (rs : List ScriptRecord) : stepCount (scriptPieces rs) = (scriptEvents rs).length := by
  induction rs with
  | nil => rfl
  | cons r rs ih =>
    rw [scriptPieces_cons, stepCount_append, stepCount_cons, stepCount_of_steps (recordPieces_steps r), recordPieces_length, ih,
      scriptEvents_cons, Piece.steps, Nat.zero_add]

theorem scriptPieces_frameCount (rs : List ScriptRecord) : frameCount (scriptPieces rs) = scriptFrames rs := by
  induction rs with
  | nil => rfl
  | cons r rs ih =>
    have hr : frameCount (recordPieces r) = recordFrames r := by
      have h := recordPieces_frameCount r (recordPieces r).length
      have hle : recordFrames r ≤ (recordPieces r).length := by
        by_cases hp : r.payload = [] <;> simp [recordPieces, recordFrames, hp]
      rwa [List.take_length, Nat.min_eq_right hle] at h
    rw [scriptPieces_cons, frameCount_append, frameCount_cons, hr, ih, scriptFrames_cons, Piece.frames, Nat.zero_add]

/-- PHASE in a piece. -/
def Piece.phase : Piece → Phase
  | .frame ph _ | .wait ph _ => ph
  | .write _ => .none

theorem recordPieces_phase (r : ScriptRecord) : (recordPieces r).map Piece.phase = recordPhases r := by
  by_cases hp : r.payload = [] <;> by_cases hd : r.delay = 0#16 <;> simp [recordPieces, recordPhases, Piece.phase, hp, hd]

/-- MODE, INIT_DONE and SP are the same. -/
def SameScript (s t : State) : Prop := t.mode = s.mode ∧ t.initDone = s.initDone ∧ t.sp = s.sp

theorem SameScript.trans {s t u : State} (h : SameScript s t) (k : SameScript t u) : SameScript s u := by
  obtain ⟨hmode, hdone, hsp⟩ := h
  obtain ⟨kmode, kdone, ksp⟩ := k
  exact ⟨kmode.trans hmode, kdone.trans hdone, ksp.trans hsp⟩

theorem Piece.step_sameScript {p : Piece} (h : p.isStep = true) (s : State) :
    SameScript s (p.shown s) ∧ (p.shown s).phase = p.phase ∧ SameScript s (p.done s) := by
  cases p with
  | frame ph f => cases hf : f s <;> simp [Piece.shown, Piece.done, Piece.phase, Frame.driven, Frame.sent, SameScript, hf]
  | wait ph n => simp [Piece.shown, Piece.done, Piece.phase, SameScript]
  | write g => cases h

theorem steps_sameScript {ps : List Piece} (h : ∀ p ∈ ps, p.isStep = true) (s : State) : SameScript s (piecesDone ps s) := by
  induction ps generalizing s with
  | nil => exact ⟨rfl, rfl, rfl⟩
  | cons p ps ih =>
    obtain ⟨_, _, hdone⟩ := Piece.step_sameScript (h p (.head _)) s
    exact hdone.trans (ih (fun q hq => h q (.tail _ hq)) _)

/-- SP counts the records (R24). -/
theorem scriptPieces_done (rs : List ScriptRecord) (s : State) :
    (piecesDone (scriptPieces rs) s).mode = s.mode ∧ (piecesDone (scriptPieces rs) s).initDone = s.initDone ∧
      (piecesDone (scriptPieces rs) s).sp = s.sp + BitVec.ofNat 8 rs.length := by
  induction rs generalizing s with
  | nil => exact ⟨rfl, rfl, (BitVec.add_zero _).symm⟩
  | cons r rs ih =>
    have hcons : piecesDone (scriptPieces (r :: rs)) s = piecesDone (scriptPieces rs) (nextSp (piecesDone (recordPieces r) s)) := by
      rw [scriptPieces_cons, piecesDone, List.foldl_append, List.foldl_cons]
      rfl
    obtain ⟨hmode, hdone, hsp⟩ := steps_sameScript (recordPieces_steps r) s
    rw [hcons]
    generalize piecesDone (recordPieces r) s = u at hmode hdone hsp ⊢
    obtain ⟨kmode, kdone, ksp⟩ := ih (nextSp u)
    refine ⟨kmode.trans hmode, kdone.trans hdone, ksp.trans ?_⟩
    rw [nextSp, setSp_sp, hsp, BitVec.add_assoc, List.length_cons, Nat.add_comm rs.length, BitVec.ofNat_add]
    rfl

/-- The k-th micro-step of a record (R131). -/
theorem recordPieces_split {r : ScriptRecord} {k : Nat} {ph : Phase} (h : (recordPhases r)[k]? = some ph) :
    k < (recordPieces r).length ∧ ∃ p post, p.isStep = true ∧ p.phase = ph ∧ recordPieces r = (recordPieces r).take k ++ p :: post := by
  rw [← recordPieces_phase, List.getElem?_map, Option.map_eq_some_iff] at h
  obtain ⟨p, hp, rfl⟩ := h
  obtain ⟨hlt, hget⟩ := List.getElem?_eq_some_iff.mp hp
  refine ⟨hlt, p, (recordPieces r).drop (k + 1), recordPieces_steps r p (hget ▸ List.getElem_mem hlt), rfl, ?_⟩
  rw [← hget, List.getElem_cons_drop, List.take_append_drop]

/-- What INIT has done before the k-th micro-step of the record r that follows the records before. -/
def initUntil (before : List ScriptRecord) (r : ScriptRecord) (k : Nat) : List Piece :=
  initStartPieces ++ scriptPieces before ++ (recordPieces r).take k

theorem initUntil_stepCount (before : List ScriptRecord) {r : ScriptRecord} {k : Nat} (hk : k < (recordPieces r).length) :
    stepCount (initUntil before r k) = (scriptEvents before).length + k := by
  rw [initUntil, stepCount_append, stepCount_append, scriptPieces_stepCount,
    stepCount_of_steps fun q hq => recordPieces_steps r q (List.mem_of_mem_take hq), List.length_take, Nat.min_eq_left hk.le]
  exact congrArg (· + k) (Nat.zero_add _)

theorem initUntil_frameCount (before : List ScriptRecord) (r : ScriptRecord) (k : Nat) :
    frameCount (initUntil before r k) = scriptFrames before + min k (recordFrames r) := by
  rw [initUntil, frameCount_append, frameCount_append, scriptPieces_frameCount, recordPieces_frameCount]
  exact congrArg (· + min k (recordFrames r)) (Nat.zero_add _)

theorem initUntil_done (before : List ScriptRecord) (r : ScriptRecord) (k : Nat) (s : State) :
    (piecesDone (initUntil before r k) s).mode = s.mode ∧ (piecesDone (initUntil before r k) s).initDone = false ∧
      (piecesDone (initUntil before r k) s).sp = BitVec.ofNat 8 before.length := by
  have hstart : (piecesDone initStartPieces s).mode = s.mode ∧ (piecesDone initStartPieces s).initDone = false ∧
      (piecesDone initStartPieces s).sp = 0#8 := ⟨rfl, rfl, rfl⟩
  have happend : piecesDone (initUntil before r k) s =
      piecesDone ((recordPieces r).take k) (piecesDone (scriptPieces before) (piecesDone initStartPieces s)) := by
    rw [initUntil, piecesDone, List.foldl_append, List.foldl_append]
  rw [happend]
  obtain ⟨hmode, hdone, hsp⟩ := hstart
  generalize piecesDone initStartPieces s = b at hmode hdone hsp ⊢
  obtain ⟨smode, sdone, ssp⟩ := scriptPieces_done before b
  obtain ⟨rmode, rdone, rsp⟩ :=
    steps_sameScript (fun q hq => recordPieces_steps r q (List.mem_of_mem_take hq)) (piecesDone (scriptPieces before) b)
  exact ⟨rmode.trans (smode.trans hmode), rdone.trans (sdone.trans hdone), rsp.trans (ssp.trans (by rw [hsp, BitVec.zero_add]))⟩

/-- Reads in the k-th micro-step of a record of INIT (R24, R25). -/
theorem recordStep_shows {f1 f2 f3 f4 f5 : Half} {s : State} {before after : List ScriptRecord} {r : ScriptRecord} {k n : Nat} {ph : Phase}
    (hi : s.mode = .idle) (hscript : s.params.script = before ++ r :: after) (hk : s.params.script.length ≤ 255)
    (hph : (recordPhases r)[k]? = some ph) (hm : s.moves = readingIn ((scriptEvents before).length + k) n)
    (ha : s.AnswersOk (scriptFrames before + min k (recordFrames r))) :
    ∃ (t : State) (v : StatusPort), exec (.init f1 f2 f3 f4 f5) s = .next t ∧ t.reads = s.reads ++ List.replicate n v ∧
      v.mode = 1 ∧ v.phase = ph.code ∧ v.sp = BitVec.ofNat 8 before.length ∧ v.initDone = false := by
  obtain ⟨hlt, p, post, hstep, rfl, hrecord⟩ := recordPieces_split hph
  have hsplit : initPieces s.params.script =
      initUntil before r k ++ p :: (post ++ .write nextSp :: scriptPieces after ++ [.write (setInitDone true)]) := by
    rw [hscript, initPieces, scriptPieces_append, scriptPieces_cons]
    conv_lhs => rw [hrecord]
    simp only [initUntil, List.append_assoc, List.cons_append]
  obtain ⟨t, ht, hr⟩ := request_shows_within (body := initBody) hi
    (hsplit ▸ initBody_pieces (s := accepted 0x01 f1 f2 f3 f4 f5 s) hk) (hsplit ▸ initPieces_good s.params.script) hstep
    (initUntil_stepCount before hlt ▸ hm) (initUntil_frameCount before r k ▸ ha)
  obtain ⟨hmode, hdone, hsp⟩ := initUntil_done before r k (accepted 0x01 f1 f2 f3 f4 f5 s)
  obtain ⟨⟨kmode, kdone, ksp⟩, hphase, _⟩ :=
    Piece.step_sameScript hstep (piecesDone (initUntil before r k) (accepted 0x01 f1 f2 f3 f4 f5 s))
  exact ⟨t, _, (if_pos hk).trans ht, hr, congrArg Mode.code (kmode.trans hmode), congrArg Phase.code hphase, ksp.trans hsp,
    kdone.trans hdone⟩

/-- Settles O11: a read between two operations by `step` and `readStatus` themselves, the reads in a micro-step clause by clause. -/
theorem statusPortReads : Obligations.StatusPortReads := by
  refine ⟨fun s => ⟨?_, ?_, ?_, rfl, rfl, rfl, rfl, rfl, rfl, rfl, rfl, rfl, rfl, rfl, rfl⟩, fun s rest hp => ?_,
    fun f1 f2 f3 f4 f5 s k n ph f hi hm hf ha => windowFrame_shows hi hm hf ha,
    fun f1 f2 f3 f4 f5 s before after r k n ph hi hs hk hph hm ha => recordStep_shows hi hs hk hph hm ha,
    fun f1 f2 f3 f4 c op i x y cw ch j n s hd hj hi hm ha => rowFrame_shows hd hj hi hm ha⟩
  · cases hmode : s.mode <;> simp only [readStatus, hmode] <;> rfl
  · cases hstatus : s.lastStatus <;> simp only [readStatus, hstatus] <;> rfl
  · cases hphase : s.phase <;> simp only [readStatus, hphase] <;> rfl
  · simp only [step, fetch, hp]
    rfl

end Sys2Proof.Machine
end

section
/-! A window and its pixels on the observer's stub (R71 to R73), read back (R75, R76): a fill of the screen, and a window filled by hand. -/

namespace Sys2Proof.Machine

/-! ## Streams of one colour -/

theorem flatten_replicate_flatten {α : Type} (m n : Nat) (l : List α) :
    (List.replicate m (List.replicate n l).flatten).flatten = (List.replicate (m * n) l).flatten := by
  rw [← List.flatten_replicate_replicate, List.flatten_flatten, List.map_replicate]

theorem pixelStream_replicate (n : Nat) (c : Half) : pixelStream (List.replicate n c) = (List.replicate n (be16 c)).flatten := by
  rw [pixelStream, List.flatMap_def, List.map_replicate]

theorem pixelStream_length (cs : List Half) : (pixelStream cs).length = 2 * cs.length := by
  simp [pixelStream, be16, Nat.mul_comm]

/-- The rows of a fill, one after another, are one stream of its pixels (R183, R184). -/
theorem flat_rows (cw ch : Nat) (c : Half) :
    flat (List.replicate ch (.data (rowBytes cw c))) = (pixelStream (List.replicate (ch * cw) c)).map .d := by
  rw [pixelStream_replicate, ← flatten_replicate_flatten, List.map_flatten, List.map_replicate, flat, List.flatMap_def,
    List.map_replicate]
  rfl

theorem flat_fillEvents (p : Params) (x y : Int) (cw ch : Nat) (c : Half) :
    flat (fillEvents p x y cw ch c) =
      flat (windowEvents p (bound x) (bound y) (bound (x + cw - 1)) (bound (y + ch - 1))) ++
        (pixelStream (List.replicate (ch * cw) c)).map .d := by
  rw [fillEvents, flat_append, flat_rows]

/-! ## A window and all its pixels -/

theorem windowIndex_lt {x0 y0 x1 y1 x y : Nat} (hx : x0 ≤ x ∧ x ≤ x1) (hy : y0 ≤ y ∧ y ≤ y1) :
    windowIndex x0 y0 x1 x y < (x1 + 1 - x0) * (y1 + 1 - y0) := by
  have hrow : (y - y0 + 1) * (x1 + 1 - x0) ≤ (y1 + 1 - y0) * (x1 + 1 - x0) := Nat.mul_le_mul_right _ (by omega)
  rw [Nat.add_mul] at hrow
  rw [windowIndex, Nat.mul_comm (x1 + 1 - x0) (y1 + 1 - y0)]
  omega

theorem windowPixels_pos {x0 y0 x1 y1 : Half} (hw : WindowValid x0 y0 x1 y1) :
    0 < (x1.toNat + 1 - x0.toNat) * (y1.toNat + 1 - y0.toNat) := by
  obtain ⟨hx, _, hy, _⟩ := hw
  exact Nat.mul_pos (by omega) (by omega)

/-- The stub q' is q after a window was opened and all its pixels cs written row by row (R71 to R73). -/
structure Panel.Painted (x0 y0 x1 y1 : Half) (cs : List Half) (q q' : Panel) : Prop where
  bad : q'.bad = (q.bad || q.st.isOpen)
  st : q'.st = .full
  inside : ∀ x y, x0.toNat ≤ x → x ≤ x1.toNat → y0.toNat ≤ y → y ≤ y1.toNat →
    q'.pixel? x y = cs[windowIndex x0.toNat y0.toNat x1.toNat x y]?
  outside : ∀ x y, x < Config.panelWidth → ¬(x0.toNat ≤ x ∧ x ≤ x1.toNat ∧ y0.toNat ≤ y ∧ y ≤ y1.toNat) → q'.pixel? x y = q.pixel? x y

theorem Panel.painted_run (p : Params) (q : Panel) {x0 y0 x1 y1 : Half} {cs : List Half} (hp : p.WindowOpcodesDistinct)
    (hw : WindowValid x0 y0 x1 y1) (hlen : cs.length = (x1.toNat + 1 - x0.toNat) * (y1.toNat + 1 - y0.toNat)) :
    Panel.Painted x0 y0 x1 y1 cs q (q.run p (flat (windowEvents p x0 y0 x1 y1) ++ (pixelStream cs).map .d)) := by
  rw [Panel.run_append, Panel.run_windowEvents p q x0 y0 x1 y1 hp hw]
  have hpos := windowPixels_pos hw
  have hwindow : (q.opened x0 y0 x1 y1).window? = some (x0.toNat, y0.toNat, x1.toNat, y1.toNat) := if_pos hw
  obtain ⟨hx, hx1, hy, _⟩ := hw
  have hstart : windowIndex x0.toNat y0.toNat x1.toNat x0.toNat y0.toNat = 0 := by simp [windowIndex]
  obtain ⟨hbad, _, hpixel, hfull⟩ := Panel.run_pixels p cs (q.opened x0 y0 x1 y1) x0.toNat y0.toNat x1.toNat y1.toNat x0.toNat y0.toNat
    hwindow rfl ⟨Nat.le_refl _, hx⟩ ⟨Nat.le_refl _, hy⟩ hx1 (by omega)
  rw [hstart] at hpixel
  refine ⟨hbad, hfull (by omega) (by omega), fun x y h0 h1 h2 h3 => ?_, fun x y hxw hout => ?_⟩
  · have hlt := windowIndex_lt (x0 := x0.toNat) (y0 := y0.toNat) ⟨h0, h1⟩ ⟨h2, h3⟩
    rw [hpixel x y (Nat.lt_of_le_of_lt h1 hx1), if_pos ⟨h0, h1, h2, h3, Nat.zero_le _, by omega⟩, Nat.sub_zero]
  · rw [hpixel x y hxw, if_neg fun ⟨h0, h1, h2, h3, _⟩ => hout ⟨h0, h1, h2, h3⟩]
    rfl

theorem Panel.Painted.bad_of_settled {x0 y0 x1 y1 : Half} {cs : List Half} {q q' : Panel} (h : Panel.Painted x0 y0 x1 y1 cs q q')
    (hs : q.Settled) : q'.bad = false := by
  rw [h.bad, hs.1, hs.2]
  rfl

/-! ## Reading back (R75) -/

theorem Panel.pixelBytes_of_pixel? {q : Panel} {x y : Nat} {c : Half} (h : q.pixel? x y = some c) :
    q.pixelBytes x y = (be16 c).map some := by
  unfold Panel.pixel? at h
  split at h
  · rename_i hin
    split at h
    · rename_i hi lo ehi elo
      cases h
      rw [Panel.pixelBytes, if_pos hin, ehi, elo, be16_ofBytes]
      rfl
    · cases h
  · cases h

/-- A window whose pixels all hold c reads back as c, once for each of them. -/
theorem Panel.readback_of_colour {q : Panel} {x0 y0 x1 y1 : Nat} {c : Half}
    (h : ∀ x y, x0 ≤ x → x ≤ x1 → y0 ≤ y → y ≤ y1 → q.pixel? x y = some c) :
    q.readback x0 y0 x1 y1 = (pixelStream (List.replicate ((y1 + 1 - y0) * (x1 + 1 - x0)) c)).map some := by
  have hrow : ∀ y ∈ List.range' y0 (y1 + 1 - y0), (List.range' x0 (x1 + 1 - x0)).flatMap (fun x => q.pixelBytes x y) =
      (List.replicate (x1 + 1 - x0) ((be16 c).map some)).flatten := by
    intro y hy
    have hbytes : ∀ x ∈ List.range' x0 (x1 + 1 - x0), q.pixelBytes x y = (be16 c).map some := fun x hx =>
      have hx := List.mem_range'_1.mp hx
      have hy := List.mem_range'_1.mp hy
      Panel.pixelBytes_of_pixel? (h x y (by omega) (by omega) (by omega) (by omega))
    rw [List.flatMap_def, List.map_congr_left hbytes, List.map_const', List.length_range']
  rw [Panel.readback, List.flatMap_def, List.map_congr_left hrow, List.map_const', List.length_range', flatten_replicate_flatten,
    pixelStream_replicate, List.map_flatten, List.map_replicate]

/-! ## Requests that run to their completion (R115) -/

/-- From s to t these events were sent, n of them frames answered `ok`; the host's moves and the parameters are the same. -/
structure Transmitted (evs : List Event) (n : Nat) (s t : State) : Prop where
  params : t.params = s.params
  moves : t.moves = s.moves
  stub : t.stub = consumed s.params evs s.stub
  answers : ∀ k, t.answerAt k = s.answerAt (n + k)

theorem State.Ready.mono {m n : Nat} {s : State} (h : s.Ready n) (hmn : m ≤ n) : s.Ready m := by
  obtain ⟨hi, hm, ha⟩ := h
  exact ⟨hi, hm, fun k hk => ha k (Nat.lt_of_lt_of_le hk hmn)⟩

theorem Transmitted.ready {evs : List Event} {m n : Nat} {s t : State} (h : Transmitted evs m s t) (hi : t.mode = .idle)
    (hs : s.Ready (m + n)) : t.Ready n := by
  obtain ⟨_, hm, ha⟩ := hs
  exact ⟨hi, h.moves.trans hm, fun k hk => (h.answers k).trans (ha _ (by omega))⟩

/-- The stub is known after them where it was before. -/
theorem Transmitted.stub_some {evs : List Event} {n : Nat} {s t : State} {q : Panel} (h : Transmitted evs n s t) (hq : s.stub = some q) :
    t.stub = some (q.run s.params (flat evs)) := by
  rw [h.stub, hq]
  rfl

/-- A request of an idle block whose micro-steps run to their end completes. -/
theorem request_transmits {op : Byte} {f1 f2 f3 f4 f5 : Half} {body : State → Micro} {evs : List Event} {n : Nat} {s u : State}
    (hi : s.mode = .idle) (hm : s.moves = []) (hb : body (accepted op f1 f2 f3 f4 f5 s) = .run u)
    (hu : Transmitted evs n (accepted op f1 f2 f3 f4 f5 s) u) :
    ∃ t, request op f1 f2 f3 f4 f5 body s = .next t ∧ t.mode = .idle ∧ Transmitted evs n s t := by
  refine ⟨completeOk u, ?_, rfl, hu.params, hu.moves, hu.stub, hu.answers⟩
  rw [request, hi, glimpse_nil (accepted op f1 f2 f3 f4 f5 s) hm, hb, finish_run u (hu.moves.trans hm)]

theorem setWindow_transmits (f1 f2 f3 f4 f5 : Half) {s : State} (h : s.Ready 5) :
    ∃ t, exec (.setWindow f1 f2 f3 f4 f5) s = .next t ∧ t.mode = .idle ∧ Transmitted (windowEvents s.params f1 f2 f3 f4) 5 s t := by
  obtain ⟨hi, hm, ha⟩ := h
  exact request_transmits hi hm (windowProgram_ok f1 f2 f3 f4 (accepted 0x05 f1 f2 f3 f4 f5 s) hm ha)
    ⟨rfl, rfl, rfl, fun k => answerAt_sent s [] 5 k⟩

theorem sendDataBuffer_transmits {n : Half} (f2 f3 f4 f5 : Half) {bs : List Byte} {s : State} (hlen : bs.length = n.toNat) (hne : bs ≠ [])
    (h : s.Ready 1) :
    ∃ t, exec (.sendDataBuffer n f2 f3 f4 f5 bs) s = .next t ∧ t.mode = .idle ∧ Transmitted [.data bs] 1 s t := by
  obtain ⟨hi, hm, ha⟩ := h
  have hbody : busDataIf .prim bs (accepted 0x04 n f2 f3 f4 f5 s) =
      .run ((driveData (setPhase .prim (accepted 0x04 n f2 f3 f4 f5 s))).sent [.data bs] 1) := by
    rw [busDataIf, if_neg hne, enterPhase_nil _ (accepted 0x04 n f2 f3 f4 f5 s) hm]
    exact busData_ok bs (setPhase .prim (accepted 0x04 n f2 f3 f4 f5 s)) hm (ha 0 (by omega))
  rw [exec, execSendDataBuffer, if_pos hlen]
  exact request_transmits hi hm hbody ⟨rfl, rfl, rfl, fun k => answerAt_sent s [] 1 k⟩

theorem drawingFill_transmits {f1 f2 f3 f4 c : Half} {op : Byte} {i : Instr} {x y : Int} {cw ch : Nat}
    (hd : DrawingFill f1 f2 f3 f4 c op i x y cw ch) {s : State} (hw : cw ≤ Config.panelWidth) (hc : 0 < ch) (h : s.Ready (5 + ch)) :
    ∃ t, exec i s = .next t ∧ t.mode = .idle ∧ Transmitted (fillEvents s.params x y cw ch c) (5 + ch) s t := by
  obtain ⟨hi, hm, ha⟩ := h
  obtain ⟨he, hb⟩ := drawingFill_exec hd s
  rw [he]
  exact request_transmits hi hm (hb.trans (fill_ok cw ch x y c (accepted op f1 f2 f3 f4 c s) hw hc hm ha))
    ⟨rfl, rfl, rfl, fun k => answerAt_sent s [] (5 + ch) k⟩

/-! ## The obligations -/

/-- Settles O51: a FILL_SCREEN that completes has painted the window 0, 0, 479, 319 with its colour (`Panel.painted_run`), and a window of
one colour reads back as that colour (`Panel.readback_of_colour`). -/
theorem fillScreenReadback : Obligations.FillScreenReadback := by
  intro f1 f2 f3 f4 c s q hq hs hp hr
  obtain ⟨t, ht, _, hsent⟩ := drawingFill_transmits (.inr ⟨rfl, rfl, rfl, rfl, rfl, rfl⟩ : DrawingFill f1 f2 f3 f4 c 0x07 _ 0 0 480 320)
    (Nat.le_refl _) (by decide) hr
  have hpaint := Panel.painted_run s.params q (x0 := bound 0) (y0 := bound 0) (x1 := bound (0 + (480 : Nat) - 1))
    (y1 := bound (0 + (320 : Nat) - 1)) (cs := List.replicate (320 * 480) c) hp (by decide) (List.length_replicate.trans (by decide))
  rw [← flat_fillEvents] at hpaint
  refine ⟨t, _, ht, hsent.stub_some hq, hpaint.bad_of_settled hs, hpaint.st, Panel.readback_of_colour fun x y h0 h1 h2 h3 => ?_⟩
  rw [hpaint.inside x y h0 h1 h2 h3, List.getElem?_replicate, if_pos]
  exact windowIndex_lt (y1 := 319) ⟨h0, h1⟩ ⟨h2, h3⟩

/-- Settles O52: the two requests together send a window program and all pixels of its window, which is what `Panel.painted_run` is
about. -/
theorem windowStreamRowMajor : Obligations.WindowStreamRowMajor := by
  intro x0 y0 x1 y1 f5 n f2 f3 f4 f5' cs s q hq hs hp hw hlen hn hr
  have hpos := windowPixels_pos hw
  have hbytes := pixelStream_length cs
  obtain ⟨t, ht, hidle, hwindow⟩ := setWindow_transmits x0 y0 x1 y1 f5 (hr.mono (by omega))
  obtain ⟨u, hu, _, hpixels⟩ := sendDataBuffer_transmits (n := n) f2 f3 f4 f5' (bs := pixelStream cs) (s := t) (by omega)
    (List.ne_nil_of_length_pos (by omega)) (hwindow.ready hidle hr)
  have hpaint := Panel.painted_run s.params q hp hw hlen
  have hstub := hpixels.stub_some (hwindow.stub_some hq)
  rw [hwindow.params, ← Panel.run_append, flat_cons, flat_nil, List.append_nil] at hstub
  exact ⟨t, u, _, ht, hu, hstub, hpaint.bad_of_settled hs, hpaint.st, hpaint.inside, fun x y hx _ hout => hpaint.outside x y hx hout⟩

end Sys2Proof.Machine
end

section
/-! What the frames of an operation do to the frame memory of the observer's stub (R71 to R73): nothing unless data bytes meet a window
held open, and then nothing outside it. -/

namespace Sys2Proof.Machine

/-! ## The tagged bytes an operation sends -/

/-- Micro-steps from s that send the bytes ts and go on, or end with the stub unknown (R223, R250). -/
def Micro.Feeds (ts : List Tagged) (s : State) : Micro → Prop
  | .run t => t.params = s.params ∧ t.stub = s.stub.map fun q => q.run s.params ts
  | .ended t => t.stub = none

theorem Micro.Feeds.run_nil {s t : State} (hp : t.params = s.params) (hs : t.stub = s.stub) : (Micro.run t).Feeds [] s := by
  refine ⟨hp, hs.trans ?_⟩
  cases s.stub <;> rfl

theorem Micro.Feeds.andThen {ts us : List Tagged} {s : State} {m : Micro} {k : State → Micro} (hm : m.Feeds ts s)
    (hk : ∀ t, t.params = s.params → (k t).Feeds us t) : (m.andThen k).Feeds (ts ++ us) s := by
  cases m with
  | ended t => exact hm
  | run t =>
    obtain ⟨hp, hs⟩ := hm
    have h := hk t hp
    rw [andThen_run]
    cases he : k t with
    | ended u =>
      rw [he] at h
      exact h
    | run u =>
      rw [he] at h
      obtain ⟨kp, ks⟩ := h
      refine ⟨kp.trans hp, ?_⟩
      rw [ks, hs, hp, Option.map_map]
      exact congrArg (s.stub.map ·) (funext fun q => (Panel.run_append s.params q ts us).symm)

/-- Register writes after them. -/
theorem Micro.Feeds.andThen_write {ts : List Tagged} {s : State} {m : Micro} {g : State → State} (hm : m.Feeds ts s)
    (hp : ∀ t, (g t).params = t.params) (hs : ∀ t, (g t).stub = t.stub) : (m.andThen fun t => .run (g t)).Feeds ts s := by
  have h := hm.andThen (k := fun t => .run (g t)) fun t _ => Micro.Feeds.run_nil (hp t) (hs t)
  rwa [List.append_nil] at h

theorem raiseFault_stub (f : Frame) (s : State) : (raiseFault f s).stub = none := by
  rcases raiseFault_cases f s with ⟨m, rs, _, _, e⟩ | ⟨m, rs, _, _, e⟩ <;> rw [e] <;> rfl

theorem busCmd_feeds (b : Byte) (s : State) : (busCmd b s).Feeds [.c b] s := by
  rcases busCmd_cases b s with ⟨m, rs, _, _, e⟩ | ⟨m, rs, _, _, ⟨_, e⟩ | ⟨_, e⟩⟩ <;> rw [e]
  · exact cutOff_stub _
  · exact raiseFault_stub _ _
  · refine ⟨by simp, ?_⟩
    rw [glimpse_stub, setPrimed_stub, sent_stub]
    rfl

theorem busData_feeds (bs : List Byte) (s : State) : (busData bs s).Feeds (bs.map .d) s := by
  rcases busData_cases bs s with ⟨m, rs, _, _, e⟩ | ⟨m, rs, _, _, ⟨_, e⟩ | ⟨_, e⟩⟩ <;> rw [e]
  · exact cutOff_stub _
  · exact raiseFault_stub _ _
  · refine ⟨rfl, ?_⟩
    rw [sent_stub, consumed, flat_cons, flat_nil, List.append_nil]
    rfl

theorem busDataIf_feeds (ph : Phase) (bs : List Byte) (s : State) : (busDataIf ph bs s).Feeds (bs.map .d) s := by
  by_cases h : bs = []
  · rw [busDataIf, if_pos h, h]
    exact Micro.Feeds.run_nil rfl rfl
  · rw [busDataIf, if_neg h]
    exact busData_feeds bs (enterPhase ph s)

theorem delayFor_feeds (n : Half) (s : State) : (delayFor n s).Feeds [] s := by
  rcases delayFor_cases n s with ⟨m, rs, _, _, e⟩ | ⟨m, rs, _, _, e⟩ <;> rw [e]
  · exact cutOff_stub _
  · exact ⟨rfl, rfl⟩

theorem cmdStep_feeds (ph : Phase) (b : Byte) (s : State) : (cmdStep ph b s).Feeds [.c b] s := busCmd_feeds b (enterPhase ph s)

theorem execRecord_feeds (r : ScriptRecord) (s : State) : (execRecord r s).Feeds (.c r.opcode :: r.payload.map .d) s := by
  refine Micro.Feeds.andThen (cmdStep_feeds .recCmd r.opcode s) fun t _ => ?_
  have h := (busDataIf_feeds .recData r.payload t).andThen (us := [])
    (k := fun s => if r.delay = 0 then .run s else delayFor r.delay (enterPhase .recWait s)) fun u _ => ?_
  · rwa [List.append_nil] at h
  · split
    · exact Micro.Feeds.run_nil rfl rfl
    · exact delayFor_feeds r.delay (enterPhase .recWait u)

theorem scriptStep_feeds (i : Byte) (r : ScriptRecord) (s : State) :
    (scriptStep i r s).Feeds (.c r.opcode :: r.payload.map .d) s :=
  Micro.Feeds.andThen_write (execRecord_feeds r (glimpse (setSp i s))) (g := fun s => glimpse (setSp (i + 1) s)) (fun _ => rfl) fun _ => rfl

theorem columnData_feeds (x0 x1 : Half) (s : State) : (columnData x0 x1 s).Feeds ((addr4Bytes x0 x1).map .d) s :=
  Micro.Feeds.andThen_write (busData_feeds _ (enterPhase .casetD s)) (g := writeColumns x0 x1) (fun _ => rfl) fun _ => rfl

theorem rowData_feeds (y0 y1 : Half) (s : State) : (rowData y0 y1 s).Feeds ((addr4Bytes y0 y1).map .d) s :=
  Micro.Feeds.andThen_write (busData_feeds _ (enterPhase .pasetD s)) (g := writeRows y0 y1) (fun _ => rfl) fun _ => rfl

/-- The stream of a window program as its three logical operations (R171, R118). -/
theorem flat_windowEvents (p : Params) (x0 y0 x1 y1 : Half) :
    flat (windowEvents p x0 y0 x1 y1) =
      (.c p.opCaset :: (addr4Bytes x0 x1).map .d) ++ ((.c p.opPaset :: (addr4Bytes y0 y1).map .d) ++ [.c p.opRamwr]) := by
  simp [windowEvents, Event.flat]

/-- A window program sends its eleven bytes (R173). -/
theorem windowProgram_feeds (x0 y0 x1 y1 : Half) (s : State) :
    (windowProgram x0 y0 x1 y1 s).Feeds (flat (windowEvents s.params x0 y0 x1 y1)) s := by
  rw [flat_windowEvents, List.cons_append, List.cons_append]
  refine Micro.Feeds.andThen (ts := [_]) (cmdStep_feeds _ _ s) fun t ht => ?_
  refine Micro.Feeds.andThen (columnData_feeds _ _ t) fun u hu => ?_
  rw [← ht, ← hu]
  refine Micro.Feeds.andThen (ts := [_]) (cmdStep_feeds _ _ u) fun v hv => ?_
  refine Micro.Feeds.andThen (rowData_feeds _ _ v) fun w hw => ?_
  rw [← hv, ← hw]
  exact cmdStep_feeds _ _ w

/-! ## An instruction -/

/-- The micro-steps of a row, whether a request or a row below the host interface. -/
def rowBody (i : Instr) (s : State) : Micro := if isHostRequest i then requestBody i s else microBody i s

theorem finish_stub (m : Micro) : (finish m).stub = none ∨ (finish m).stub = m.state.stub := by
  rcases finish_cases m with ⟨s, rfl, _⟩ | ⟨s, rfl, ⟨r, rs, _, _, e⟩ | ⟨r, rs, _, _, e⟩⟩
  · exact .inr rfl
  · exact .inl (by rw [e]; rfl)
  · exact .inr (by rw [e]; rfl)

/-- What an instruction can do to the stub: leave it, lose it, or feed it the bytes its micro-steps send. -/
theorem exec_stub {i : Instr} {s t : State} (h : exec i s = .next t) {P : List Tagged → Prop}
    (hi : ∀ u, u.params = s.params → ∃ ts, P ts ∧ (rowBody i u).Feeds ts u) :
    t.stub = none ∨ t.stub = s.stub ∨ ∃ ts, P ts ∧ t.stub = s.stub.map fun q => q.run s.params ts := by
  have fed {u : State} (hu : u.params = s.params) (hq : u.stub = s.stub) :
      (rowBody i u).state.stub = none ∨ ∃ ts, P ts ∧ (rowBody i u).state.stub = s.stub.map fun q => q.run s.params ts := by
    obtain ⟨ts, hP, hf⟩ := hi u hu
    cases hb : rowBody i u with
    | ended v =>
      rw [hb] at hf
      exact .inl hf
    | run v =>
      rw [hb] at hf
      obtain ⟨_, hs⟩ := hf
      rw [hu, hq] at hs
      exact .inr ⟨ts, hP, hs⟩
  rcases exec_cases h with rfl | ⟨hr, _, rfl⟩ | ⟨_, op, f1, f2, f3, f4, f5, rfl⟩ | ⟨hr, _, op, f1, f2, f3, f4, f5, rfl⟩
  · exact .inr (.inl rfl)
  · have hf := fed (u := s) rfl rfl
    rw [rowBody, if_neg (by simp [hr])] at hf
    exact hf.imp_right .inr
  · rcases reject_cases op (loadOperands f1 f2 f3 f4 f5 s) with ⟨m, rs, _, _, e⟩ | ⟨m, rs, _, _, e⟩ <;> rw [e]
    · exact .inl rfl
    · exact .inr (.inl rfl)
  · have hf := fed (u := glimpse (accepted op f1 f2 f3 f4 f5 s)) rfl rfl
    rw [rowBody, if_pos hr] at hf
    rcases finish_stub (requestBody i (glimpse (accepted op f1 f2 f3 f4 f5 s))) with e | e <;> rw [e]
    · exact .inl rfl
    · exact hf.imp_right .inr

theorem rowBody_command (s : State) : ∀ c ∈ controllerCommands s.params, rowBody c.1 s = cmdStep c.2.1 c.2.2 s := by
  simp only [controllerCommands, List.forall_mem_cons, List.not_mem_nil, false_imp_iff, implies_true, and_true]
  exact ⟨rfl, rfl, rfl, rfl, rfl, rfl, rfl, rfl, rfl, rfl, rfl, rfl, rfl, rfl, rfl, rfl⟩

theorem rowBody_record (s : State) :
    ∀ c ∈ scriptRecords s.params, rowBody c.1 s = scriptStep (BitVec.ofNat 8 c.2.1) c.2.2 s := by
  simp only [scriptRecords, List.forall_mem_cons, List.not_mem_nil, false_imp_iff, implies_true, and_true]
  exact ⟨rfl, rfl, rfl, rfl, rfl, rfl, rfl, rfl, rfl, rfl, rfl, rfl, rfl, rfl⟩

/-- No record of the table is a memory write (R218). -/
theorem scriptRecords_opcode {p : Params} (h : p.Valid) : ∀ c ∈ scriptRecords p, c.2.2.opcode ≠ p.opRamwr := by
  obtain ⟨hdistinct, _⟩ := h
  have hne := (List.nodup_cons.mp ((List.nodup_middle
    (l₁ := [p.opSwreset, p.opSlpout, p.opNoron, p.opDispon, p.opCaset, p.opPaset])).mp hdistinct)).1
  have hmem : ∀ c ∈ scriptRecords p, c.2.2.opcode ∈ [p.opSwreset, p.opSlpout, p.opNoron, p.opDispon, p.opCaset, p.opPaset] ++
      [p.opMadctl, p.opColmod, p.opFrmctr, p.opDfunctr, p.opPwctrA, p.opPwctrB, p.opVmctr, p.opPgamctrl, p.opNgamctrl] := by
    simp [scriptRecords]
  exact fun c hc e => hne (e ▸ hmem c hc)

/-! ## What a stream leaves of the frame memory -/

/-- Data bytes leave address a alone: where the stub is in a write state, its position is in a window that a is outside of (R73). -/
def Panel.Spares (q : Panel) (a : Nat) : Prop :=
  ∀ px py h, q.st = .write px py h → ∃ x0 y0 x1 y1, q.window? = some (x0, y0, x1, y1) ∧ (x0 ≤ px ∧ px ≤ x1 ∧ y0 ≤ py ∧ py ≤ y1) ∧
    ∀ x y, x0 ≤ x → x ≤ x1 → y0 ≤ y → y ≤ y1 → a ≠ pixelAddr x y ∧ a ≠ pixelAddr x y + 1

theorem Panel.Spares.of_not_write {q : Panel} (h : ∀ px py b, q.st ≠ .write px py b) (a : Nat) : q.Spares a :=
  fun px py b e => absurd e (h px py b)

/-- Everything a data byte can do (R72 to R74): no memory write, half a pixel, or a pixel. -/
theorem Panel.feedData_cases (q : Panel) (d : Byte) :
    ((q.feedData d).gram = q.gram ∧ ∀ px py h, (q.feedData d).st ≠ .write px py h) ∨
    (∃ px py, q.st = .write px py none ∧ q.feedData d = { q with st := .write px py (some d) }) ∨
    ∃ px py h, q.st = .write px py (some h) ∧ q.feedData d = { q.setPixel px py h d with st := q.advance px py } := by
  unfold Panel.feedData
  split
  · exact .inl ⟨rfl, by simp⟩
  · split
    · exact .inl ⟨rfl, by simp⟩
    · exact .inl ⟨rfl, by simp [*]⟩
  · exact .inl ⟨rfl, by simp⟩
  · split
    · exact .inl ⟨rfl, by simp⟩
    · exact .inl ⟨rfl, by simp [*]⟩
  · rename_i px py hst
    exact .inr (.inl ⟨px, py, hst, rfl⟩)
  · rename_i px py h hst
    exact .inr (.inr ⟨px, py, h, hst, rfl⟩)
  all_goals exact .inl ⟨rfl, by simp [*]⟩

theorem Panel.feedData_spares {q : Panel} {a : Nat} (d : Byte) (hq : q.Spares a) :
    Memory.read? (q.feedData d).gram a = Memory.read? q.gram a ∧ (q.feedData d).Spares a := by
  rcases q.feedData_cases d with ⟨hgram, hst⟩ | ⟨px, py, hst, e⟩ | ⟨px, py, h, hst, e⟩
  · exact ⟨by rw [hgram], .of_not_write hst a⟩
  · obtain ⟨x0, y0, x1, y1, hw, hin, hout⟩ := hq px py none hst
    rw [e]
    refine ⟨rfl, fun px' py' h' e' => ?_⟩
    cases e'
    exact ⟨x0, y0, x1, y1, hw, hin, hout⟩
  · obtain ⟨x0, y0, x1, y1, hw, ⟨hx0, hx1, hy0, hy1⟩, hout⟩ := hq px py (some h) hst
    have ha := hout px py hx0 hx1 hy0 hy1
    rw [e]
    refine ⟨Memory.read?_writeList_outside [h, d] q.gram (pixelAddr px py) (by simp only [List.length_cons, List.length_nil]; omega), ?_⟩
    intro px' py' h' (e' : q.advance px py = .write px' py' h')
    refine ⟨x0, y0, x1, y1, hw, ?_, hout⟩
    simp only [Panel.advance, hw] at e'
    split at e'
    · cases e'
      omega
    · split at e'
      · cases e'
        omega
      · cases e'

theorem Panel.run_data_spares (p : Params) (bs : List Byte) {q : Panel} {a : Nat} (hq : q.Spares a) :
    Memory.read? (q.run p (bs.map .d)).gram a = Memory.read? q.gram a := by
  induction bs generalizing q with
  | nil => rfl
  | cons d bs ih =>
    obtain ⟨hread, hspares⟩ := Panel.feedData_spares d hq
    exact (ih hspares).trans hread

/-- A stream that leaves every byte of the frame memory alone, whatever the stub it meets. -/
def KeepsGram (p : Params) (ts : List Tagged) : Prop := ∀ (q : Panel) (a : Nat), Memory.read? (q.run p ts).gram a = Memory.read? q.gram a

theorem KeepsGram.append {p : Params} {ts us : List Tagged} (h : KeepsGram p ts) (k : KeepsGram p us) : KeepsGram p (ts ++ us) := by
  intro q a
  rw [Panel.run_append]
  exact (k _ a).trans (h q a)

theorem Panel.feedCmd_gram (p : Params) (q : Panel) (b : Byte) : (q.feedCmd p b).gram = q.gram := by
  unfold Panel.feedCmd
  simp only
  split_ifs
  · rfl
  · rfl
  · split <;> rfl
  · rfl

/-- Only the memory-write opcode leads to a write state, and only where it is no address opcode (R71). -/
theorem Panel.feedCmd_not_write {p : Params} {b : Byte} (h : b = p.opCaset ∨ b = p.opPaset ∨ b ≠ p.opRamwr) (q : Panel) :
    ∀ px py half, (q.feedCmd p b).st ≠ .write px py half := by
  intro px py half
  unfold Panel.feedCmd
  simp only
  split_ifs with hc hp hr
  · simp
  · simp
  · exact absurd h fun h => h.elim hc fun h => h.elim hp fun h => h hr
  · simp

theorem keepsGram_command (p : Params) (b : Byte) : KeepsGram p [.c b] := fun q a => by
  rw [Panel.run_cons, Panel.run_nil, Panel.feed_c, Panel.feedCmd_gram]

theorem keepsGram_logical {p : Params} {b : Byte} (h : b = p.opCaset ∨ b = p.opPaset ∨ b ≠ p.opRamwr) (bs : List Byte) :
    KeepsGram p (.c b :: bs.map .d) := fun q a => by
  rw [Panel.run_cons, Panel.feed_c, Panel.run_data_spares p bs (.of_not_write (Panel.feedCmd_not_write h q) a), Panel.feedCmd_gram]

theorem keepsGram_window (p : Params) (x0 y0 x1 y1 : Half) : KeepsGram p (flat (windowEvents p x0 y0 x1 y1)) := by
  rw [flat_windowEvents]
  exact (keepsGram_logical (.inl rfl) (addr4Bytes x0 x1)).append
    ((keepsGram_logical (.inr (.inl rfl)) (addr4Bytes y0 y1)).append (keepsGram_command p p.opRamwr))

/-! ## The obligation -/

theorem frameMemoryKept_of_feeds {i : Instr} {s t : State} (h : exec i s = .next t)
    (hi : ∀ u, u.params = s.params → ∃ ts, KeepsGram s.params ts ∧ (rowBody i u).Feeds ts u) : FrameMemoryKept s t := by
  intro q' hq'
  rcases exec_stub h hi with e | e | ⟨ts, hk, e⟩ <;> rw [e] at hq'
  · cases hq'
  · exact ⟨q', hq', fun _ => rfl⟩
  · obtain ⟨q, hq, rfl⟩ := Option.map_eq_some_iff.mp hq'
    exact ⟨q, hq, hk q⟩

/-- The data rows send data bytes only. -/
theorem DataFramesOnly.feeds {i : Instr} (hi : DataFramesOnly i) (s : State) :
    ∃ ts, (∃ bs : List Byte, ts = bs.map .d) ∧ (rowBody i s).Feeds ts s := by
  rcases hi with ⟨_, _, _, _, _, rfl⟩ | ⟨_, _, _, _, _, hp, rfl⟩ | ⟨bs, rfl⟩ | ⟨a, b, rfl⟩ | ⟨r, g, b, rfl⟩
  · exact ⟨_, ⟨_, rfl⟩, busData_feeds _ (enterPhase .prim s)⟩
  · exact ⟨_, ⟨_, rfl⟩, busDataIf_feeds _ _ s⟩
  · exact ⟨_, ⟨_, rfl⟩, busDataIf_feeds _ bs s⟩
  · refine ⟨_, ⟨addr4Bytes a b, rfl⟩, ?_⟩
    show Micro.Feeds _ s (if s.phase = .casetC then columnData a b s else if s.phase = .pasetC then rowData a b s
      else busData (addr4Bytes a b) s)
    split_ifs
    · exact columnData_feeds a b s
    · exact rowData_feeds a b s
    · exact busData_feeds _ s
  · exact ⟨_, ⟨_, rfl⟩, busData_feeds _ s⟩

theorem DataFramesOnly.spares {i : Instr} (hi : DataFramesOnly i) {s t : State} {q q' : Panel} (h : exec i s = .next t)
    (hq : s.stub = some q) (hq' : t.stub = some q') {a : Nat} (ha : q.Spares a) : Memory.read? q'.gram a = Memory.read? q.gram a := by
  rcases exec_stub h fun u _ => hi.feeds u with e | e | ⟨_, ⟨bs, rfl⟩, e⟩ <;> rw [hq'] at e
  · cases e
  · cases e.trans hq
    rfl
  · rw [hq] at e
    cases e
    exact Panel.run_data_spares s.params bs ha

/-- Settles O60. First part: each row sends a stream that writes no memory (`KeepsGram`): commands alone, or data after a command that
opens no window. Second part: the data rows spare what is outside the window held open (`DataFramesOnly.spares`). -/
theorem frameMemoryKeptOutside : Obligations.FrameMemoryKeptOutside := by
  refine ⟨fun i s t _ h hi => frameMemoryKept_of_feeds h fun u hu => ?_, fun i s t q q' _ h hq hinv hq' hi => ⟨?_, ?_⟩⟩
  · rw [← hu] at hi ⊢
    rcases hi with ⟨f1, f2, f3, f4, f5, rfl | rfl⟩ | ⟨op, f1, f2, f3, f4, f5, rfl⟩ | ⟨b, rfl⟩ | ⟨c, hc, rfl⟩ | ⟨hv, c, hc, rfl⟩ |
      ⟨o, pl, d, ho, rfl⟩
    · exact ⟨_, keepsGram_command _ _, cmdStep_feeds _ _ u⟩
    · exact ⟨_, keepsGram_window _ _ _ _ _, windowProgram_feeds _ _ _ _ u⟩
    · exact ⟨[], fun _ _ => rfl, Micro.Feeds.run_nil rfl rfl⟩
    · exact ⟨_, keepsGram_command _ _, busCmd_feeds b u⟩
    · rw [rowBody_command u c hc]
      exact ⟨_, keepsGram_command _ _, cmdStep_feeds _ _ u⟩
    · rw [rowBody_record u c hc]
      exact ⟨_, keepsGram_logical (.inr (.inr (scriptRecords_opcode hv c hc))) _, scriptStep_feeds _ _ u⟩
    · exact ⟨_, keepsGram_logical (.inr (.inr ho)) pl, execRecord_feeds ⟨o, pl, d⟩ u⟩
  · intro px py half hst a x0 y0 x1 y1 hw hout
    obtain ⟨_, _, hin⟩ := hinv
    rw [hst, hw] at hin
    refine DataFramesOnly.spares hi h hq hq' fun px' py' half' e => ⟨x0, y0, x1, y1, hw, ?_, hout⟩
    cases hst.symm.trans e
    exact hin
  · exact fun hst a => DataFramesOnly.spares hi h hq hq' (.of_not_write hst a)

end Sys2Proof.Machine
end

section
/-! Decoding and encoding undo one another (R80, R84, R86 to R89): what each format's decoder makes of an encoded instruction, and what an
item was that it accepts. -/

namespace Sys2Proof

/-! ## The colour fields (R56, R89) -/

theorem red_rgb565 (r : BitVec 5) (g : BitVec 6) (b : BitVec 5) : (rgb565 r g b).extractLsb' 11 5 = r :=
  (BitVec.extractLsb'_append_eq_of_le (by decide)).trans BitVec.extractLsb'_append_eq_left

theorem green_rgb565 (r : BitVec 5) (g : BitVec 6) (b : BitVec 5) : (rgb565 r g b).extractLsb' 5 6 = g :=
  (BitVec.extractLsb'_append_eq_of_le (by decide)).trans BitVec.extractLsb'_append_eq_right

theorem blue_rgb565 (r : BitVec 5) (g : BitVec 6) (b : BitVec 5) : (rgb565 r g b).extractLsb' 0 5 = b :=
  BitVec.extractLsb'_append_eq_right

theorem rgb565_fields (v : Half) : rgb565 (v.extractLsb' 11 5) (v.extractLsb' 5 6) (v.extractLsb' 0 5) = v := by
  rw [rgb565, BitVec.extractLsb'_append_extractLsb'_eq_extractLsb' (start₁ := 5) (len₁ := 6) rfl,
    BitVec.extractLsb'_append_extractLsb'_eq_extractLsb' (start₁ := 0) (len₁ := 5) rfl]
  exact BitVec.extractLsb'_eq_self

theorem be16_rgb565 (r : BitVec 5) (g : BitVec 6) (b : BitVec 5) :
    be16 (rgb565 r g b) = [r ++ g.extractLsb' 3 3, g.extractLsb' 0 3 ++ b] := by
  have hhi : hiByte (rgb565 r g b) = r ++ g.extractLsb' 3 3 := by
    rw [hiByte, rgb565, BitVec.extractLsb'_append_eq_of_le (by decide), BitVec.extractLsb'_append_eq_ite, dif_pos (by decide),
      dif_neg (by decide), BitVec.cast_eq]
    exact congrArg (· ++ g.extractLsb' 3 3) BitVec.extractLsb'_eq_self
  have hlo : loByte (rgb565 r g b) = g.extractLsb' 0 3 ++ b := by
    rw [loByte, rgb565, BitVec.extractLsb'_append_eq_ite, dif_pos (by decide), dif_neg (by decide), BitVec.cast_eq,
      BitVec.extractLsb'_append_eq_of_add_le (by decide)]
    exact congrArg (g.extractLsb' 0 3 ++ ·) BitVec.extractLsb'_eq_self
  rw [be16, hhi, hlo]

/-! ## Host requests (R80, R81, R91) -/

theorem decode_request (p : Params) (op : Byte) (f1 f2 f3 f4 f5 : Half) (hp : List Byte) :
    decode p ⟨.hreq88, requestBytes op f1 f2 f3 f4 f5 ++ hp⟩ = decodeRequest op f1 f2 f3 f4 f5 hp := by
  simp [decode, decodeHreq, requestBytes, be16, ofBytes_hi_lo]

theorem decode_request_emptyPort (p : Params) (op : Byte) (f1 f2 f3 f4 f5 : Half) :
    decode p ⟨.hreq88, requestBytes op f1 f2 f3 f4 f5⟩ = decodeRequest op f1 f2 f3 f4 f5 [] := by
  rw [← decode_request p, List.append_nil]

theorem decodeHreq_ok {bs : List Byte} {i : Instr} (h : decodeHreq bs = .ok i) :
    ∃ op f1 f2 f3 f4 f5 hp, bs = requestBytes op f1 f2 f3 f4 f5 ++ hp ∧ decodeRequest op f1 f2 f3 f4 f5 hp = .ok i := by
  unfold decodeHreq at h
  split at h
  · exact ⟨_, _, _, _, _, _, _, by simp [requestBytes, be16_ofBytes], h⟩
  · cases h

/-- The reserved codes are those that are none of the seven assigned ones (R91). -/
theorem reserved_iff (op : Byte) :
    (op = 0 ∨ 8 ≤ op.toNat) ↔ op ≠ 0x01 ∧ op ≠ 0x02 ∧ op ≠ 0x03 ∧ op ≠ 0x04 ∧ op ≠ 0x05 ∧ op ≠ 0x06 ∧ op ≠ 0x07 := by
  bv_omega

theorem decodeRequest_reserved {op : Byte} (h : op = 0 ∨ 8 ≤ op.toNat) (f1 f2 f3 f4 f5 : Half) :
    decodeRequest op f1 f2 f3 f4 f5 [] = .ok (.reservedHostOp op f1 f2 f3 f4 f5) := by
  obtain ⟨h1, h2, h3, h4, h5, h6, h7⟩ := (reserved_iff op).mp h
  rw [decodeRequest, if_neg h4, if_neg (not_not_intro rfl), if_neg h1, if_neg h2, if_neg h3, if_neg h5, if_neg h6, if_neg h7]

theorem decodeRequest_ok {op : Byte} {f1 f2 f3 f4 f5 : Half} {hp : List Byte} {i : Instr}
    (h : decodeRequest op f1 f2 f3 f4 f5 hp = .ok i) (p : Params) :
    encode p i = ⟨.hreq88, requestBytes op f1 f2 f3 f4 f5 ++ hp⟩ ∧ wellFormed p i = true := by
  unfold decodeRequest at h
  split_ifs at h with h4 hlen hnil h1 h2 h3 h5 h6 h7 <;> cases h
  · subst h4
    exact ⟨rfl, decide_eq_true hlen⟩
  all_goals rw [not_not] at hnil; subst hnil; rw [List.append_nil]
  · exact ⟨by rw [h1]; rfl, rfl⟩
  · exact ⟨by rw [h2]; rfl, rfl⟩
  · exact ⟨by rw [h3]; rfl, rfl⟩
  · exact ⟨by rw [h5]; rfl, rfl⟩
  · exact ⟨by rw [h6]; rfl, rfl⟩
  · exact ⟨by rw [h7]; rfl, rfl⟩
  · exact ⟨rfl, decide_eq_true ((reserved_iff op).mpr ⟨h1, h2, h3, h4, h5, h6, h7⟩)⟩

/-! ## Frames and payloads (R86, R88, R89) -/

theorem decodeFrame_ok {p : Params} {dc : BitVec 1} {bs : List Byte} {i : Instr} (h : decodeFrame p dc bs = .ok i) :
    (dc = p.dcCmd ∧ ∃ b, bs = [b] ∧ i = .cmdFrame b) ∨ (dc ≠ p.dcCmd ∧ (1 ≤ bs.length ∧ bs.length ≤ 65535) ∧ i = .dataFrame bs) := by
  unfold decodeFrame at h
  split at h
  · split at h
    · cases h
      exact .inl ⟨by assumption, _, rfl, rfl⟩
    · cases h
  · split at h
    · cases h
      exact .inr ⟨by assumption, by assumption, rfl⟩
    · cases h

/-- A control line has two levels (R111): the one that is not the command level is the data level (R218). -/
theorem eq_dcData {p : Params} (hv : p.Valid) {dc : BitVec 1} (h : dc ≠ p.dcCmd) : dc = p.dcData := by
  obtain ⟨_, hne, _⟩ := hv
  have two : ∀ a b c : BitVec 1, a ≠ c → c ≠ b → a = b := by decide
  exact two _ _ _ h hne

theorem decodePayload_ok {bs : List Byte} {i : Instr} (h : decodePayload bs = .ok i) (p : Params) :
    encode p i = ⟨.payload, bs⟩ ∧ wellFormed p i = true := by
  unfold decodePayload at h
  split at h <;> cases h
  · exact ⟨by simp [encode, addr4Bytes, be16_ofBytes], rfl⟩
  · exact ⟨by rw [encode, rgb565_fields, be16_ofBytes], rfl⟩

theorem decodePayload_pix2 (r : BitVec 5) (g : BitVec 6) (b : BitVec 5) : decodePayload (be16 (rgb565 r g b)) = .ok (.pix2 r g b) := by
  simp only [be16, decodePayload, ofBytes_hi_lo, red_rgb565, green_rgb565, blue_rgb565]

theorem decodePayload_addr4 (first last : Half) : decodePayload (addr4Bytes first last) = .ok (.addr4 first last) := by
  simp [decodePayload, addr4Bytes, be16, ofBytes_hi_lo]

/-! ## Records (R84) -/

theorem serialiseRecord_length (r : ScriptRecord) : (serialiseRecord r).length = r.payload.length + 4 := by
  simp [serialiseRecord, be16]

theorem parseRecord_ok {bs : List Byte} {r : ScriptRecord} (h : parseRecord bs = some r) :
    bs = serialiseRecord r ∧ r.payload.length ≤ 255 := by
  unfold parseRecord at h
  split at h
  · rename_i opcode n rest
    split at h
    · rename_i hlen
      split at h
      · rename_i hi lo hdrop
        cases h
        have htake : (rest.take n.toNat).length = n.toNat := by rw [List.length_take]; omega
        have hrest : rest = rest.take n.toNat ++ [hi, lo] := by rw [← hdrop, List.take_append_drop]
        refine ⟨?_, by simp only [htake]; omega⟩
        simp only [serialiseRecord, htake, BitVec.ofNat_toNat, BitVec.setWidth_eq, be16_ofBytes, ← hrest]
      · cases h
    · cases h
  · cases h

theorem parseRecord_eq_some_iff (bs : List Byte) (r : ScriptRecord) :
    parseRecord bs = some r ↔ bs = serialiseRecord r ∧ r.payload.length ≤ 255 :=
  ⟨parseRecord_ok, fun ⟨hbs, hlen⟩ => hbs ▸ parseRecord_serialise hlen⟩

/-- N tells where a record ends, so the bytes after it cannot be read as part of it (R84). -/
theorem serialiseRecord_append_inj {r r' : ScriptRecord} {bs bs' : List Byte} (hr : r.payload.length ≤ 255)
    (hr' : r'.payload.length ≤ 255) (h : serialiseRecord r ++ bs = serialiseRecord r' ++ bs') : r = r' ∧ bs = bs' := by
  have hcount : r.payload.length = r'.payload.length := by
    have hbyte := congrArg BitVec.toNat (List.cons.inj (List.cons.inj h).2).1
    rw [BitVec.toNat_ofNat, BitVec.toNat_ofNat] at hbyte
    omega
  obtain ⟨hrecord, hbs⟩ := List.append_inj h (by rw [serialiseRecord_length, serialiseRecord_length, hcount])
  have hparse := congrArg parseRecord hrecord
  rw [parseRecord_serialise hr, parseRecord_serialise hr'] at hparse
  exact ⟨Option.some.inj hparse, hbs⟩

theorem serialiseScript_inj {rs rs' : List ScriptRecord} (hrs : ∀ r ∈ rs, r.payload.length ≤ 255)
    (hrs' : ∀ r ∈ rs', r.payload.length ≤ 255) (h : serialiseScript rs = serialiseScript rs') : rs = rs' := by
  induction rs generalizing rs' with
  | nil =>
    cases rs' with
    | nil => rfl
    | cons r' rs' => cases h
  | cons r rs ih =>
    cases rs' with
    | nil => cases h
    | cons r' rs' =>
      obtain ⟨hr, htail⟩ := List.forall_mem_cons.mp hrs
      obtain ⟨hr', htail'⟩ := List.forall_mem_cons.mp hrs'
      obtain ⟨hrecord, hbytes⟩ := serialiseRecord_append_inj hr hr' h
      rw [hrecord, ih htail htail' hbytes]

/-! ## The tables of the decoder (R140, R201 to R216) -/

theorem encode_recordTable (p : Params) :
    ∀ c ∈ recordTable p, encode p c.2 = ⟨.srec, serialiseRecord c.1⟩ ∧ wellFormed p c.2 = true := by
  simp [recordTable, encode, wellFormed]

theorem encode_commandTable (p : Params) : ∀ c ∈ commandTable p, encode p c.2 = ⟨.cmd8, [c.1]⟩ ∧ wellFormed p c.2 = true := by
  simp [commandTable, encode, wellFormed]

/-- The payloads of the table are those of R13, which N can count (R83), or empty. -/
theorem recordTable_payload {p : Params} (hv : p.Valid) : ∀ c ∈ recordTable p, c.1.payload.length ≤ 255 := by
  obtain ⟨_, _, hpl, _⟩ := hv
  have hpayload : ∀ c ∈ recordTable p, c.1.payload = [] ∨ c.1.payload ∈ p.payloads := by
    simp [recordTable, Params.payloads, recSwreset, recColmod, recPwctrA, recPwctrB, recVmctr, recSlpout1, recMadctl, recDfunctr,
      recFrmctr, recPgamctrl, recNgamctrl, recSlpout2, recDispon, recNoron]
  intro c hc
  rcases hpayload c hc with h | h
  · rw [h]
    exact Nat.zero_le _
  · exact hpl _ h

/-- What a record is read as (A19): its row of the table, or SREC where it has none. -/
theorem classifyRecord_cases (p : Params) (r : ScriptRecord) :
    (r, classifyRecord p r) ∈ recordTable p ∨
      (r ∉ referenceScript p ∧ classifyRecord p r = .srec r.opcode r.payload r.delay) := by
  unfold classifyRecord
  cases h : (recordTable p).lookup r with
  | some i => exact .inl (mem_of_lookup h)
  | none => exact .inr ⟨recordTable_keys p ▸ notMem_of_lookup h, rfl⟩

/-- What a command byte is read as (A20): its row of the table, or CMD_FRAME where it has none. -/
theorem classifyCommand_cases (p : Params) (b : Byte) :
    (b, classifyCommand p b) ∈ commandTable p ∨ classifyCommand p b = .cmdFrame b := by
  unfold classifyCommand
  cases h : (commandTable p).lookup b with
  | some i => exact .inl (mem_of_lookup h)
  | none => exact .inr rfl

theorem decodeRecord_ok {p : Params} {bs : List Byte} {i : Instr} (h : decodeRecord p bs = .ok i) :
    ∃ r, bs = serialiseRecord r ∧ r.payload.length ≤ 255 ∧ i = classifyRecord p r := by
  unfold decodeRecord at h
  split at h
  · rename_i r hr
    cases h
    obtain ⟨hbs, hlen⟩ := parseRecord_ok hr
    exact ⟨r, hbs, hlen, rfl⟩
  · cases h

theorem decodeCommand_ok {p : Params} {bs : List Byte} {i : Instr} (h : decodeCommand p bs = .ok i) :
    ∃ b, bs = [b] ∧ i = classifyCommand p b := by
  unfold decodeCommand at h
  split at h <;> cases h
  exact ⟨_, rfl, rfl⟩

theorem decode_serialised (p : Params) {r : ScriptRecord} (h : r.payload.length ≤ 255) :
    decode p ⟨.srec, serialiseRecord r⟩ = .ok (classifyRecord p r) := by
  simp only [decode, decodeRecord, parseRecord_serialise h]

theorem decode_encode_record {p : Params} (hv : p.Valid) {i : Instr} (hi : i ∈ (recordTable p).map (·.2)) :
    decode p (encode p i) = .ok i := by
  obtain ⟨⟨r, i⟩, hmem, rfl⟩ := List.mem_map.mp hi
  have hlookup : (recordTable p).lookup r = some i := lookup_of_mem (recordTable_keys p ▸ referenceScript_nodup hv) hmem
  rw [(encode_recordTable p _ hmem).1, decode_serialised p (recordTable_payload hv _ hmem), classifyRecord, hlookup]
  rfl

theorem decode_encode_command {p : Params} (hv : p.Valid) {i : Instr} (hi : i ∈ (commandTable p).map (·.2)) :
    decode p (encode p i) = .ok i := by
  obtain ⟨⟨b, i⟩, hmem, rfl⟩ := List.mem_map.mp hi
  have hlookup : (commandTable p).lookup b = some i := lookup_of_mem (commandTable_keys p ▸ hv.1) hmem
  rw [(encode_commandTable p _ hmem).1, decode, decodeCommand, classifyCommand, hlookup]
  rfl

theorem decode_encode_srec {p : Params} {opcode : Byte} {payload : List Byte} {delay : Half}
    (h : wellFormed p (.srec opcode payload delay) = true) :
    decode p (encode p (.srec opcode payload delay)) = .ok (.srec opcode payload delay) := by
  rw [wellFormed, Bool.and_eq_true, decide_eq_true_eq, decide_eq_true_eq] at h
  obtain ⟨hlen, hnot⟩ := h
  rw [encode, decode_serialised p (r := ⟨opcode, payload, delay⟩) hlen]
  rcases classifyRecord_cases p ⟨opcode, payload, delay⟩ with hmem | ⟨_, e⟩
  · exact absurd (recordTable_keys p ▸ List.mem_map_of_mem (f := Prod.fst) hmem) hnot
  · rw [e]

/-! ## The obligations -/

/-- Settles O2, by the format of the instruction: a request word names its operation, a frame its level, a payload its length, and
the rows of the two tables are found in them (`lookup_of_mem`), since their keys differ (R218). -/
theorem decodeOfEncode : Obligations.DecodeOfEncode := by
  intro p i hv hw
  cases i with
  | init f1 f2 f3 f4 f5 => exact decode_request_emptyPort p 0x01 f1 f2 f3 f4 f5
  | sendCommand f1 f2 f3 f4 f5 => exact decode_request_emptyPort p 0x02 f1 f2 f3 f4 f5
  | sendData f1 f2 f3 f4 f5 => exact decode_request_emptyPort p 0x03 f1 f2 f3 f4 f5
  | sendDataBuffer f1 f2 f3 f4 f5 hp =>
    exact (decode_request p 0x04 f1 f2 f3 f4 f5 hp).trans (if_pos (of_decide_eq_true hw))
  | setWindow f1 f2 f3 f4 f5 => exact decode_request_emptyPort p 0x05 f1 f2 f3 f4 f5
  | fillRect f1 f2 f3 f4 f5 => exact decode_request_emptyPort p 0x06 f1 f2 f3 f4 f5
  | fillScreen f1 f2 f3 f4 f5 => exact decode_request_emptyPort p 0x07 f1 f2 f3 f4 f5
  | reservedHostOp op f1 f2 f3 f4 f5 =>
    exact (decode_request_emptyPort p op f1 f2 f3 f4 f5).trans (decodeRequest_reserved (of_decide_eq_true hw) f1 f2 f3 f4 f5)
  | cmdFrame b => exact if_pos rfl
  | dataFrame bs =>
    obtain ⟨_, hne, _⟩ := hv
    exact (if_neg hne.symm).trans (if_pos (of_decide_eq_true hw))
  | addr4 first last => exact decodePayload_addr4 first last
  | pix2 r g b => exact decodePayload_pix2 r g b
  | srec opcode payload delay => exact decode_encode_srec hw
  | swreset | slpout | noron | dispon | caset | paset | ramwr | madctl | colmod | frmctr | dfunctr | pwctrA | pwctrB | vmctr
  | pgamctrl | ngamctrl => exact decode_encode_command hv (by simp [commandTable])
  | rec0Swreset | rec1Colmod | rec2PwctrA | rec3PwctrB | rec4Vmctr | rec5Slpout | rec6Madctl | rec7Dfunctr | rec8Frmctr
  | rec9Pgamctrl | rec10Ngamctrl | rec11Slpout | rec12Dispon | rec13Noron => exact decode_encode_record hv (by simp [recordTable])

/-- An item of any format but CMD8 is the encoding of what it decodes to. -/
theorem encode_decode {p : Params} (hv : p.Valid) {e : Presented} {i : Instr} (hf : e.fmt ≠ .cmd8) (h : decode p e = .ok i) :
    encode p i = e := by
  obtain ⟨fmt, bs⟩ := e
  cases fmt with
  | hreq88 =>
    obtain ⟨op, f1, f2, f3, f4, f5, hp, rfl, hreq⟩ := decodeHreq_ok h
    exact (decodeRequest_ok hreq p).1
  | frame dc =>
    rcases decodeFrame_ok h with ⟨rfl, b, rfl, rfl⟩ | ⟨hdc, _, rfl⟩
    · rfl
    · rw [eq_dcData hv hdc]
      rfl
  | payload => exact (decodePayload_ok h p).1
  | srec =>
    obtain ⟨r, rfl, _, rfl⟩ := decodeRecord_ok h
    rcases classifyRecord_cases p r with hmem | ⟨_, e⟩
    · exact (encode_recordTable p _ hmem).1
    · rw [e]
      rfl
  | cmd8 => exact absurd rfl hf

theorem wellFormed_of_decode {p : Params} {e : Presented} {i : Instr} (h : decode p e = .ok i) : wellFormed p i = true := by
  obtain ⟨fmt, bs⟩ := e
  cases fmt with
  | hreq88 =>
    obtain ⟨op, f1, f2, f3, f4, f5, hp, rfl, hreq⟩ := decodeHreq_ok h
    exact (decodeRequest_ok hreq p).2
  | frame dc =>
    rcases decodeFrame_ok h with ⟨rfl, b, rfl, rfl⟩ | ⟨_, hlen, rfl⟩
    · rfl
    · exact decide_eq_true hlen
  | payload => exact (decodePayload_ok h p).2
  | srec =>
    obtain ⟨r, rfl, hlen, rfl⟩ := decodeRecord_ok h
    rcases classifyRecord_cases p r with hmem | ⟨hnot, e⟩
    · exact (encode_recordTable p _ hmem).2
    · rw [e, wellFormed, Bool.and_eq_true]
      exact ⟨decide_eq_true hlen, decide_eq_true hnot⟩
  | cmd8 =>
    obtain ⟨b, rfl, rfl⟩ := decodeCommand_ok h
    rcases classifyCommand_cases p b with hmem | e
    · exact (encode_commandTable p _ hmem).2
    · rw [e]
      rfl

/-- Settles O3, by the format of the item: each decoder is undone by the encoder (`encode_decode`) and answers well-formed rows only. -/
theorem encodeOfDecode : Obligations.EncodeOfDecode :=
  ⟨fun _ _ _ hv hf h => encode_decode hv hf h, fun _ _ _ h => wellFormed_of_decode h⟩

/-- Settles O5: byte 1 counts the payload, so a record is read back and a table can be cut into its records in one way only
(`serialiseRecord_append_inj`). -/
theorem recordSerialisation : Obligations.RecordSerialisation :=
  ⟨fun r _ => ⟨serialiseRecord_length r, rfl⟩, parseRecord_eq_some_iff, fun _ _ => serialiseScript_inj⟩

/-- Settles O1, by evaluation of the decoder on each word. -/
theorem specWordsDecode : Obligations.SpecWordsDecode := by
  unfold Obligations.SpecWordsDecode
  decide

end Sys2Proof
end

section
/-! The request codes (R91), the operand registers (R82), the two payload layouts run alone (R88, R89), and a window filled by hand (R95). -/

namespace Sys2Proof.Machine

/-! ## The codes (R91) -/

/-- Settles O4, through what `decodeRequest` makes of each code; a reserved request is a rejection (R227). -/
theorem hostOperationCodes : Obligations.HostOperationCodes := by
  refine ⟨fun p f1 f2 f3 f4 f5 hp => ?_, fun p op f1 f2 f3 f4 f5 h => ?_, fun op f1 f2 f3 f4 f5 s hm hr => ?_⟩
  · have word (op : Byte) := decode_request_emptyPort p op f1 f2 f3 f4 f5
    exact ⟨word 0x01, word 0x02, word 0x03, fun hlen => (decode_request p 0x04 f1 f2 f3 f4 f5 hp).trans (if_pos hlen), word 0x05,
      word 0x06, word 0x07⟩
  · exact (decode_request_emptyPort p op f1 f2 f3 f4 f5).trans (decodeRequest_reserved h f1 f2 f3 f4 f5)
  · rw [exec_reserved, if_neg hm, reject_nil op (loadOperands f1 f2 f3 f4 f5 s) hr]
    rfl

/-! ## The operand registers (R82, R20) -/

theorem SameOperands.trans {s t u : State} (h : SameOperands s t) (k : SameOperands t u) : SameOperands s u := by
  obtain ⟨hx, hy, hw, hh, hc⟩ := h
  obtain ⟨kx, ky, kw, kh, kc⟩ := k
  exact ⟨kx.trans hx, ky.trans hy, kw.trans hw, kh.trans hh, kc.trans hc⟩

theorem SameOperands.refl (s : State) : SameOperands s s := ⟨rfl, rfl, rfl, rfl, rfl⟩

theorem Plain.sameOperands {s t : State} (h : Plain s t) : SameOperands s t := ⟨h.rx, h.ry, h.rw, h.rh, h.rc⟩

theorem Stopped.sameOperands {s u t : State} (hs : s.NoReset) (h : Stopped s u t) : SameOperands u t := by
  rcases h with ⟨f, rfl, _⟩ | ⟨hn, _⟩
  · exact .refl u
  · exact absurd hs hn

theorem Micro.From.sameOperands {E : State → State → Prop} {s : State} {m : Micro} (h : m.From E s) (hs : s.NoReset) :
    SameOperands s m.state := by
  cases m with
  | run t => exact h.1.sameOperands
  | ended t =>
    obtain ⟨u, hp, _, hst⟩ := h
    exact hp.sameOperands.trans (Stopped.sameOperands hs hst)

theorem finish_sameOperands {m : Micro} (hm : m.state.NoReset) : SameOperands m.state (finish m) := by
  rcases finish_cases m with ⟨t, rfl, e⟩ | ⟨t, rfl, ⟨ms, rs, h, _⟩ | ⟨ms, rs, _, _, e⟩⟩
  · rw [e]
    exact .refl t
  · exact absurd hm (reset_next h)
  · rw [e]
    exact .refl t

theorem reject_sameOperands (op : Byte) {s : State} (hs : s.NoReset) : SameOperands s (reject op s) := by
  obtain ⟨ms, rs, _, _, e⟩ := reject_noReset op hs
  rw [e]
  exact .refl s

theorem initBody_sameOperands {s : State} (hk : s.params.script.length ≤ 255) (hs : s.NoReset) : SameOperands s (initBody s).state := by
  rcases initBody_cases s hk with ⟨u, e, hp, _⟩ | ⟨t, u, e, hp, _, hst⟩ <;> rw [e]
  · exact hp.sameOperands
  · exact SameOperands.trans (t := u) hp.sameOperands (Stopped.sameOperands hs hst)

theorem requestBody_sameOperands (i : Instr) {s : State} (hk : s.params.script.length ≤ 255) (hs : s.NoReset) :
    SameOperands s (requestBody i s).state := by
  by_cases hi : ∃ f1 f2 f3 f4 f5, i = .init f1 f2 f3 f4 f5
  · obtain ⟨f1, f2, f3, f4, f5, rfl⟩ := hi
    exact initBody_sameOperands hk hs
  · exact (requestBody_from (fun f1 f2 f3 f4 f5 e => hi ⟨f1, f2, f3, f4, f5, e⟩) s).sameOperands hs

/-- Settles O14: a rejection and the micro-steps of a request keep the operands that its acceptance has loaded; the micro-steps of a
row below the host interface keep those it finds. -/
theorem acceptance : Obligations.Acceptance := by
  refine ⟨fun op hp f1 f2 f3 f4 f5 s r hr hpr => ?_, fun i s t hi hs h => ?_⟩
  · obtain ⟨t, ht⟩ := exec_request_next hr hpr
    rw [ht]
    rcases exec_request_cases hr ht with ⟨hbusy, rfl⟩ | ⟨hm, _, rfl⟩ | ⟨hidle, _, _, rfl⟩
    · exact ⟨fun _ => rfl, fun hm => absurd hbusy hm⟩
    · exact ⟨fun hbusy => absurd hbusy hm, fun _ hs => ⟨_, rfl, reject_sameOperands r.1 (s := loadOperands f1 f2 f3 f4 f5 s) hs⟩⟩
    · refine ⟨fun hbusy => absurd (hidle.symm.trans hbusy) (by decide), fun _ hs => ⟨_, rfl, ?_⟩⟩
      have ha := accepted_noReset r.1 f1 f2 f3 f4 f5 hs
      have hbody := requestBody_sameOperands r.2 (s := glimpse (accepted r.1 f1 f2 f3 f4 f5 s)) hpr.2 ha
      exact SameOperands.trans (s := accepted r.1 f1 f2 f3 f4 f5 s) hbody (finish_sameOperands (requestBody_blind r.2 _ ha).2)
  · rw [exec_micro hi] at h
    rcases micro_cases h with ⟨_, rfl⟩ | ⟨_, rfl⟩
    · exact .refl t
    · exact (microBody_from i s).sameOperands hs

/-! ## The payload layouts (R88, R89) -/

theorem exec_running {i : Instr} (hi : isHostRequest i = false) {s : State} (hm : s.mode ≠ .halted) :
    exec i s = .next (microBody i s).state := by
  rw [exec_micro hi, micro]
  split
  · exact absurd ‹_› hm
  · rfl
  · rfl

theorem columnData_ok (a b : Half) {s : State} (hr : s.moves = []) (ha : s.answerAt 0 = .ok) :
    columnData a b s = .run (setColumns a b ((driveData (setPhase .casetD s)).sent [.data (addr4Bytes a b)] 1)) := by
  rw [columnData, enterPhase_nil _ s hr, busData_ok _ (setPhase .casetD s) hr ha, andThen_run, writeColumns_nil]
  exact hr

theorem rowData_ok (a b : Half) {s : State} (hr : s.moves = []) (ha : s.answerAt 0 = .ok) :
    rowData a b s = .run (setRows a b ((driveData (setPhase .pasetD s)).sent [.data (addr4Bytes a b)] 1)) := by
  rw [rowData, enterPhase_nil _ s hr, busData_ok _ (setPhase .pasetD s) hr ha, andThen_run, writeRows_nil]
  exact hr

theorem columnData_faulted (a b : Half) {s : State} (hr : s.moves = []) (ha : s.answerAt 0 = .fault) :
    columnData a b s = .ended ((setPhase .casetD s).faulted s.op [] 0 (.data (addr4Bytes a b))) := by
  rw [columnData, enterPhase_nil _ s hr, busData_faulted _ (setPhase .casetD s) hr ha]
  rfl

theorem rowData_faulted (a b : Half) {s : State} (hr : s.moves = []) (ha : s.answerAt 0 = .fault) :
    rowData a b s = .ended ((setPhase .pasetD s).faulted s.op [] 0 (.data (addr4Bytes a b))) := by
  rw [rowData, enterPhase_nil _ s hr, busData_faulted _ (setPhase .pasetD s) hr ha]
  rfl

/-- Settles O24: the PHASE that ADDR4 finds makes it the column frame of a window program, the row frame, or a data frame alone. -/
theorem addr4Payload : Obligations.Addr4Payload := by
  intro a b s hm hr
  rw [exec_running rfl hm]
  by_cases hcol : s.phase = .casetC
  · have hrow : s.phase ≠ .pasetC := by rw [hcol]; decide
    have hbody : microBody (.addr4 a b) s = columnData a b s := if_pos hcol
    simp only [hbody, if_pos hcol, if_neg hrow]
    exact ⟨fun ha => by rw [columnData_ok a b hr ha]; rfl, fun ha => by rw [columnData_faulted a b hr ha]; rfl⟩
  · by_cases hrow : s.phase = .pasetC
    · have hbody : microBody (.addr4 a b) s = rowData a b s := (if_neg hcol).trans (if_pos hrow)
      simp only [hbody, if_neg hcol, if_pos hrow]
      exact ⟨fun ha => by rw [rowData_ok a b hr ha]; rfl, fun ha => by rw [rowData_faulted a b hr ha]; rfl⟩
    · have hbody : microBody (.addr4 a b) s = busData (addr4Bytes a b) s := (if_neg hcol).trans (if_neg hrow)
      simp only [hbody, if_neg hcol, if_neg hrow]
      exact ⟨fun ha => by rw [busData_ok _ s hr ha]; rfl, fun ha => by rw [busData_faulted _ s hr ha]; rfl⟩

/-- Settles O25: one data frame of the pixel's two bytes, which `be16_rgb565` writes out. -/
theorem pixelPayload : Obligations.PixelPayload := by
  intro r g b s hm hr
  have hbody : microBody (.pix2 r g b) s = busData [r ++ g.extractLsb' 3 3, g.extractLsb' 0 3 ++ b] s :=
    congrArg (busData · s) (be16_rgb565 r g b)
  rw [exec_running rfl hm, hbody]
  exact ⟨fun ha => by rw [busData_ok _ s hr ha]; rfl, fun ha => by rw [busData_faulted _ s hr ha]; rfl⟩

/-! ## A window filled by hand (R95) -/

/-- Transmitted events, with the flat stream of the trace (R16). -/
structure Streamed (evs : List Event) (n : Nat) (s t : State) : Prop extends Transmitted evs n s t where
  stream : flat t.trace = flat s.trace ++ flat evs

/-- `request_transmits` for a body that has put its events on the trace: the completion has no tagged byte (R16). -/
theorem request_streams {op : Byte} {f1 f2 f3 f4 f5 : Half} {body : State → Micro} {evs : List Event} {n : Nat} {s u : State}
    (hi : s.mode = .idle) (hm : s.moves = []) (hb : body (accepted op f1 f2 f3 f4 f5 s) = .run u)
    (hu : Transmitted evs n (accepted op f1 f2 f3 f4 f5 s) u) (htrace : u.trace = s.trace ++ evs) :
    ∃ t, request op f1 f2 f3 f4 f5 body s = .next t ∧ t.mode = .idle ∧ Streamed evs n s t := by
  refine ⟨completeOk u, ?_, rfl, ⟨hu.params, hu.moves, hu.stub, hu.answers⟩, ?_⟩
  · rw [request, hi, glimpse_nil (accepted op f1 f2 f3 f4 f5 s) hm, hb, finish_run u (hu.moves.trans hm)]
  · rw [completeOk_trace, htrace, flat_append, flat_append]
    exact List.append_nil _

theorem busDataIf_ok (ph : Phase) {bs : List Byte} {s : State} (hne : bs ≠ []) (hr : s.moves = []) (ha : s.answerAt 0 = .ok) :
    busDataIf ph bs s = .run ((driveData (setPhase ph s)).sent [.data bs] 1) := by
  rw [busDataIf, if_neg hne, enterPhase_nil ph s hr]
  exact busData_ok bs (setPhase ph s) hr ha

theorem setWindow_streams (f1 f2 f3 f4 f5 : Half) {s : State} (h : s.Ready 5) :
    ∃ t, exec (.setWindow f1 f2 f3 f4 f5) s = .next t ∧ t.mode = .idle ∧ Streamed (windowEvents s.params f1 f2 f3 f4) 5 s t := by
  obtain ⟨hi, hm, ha⟩ := h
  exact request_streams hi hm (windowProgram_ok f1 f2 f3 f4 (accepted 0x05 f1 f2 f3 f4 f5 s) hm ha)
    ⟨rfl, rfl, rfl, fun k => answerAt_sent s [] 5 k⟩ rfl

theorem sendDataBuffer_streams {n : Half} (f2 f3 f4 f5 : Half) {bs : List Byte} {s : State} (hlen : bs.length = n.toNat)
    (hne : bs ≠ []) (h : s.Ready 1) :
    ∃ t, exec (.sendDataBuffer n f2 f3 f4 f5 bs) s = .next t ∧ t.mode = .idle ∧ Streamed [.data bs] 1 s t := by
  obtain ⟨hi, hm, ha⟩ := h
  rw [exec, execSendDataBuffer, if_pos hlen]
  exact request_streams hi hm (busDataIf_ok .prim (s := accepted 0x04 n f2 f3 f4 f5 s) hne hm (ha 0 (by omega)))
    ⟨rfl, rfl, rfl, fun k => answerAt_sent s [] 1 k⟩ rfl

theorem drawingFill_streams {f1 f2 f3 f4 c : Half} {op : Byte} {i : Instr} {x y : Int} {cw ch : Nat}
    (hd : DrawingFill f1 f2 f3 f4 c op i x y cw ch) {s : State} (hw : cw ≤ Config.panelWidth) (hc : 0 < ch) (h : s.Ready (5 + ch)) :
    ∃ t, exec i s = .next t ∧ t.mode = .idle ∧ Streamed (fillEvents s.params x y cw ch c) (5 + ch) s t := by
  obtain ⟨hi, hm, ha⟩ := h
  obtain ⟨he, hb⟩ := drawingFill_exec hd s
  rw [he]
  exact request_streams hi hm (hb.trans (fill_ok cw ch x y c (accepted op f1 f2 f3 f4 c s) hw hc hm ha))
    ⟨rfl, rfl, rfl, fun k => answerAt_sent s [] (5 + ch) k⟩ rfl

/-- A window program and its pixels in one data frame are, on the flat stream, the fill (R95). -/
theorem flat_window_then_buffer (p : Params) (x y : Half) (cw ch : Nat) (c : Half) :
    flat (windowEvents p x y (bound (x.toInt + cw - 1)) (bound (y.toInt + ch - 1)) ++
        [.data (pixelStream (List.replicate (cw * ch) c))]) =
      flat (fillEvents p x.toInt y.toInt cw ch c) := by
  have bound_toInt (v : Half) : bound v.toInt = v := BitVec.ofInt_toInt
  rw [flat_fillEvents, flat_append, flat_cons, flat_nil, List.append_nil, bound_toInt, bound_toInt, Nat.mul_comm]
  rfl

/-- Settles O49: both ways send the same flat stream (`flat_window_then_buffer`), and the stub consumes nothing else. -/
theorem windowThenBufferIsFill : Obligations.WindowThenBufferIsFill := by
  intro x y w h n c f1 f2 f3 f4 f5 cw ch s hclip hn hr
  obtain ⟨_, hcw, _, _, hcw1, hch1⟩ := clip_bounds hclip
  have hpos : 0 < cw * ch := Nat.mul_pos hcw1 hch1
  have hlen : (pixelStream (List.replicate (cw * ch) c)).length = n.toNat := by
    rw [pixelStream_length, List.length_replicate, hn, Nat.mul_assoc]
  have hne : pixelStream (List.replicate (cw * ch) c) ≠ [] := by
    refine List.ne_nil_of_length_pos ?_
    rw [pixelStream_length, List.length_replicate]
    omega
  have hflat := flat_window_then_buffer s.params x y cw ch c
  obtain ⟨t, ht, hidle, hwindow⟩ :=
    setWindow_streams x y (bound (x.toInt + cw - 1)) (bound (y.toInt + ch - 1)) f1 (hr.mono (Nat.le_add_right 5 ch))
  obtain ⟨u, hu, _, hpixels⟩ := sendDataBuffer_streams f2 f3 f4 f5 hlen hne
    (hwindow.ready hidle (hr.mono (Nat.add_le_add_left hch1 5)))
  obtain ⟨v, hv, _, hfill⟩ := drawingFill_streams (.inl ⟨rfl, rfl, rfl, rfl, hclip⟩ : DrawingFill x y w h c 0x06 _ _ _ cw ch)
    (by simp only [Config.panelWidth]; omega) hch1 hr
  refine ⟨t, u, v, ht, hu, hv, ?_, ?_⟩
  · rw [hpixels.stream, hwindow.stream, hfill.stream, List.append_assoc, ← flat_append, hflat]
  · rw [hpixels.stub, hwindow.stub, hwindow.params, hfill.stub, ← consumed_append, consumed, hflat, consumed]

end Sys2Proof.Machine
end

section
/-! The frame protocol: the three protocol operations (R115 to R117), the two frames run alone (R112, R113), the length of the payload port
(R117), and the order command, then its data (R118). -/

namespace Sys2Proof.Machine

/-! ## A request that the host leaves alone (R82, R115, R222) -/

theorem request_ok {op : Byte} {f1 f2 f3 f4 f5 : Half} {body : State → Micro} {s u : State} (hi : s.mode = .idle) (hr : s.moves = [])
    (hb : body (accepted op f1 f2 f3 f4 f5 s) = .run u) (hu : u.moves = []) :
    request op f1 f2 f3 f4 f5 body s = .next (completeOk u) := by
  rw [request, hi, glimpse_nil (accepted op f1 f2 f3 f4 f5 s) hr, hb, finish_run u hu]

theorem request_ended {op : Byte} {f1 f2 f3 f4 f5 : Half} {body : State → Micro} {s u : State} (hi : s.mode = .idle)
    (hr : s.moves = []) (hb : body (accepted op f1 f2 f3 f4 f5 s) = .ended u) :
    request op f1 f2 f3 f4 f5 body s = .next u := by
  rw [request, hi, glimpse_nil (accepted op f1 f2 f3 f4 f5 s) hr, hb, finish_ended]

/-! ## A frame in its PHASE (R25, R112, R113) -/

theorem cmdStep_ok (ph : Phase) (b : Byte) {s : State} (hr : s.moves = []) (ha : s.answerAt 0 = .ok) :
    cmdStep ph b s = .run (setPrimed (primedAfter s.params b) ((drivenCmd (setPhase ph s)).sent [.cmd b] 1)) := by
  rw [cmdStep, enterPhase_nil ph s hr]
  exact busCmd_ok b (setPhase ph s) hr ha

theorem cmdStep_faulted (ph : Phase) (b : Byte) {s : State} (hr : s.moves = []) (ha : s.answerAt 0 = .fault) :
    cmdStep ph b s = .ended ((setPhase ph s).faulted s.op [] 0 (.command b)) := by
  rw [cmdStep, enterPhase_nil ph s hr]
  exact busCmd_faulted b (setPhase ph s) hr ha

theorem dataStep_ok (ph : Phase) (bs : List Byte) {s : State} (hr : s.moves = []) (ha : s.answerAt 0 = .ok) :
    busData bs (enterPhase ph s) = .run ((driveData (setPhase ph s)).sent [.data bs] 1) := by
  rw [enterPhase_nil ph s hr]
  exact busData_ok bs (setPhase ph s) hr ha

theorem dataStep_faulted (ph : Phase) (bs : List Byte) {s : State} (hr : s.moves = []) (ha : s.answerAt 0 = .fault) :
    busData bs (enterPhase ph s) = .ended ((setPhase ph s).faulted s.op [] 0 (.data bs)) := by
  rw [enterPhase_nil ph s hr]
  exact busData_faulted bs (setPhase ph s) hr ha

theorem busDataIf_faulted (ph : Phase) {bs : List Byte} {s : State} (hne : bs ≠ []) (hr : s.moves = []) (ha : s.answerAt 0 = .fault) :
    busDataIf ph bs s = .ended ((setPhase ph s).faulted s.op [] 0 (.data bs)) := by
  rw [busDataIf, if_neg hne]
  exact dataStep_faulted ph bs hr ha

/-! ## The protocol operations (R115 to R117) -/

/-- Settles O18: the request is one command frame in PH_PRIM, sent or faulted. -/
theorem sendCommandRuns : Obligations.SendCommandRuns := by
  refine ⟨fun f1 f2 f3 f4 f5 s ⟨hi, hr, ha⟩ => ?_, fun f1 f2 f3 f4 f5 s hi hr ⟨_, hf⟩ => ?_⟩
  · rw [exec, execSendCommand]
    exact request_ok hi hr (cmdStep_ok .prim (loByte f5) (s := accepted 0x02 f1 f2 f3 f4 f5 s) hr (ha 0 Nat.one_pos)) hr
  · rw [exec, execSendCommand]
    exact request_ended hi hr (cmdStep_faulted .prim (loByte f5) (s := accepted 0x02 f1 f2 f3 f4 f5 s) hr hf)

/-- Settles O19: the request is one data frame in PH_PRIM, sent or faulted. -/
theorem sendDataRuns : Obligations.SendDataRuns := by
  refine ⟨fun f1 f2 f3 f4 f5 s ⟨hi, hr, ha⟩ => ?_, fun f1 f2 f3 f4 f5 s hi hr ⟨_, hf⟩ => ?_⟩
  · rw [exec, execSendData]
    exact Eq.trans (request_ok hi hr (dataStep_ok .prim [loByte f5] hr (ha 0 Nat.one_pos)) hr) rfl
  · rw [exec, execSendData]
    exact request_ended hi hr (dataStep_faulted .prim [loByte f5] (s := accepted 0x03 f1 f2 f3 f4 f5 s) hr hf)

/-- A SEND_DATA_BUFFER whose port holds the count runs (R117). -/
theorem exec_sendDataBuffer {f1 : Half} {hp : List Byte} (hlen : hp.length = f1.toNat) (f2 f3 f4 f5 : Half) (s : State) :
    exec (.sendDataBuffer f1 f2 f3 f4 f5 hp) s = request 0x04 f1 f2 f3 f4 f5 (busDataIf .prim hp) s := if_pos hlen

/-- Settles O20: the request is one data frame in PH_PRIM, sent or faulted, or no micro-step at all for a count of 0. -/
theorem sendDataBufferRuns : Obligations.SendDataBufferRuns := by
  refine ⟨fun f1 f2 f3 f4 f5 hp s hlen hne ⟨hi, hr, ha⟩ => ?_, fun f2 f3 f4 f5 s hi hr => ?_,
    fun f1 f2 f3 f4 f5 hp s hlen hne hi hr ⟨_, hf⟩ => ?_⟩
  · rw [exec_sendDataBuffer hlen]
    exact request_ok hi hr (busDataIf_ok .prim (s := accepted 0x04 f1 f2 f3 f4 f5 s) hne hr (ha 0 Nat.one_pos)) hr
  · have hnone : busDataIf .prim [] (accepted 0x04 0 f2 f3 f4 f5 s) = .run ((accepted 0x04 0 f2 f3 f4 f5 s).sent [] 0) :=
      congrArg Micro.run (sent_nil _).symm
    rw [exec_sendDataBuffer rfl]
    exact request_ok hi hr hnone hr
  · rw [exec_sendDataBuffer hlen]
    exact request_ended hi hr (busDataIf_faulted .prim (s := accepted 0x04 f1 f2 f3 f4 f5 s) hne hr hf)

/-! ## The payload port (R117, R93) -/

theorem decodeRequest_buffer_length {f1 : Half} {hp : List Byte} (hlen : hp.length ≠ f1.toNat) (f2 f3 f4 f5 : Half) :
    decodeRequest 0x04 f1 f2 f3 f4 f5 hp = .error .payloadPortLength := if_neg hlen

theorem decodeRequest_other_port {op : Byte} {hp : List Byte} (hop : op ≠ 0x04) (hne : hp ≠ []) (f1 f2 f3 f4 f5 : Half) :
    decodeRequest op f1 f2 f3 f4 f5 hp = .error .payloadPortLength := (if_neg hop).trans (if_pos hne)

/-- Settles O21: the length is asked for by the meaning and by the decoder alike, and the decoder asks every other code for no bytes. -/
theorem payloadPortLength : Obligations.PayloadPortLength := by
  refine ⟨fun f1 f2 f3 f4 f5 hp s hlen => ⟨if_neg hlen, ?_⟩, fun op f1 f2 f3 f4 f5 hp p hop hne => ?_⟩
  · exact (decode_request s.params 0x04 f1 f2 f3 f4 f5 hp).trans (decodeRequest_buffer_length hlen f2 f3 f4 f5)
  · exact (decode_request p op f1 f2 f3 f4 f5 hp).trans (decodeRequest_other_port hop hne f1 f2 f3 f4 f5)

/-! ## The frames alone (R112, R113) -/

/-- Settles O22: the row is the primitive BusCmd. -/
theorem commandFrame : Obligations.CommandFrame := by
  intro b s hm hr
  have hrow : exec (.cmdFrame b) s = .next (busCmd b s).state := exec_running rfl hm
  rw [hrow]
  exact ⟨fun ha => by rw [busCmd_ok b s hr ha]; rfl, fun ha => by rw [busCmd_faulted b s hr ha]; rfl⟩

/-- Settles O23: the row is the primitive BusData in the PHASE it finds, and nothing for a list of no byte, whatever the mode. -/
theorem dataFrame : Obligations.DataFrame := by
  refine ⟨fun bs s hne hm hr => ?_, fun s => ?_⟩
  · have hrow : exec (.dataFrame bs) s = .next (busDataIf s.phase bs s).state := exec_running rfl hm
    rw [hrow]
    exact ⟨fun ha => by rw [busDataIf_ok s.phase hne hr ha]; rfl, fun ha => by rw [busDataIf_faulted s.phase hne hr ha]; rfl⟩
  · rw [exec_micro rfl, micro]
    cases s.mode <;> rfl

/-! ## Command, then its data (R118, R53) -/

theorem leadingData_data (bs : List Byte) (ts : List Tagged) :
    logicalOps.leadingData (bs.map .d ++ ts) = bs ++ logicalOps.leadingData ts := by
  induction bs with
  | nil => rfl
  | cons b bs ih => exact congrArg (b :: ·) ih

theorem logicalOps_data (bs : List Byte) (ts : List Tagged) : logicalOps (bs.map .d ++ ts) = logicalOps ts := by
  induction bs with
  | nil => rfl
  | cons b bs ih => exact ih

/-- A command with all of its data is one operation, where no data byte follows it. -/
theorem logicalOps_command (b : Byte) (bs : List Byte) {ts : List Tagged} (h : logicalOps.leadingData ts = []) :
    logicalOps (.c b :: (bs.map .d ++ ts)) = (b, bs) :: logicalOps ts := by
  rw [logicalOps, leadingData_data, h, List.append_nil, logicalOps_data]

theorem flat_recordEvents (r : ScriptRecord) : flat (recordEvents r) = .c r.opcode :: r.payload.map .d := by
  have hpayload : flat (if r.payload = [] then [] else [.data r.payload]) = r.payload.map .d := by
    split
    next hp => rw [hp]; rfl
    next => exact List.append_nil _
  have hdelay : flat (if r.delay = 0 then [] else [.wait r.delay]) = [] := by split <;> rfl
  rw [recordEvents, flat_cons, flat_append, hpayload, hdelay, List.append_nil]
  rfl

theorem flat_scriptEvents (rs : List ScriptRecord) :
    flat (scriptEvents rs) = rs.flatMap fun r => .c r.opcode :: r.payload.map .d := by
  simp only [← flat_recordEvents]
  exact List.flatMap_assoc

/-- A script is its records' operations in their order (R131). -/
theorem logicalOps_script (rs : List ScriptRecord) :
    logicalOps (flat (scriptEvents rs)) = rs.map fun r => (r.opcode, r.payload) := by
  rw [flat_scriptEvents]
  induction rs with
  | nil => rfl
  | cons r rs ih =>
    have hnext : logicalOps.leadingData (rs.flatMap fun r => .c r.opcode :: r.payload.map .d) = [] := by cases rs <;> rfl
    rw [List.flatMap_cons, List.cons_append, logicalOps_command _ _ hnext, ih]
    rfl

/-- A window program and the data bytes after it are three operations (R171). -/
theorem logicalOps_window (p : Params) (x0 y0 x1 y1 : Half) (bs : List Byte) :
    logicalOps (flat (windowEvents p x0 y0 x1 y1) ++ bs.map .d) =
      [(p.opCaset, addr4Bytes x0 x1), (p.opPaset, addr4Bytes y0 y1), (p.opRamwr, bs)] := by
  have hwrite : logicalOps (.c p.opRamwr :: bs.map .d) = [(p.opRamwr, bs)] := by
    simpa [logicalOps] using logicalOps_command p.opRamwr bs (ts := []) rfl
  simp only [flat_windowEvents, List.cons_append, List.append_assoc, List.nil_append]
  rw [logicalOps_command _ _ rfl, logicalOps_command _ _ rfl, hwrite]

/-- An INIT whose script runs to its end sets INIT_DONE (R130). -/
theorem initBody_run {s u : State} (hr : s.moves = []) (hrun : runScript s.params.script.length (initStart s) = .run u)
    (hu : u.moves = []) : initBody s = .run (setInitDone true u) := by
  have hbegin : initBegin s = initStart s := initBegin_waits (by rw [State.Waits, hr]; rfl)
  change (runScript s.params.script.length (initBegin s)).andThen _ = _
  rw [hbegin, hrun, andThen_run, glimpse_nil (setInitDone true u) hu]

/-- An INIT that the host leaves alone and whose script runs to its end completes (R130). -/
theorem init_ok (f1 f2 f3 f4 f5 : Half) {s u : State} (hk : s.params.script.length ≤ 255) (hi : s.mode = .idle) (hr : s.moves = [])
    (hrun : runScript s.params.script.length (initStart (accepted 0x01 f1 f2 f3 f4 f5 s)) = .run u) (hu : u.moves = []) :
    exec (.init f1 f2 f3 f4 f5) s = .next (completeOk (setInitDone true u)) := by
  rw [exec, execInit, if_pos hk]
  exact request_ok hi hr (initBody_run (s := accepted 0x01 f1 f2 f3 f4 f5 s) hr hrun hu) hu

/-- What was appended to the trace has the stream that was sent (R16). -/
theorem Streamed.appended {evs : List Event} {n : Nat} {s t : State} (h : Streamed evs n s t) (hg : Grows s t) :
    ∃ evs', t.trace = s.trace ++ evs' ∧ flat evs' = flat evs := by
  obtain ⟨_, ⟨evs', htrace⟩, _⟩ := hg
  refine ⟨evs', htrace.symm, List.append_cancel_left (as := flat s.trace) ?_⟩
  rw [← flat_append, htrace, h.stream]

/-- A fill that draws fits the row buffer and has a row (R180, R190). -/
theorem drawingFill_bounds {f1 f2 f3 f4 c : Half} {op : Byte} {i : Instr} {x y : Int} {cw ch : Nat}
    (hd : DrawingFill f1 f2 f3 f4 c op i x y cw ch) : cw ≤ Config.panelWidth ∧ 0 < ch := by
  rcases hd with ⟨_, _, _, _, hclip⟩ | ⟨_, _, _, _, rfl, rfl⟩
  · obtain ⟨_, _, _, _, _, _⟩ := clip_bounds hclip
    exact ⟨by simp only [Config.panelWidth]; omega, by omega⟩
  · exact ⟨Nat.le_refl _, by decide⟩

/-- Settles O35: each caller's events are records, or a window program with its pixels after it, which `logicalOps_script` and
`logicalOps_window` read as operations; the completion has no tagged byte. -/
theorem logicalOperations : Obligations.LogicalOperations := by
  refine ⟨fun f1 f2 f3 f4 f5 s hk ⟨hi, hr, ha⟩ => ?_, fun f1 f2 f3 f4 c op i x y cw ch s hd h => ?_, fun f1 f2 f3 f4 f5 s h => ?_⟩
  · obtain ⟨ph, hrun⟩ := runScript_ok s.params.script (initStart (accepted 0x01 f1 f2 f3 f4 f5 s)) rfl (by simpa using hk) hr ha
    refine ⟨_, scriptEvents s.params.script ++ [.done 0x01 .ok], init_ok f1 f2 f3 f4 f5 hk hi hr hrun hr, ?_, ?_⟩
    · rw [completeOk_trace, ← List.append_assoc]
      rfl
    · rw [flat_append]
      exact (congrArg logicalOps (List.append_nil _)).trans (logicalOps_script _)
  · obtain ⟨hw, hc⟩ := drawingFill_bounds hd
    obtain ⟨t, ht, _, hsent⟩ := drawingFill_streams hd hw hc h
    obtain ⟨evs, htrace, hflat⟩ := hsent.appended (exec_grows ht)
    refine ⟨t, evs, ht, htrace, ?_⟩
    rw [hflat, flat_fillEvents, Nat.mul_comm ch cw, logicalOps_window]
  · obtain ⟨t, ht, _, hsent⟩ := setWindow_streams f1 f2 f3 f4 f5 h
    obtain ⟨evs, htrace, hflat⟩ := hsent.appended (exec_grows ht)
    refine ⟨t, evs, ht, htrace, ?_⟩
    rw [hflat]
    exact (congrArg logicalOps (List.append_nil _).symm).trans (logicalOps_window s.params f1 f2 f3 f4 [])

end Sys2Proof.Machine
end

section
/-! The bring-up: a record run alone (R131) and at its place in the table (R140, R146 to R159), INIT over any script (R130), where a fault
stops either (R144), and what a well-formed script (R133 to R139, A24) makes of it. -/

namespace Sys2Proof.Machine

/-! ## The record executor alone (R131) -/

/-- Settles O27: the row is the record executor, which sends the whole record or ends at its faulted frame. -/
theorem recordExecuted : Obligations.RecordExecuted := by
  intro r s hm hr
  have hrow : exec (.srec r.opcode r.payload r.delay) s = .next (execRecord r s).state := exec_running rfl hm
  rw [hrow]
  exact ⟨fun ha => by rw [execRecord_ok r s hr ha]; rfl, fun k ph f hstep ha => by rw [execRecord_fault r s k ph f hr hstep ha]; rfl⟩

/-! ## The fourteen record rows (R140, R146 to R159) -/

theorem scriptRecords_not_request (p : Params) : ∀ c ∈ scriptRecords p, isHostRequest c.1 = false := by
  simp [scriptRecords, isHostRequest]

/-- A record row of a block that is not halted runs its record at its index. -/
theorem exec_record {s : State} (hm : s.mode ≠ .halted) {c : Instr × Nat × ScriptRecord} (hc : c ∈ scriptRecords s.params) :
    exec c.1 s = .next (scriptStep (BitVec.ofNat 8 c.2.1) c.2.2 s).state := by
  have hrequest := scriptRecords_not_request s.params c hc
  rw [exec_running hrequest hm, ← rowBody_record s c hc, rowBody, if_neg (by simp [hrequest])]

theorem scriptStep_nil (i : Byte) (r : ScriptRecord) {s : State} (hr : s.moves = []) :
    scriptStep i r s = (execRecord r (setSp i s)).andThen fun s => .run (glimpse (setSp (i + 1) s)) := by
  rw [scriptStep, glimpse_nil (setSp i s) hr]

/-- Where SP is at its index already, as in INIT. -/
theorem exec_record_at_sp {s : State} (hm : s.mode ≠ .halted) (hr : s.moves = []) {c : Instr × Nat × ScriptRecord}
    (hc : c ∈ scriptRecords s.params) (hsp : c.2.1 = s.sp.toNat) :
    exec c.1 s = .next ((execRecord c.2.2 s).andThen fun t => .run (glimpse (setSp (s.sp + 1) t))).state := by
  rw [exec_record hm hc, scriptStep_nil _ _ hr, hsp, BitVec.ofNat_toNat, BitVec.setWidth_eq]
  rfl

/-- Settles O28: with SP at its index the row runs the record (`execRecord_ok`, `execRecord_fault`), and SP counts on where it was sent. -/
theorem tableRecords : Obligations.TableRecords := by
  intro s hm hr c hc
  rw [exec_record hm hc, scriptStep_nil _ _ hr]
  refine ⟨fun ha => ?_, fun k ph f hstep ha => ?_⟩
  · rw [execRecord_ok c.2.2 (setSp (BitVec.ofNat 8 c.2.1) s) hr ha, andThen_run, BitVec.ofNat_add, glimpse_nil]
    · rfl
    · exact hr
  · rw [execRecord_fault c.2.2 (setSp (BitVec.ofNat 8 c.2.1) s) k ph f hr hstep ha]
    rfl

/-! ## INIT over any script (R130) -/

/-- The body of INIT where the host leaves it alone. -/
theorem initBody_nil {s : State} (hr : s.moves = []) :
    initBody s = (runScript s.params.script.length (initStart s)).andThen fun s => .run (glimpse (setInitDone true s)) := by
  have hbegin : initBegin s = initStart s := initBegin_waits (by rw [State.Waits, hr]; rfl)
  rw [← hbegin]
  rfl

theorem init_ended (f1 f2 f3 f4 f5 : Half) {s u : State} (hk : s.params.script.length ≤ 255) (hi : s.mode = .idle) (hr : s.moves = [])
    (hrun : runScript s.params.script.length (initStart (accepted 0x01 f1 f2 f3 f4 f5 s)) = .ended u) :
    exec (.init f1 f2 f3 f4 f5) s = .next u := by
  rw [exec, execInit, if_pos hk]
  refine request_ended hi hr ((initBody_nil (s := accepted 0x01 f1 f2 f3 f4 f5 s) hr).trans ?_)
  exact congrArg (Micro.andThen · _) hrun

theorem initStub_accepted (op : Byte) (f1 f2 f3 f4 f5 : Half) (s : State) : initStub (accepted op f1 f2 f3 f4 f5 s) = initStub s := rfl

/-- Settles O29: SP counts through the script (`runScript_ok`) where it is at most 255 records long; a longer one stops INIT. -/
theorem initCompletes : Obligations.InitCompletes := by
  refine ⟨fun f1 f2 f3 f4 f5 s hk ⟨hi, hr, ha⟩ => ?_, fun f1 f2 f3 f4 f5 s hk => if_neg (Nat.not_le.mpr hk)⟩
  obtain ⟨ph, hrun⟩ := runScript_ok s.params.script (initStart (accepted 0x01 f1 f2 f3 f4 f5 s)) rfl (by simpa using hk) hr ha
  rw [init_ok f1 f2 f3 f4 f5 hk hi hr hrun hr]
  congr 1
  ext1 <;> simp [State.completed, initStub_accepted]

/-- Settles O30: the script is sent up to the faulted frame (`runScript_fault`), and INIT ends there. -/
theorem initFaultLocation : Obligations.InitFaultLocation := by
  intro f1 f2 f3 f4 f5 s pre post r k ph f hi hr hscript hk hstep ha
  have hlen : pre.length < s.params.script.length := by rw [hscript]; simp
  have hrun := runScript_fault pre post r (initStart (accepted 0x01 f1 f2 f3 f4 f5 s)) s.params.script.length k ph f hscript hlen
    (by simp; omega) hr hstep ha
  rw [init_ended f1 f2 f3 f4 f5 hk hi hr hrun]
  congr 1
  ext1 <;> simp

/-! ## A well-formed script (R133 to R139, A24) -/

/-- Without its first sleep-out a well-formed script has these opcodes, in this order. -/
theorem opcodes_of_scriptBaseOk {p : Params} {rs : List ScriptRecord} (h : scriptBaseOk p rs = true) :
    rs.map (·.opcode) = [p.opSwreset, p.opColmod, p.opPwctrA, p.opPwctrB, p.opVmctr, p.opMadctl, p.opDfunctr, p.opFrmctr, p.opPgamctrl,
      p.opNgamctrl, p.opSlpout, p.opDispon, p.opNoron] := by
  unfold scriptBaseOk at h
  split at h
  · simp only [Bool.and_eq_true, decide_eq_true_eq] at h
    simp [h]
  · cases h

/-- The floors of R133 and R139. -/
theorem delays_of_scriptBaseOk {p : Params} {rs : List ScriptRecord} (h : scriptBaseOk p rs = true) :
    265 ≤ (rs.map fun r => r.delay.toNat).sum := by
  unfold scriptBaseOk at h
  split at h
  · simp only [Bool.and_eq_true, decide_eq_true_eq] at h
    simp only [List.map_cons, List.map_nil, List.sum_cons, List.sum_nil]
    omega
  · cases h

/-- A well-formed script is the thirteen records of conditions 1 to 7 and, somewhere among them, the first sleep-out (R139). -/
theorem perm_of_scriptWellFormed {p : Params} (h : scriptWellFormed p = true) :
    ∃ r rs, p.script.Perm (r :: rs) ∧ r.opcode = p.opSlpout ∧ scriptBaseOk p rs = true := by
  obtain ⟨i, _, hi⟩ := List.any_eq_true.mp h
  obtain ⟨hslpout, hbase⟩ := Bool.and_eq_true_iff.mp hi
  unfold slpoutAt at hslpout
  split at hslpout
  case h_1 r hget =>
    obtain ⟨hlt, rfl⟩ := List.getElem?_eq_some_iff.mp hget
    exact ⟨_, _, (List.getElem_cons_eraseIdx_perm hlt).symm, (of_decide_eq_true hslpout).1, hbase⟩
  case h_2 => cases hslpout

/-- A well-formed script has the opcodes of the table of R140 in some order. -/
theorem opcodes_of_scriptWellFormed {p : Params} (h : scriptWellFormed p = true) :
    (p.script.map (·.opcode)).Perm ((referenceScript p).map (·.opcode)) := by
  obtain ⟨r, rs, hperm, hr, hbase⟩ := perm_of_scriptWellFormed h
  refine (hperm.map _).trans ?_
  rw [List.map_cons, hr, opcodes_of_scriptBaseOk hbase]
  exact (List.perm_middle (l₁ := [p.opSwreset, p.opColmod, p.opPwctrA, p.opPwctrB, p.opVmctr])).symm

theorem length_of_scriptWellFormed {p : Params} (h : scriptWellFormed p = true) : p.script.length = 14 := by
  simpa [referenceScript] using (opcodes_of_scriptWellFormed h).length_eq

/-- The window opcodes are none of the table's (R218). -/
theorem windowOpcode_not_in_table {p : Params} (h : p.Valid) :
    ∀ b ∈ [p.opCaset, p.opPaset, p.opRamwr], b ∉ (referenceScript p).map (·.opcode) := by
  obtain ⟨hdistinct, _⟩ := h
  have hapart := List.disjoint_of_nodup_append ((List.perm_append_comm_assoc [p.opSwreset, p.opSlpout, p.opNoron, p.opDispon]
    [p.opCaset, p.opPaset, p.opRamwr] _).nodup_iff.mp hdistinct)
  intro b hb htable
  refine hapart hb (List.subset_def.mp ?_ htable)
  simp [referenceScript, recSwreset, recColmod, recPwctrA, recPwctrB, recVmctr, recSlpout1, recMadctl, recDfunctr, recFrmctr,
    recPgamctrl, recNgamctrl, recSlpout2, recDispon, recNoron]

theorem scriptPrimed_eq_false {p : Params} {rs : List ScriptRecord} (hne : rs ≠ []) (h : ∀ r ∈ rs, r.opcode ≠ p.opRamwr)
    (v : Bool) : scriptPrimed p rs v = false := by
  rw [scriptPrimed, List.getLast?_eq_some_getLast hne]
  exact decide_eq_false (h _ (List.getLast_mem hne))

/-- Settles O34: its opcodes are the table's in another order (`opcodes_of_scriptWellFormed`), so the last of them is no memory write. -/
theorem wellFormedScriptUnprimed : Obligations.WellFormedScriptUnprimed := by
  intro p hv hwf
  have hopcodes := opcodes_of_scriptWellFormed hwf
  have hlen := length_of_scriptWellFormed hwf
  have hwindow : ∀ r ∈ p.script, r.opcode ≠ p.opCaset ∧ r.opcode ≠ p.opPaset ∧ r.opcode ≠ p.opRamwr := by
    intro r hr
    have htable : r.opcode ∈ (referenceScript p).map (·.opcode) := hopcodes.subset (List.mem_map_of_mem hr)
    have hne : ∀ b ∈ [p.opCaset, p.opPaset, p.opRamwr], r.opcode ≠ b := fun b hb e => windowOpcode_not_in_table hv b hb (e ▸ htable)
    simpa using hne
  refine ⟨hlen, hwindow, ?_⟩
  rintro f1 f2 f3 f4 f5 s rfl hready
  refine ⟨_, initCompletes.1 f1 f2 f3 f4 f5 s (by omega) hready, ?_, rfl, ?_⟩
  · exact scriptPrimed_eq_false (List.ne_nil_of_length_pos (by omega)) (fun r hr => (hwindow r hr).2.2) _
  · exact congrArg (BitVec.ofNat 8) hlen

/-! ## The delays (R142, R143) -/

theorem waitSum_append (a b : List Event) : waitSum (a ++ b) = waitSum a + waitSum b := by
  simp [waitSum]

theorem waitSum_recordEvents (r : ScriptRecord) : waitSum (recordEvents r) = r.delay.toNat := by
  have hdata : waitSum (if r.payload = [] then [] else [.data r.payload]) = 0 := by split <;> rfl
  have hwait : waitSum (if r.delay = 0 then [] else [.wait r.delay]) = r.delay.toNat := by
    split
    · rw [‹r.delay = 0›]; rfl
    · rfl
  rw [recordEvents, ← List.singleton_append, waitSum_append, waitSum_append, hdata, hwait]
  simp [waitSum]

theorem waitSum_scriptEvents (rs : List ScriptRecord) : waitSum (scriptEvents rs) = (rs.map fun r => r.delay.toNat).sum := by
  induction rs with
  | nil => rfl
  | cons r rs ih =>
    rw [scriptEvents, List.flatMap_cons, ← scriptEvents, waitSum_append, waitSum_recordEvents, ih, List.map_cons, List.sum_cons]

/-- Settles O32: the waits of a script are its records' delays, and all of a well-formed script but its first sleep-out keeps the floors. -/
theorem delaySumFloor : Obligations.DelaySumFloor := by
  intro f1 f2 f3 f4 f5 s hwf hready
  have hlen := length_of_scriptWellFormed hwf
  obtain ⟨r, rs, hperm, _, hbase⟩ := perm_of_scriptWellFormed hwf
  have hfloor := delays_of_scriptBaseOk hbase
  have hsum := (hperm.map fun r => r.delay.toNat).sum_eq
  rw [List.map_cons, List.sum_cons] at hsum
  refine ⟨_, initCompletes.1 f1 f2 f3 f4 f5 s (by omega) hready, rfl, ?_⟩
  change _ ≤ waitSum (s.trace ++ scriptEvents s.params.script ++ [.done 0x01 .ok])
  rw [waitSum_append, waitSum_append, waitSum_scriptEvents, hsum]
  omega

/-! ## INIT and the rows of the table (R130, R140) -/

theorem execAll_cons {i : Instr} {s t : State} (h : exec i s = .next t) (is : List Instr) : execAll (i :: is) s = execAll is t := by
  rw [execAll, h]

/-- A halted block runs no row below the host interface (R231). -/
theorem execAll_halted {is : List Instr} {s : State} (hm : s.mode = .halted) (his : ∀ i ∈ is, isHostRequest i = false) :
    execAll is s = .next s := by
  induction is with
  | nil => rfl
  | cons i is ih =>
    obtain ⟨hi, his⟩ := List.forall_mem_cons.mp his
    have hexec : exec i s = .next s := by rw [exec_micro hi, micro, hm]
    rw [execAll_cons hexec, ih his]

/-- Where no reset comes, only a fault ends an operation, and it halts the block (R222). -/
theorem Micro.From.ended_halted {E : State → State → Prop} {s t : State} (h : (Micro.ended t).From E s) (hs : s.NoReset) :
    t.mode = .halted := by
  obtain ⟨u, _, _, ⟨f, rfl, _⟩ | ⟨hn, _⟩⟩ := h
  · rfl
  · exact absurd hs hn

theorem Plain.quiet {s t : State} (h : Plain s t) (hr : s.moves = []) : t.moves = [] := by
  have hsuffix := h.moves
  rwa [hr, List.suffix_nil] at hsuffix

theorem noReset_of_quiet {s : State} (hr : s.moves = []) : s.NoReset := by
  simp [State.NoReset, hr]

/-- The rows of the records from SP on do what the loop of INIT does from there (R130, R24). -/
theorem execAll_records (cs : List (Instr × Nat × ScriptRecord)) {s : State} (hrows : ∀ c ∈ cs, c ∈ scriptRecords s.params)
    (hindex : cs.map (·.2.1) = List.range' s.sp.toNat cs.length) (hscript : s.params.script.drop s.sp.toNat = cs.map (·.2.2))
    (hk : s.sp.toNat + cs.length ≤ 255) (hm : s.mode ≠ .halted) (hr : s.moves = []) :
    execAll (cs.map (·.1)) s = .next (runScript cs.length s).state := by
  induction cs generalizing s with
  | nil => rfl
  | cons c cs ih =>
    rw [List.map_cons, List.length_cons, List.range'_succ] at hindex
    obtain ⟨hc, hindex⟩ := List.cons_eq_cons.mp hindex
    obtain ⟨hrow, hrows⟩ := List.forall_mem_cons.mp hrows
    rw [List.length_cons] at hk
    have hfrom := execRecord_from c.2.2 s
    rw [List.map_cons, execAll_cons (exec_record_at_sp hm hr hrow hc), List.length_cons, runScript, fetchRecord_of_drop hscript]
    simp only
    cases hmicro : execRecord c.2.2 s with
    | ended t =>
      rw [hmicro] at hfrom
      refine execAll_halted (hfrom.ended_halted (noReset_of_quiet hr)) fun i hi => ?_
      obtain ⟨d, hd, rfl⟩ := List.mem_map.mp hi
      exact scriptRecords_not_request _ d (hrows d hd)
    | run t =>
      rw [hmicro] at hfrom
      obtain ⟨hplain, _, _, hsame⟩ := hfrom
      have hlt : s.sp.toNat < 255 := by omega
      have hquiet := hplain.quiet hr
      rw [andThen_run, andThen_run, hsame, glimpse_nil (setSp (s.sp + 1) t) hquiet, state_run]
      refine ih (s := setSp (s.sp + 1) t) ?_ ?_ ?_ ?_ ?_ hquiet
      · rwa [setSp_params, hplain.params]
      · rwa [setSp_sp, sp_succ hlt]
      · rw [setSp_params, hplain.params]
        exact drop_sp_succ hlt hscript
      · rw [setSp_sp, sp_succ hlt]; omega
      · rwa [setSp_mode, hplain.mode]

/-- Settles O36: after the acceptance the rows and the loop of INIT lead to the same state (`execAll_records`); the loop has run to its end
unless that state is halted. -/
theorem initIsItsRecords : Obligations.InitIsItsRecords := by
  intro f1 f2 f3 f4 f5 s hi hr hscript
  let a := initStart (accepted 0x01 f1 f2 f3 f4 f5 s)
  have hlen : s.params.script.length = 14 := by rw [hscript]; rfl
  have hk : s.params.script.length ≤ 255 := by omega
  refine ⟨(runScript 14 a).state, execAll_records (scriptRecords s.params) (s := a) (fun c hc => hc) rfl hscript
    (by simp [a, scriptRecords]) (by simp [a]) hr, ?_⟩
  have hfrom := runScript_from 14 a hk
  cases hrun : runScript 14 a with
  | ended t =>
    rw [hrun] at hfrom
    rw [state_ended, if_pos (hfrom.ended_halted (noReset_of_quiet hr))]
    exact init_ended f1 f2 f3 f4 f5 hk hi hr (by rw [hlen]; exact hrun)
  | run t =>
    rw [hrun] at hfrom
    obtain ⟨hplain, _⟩ := hfrom
    have hbusy : t.mode = .busy := hplain.mode
    have hop : t.op = 0x01 := hplain.op
    rw [state_run, if_neg (by simp [hbusy]), ← hop, init_ok f1 f2 f3 f4 f5 hk hi hr (by rw [hlen]; exact hrun) (hplain.quiet hr)]
    rfl

/-! ## What the bring-up leaves alone (R130, R24) -/

/-- The registers of the window and of the rows, and what no operation writes. -/
def BringUpKept (s t : State) : Prop := SameWindow s t ∧ SameRows s t ∧ t.params = s.params ∧ t.port = s.port

theorem BringUpKept.trans {s t u : State} (h : BringUpKept s t) (k : BringUpKept t u) : BringUpKept s u := by
  obtain ⟨hw, hr, hp, hq⟩ := h
  obtain ⟨kw, kr, kp, kq⟩ := k
  exact ⟨hw.trans kw, hr.trans kr, kp.trans hp, kq.trans hq⟩

theorem RegistersKept.bringUp {s t : State} (h : RegistersKept s t) : BringUpKept s t := by
  obtain ⟨⟨hw, hr, _⟩, _, hp, hq⟩ := h
  exact ⟨hw, hr, hp, hq⟩

theorem initBody_kept {s : State} (hk : s.params.script.length ≤ 255) (hs : s.NoReset) : BringUpKept s (initBody s).state := by
  rcases initBody_cases s hk with ⟨u, e, hp, hw, hr, _⟩ | ⟨t, u, e, hp, ⟨hw, hr, _⟩, hst⟩ <;> rw [e]
  · exact ⟨hw, hr, hp.params, hp.port⟩
  · exact BringUpKept.trans (t := u) ⟨hw, hr, hp.params, hp.port⟩ (Stopped.kept hs hst).bringUp

theorem init_kept {f1 f2 f3 f4 f5 : Half} {s t : State} (hs : s.NoReset) (h : exec (.init f1 f2 f3 f4 f5) s = .next t) :
    BringUpKept s t := by
  rcases exec_cases h with rfl | ⟨hi, _⟩ | ⟨_, op, g1, g2, g3, g4, g5, rfl⟩ | ⟨_, _, op, g1, g2, g3, g4, g5, rfl⟩
  · exact (RegistersKept.refl _).bringUp
  · cases hi
  · exact (reject_kept op (s := loadOperands g1 g2 g3 g4 g5 s) hs).bringUp
  · have hk : s.params.script.length ≤ 255 := exec_init_script h
    have hstart := accepted_noReset op g1 g2 g3 g4 g5 hs
    have hbody := initBody_kept (s := glimpse (accepted op g1 g2 g3 g4 g5 s)) hk hstart
    exact BringUpKept.trans (s := s) hbody (finish_kept (initBody_blind _ hstart).2).bringUp

/-- A record row of the table leaves SP at its index, or one more (R24). -/
theorem record_kept {s t : State} (hs : s.NoReset) (hm : s.mode ≠ .halted) {c : Instr × Nat × ScriptRecord}
    (hc : c ∈ scriptRecords s.params) (h : exec c.1 s = .next t) :
    BringUpKept s t ∧ (t.sp = BitVec.ofNat 8 c.2.1 ∨ t.sp = BitVec.ofNat 8 (c.2.1 + 1)) := by
  rw [exec_record hm hc] at h
  cases h
  obtain ⟨u, hplain, ⟨hw, hr, hsp⟩, hkept⟩ := (scriptStep_from (BitVec.ofNat 8 c.2.1) c.2.2 s).state_kept hs
  refine ⟨BringUpKept.trans ⟨hw, hr, hplain.params, hplain.port⟩ hkept.bringUp, ?_⟩
  obtain ⟨⟨_, _, hend⟩, _⟩ := hkept
  rwa [hend, BitVec.ofNat_add]

/-- Settles O58: `init_kept` for INIT, `record_kept` for the rows; only INIT writes INIT_DONE (`initDone_kept`). -/
theorem frameBringUp : Obligations.FrameBringUp := by
  refine ⟨fun f1 f2 f3 f4 f5 s t hs h => ?_, fun s t hs hm c hc h => ?_⟩
  · obtain ⟨hw, ⟨hbuf, hlen, hrows, hrow⟩, hparams, hport⟩ := init_kept hs h
    exact ⟨hw, fun a => by rw [hbuf], hlen, hrows, hrow, hparams, hport⟩
  · obtain ⟨⟨hw, ⟨hbuf, hlen, hrows, hrow⟩, hparams, hport⟩, hsp⟩ := record_kept hs hm hc h
    have hdone : t.initDone = s.initDone := by
      refine initDone_kept (fun f1 f2 f3 f4 f5 e => ?_) hs h
      have hrequest := scriptRecords_not_request _ c hc
      rw [e] at hrequest
      cases hrequest
    exact ⟨hw, fun a => by rw [hbuf], hlen, hrows, hrow, hsp, hdone, hparams, hport⟩

/-! ## The reference table (R140, R141, R143) -/

/-- Settles O33: the bytes of the table, and the counts at each of the six places of the first sleep-out, by evaluation. -/
theorem referenceTable : Obligations.ReferenceTable := by
  refine ⟨by decide, ?_⟩
  rintro i hi _ rfl
  revert i
  decide

end Sys2Proof.Machine
end

section
/-! The window program as a request (R170 to R174): what SET_WINDOW sends and writes, where a fault leaves it, and that it is the five rows
of the table it is made of (R171). -/

namespace Sys2Proof.Machine

/-! ## SET_WINDOW (R170, R172) -/

/-- Settles O37: the body is the window program of the operands, and the completion follows. -/
theorem setWindowCompletes : Obligations.SetWindowCompletes := by
  intro f1 f2 f3 f4 f5 s ⟨hi, hr, ha⟩
  exact request_ok hi hr (windowProgram_ok f1 f2 f3 f4 (accepted 0x05 f1 f2 f3 f4 f5 s) hr ha) hr

/-- Settles O38: the flat stream of the window program, written out in bytes. -/
theorem windowProgramBytes : Obligations.WindowProgramBytes := by
  intro f1 f2 f3 f4 f5 s h
  refine ⟨_, setWindowCompletes f1 f2 f3 f4 f5 s h, rfl, ?_⟩
  change flat (s.trace ++ windowEvents s.params f1 f2 f3 f4 ++ [.done 0x05 .ok]) = _
  rw [flat_append, flat_append, flat_windowEvents]
  exact List.append_nil _

/-- Settles O39: the window program ends at its faulted frame (`windowProgram_fault`), or it runs to its end. -/
theorem setWindowFault : Obligations.SetWindowFault := by
  refine ⟨fun f1 f2 f3 f4 f5 s k ph f hi hr hframe ha => ?_, fun f1 f2 f3 f4 f5 s h => ?_⟩
  · exact request_ended hi hr (windowProgram_fault f1 f2 f3 f4 (accepted 0x05 f1 f2 f3 f4 f5 s) k ph f hr hframe ha)
  · exact ⟨_, setWindowCompletes f1 f2 f3 f4 f5 s h, rfl, rfl, rfl, rfl, rfl⟩

/-! ## SET_WINDOW and its rows (R171) -/

/-- Rows one after another are micro-steps one after another (R8): where the first row ends in a fault, the others do nothing (R231). -/
theorem execAll_andThen {i : Instr} {is : List Instr} {s : State} {k : State → Micro} (hi : isHostRequest i = false)
    (his : ∀ j ∈ is, isHostRequest j = false) (hm : s.mode ≠ .halted) (hr : s.moves = [])
    (hk : ∀ t, microBody i s = .run t → t.mode ≠ .halted → t.moves = [] → execAll is t = .next (k t).state) :
    execAll (i :: is) s = .next ((microBody i s).andThen k).state := by
  have hfrom := microBody_from i s
  rw [execAll_cons (exec_running hi hm)]
  cases hbody : microBody i s with
  | ended t =>
    rw [hbody] at hfrom
    exact execAll_halted (hfrom.ended_halted (noReset_of_quiet hr)) his
  | run t =>
    rw [hbody] at hfrom
    obtain ⟨hplain, _⟩ := hfrom
    exact hk t hbody (by rwa [hplain.mode]) (hplain.quiet hr)

/-- A command frame leaves PHASE as its caller has written it (R112). -/
theorem cmdStep_phase {ph : Phase} {b : Byte} {s t : State} (h : cmdStep ph b s = .run t) : t.phase = ph := by
  rw [cmdStep] at h
  rcases busCmd_cases b (enterPhase ph s) with ⟨m, rs, _, _, e⟩ | ⟨m, rs, _, _, ⟨_, e⟩ | ⟨_, e⟩⟩ <;> rw [e] at h <;> cases h
  rfl

theorem microBody_addr4_column (a b : Half) {s : State} (h : s.phase = .casetC) : microBody (.addr4 a b) s = columnData a b s := if_pos h

theorem microBody_addr4_row (a b : Half) {s : State} (h : s.phase = .pasetC) : microBody (.addr4 a b) s = rowData a b s := by
  rw [microBody, if_neg (by rw [h]; decide), if_pos h]

/-- The five rows of a window program lead where it leads (R171). -/
theorem execAll_window (x0 y0 x1 y1 : Half) {s : State} (hm : s.mode ≠ .halted) (hr : s.moves = []) :
    execAll [.caset, .addr4 x0 x1, .paset, .addr4 y0 y1, .ramwr] s = .next (windowProgram x0 y0 x1 y1 s).state := by
  refine execAll_andThen rfl (by simp [isHostRequest]) hm hr fun t ht hm hr => ?_
  rw [← microBody_addr4_column x0 x1 (cmdStep_phase ht)]
  refine execAll_andThen rfl (by simp [isHostRequest]) hm hr fun t _ hm hr => ?_
  refine execAll_andThen rfl (by simp [isHostRequest]) hm hr fun t ht hm hr => ?_
  rw [← microBody_addr4_row y0 y1 (cmdStep_phase ht)]
  refine execAll_andThen rfl (by simp [isHostRequest]) hm hr fun t _ hm hr => ?_
  exact execAll_cons (exec_running rfl hm) []

/-- Settles O40: the rows and the body of the request lead to the same state (`execAll_window`), and the body has run to its end unless that
state is halted. -/
theorem setWindowIsItsMicroSteps : Obligations.SetWindowIsItsMicroSteps := by
  intro f1 f2 f3 f4 f5 s hi hr
  refine ⟨_, execAll_window f1 f2 f3 f4 (s := accepted 0x05 f1 f2 f3 f4 f5 s) (by simp) hr, ?_⟩
  have hfrom := windowProgram_from f1 f2 f3 f4 (accepted 0x05 f1 f2 f3 f4 f5 s)
  cases hbody : windowProgram f1 f2 f3 f4 (accepted 0x05 f1 f2 f3 f4 f5 s) with
  | ended t =>
    rw [hbody] at hfrom
    rw [state_ended, if_pos (hfrom.ended_halted (noReset_of_quiet hr))]
    exact request_ended hi hr hbody
  | run t =>
    rw [hbody] at hfrom
    obtain ⟨hplain, _⟩ := hfrom
    have hbusy : t.mode = .busy := hplain.mode
    have hop : t.op = 0x05 := hplain.op
    rw [state_run, if_neg (by simp [hbusy]), ← hop]
    exact request_ok hi hr hbody (hplain.quiet hr)

end Sys2Proof.Machine
end

section
/-! The fills (R178 to R191): the clipping rule, what a fill that draws sends and writes and where a fault leaves it, its row and its pixel
count, and that FILL_SCREEN is FILL_RECT of the whole panel. -/

namespace Sys2Proof.Machine

/-! ## The clipping rule (R180) -/

/-- The cut sizes are minima: the origin never moves (R180). -/
theorem clip_eq_min (x y w h : Int) :
    clip x y w h = if x < 0 ∨ 480 ≤ x ∨ y < 0 ∨ 320 ≤ y then none
      else if min w (480 - x) ≤ 0 ∨ min h (320 - y) ≤ 0 then none
      else some ((min w (480 - x)).toNat, (min h (320 - y)).toNat) := by
  have hcw : (if x + w > 480 then 480 - x else w) = min w (480 - x) := by split <;> omega
  have hch : (if y + h > 320 then 320 - y else h) = min h (320 - y) := by split <;> omega
  rw [← hcw, ← hch]
  rfl

theorem clip_of_inside {x y w h : Int} (hx : 0 ≤ x ∧ x < 480) (hy : 0 ≤ y ∧ y < 320) (hw : 0 < w) (hh : 0 < h) :
    clip x y w h = some ((min w (480 - x)).toNat, (min h (320 - y)).toNat) := by
  rw [clip_eq_min, if_neg (by omega), if_neg (by omega)]

theorem clip_of_outside {x y w h : Int} (hout : x < 0 ∨ 480 ≤ x ∨ y < 0 ∨ 320 ≤ y ∨ w ≤ 0 ∨ h ≤ 0) : clip x y w h = none := by
  rw [clip_eq_min]
  by_cases horigin : x < 0 ∨ 480 ≤ x ∨ y < 0 ∨ 320 ≤ y
  · exact if_pos horigin
  · rw [if_neg horigin, if_pos (by omega)]

/-- Settles O41: both clauses are read off the cut sizes (`clip_eq_min`). -/
theorem clipRule : Obligations.ClipRule := by
  refine fun x y w h => ⟨clip_of_outside, fun hx hx' hy hy' hw hh => ?_⟩
  exact ⟨_, _, clip_of_inside ⟨hx, hx'⟩ ⟨hy, hy'⟩ hw hh, by omega, by omega, by omega, by omega, by omega, by omega⟩

/-! ## A fill that draws (R179, R188) -/

theorem bound_toInt (v : Half) : bound v.toInt = v := BitVec.ofInt_toInt

theorem drawingFill_rect {f1 f2 f3 f4 : Half} {cw ch : Nat} (hclip : clip f1.toInt f2.toInt f3.toInt f4.toInt = some (cw, ch)) (c : Half) :
    DrawingFill f1 f2 f3 f4 c 0x06 (.fillRect f1 f2 f3 f4 c) f1.toInt f2.toInt cw ch := .inl ⟨rfl, rfl, rfl, rfl, hclip⟩

theorem drawingFill_screen (f1 f2 f3 f4 c : Half) : DrawingFill f1 f2 f3 f4 c 0x07 (.fillScreen f1 f2 f3 f4 c) 0 0 480 320 :=
  .inr ⟨rfl, rfl, rfl, rfl, rfl, rfl⟩

theorem drawingFill_completes {f1 f2 f3 f4 c : Half} {op : Byte} {i : Instr} {x y : Int} {cw ch : Nat}
    (hd : DrawingFill f1 f2 f3 f4 c op i x y cw ch) {s : State} (h : s.Ready (5 + ch)) :
    exec i s = .next { s.completed op (fillEvents s.params x y cw ch c) (5 + ch) with
      rx := f1, ry := f2, rw := f3, rh := f4, rc := c,
      rowbuf := Memory.writeList s.rowbuf 0 (rowBytes cw c), rowlen := BitVec.ofNat 16 (2 * cw), rows := BitVec.ofNat 16 ch,
      row := BitVec.ofNat 16 ch, dc := s.params.dcData, primed := true,
      wx0 := bound x, wy0 := bound y, wx1 := bound (x + cw - 1), wy1 := bound (y + ch - 1) } := by
  obtain ⟨hi, hr, ha⟩ := h
  obtain ⟨hw, hc⟩ := drawingFill_bounds hd
  obtain ⟨hexec, hbody⟩ := drawingFill_exec hd s
  rw [hexec]
  exact request_ok hi hr (hbody.trans (fill_ok cw ch x y c (accepted op f1 f2 f3 f4 c s) hw hc hr ha)) hr

/-- Settles O42: an operand read signed and written as a bound again is the operand (`bound_toInt`). -/
theorem fillRectDraws : Obligations.FillRectDraws := by
  intro f1 f2 f3 f4 c s cw ch hclip h
  have hfill := drawingFill_completes (drawingFill_rect hclip c) h
  rwa [bound_toInt, bound_toInt] at hfill

/-- Settles O44: the fill of the whole panel, with its numbers evaluated. -/
theorem fillScreenCompletes : Obligations.FillScreenCompletes := 
  fun f1 f2 f3 f4 c _ h => drawingFill_completes (drawingFill_screen f1 f2 f3 f4 c) h

/-- Settles O45: the body of the request ends in its window program (`fill_fault_window`) or in its replay (`fill_fault_row`). -/
theorem fillFault : Obligations.FillFault := by
  intro f1 f2 f3 f4 c op i x y cw ch s hd hi hr
  obtain ⟨hw, _⟩ := drawingFill_bounds hd
  obtain ⟨hexec, hbody⟩ := drawingFill_exec hd s
  rw [hexec]
  constructor
  · rintro k ph f _ _ rfl rfl hframe ha
    exact request_ended hi hr (hbody.trans (fill_fault_window cw ch x y c (accepted op f1 f2 f3 f4 c s) k ph f hr hframe ha))
  · rintro j _ _ rfl rfl hj ha
    exact request_ended hi hr (hbody.trans (fill_fault_row cw ch j x y c (accepted op f1 f2 f3 f4 c s) hw hj hr ha))

/-! ## A fill that clips to nothing (R181) -/

theorem fillRect_body_of_clip_none {f1 f2 f3 f4 : Half} (hclip : clip f1.toInt f2.toInt f3.toInt f4.toInt = none) (c : Half) (s : State) :
    requestBody (.fillRect f1 f2 f3 f4 c) (accepted 0x06 f1 f2 f3 f4 c s) =
      .run (writeRowCounts 0 0 (accepted 0x06 f1 f2 f3 f4 c s)) :=
  congrArg (fill · f1.toInt f2.toInt c (accepted 0x06 f1 f2 f3 f4 c s)) hclip

/-- Settles O43: nothing is left of the rectangle in any of the six cases (`clip_of_outside`), and the body writes the three counts. -/
theorem fillRectNothing : Obligations.FillRectNothing := by
  intro f1 f2 f3 f4 c s hout hi hr
  have hbody : requestBody (.fillRect f1 f2 f3 f4 c) (accepted 0x06 f1 f2 f3 f4 c s) =
      .run (setRowCounts 0 0 ((accepted 0x06 f1 f2 f3 f4 c s).sent [] 0)) := by
    rw [fillRect_body_of_clip_none (clip_of_outside hout), sent_nil, writeRowCounts_nil 0 0 (accepted 0x06 f1 f2 f3 f4 c s) hr]
  exact request_ok hi hr hbody hr

/-! ## FILL_SCREEN is FILL_RECT of the whole panel (R191) -/

theorem windowEvents_not_done (p : Params) (x0 y0 x1 y1 : Half) : ∀ e ∈ windowEvents p x0 y0 x1 y1, e.isDone = false := by
  simp [windowEvents, Event.isDone]

theorem rows_not_done (n : Nat) (bs : List Byte) : ∀ e ∈ List.replicate n (Event.data bs), e.isDone = false :=
  fun _ he => List.eq_of_mem_replicate he ▸ rfl

theorem fillEvents_not_done (p : Params) (x y : Int) (cw ch : Nat) (c : Half) : ∀ e ∈ fillEvents p x y cw ch c, e.isDone = false :=
  List.forall_mem_append.mpr ⟨windowEvents_not_done p _ _ _ _, rows_not_done ch _⟩

theorem faulted_trace_snoc (s : State) (op : Byte) (evs : List Event) (n : Nat) (f : Frame) :
    (s.faulted op evs n f).trace = s.trace ++ (evs ++ [.fault f]) ++ [.done op .fault] := by
  simp

theorem fault_not_done {evs : List Event} (h : ∀ e ∈ evs, e.isDone = false) (f : Frame) :
    ∀ e ∈ evs ++ [.fault f], e.isDone = false :=
  List.forall_mem_append.mpr ⟨h, by simp [Event.isDone]⟩

/-- What a fill that draws emits depends on the rectangle and the colour only, and not on how it was asked for (R179): the operation is
named by `Done` alone. -/
theorem drawingFill_emits (x y : Int) (cw ch : Nat) (c : Half) {s : State} (hi : s.mode = .idle) (hr : s.moves = []) :
    ∃ evs st n q, (∀ e ∈ evs, e.isDone = false) ∧ ∀ {f1 f2 f3 f4 op i}, DrawingFill f1 f2 f3 f4 c op i x y cw ch →
      ∃ t, exec i s = .next t ∧ t.trace = s.trace ++ evs ++ [.done op st] ∧ t.frames = n ∧ t.stub = q := by
  by_cases ha : s.AnswersOk (5 + ch)
  · exact ⟨_, .ok, _, _, fillEvents_not_done s.params x y cw ch c,
      fun hd => ⟨_, drawingFill_completes hd ⟨hi, hr, ha⟩, rfl, rfl, rfl⟩⟩
  obtain ⟨m, hm, ha⟩ := faultsAt_of_not_answersOk ha
  by_cases hwindow : m < 5
  · obtain ⟨⟨ph, f⟩, hframe⟩ : ∃ v, (windowFrames s.params (bound x) (bound y) (bound (x + cw - 1)) (bound (y + ch - 1)))[m]? = some v :=
      ⟨_, List.getElem?_eq_getElem hwindow⟩
    have hdone : ∀ e ∈ (windowEvents s.params (bound x) (bound y) (bound (x + cw - 1)) (bound (y + ch - 1))).take m, e.isDone = false :=
      fun e he => windowEvents_not_done _ _ _ _ _ e (List.mem_of_mem_take he)
    refine ⟨_, .fault, s.frames + (m + 1), none, fault_not_done hdone f, fun {f1 f2 f3 f4 op i} hd => ?_⟩
    have hfault := (fillFault f1 f2 f3 f4 c op i x y cw ch s hd hi hr).1 m ph f _ _ rfl rfl hframe ha
    exact ⟨_, hfault, faulted_trace_snoc s op _ m f, rfl, rfl⟩
  · obtain ⟨j, rfl⟩ : ∃ j, m = 5 + j := ⟨m - 5, by omega⟩
    have hdone := List.forall_mem_append.mpr
      ⟨windowEvents_not_done s.params (bound x) (bound y) (bound (x + cw - 1)) (bound (y + ch - 1)), rows_not_done j (rowBytes cw c)⟩
    refine ⟨_, .fault, s.frames + (5 + j + 1), none, fault_not_done hdone (.data (rowBytes cw c)), fun {f1 f2 f3 f4 op i} hd => ?_⟩
    have hfault := (fillFault f1 f2 f3 f4 c op i x y cw ch s hd hi hr).2 j _ _ rfl rfl (by omega) ha
    exact ⟨_, hfault, faulted_trace_snoc s op _ (5 + j) _, rfl, rfl⟩

/-- Where no reset comes, an instruction leaves what it leaves without the host's reads. -/
theorem exec_of_unwatched {i : Instr} {s t' : State} (hs : s.NoReset) (h : exec i s.unwatched = .next t') :
    ∃ t, exec i s = .next t ∧ t' = t.unwatched := by
  have hreads := readsChangeNothing i s hs
  rw [h] at hreads
  cases hexec : exec i s <;> rw [hexec] at hreads <;> cases hreads
  exact ⟨_, rfl, rfl⟩

/-- Settles O46: both are fills of the same rectangle (`drawingFill_emits`), and the host's reads change nothing. -/
theorem fillScreenIsFillRect : Obligations.FillScreenIsFillRect := by
  have hclip : clip 0 0 480 320 = some (480, 320) := rfl
  refine ⟨hclip, fun f1 f2 f3 f4 c s hi hs => ?_⟩
  obtain ⟨evs, st, n, q, hdone, hemits⟩ := drawingFill_emits 0 0 480 320 c (s := s.unwatched) hi rfl
  obtain ⟨_, ht, htrace, hframes, hstub⟩ := hemits (drawingFill_screen f1 f2 f3 f4 c)
  obtain ⟨_, hu, utrace, uframes, ustub⟩ := hemits (drawingFill_rect (f1 := 0) (f2 := 0) (f3 := 480) (f4 := 320) hclip c)
  obtain ⟨t, ht', rfl⟩ := exec_of_unwatched hs ht
  obtain ⟨u, hu', rfl⟩ := exec_of_unwatched hs hu
  exact ⟨t, u, evs, st, ht', hu', htrace, utrace, hdone, hframes.trans uframes.symm, hstub.trans ustub.symm⟩

/-! ## The packed row (R183) -/

theorem rowBytes_getElem? (c : Half) {cw i : Nat} (h : i < cw) :
    (rowBytes cw c)[2 * i]? = some (hiByte c) ∧ (rowBytes cw c)[2 * i + 1]? = some (loByte c) := by
  induction cw generalizing i with
  | zero => omega
  | succ cw ih =>
    cases i with
    | zero => exact ⟨rfl, rfl⟩
    | succ i => exact ih (i := i) (by omega)

/-- Settles O47: the row is `rowBytes`, written from the start of the row buffer. -/
theorem rowBufferPacked : Obligations.RowBufferPacked := by
  intro f1 f2 f3 f4 c s cw ch hclip h
  obtain ⟨_, _, _, _, _, _⟩ := clip_bounds hclip
  refine ⟨_, rowBytes cw c, fillRectDraws f1 f2 f3 f4 c s cw ch hclip h, ?_, rowBytes_length cw c, fun i hi => rowBytes_getElem? c hi,
    fun a ha => ?_, fun a ha => ?_, ?_⟩
  · exact Nat.mod_eq_of_lt (by omega)
  · have hread := Memory.read?_writeList_inside (rowBytes cw c) s.rowbuf 0 a (by rwa [rowBytes_length])
    rwa [Nat.zero_add] at hread
  · exact Memory.read?_writeList_outside _ _ _ (.inr (by rwa [rowBytes_length, Nat.zero_add]))
  · change s.trace ++ fillEvents s.params f1.toInt f2.toInt cw ch c ++ _ = _
    rw [fillEvents, bound_toInt, bound_toInt, ← List.append_assoc]
    rfl

/-! ## The window of a fill and its pixels (R184, R185, R270) -/

theorem bound_toNat {v : Int} (h0 : 0 ≤ v) (h1 : v < 65536) : ((bound v).toNat : Int) = v := by
  rw [bound, BitVec.toNat_ofInt, Int.toNat_of_nonneg (Int.emod_nonneg _ (by decide))]
  exact Int.emod_eq_of_lt h0 h1

/-- The bounds of a clipped rectangle, as integers: none wraps around (R90, R186). -/
theorem bounds_of_clip {x y w h : Int} {cw ch : Nat} (hclip : clip x y w h = some (cw, ch)) :
    ((bound x).toNat : Int) = x ∧ ((bound (x + cw - 1)).toNat : Int) = x + cw - 1 ∧
      ((bound y).toNat : Int) = y ∧ ((bound (y + ch - 1)).toNat : Int) = y + ch - 1 := by
  obtain ⟨_, _, _, _, _, _⟩ := clip_bounds hclip
  exact ⟨bound_toNat (by omega) (by omega), bound_toNat (by omega) (by omega), bound_toNat (by omega) (by omega),
    bound_toNat (by omega) (by omega)⟩

/-- The window of a clipped rectangle is valid (R180, R21). -/
theorem windowValid_of_clip {x y w h : Int} {cw ch : Nat} (hclip : clip x y w h = some (cw, ch)) :
    WindowValid (bound x) (bound y) (bound (x + cw - 1)) (bound (y + ch - 1)) := by
  obtain ⟨_, _, _, _, _, _⟩ := clip_bounds hclip
  obtain ⟨_, _, _, _⟩ := bounds_of_clip hclip
  simp only [WindowValid, Config.panelWidth, Config.panelHeight]
  omega

/-- It has the pixels of the rectangle. -/
theorem windowSize_of_clip {x y w h : Int} {cw ch : Nat} (hclip : clip x y w h = some (cw, ch)) :
    ch * cw = ((bound (x + cw - 1)).toNat + 1 - (bound x).toNat) * ((bound (y + ch - 1)).toNat + 1 - (bound y).toNat) := by
  obtain ⟨hx, hx1, hy, hy1⟩ := bounds_of_clip hclip
  have hwidth : (bound (x + cw - 1)).toNat + 1 - (bound x).toNat = cw := by omega
  have hheight : (bound (y + ch - 1)).toNat + 1 - (bound y).toNat = ch := by omega
  rw [hwidth, hheight, Nat.mul_comm]

theorem flat_windowEvents_length (p : Params) (x0 y0 x1 y1 : Half) : (flat (windowEvents p x0 y0 x1 y1)).length = 11 := by
  rw [flat_windowEvents]
  rfl

/-- Settles O48: the stream of the fill is its window program and its rows as one stream of pixels (`flat_fillEvents`), as many as the window
has (`windowSize_of_clip`). -/
theorem pixelCountExact : Obligations.PixelCountExact := by
  intro f1 f2 f3 f4 c s cw ch hclip h
  have hvalid := windowValid_of_clip hclip
  have hsize := windowSize_of_clip hclip
  have hflat := flat_fillEvents s.params f1.toInt f2.toInt cw ch c
  rw [bound_toInt, bound_toInt] at hvalid hsize hflat
  have hstream : flat (s.trace ++ fillEvents s.params f1.toInt f2.toInt cw ch c ++ [.done 0x06 .ok]) =
      flat s.trace ++ (flat (windowEvents s.params f1 f2 (bound (f1.toInt + cw - 1)) (bound (f2.toInt + ch - 1))) ++
        (pixelStream (List.replicate (ch * cw) c)).map .d) := by
    rw [flat_append, flat_append, hflat]
    exact List.append_nil _
  refine ⟨_, fillRectDraws f1 f2 f3 f4 c s cw ch hclip h, (Nat.add_assoc _ _ _).symm, hvalid, ?_, ?_⟩
  · rw [hsize, ← List.append_assoc] at hstream
    exact hstream
  · refine (congrArg List.length hstream).trans ?_
    rw [List.length_append, List.length_append, flat_windowEvents_length, List.length_map, pixelStream_length, List.length_replicate,
      Nat.mul_comm ch cw, Nat.mul_assoc, Nat.add_assoc]

/-! ## What a fill paints (R71 to R73, R185) -/

theorem Panel.Painted.pixel_of_colour {x0 y0 x1 y1 c : Half} {n : Nat} {q q' : Panel}
    (h : Panel.Painted x0 y0 x1 y1 (List.replicate n c) q q') (hn : n = (x1.toNat + 1 - x0.toNat) * (y1.toNat + 1 - y0.toNat))
    {x y : Nat} (hx : x0.toNat ≤ x ∧ x ≤ x1.toNat) (hy : y0.toNat ≤ y ∧ y ≤ y1.toNat) : q'.pixel? x y = some c := by
  rw [h.inside x y hx.1 hx.2 hy.1 hy.2, List.getElem?_replicate, if_pos (hn ▸ windowIndex_lt hx hy)]

/-- Settles O50: the fill sends its window program and all pixels of its window, which is what `Panel.painted_run` is about. -/
theorem fillPaintsWindow : Obligations.FillPaintsWindow := by
  intro f1 f2 f3 f4 c s q cw ch hq hp hclip h
  have hd := drawingFill_rect hclip c
  obtain ⟨hw, hc⟩ := drawingFill_bounds hd
  obtain ⟨t, ht, _, hsent⟩ := drawingFill_transmits hd hw hc h
  have hsize := windowSize_of_clip hclip
  have hpaint := Panel.painted_run s.params q (cs := List.replicate (ch * cw) c) hp (windowValid_of_clip hclip)
    (List.length_replicate.trans hsize)
  rw [← flat_fillEvents s.params _ _ cw ch c] at hpaint
  refine ⟨t, _, ht, hsent.stub_some hq, hpaint.bad, hpaint.st, fun x y hx hy => ?_⟩
  obtain ⟨hx0, hx1, hy0, hy1⟩ := bounds_of_clip hclip
  split
  next hin => exact hpaint.pixel_of_colour hsize (by omega) (by omega)
  next hout => exact hpaint.outside x y hx (by omega)

end Sys2Proof.Machine
end

section
/-! What the raster operations and the address payload leave alone, fault or not (R170, R179, R181). -/

namespace Sys2Proof.Machine

/-! ## A request where no reset comes -/

/-- The host's reads after the acceptance commute with it. -/
theorem glimpse_accepted (op : Byte) (f1 f2 f3 f4 f5 : Half) (s : State) :
    ∃ ms rs, glimpse (accepted op f1 f2 f3 f4 f5 s) = accepted op f1 f2 f3 f4 f5 (setHost ms rs s) := ⟨_, _, rfl⟩

/-- A request with an assigned code, where no reset comes: it is not run, or it leaves what its micro-steps have written. -/
theorem request_kept {op : Byte} {f1 f2 f3 f4 f5 : Half} {i : Instr} {E : State → State → Prop} {s t : State} (hs : s.NoReset)
    (h : request op f1 f2 f3 f4 f5 (requestBody i) s = .next t)
    (hfrom : ∀ ms rs, (requestBody i (accepted op f1 f2 f3 f4 f5 (setHost ms rs s))).From E
      (accepted op f1 f2 f3 f4 f5 (setHost ms rs s))) :
    RegistersKept s t ∨ ∃ ms rs u, E (accepted op f1 f2 f3 f4 f5 (setHost ms rs s)) u ∧ RegistersKept u t := by
  rcases request_cases h with ⟨_, rfl⟩ | ⟨_, rfl⟩ | ⟨_, ht⟩
  · exact .inl (.refl t)
  · exact .inl (reject_kept op (s := loadOperands f1 f2 f3 f4 f5 s) hs)
  · have ha := accepted_noReset op f1 f2 f3 f4 f5 hs
    obtain ⟨ms, rs, e⟩ := glimpse_accepted op f1 f2 f3 f4 f5 s
    rw [e] at ha ht
    rw [ht]
    obtain ⟨u, _, he, hk⟩ := (hfrom ms rs).state_kept ha
    exact .inr ⟨ms, rs, u, he, hk.trans (finish_kept (requestBody_blind i _ ha).2)⟩

theorem setWindow_kept {f1 f2 f3 f4 f5 : Half} {s t : State} (hs : s.NoReset) (h : exec (.setWindow f1 f2 f3 f4 f5) s = .next t) :
    WindowOnly s t := by
  rcases request_kept (i := .setWindow f1 f2 f3 f4 f5) hs h (fun _ _ => windowProgram_from _ _ _ _ _) with
    ⟨⟨_, hk⟩, _⟩ | ⟨_, _, u, hu, ⟨_, hk⟩, _⟩
  · exact hk
  · exact WindowOnly.trans (s := s) hu hk

/-! ## The address payload (R171, R172) -/

/-- The column frame writes WX0 and WX1 only. -/
abbrev ColumnsOnly (s t : State) : Prop := WindowOnly s t ∧ t.wy0 = s.wy0 ∧ t.wy1 = s.wy1

/-- The row frame writes WY0 and WY1 only. -/
abbrev RowsOnly (s t : State) : Prop := WindowOnly s t ∧ t.wx0 = s.wx0 ∧ t.wx1 = s.wx1

theorem columnData_writes (x0 x1 : Half) (s : State) : (columnData x0 x1 s).From ColumnsOnly s := by
  refine (dataStep_from .casetD _ s).andThen (F := ColumnsOnly) (fun t _ _ => ?_) ?_ ?_
  · exact ⟨(Plain.set t x0 _ x1 _ _ _ _ _ _ _ _ _ _).trans (Plain.watched (writeColumns_watched x0 x1 t)), ⟨⟨rfl, rfl, rfl, rfl⟩, rfl⟩, rfl, rfl⟩
  · rintro t ⟨⟨_, hy0, _, hy1⟩, hk⟩
    exact ⟨hk, hy0, hy1⟩
  · rintro t u ⟨⟨_, hy0, _, hy1⟩, hk⟩ _ ⟨ku, ky0, ky1⟩
    exact ⟨WindowOnly.trans hk ku, ky0.trans hy0, ky1.trans hy1⟩

theorem rowData_writes (y0 y1 : Half) (s : State) : (rowData y0 y1 s).From RowsOnly s := by
  refine (dataStep_from .pasetD _ s).andThen (F := RowsOnly) (fun t _ _ => ?_) ?_ ?_
  · exact ⟨(Plain.set t _ y0 _ y1 _ _ _ _ _ _ _ _ _).trans (Plain.watched (writeRows_watched y0 y1 t)), ⟨⟨rfl, rfl, rfl, rfl⟩, rfl⟩, rfl, rfl⟩
  · rintro t ⟨⟨hx0, _, hx1, _⟩, hk⟩
    exact ⟨hk, hx0, hx1⟩
  · rintro t u ⟨⟨hx0, _, hx1, _⟩, hk⟩ _ ⟨ku, kx0, kx1⟩
    exact ⟨WindowOnly.trans hk ku, kx0.trans hx0, kx1.trans hx1⟩

/-- What ADDR4 keeps, by the PHASE it finds (R88, A5). -/
def AddressKept (s t : State) : Prop :=
  WindowOnly s t ∧ (s.phase ≠ .casetC → t.wx0 = s.wx0 ∧ t.wx1 = s.wx1) ∧ (s.phase ≠ .pasetC → t.wy0 = s.wy0 ∧ t.wy1 = s.wy1)

theorem addr4_from (a b : Half) (s : State) : (microBody (.addr4 a b) s).From AddressKept s := by
  simp only [microBody]
  split_ifs with hcol hrow
  · exact (columnData_writes a b s).mono fun t ⟨hk, hy⟩ => ⟨hk, fun hne => absurd hcol hne, fun _ => hy⟩
  · exact (rowData_writes a b s).mono fun t ⟨hk, hx⟩ => ⟨hk, fun _ => hx, fun hne => absurd hrow hne⟩
  · exact (busData_from _ s).mono fun t ⟨⟨hx0, hy0, hx1, hy1⟩, hk⟩ => ⟨hk, fun _ => ⟨hx0, hx1⟩, fun _ => ⟨hy0, hy1⟩⟩

theorem addr4_kept {a b : Half} {s t : State} (hs : s.NoReset) (h : exec (.addr4 a b) s = .next t) : AddressKept s t := by
  rw [exec_micro rfl] at h
  rcases micro_cases h with ⟨_, rfl⟩ | ⟨_, rfl⟩
  · exact ⟨(BusOnly.refl t).2, fun _ => ⟨rfl, rfl⟩, fun _ => ⟨rfl, rfl⟩⟩
  · obtain ⟨u, _, ⟨hu, hx, hy⟩, ⟨⟨kx0, ky0, kx1, ky1⟩, kt⟩, _⟩ := (addr4_from a b s).state_kept hs
    exact ⟨WindowOnly.trans hu kt, fun hne => ⟨kx0.trans (hx hne).1, kx1.trans (hx hne).2⟩,
      fun hne => ⟨ky0.trans (hy hne).1, ky1.trans (hy hne).2⟩⟩

/-! ## The fills (R179, R181) -/

/-- A fill of width cw keeps SP, and the bytes of the row buffer that its row does not reach (R22). -/
def RowTailKept (cw : Nat) (s t : State) : Prop :=
  t.sp = s.sp ∧ ∀ a, 2 * cw ≤ a → Memory.read? t.rowbuf a = Memory.read? s.rowbuf a

theorem drawingFill_kept {f1 f2 f3 f4 c : Half} {op : Byte} {i : Instr} {x y : Int} {cw ch : Nat}
    (hd : DrawingFill f1 f2 f3 f4 c op i x y cw ch) {s t : State} (hs : s.NoReset) (h : exec i s = .next t) : RowTailKept cw s t := by
  rw [(drawingFill_exec hd s).1] at h
  rcases request_kept hs h fun ms rs => (drawingFill_exec hd (setHost ms rs s)).2 ▸ fill_from cw ch x y c _ with
    ⟨⟨_, ⟨hbuf, _⟩, hsp⟩, _⟩ | ⟨_, _, u, ⟨hbuf, _, _, hsp, _⟩, ⟨_, ⟨kbuf, _⟩, ksp⟩, _⟩
  · exact ⟨hsp, fun a _ => by rw [hbuf]⟩
  · refine ⟨ksp.trans hsp, fun a ha => ?_⟩
    rw [kbuf, hbuf]
    exact Memory.read?_writeList_outside _ _ _ (.inr (by rwa [rowBytes_length, Nat.zero_add]))

/-- What a fill that clips to nothing keeps: it writes ROWLEN, ROWS and ROW only (R181). -/
def NothingDrawn (s t : State) : Prop := SameWindow s t ∧ t.rowbuf = s.rowbuf ∧ t.sp = s.sp

theorem writeRowCounts_from (l n : Half) (s : State) : (Micro.run (writeRowCounts l n s)).From NothingDrawn s :=
  ⟨(Plain.set s _ _ _ _ _ l n 0 _ _ _ _ _).trans (Plain.watched (writeRowCounts_watched l n s)), ⟨rfl, rfl, rfl, rfl⟩, rfl, rfl⟩

section

variable {f1 f2 f3 f4 c : Half} {s t : State} (hclip : clip f1.toInt f2.toInt f3.toInt f4.toInt = none)
include hclip

theorem fillRect_nothing_kept (hs : s.NoReset) (h : exec (.fillRect f1 f2 f3 f4 c) s = .next t) : NothingDrawn s t := by
  rcases request_kept (i := .fillRect f1 f2 f3 f4 c) hs h fun ms rs =>
      fillRect_body_of_clip_none hclip c (setHost ms rs s) ▸ writeRowCounts_from 0 0 _ with
    ⟨⟨hw, ⟨hbuf, _⟩, hsp⟩, _⟩ | ⟨_, _, u, ⟨hw, hbuf, hsp⟩, ⟨kw, ⟨kbuf, _⟩, ksp⟩, _⟩
  · exact ⟨hw, hbuf, hsp⟩
  · exact ⟨SameWindow.trans (s := s) hw kw, kbuf.trans hbuf, ksp.trans hsp⟩

/-- No byte is sent (R181). -/
theorem fillRect_nothing_stub (h : exec (.fillRect f1 f2 f3 f4 c) s = .next t) : t.stub = none ∨ t.stub = s.stub := by
  have hrequest : request 0x06 f1 f2 f3 f4 c (requestBody (.fillRect f1 f2 f3 f4 c)) s = .next t := h
  rcases request_cases hrequest with ⟨_, rfl⟩ | ⟨_, rfl⟩ | ⟨_, rfl⟩
  · exact .inr rfl
  · rcases reject_cases 0x06 (loadOperands f1 f2 f3 f4 c s) with ⟨m, rs, _, _, e⟩ | ⟨m, rs, _, _, e⟩ <;> rw [e]
    · exact .inl rfl
    · exact .inr rfl
  · obtain ⟨ms, rs, e⟩ := glimpse_accepted 0x06 f1 f2 f3 f4 c s
    have hbody := fillRect_body_of_clip_none hclip c (setHost ms rs s)
    rw [← e] at hbody
    exact (finish_stub _).imp_right fun h => h.trans (congrArg (fun m => m.state.stub) hbody)

end

theorem FrameMemoryKept.of_stub {s t : State} (h : t.stub = none ∨ t.stub = s.stub) : FrameMemoryKept s t := by
  intro q' hq'
  rcases h with e | e <;> rw [e] at hq'
  · cases hq'
  · exact ⟨q', hq', fun _ => rfl⟩

/-- Settles O59: SET_WINDOW and ADDR4 through their frames (`setWindow_kept`, `addr4_kept`), the fills through the row they pack
(`drawingFill_kept`) or, where nothing is left of the rectangle, the counts they clear (`fillRect_nothing_kept`). -/
theorem frameRaster : Obligations.FrameRaster := by
  refine ⟨fun f1 f2 f3 f4 f5 s t hs h => ?_, fun a b s t hs h => ?_, fun f1 f2 f3 f4 c s t hs h => ?_, fun f1 f2 f3 f4 c s t hs h => ?_⟩
  · obtain ⟨⟨hbuf, hlen, hrows, hrow⟩, hsp⟩ := setWindow_kept hs h
    exact ⟨fun a => by rw [hbuf], hlen, hrows, hrow, hsp, initDone_kept (by simp) hs h⟩
  · obtain ⟨⟨⟨hbuf, hlen, hrows, hrow⟩, hsp⟩, hx, hy⟩ := addr4_kept hs h
    exact ⟨fun a => by rw [hbuf], hlen, hrows, hrow, hsp, initDone_kept (by simp) hs h, hx, hy⟩
  · have drawn {cw ch} (hclip : clip f1.toInt f2.toInt f3.toInt f4.toInt = some (cw, ch)) : RowTailKept cw s t :=
      drawingFill_kept (drawingFill_rect hclip c) hs h
    have hsp : t.sp = s.sp := by
      cases hclip : clip f1.toInt f2.toInt f3.toInt f4.toInt with
      | none => exact (fillRect_nothing_kept hclip hs h).2.2
      | some v => exact (drawn hclip).1
    refine ⟨hsp, initDone_kept (by simp) hs h, fun cw ch hclip => (drawn hclip).2, fun hclip => ?_⟩
    obtain ⟨hw, hbuf, _⟩ := fillRect_nothing_kept hclip hs h
    exact ⟨hw, fun a => by rw [hbuf], .of_stub (fillRect_nothing_stub hclip h)⟩
  · obtain ⟨hsp, htail⟩ := drawingFill_kept (drawingFill_screen f1 f2 f3 f4 c) hs h
    exact ⟨hsp, initDone_kept (by simp) hs h, htail⟩

end Sys2Proof.Machine
end

section
/-! The sixteen controller commands as lone rows (R200 to R216): each is one command frame in the micro-step of its emitter. -/

namespace Sys2Proof.Machine

theorem controllerCommands_not_request (p : Params) : ∀ c ∈ controllerCommands p, isHostRequest c.1 = false := by
  simp [controllerCommands, isHostRequest]

/-- A command row of a block that is not halted runs its command frame in its emitter's PHASE (R112). -/
theorem exec_command {s : State} (hm : s.mode ≠ .halted) {c : Instr × Phase × Byte} (hc : c ∈ controllerCommands s.params) :
    exec c.1 s = .next (cmdStep c.2.1 c.2.2 s).state := by
  have hrequest := controllerCommands_not_request s.params c hc
  rw [exec_running hrequest hm, ← rowBody_command s c hc, rowBody, if_neg (by simp [hrequest])]

/-- Settles O26: the row is one command frame in its PHASE (`exec_command`), sent or faulted. (`controllerCommands` names the list of rows.) -/
theorem controllerCommandsRun : Obligations.ControllerCommands := by
  intro s hm hr c hc
  rw [exec_command hm hc]
  exact ⟨fun ha => by rw [cmdStep_ok c.2.1 c.2.2 hr ha]; rfl, fun ha => by rw [cmdStep_faulted c.2.1 c.2.2 hr ha]; rfl⟩

end Sys2Proof.Machine
end

section
/-! Rejection, completion and the transport fault (R222, R227, R228): everything a request that is accepted or rejected leaves where no reset
comes, and where in its micro-steps a fault stops it. -/

namespace Sys2Proof.Machine

/-! ## Rejection (R227, R231) -/

/-- Settles O13: a halted block and a reserved code have rejection as their only answer (`reject_nil`), and a halted block runs no
micro-step (`exec_cases`). -/
theorem rejectedRequests : Obligations.RejectedRequests := by
  obtain ⟨_, _, hreserved⟩ := hostOperationCodes
  refine ⟨fun op hp f1 f2 f3 f4 f5 s r hr hpr hm hq => ?_,
    fun op f1 f2 f3 f4 f5 s hi hq => hreserved op f1 f2 f3 f4 f5 s (by simp [hi]) hq, fun i s t hm hs h => ?_⟩
  · obtain ⟨t, h⟩ := exec_request_next hr hpr
    rw [h]
    rcases exec_request_cases hr h with ⟨hbusy, _⟩ | ⟨_, _, rfl⟩ | ⟨hidle, _⟩
    · exact absurd (hm.symm.trans hbusy) (by decide)
    · rw [reject_nil r.1 (loadOperands f1 f2 f3 f4 f5 s) hq]
      rfl
    · exact absurd (hm.symm.trans hidle) (by decide)
  · rcases exec_cases h with rfl | ⟨_, hne, _⟩ | ⟨_, op, f1, f2, f3, f4, f5, rfl⟩ | ⟨_, hidle, _⟩
    · exact ⟨hm, rfl, rfl, .inl rfl⟩
    · exact absurd hm hne
    · obtain ⟨ms, rs, _, _, e⟩ := reject_noReset op (s := loadOperands f1 f2 f3 f4 f5 s) hs
      rw [e]
      exact ⟨hm, rfl, rfl, .inr ⟨op, rfl⟩⟩
    · exact absurd (hm.symm.trans hidle) (by decide)

/-! ## A request from its acceptance to its completion (R82, R227, R228) -/

/-- The request with code op that s has accepted has got to u: under the same parameters, with neither a completion nor a faulted frame
on the trace since then. -/
def Underway (op : Byte) (s u : State) : Prop :=
  u.op = op ∧ u.params = s.params ∧ ∃ evs, u.trace = s.trace ++ evs ∧ ∀ e ∈ evs, e.isDone = false ∧ e.isFault = false

theorem Plain.underway {s u : State} (h : Plain s u) : Underway s.op s u := by
  obtain ⟨evs, htrace, _, hquiet⟩ := h.events
  exact ⟨h.op, h.params, evs, htrace, hquiet⟩

/-- An INIT has a script that SP can count through (R24, A23). -/
def ScriptCounted (i : Instr) (s : State) : Prop := ∀ f1 f2 f3 f4 f5, i = .init f1 f2 f3 f4 f5 → s.params.script.length ≤ 255

theorem scriptCounted_of_next {i : Instr} {s t : State} (h : exec i s = .next t) : ScriptCounted i s := by
  rintro f1 f2 f3 f4 f5 rfl
  exact exec_init_script h

/-- Where no reset comes, the micro-steps of a request run to their end or stop at one faulted frame, whose level DC holds. -/
theorem requestBody_cases {i : Instr} {s : State} (hk : ScriptCounted i s) (hs : s.NoReset) :
    ∃ u, Underway s.op s u ∧
      (requestBody i s = .run u ∨ ∃ f, requestBody i s = .ended (faultState f (afterAnswer u)) ∧ u.dc = f.level u.params) := by
  by_cases hi : ∃ f1 f2 f3 f4 f5, i = .init f1 f2 f3 f4 f5
  · obtain ⟨f1, f2, f3, f4, f5, rfl⟩ := hi
    rcases initBody_cases s (hk f1 f2 f3 f4 f5 rfl) with ⟨u, e, hp, _⟩ | ⟨_, u, e, hp, _, ⟨f, rfl, hdc⟩ | ⟨hn, _⟩⟩
    · exact ⟨glimpse (setInitDone true u), hp.underway, .inl e⟩
    · exact ⟨u, hp.underway, .inr ⟨f, e, hdc⟩⟩
    · exact absurd hs hn
  · have hfrom := requestBody_from (fun f1 f2 f3 f4 f5 e => hi ⟨f1, f2, f3, f4, f5, e⟩) s
    cases hbody : requestBody i s with
    | run u =>
      rw [hbody] at hfrom
      obtain ⟨hp, _⟩ := hfrom
      exact ⟨u, hp.underway, .inl rfl⟩
    | ended t =>
      rw [hbody] at hfrom
      obtain ⟨u, hp, _, ⟨f, rfl, hdc⟩ | ⟨hn, _⟩⟩ := hfrom
      · exact ⟨u, hp.underway, .inr ⟨f, rfl, hdc⟩⟩
      · exact absurd hs hn

/-- Everything a request of a block that is not busy can leave where no reset comes: a rejection, a completion `OK`, or the transport
fault that ended its micro-steps (R222, R227, R228). -/
theorem request_outcome {op : Byte} {hp : List Byte} {f1 f2 f3 f4 f5 : Half} {r : Byte × Instr}
    (hr : r ∈ hostRequests op hp f1 f2 f3 f4 f5) {s t : State} (hm : s.mode ≠ .busy) (hs : s.NoReset)
    (h : exec r.2 s = .next t) :
    (∃ ms rs, t = rejected r.1 (setHost ms rs (loadOperands f1 f2 f3 f4 f5 s))) ∨
    ∃ u, Underway r.1 s u ∧
      (t = completeOk u ∨
       ∃ f, t = faultState f (afterAnswer u) ∧ u.dc = f.level u.params ∧
         isReserved r.2 = false ∧ requestBody r.2 (glimpse (accepted r.1 f1 f2 f3 f4 f5 s)) = .ended t) := by
  rcases exec_request_cases hr h with ⟨hbusy, _⟩ | ⟨_, _, rfl⟩ | ⟨_, hassigned, _, rfl⟩
  · exact absurd hbusy hm
  · obtain ⟨ms, rs, _, _, e⟩ := reject_noReset r.1 (s := loadOperands f1 f2 f3 f4 f5 s) hs
    exact .inl ⟨ms, rs, e⟩
  · right
    have hk : ScriptCounted r.2 s := scriptCounted_of_next h
    have ha := accepted_noReset r.1 f1 f2 f3 f4 f5 hs
    have hquiet := (requestBody_blind r.2 _ ha).2
    obtain ⟨u, hu, hbody | ⟨f, hbody, hdc⟩⟩ := requestBody_cases (s := glimpse (accepted r.1 f1 f2 f3 f4 f5 s)) hk ha
    · rw [hbody] at hquiet ⊢
      rcases finish_cases (.run u) with ⟨_, e, _⟩ | ⟨_, e, ⟨_, _, hreset, _⟩ | ⟨ms, rs, _, _, hfinish⟩⟩ <;> cases e
      · exact absurd hquiet (reset_next hreset)
      · exact ⟨setHost ms rs u, hu, .inl hfinish⟩
    · have hfinish : finish (.ended (faultState f (afterAnswer u))) = faultState f (afterAnswer u) := rfl
      rw [hbody, hfinish]
      exact ⟨u, hu, .inr ⟨f, rfl, hdc, hassigned, rfl⟩⟩

/-- Settles O15: of the three outcomes of a request (`request_outcome`) each appends its own completion to events that are none. -/
theorem exactlyOneCompletion : Obligations.ExactlyOneCompletion := by
  intro op hp f1 f2 f3 f4 f5 s r hr hpr hm hs
  obtain ⟨t, h⟩ := exec_request_next hr hpr
  rcases request_outcome hr hm hs h with ⟨ms, rs, rfl⟩ | ⟨u, ⟨hop, _, evs, htrace, hquiet⟩, rfl | ⟨f, rfl, _⟩⟩
  · exact ⟨_, [], h, by simp, nofun, nofun, nofun, fun _ => ⟨rfl, rfl⟩⟩
  · exact ⟨_, evs, h, by simp [hop, htrace], fun e he => (hquiet e he).1, fun _ => ⟨rfl, fun e he => (hquiet e he).2⟩, nofun, nofun⟩
  · exact ⟨_, evs ++ [.fault f], h, by simp [hop, htrace], fault_not_done (fun e he => (hquiet e he).1) f, nofun,
      fun _ => ⟨rfl, f, List.getLast?_concat⟩, nofun⟩

/-! ## The micro-step a fault stops in (R25, R222) -/

/-- A fault that ended the operation, where no reset cut its completion off, has left PHASE at a micro-step. -/
def Micro.HaltsInPhase : Micro → Prop
  | .run _ => True
  | .ended t => t.mode = .halted → t.phase ≠ .none

theorem Micro.HaltsInPhase.andThen {m : Micro} {k : State → Micro} (hm : m.HaltsInPhase) (hk : ∀ s, (k s).HaltsInPhase) :
    (m.andThen k).HaltsInPhase := by
  cases m with
  | run s => exact hk s
  | ended t => exact hm

theorem raiseFault_haltsInPhase (f : Frame) {s : State} (h : s.phase ≠ .none) : (Micro.ended (raiseFault f s)).HaltsInPhase := by
  rcases raiseFault_cases f s with ⟨ms, rs, _, _, e⟩ | ⟨ms, rs, _, _, e⟩ <;> rw [e]
  · exact nofun
  · exact fun _ => h

theorem Frame.transfer_haltsInPhase (f : Frame) {s : State} (h : s.phase ≠ .none) : (f.transfer s).HaltsInPhase := by
  cases ha : s.answerAt 0 with
  | ok => cases f <;> simp only [Frame.transfer, transferCmd_ok, transferData_ok, ha] <;> trivial
  | fault => cases f <;> simp only [Frame.transfer, transferCmd_fault, transferData_fault, ha] <;> exact raiseFault_haltsInPhase _ h

theorem inProgress_haltsInPhase {k : State → Micro} {s : State} (hk : ∀ ms rs, (k (setHost ms rs s)).HaltsInPhase) :
    (inProgress k s).HaltsInPhase := by
  rcases inProgress_cases k s with ⟨ms, rs, _, _, e⟩ | ⟨ms, rs, _, _, e⟩ <;> rw [e]
  · exact nofun
  · exact hk ms rs

/-- A micro-step written after PHASE names it (R25); a register write is none. -/
def Piece.NamesPhase : Piece → Prop
  | .frame ph _ | .wait ph _ => ph ≠ .none
  | .write _ => True

theorem Piece.run_haltsInPhase {p : Piece} (hp : p.NamesPhase) (s : State) : (p.run s).HaltsInPhase := by
  cases p with
  | frame ph f =>
    have hph : ((f s).drive (enterPhase ph s)).phase ≠ .none := by cases f s <;> exact hp
    exact inProgress_haltsInPhase fun _ _ => (f s).transfer_haltsInPhase hph
  | wait ph n => exact inProgress_haltsInPhase fun _ _ => trivial
  | write g => trivial

theorem runPieces_haltsInPhase {ps : List Piece} (hps : ∀ p ∈ ps, p.NamesPhase) (s : State) : (runPieces ps s).HaltsInPhase := by
  induction ps generalizing s with
  | nil => trivial
  | cons p ps ih => exact (Piece.run_haltsInPhase (hps p (.head _)) s).andThen (ih fun q hq => hps q (.tail _ hq))

theorem windowPieces_namesPhase (x0 y0 x1 y1 : Half) : ∀ p ∈ windowPieces x0 y0 x1 y1, p.NamesPhase := by
  simp [windowPieces, Piece.NamesPhase]

theorem rowPieces_namesPhase (n : Nat) : ∀ p ∈ rowPieces n, p.NamesPhase := by
  induction n with
  | zero => nofun
  | succ n ih => exact List.forall_mem_cons.mpr ⟨Phase.noConfusion, List.forall_mem_cons.mpr ⟨trivial, ih⟩⟩

theorem fillPieces_namesPhase (x y : Int) (cw ch : Nat) (c : Half) :
    ∀ p ∈ fillStart x y cw ch c ++ rowPieces ch, p.NamesPhase := by
  have hpack : ∀ p ∈ packPieces cw ch c, p.NamesPhase := by simp [packPieces, Piece.NamesPhase]
  exact List.forall_mem_append.mpr
    ⟨List.forall_mem_append.mpr ⟨hpack, windowPieces_namesPhase _ _ _ _⟩, rowPieces_namesPhase ch⟩

theorem recordPieces_namesPhase (r : ScriptRecord) : ∀ p ∈ recordPieces r, p.NamesPhase := by
  by_cases hp : r.payload = [] <;> by_cases hd : r.delay = 0#16 <;> simp [recordPieces, Piece.NamesPhase, hp, hd]

theorem initPieces_namesPhase (rs : List ScriptRecord) : ∀ p ∈ initPieces rs, p.NamesPhase := by
  simp only [initPieces, initStartPieces, scriptPieces, List.forall_mem_append, List.forall_mem_cons, List.mem_flatMap]
  refine ⟨⟨⟨trivial, trivial, nofun⟩, ?_⟩, trivial, nofun⟩
  rintro p ⟨r, _, hp⟩
  rcases List.mem_append.mp hp with hp | hp
  · exact recordPieces_namesPhase r p hp
  · rw [List.mem_singleton.mp hp]
    trivial

theorem fill_haltsInPhase (v : Option (Nat × Nat)) (x y : Int) (c : Half) (s : State) : (fill v x y c s).HaltsInPhase := by
  cases v with
  | none => trivial
  | some v =>
    rw [fill_pieces]
    exact runPieces_haltsInPhase (fillPieces_namesPhase x y v.1 v.2 c) s

theorem requestBody_haltsInPhase {i : Instr} {s : State} (hk : ScriptCounted i s) : (requestBody i s).HaltsInPhase := by
  have hprim (f : Frame) : (Piece.run (.frame .prim fun _ => f) s).HaltsInPhase :=
    Piece.run_haltsInPhase (by simp [Piece.NamesPhase]) s
  cases i with
  | init f1 f2 f3 f4 f5 =>
    rw [requestBody, initBody_pieces (hk f1 f2 f3 f4 f5 rfl)]
    exact runPieces_haltsInPhase (initPieces_namesPhase _) s
  | sendCommand => exact hprim (.command (byteOperand s))
  | sendData => exact hprim (.data [byteOperand s])
  | sendDataBuffer f1 f2 f3 f4 f5 hp =>
    rw [requestBody, busDataIf]
    split
    · trivial
    · exact hprim (.data hp)
  | setWindow =>
    rw [requestBody, windowProgram_pieces]
    exact runPieces_haltsInPhase (windowPieces_namesPhase _ _ _ _) s
  | fillRect => exact fill_haltsInPhase _ _ _ _ s
  | fillScreen => exact fill_haltsInPhase (some (Config.panelWidth, Config.panelHeight)) 0 0 s.rc s
  | _ => trivial

/-! ## Taking the exception (R222, R223) -/

theorem initBody_ended_initDone {s t : State} (hk : s.params.script.length ≤ 255) (h : initBody s = .ended t) : t.initDone = false := by
  rcases initBody_cases s hk with ⟨_, e, _⟩ | ⟨_, u, e, hp, _, ⟨f, rfl, _⟩ | ⟨_, rfl | ⟨f, rfl⟩⟩⟩ <;> cases e.symm.trans h
  · exact hp.initDone
  · rfl
  · rfl

/-- Of the requests with an assigned code, 0x01 is INIT and no other is (R91). -/
theorem assigned_init {op : Byte} {hp : List Byte} {f1 f2 f3 f4 f5 : Half} {r : Byte × Instr}
    (hr : r ∈ hostRequests op hp f1 f2 f3 f4 f5) (hassigned : isReserved r.2 = false) :
    (r.1 = 0x01 ∧ r.2 = .init f1 f2 f3 f4 f5) ∨ (r.1 ≠ 0x01 ∧ ∀ g1 g2 g3 g4 g5, r.2 ≠ .init g1 g2 g3 g4 g5) := by
  simp only [hostRequests, List.mem_cons, List.not_mem_nil, or_false] at hr
  rcases hr with rfl | rfl | rfl | rfl | rfl | rfl | rfl | rfl
  · exact .inl ⟨rfl, rfl⟩
  iterate 6 exact .inr ⟨by simp, nofun⟩
  · cases hassigned

/-- Settles O16: the block halts only where a faulted frame has ended the micro-steps of the request (`request_outcome`), and `faultState`
holds what R222 writes. (`faultEntry` names the entry in the model.) -/
theorem faultEntryTaken : Obligations.FaultEntry := by
  intro op hp f1 f2 f3 f4 f5 s t r hr hi hs h hhalted
  rcases request_outcome hr (by simp [hi]) hs h with
    ⟨ms, rs, rfl⟩ | ⟨u, ⟨hop, hparams, evs, htrace, hquiet⟩, rfl | ⟨f, rfl, hdc, hassigned, hbody⟩⟩
  · exact absurd (hi.symm.trans hhalted) (by decide)
  · cases hhalted
  · have hk : ScriptCounted r.2 s := scriptCounted_of_next h
    have hphase := requestBody_haltsInPhase (s := glimpse (accepted r.1 f1 f2 f3 f4 f5 s)) hk
    rw [hbody] at hphase
    refine ⟨evs, f, by simp [hop, htrace], hquiet, rfl, rfl, rfl, hparams ▸ hdc, rfl, hphase rfl, ?_⟩
    rcases assigned_init hr hassigned with ⟨hcode, hinit⟩ | ⟨hcode, hother⟩
    · rw [hinit] at hbody
      have hlength : s.params.script.length ≤ 255 := hk f1 f2 f3 f4 f5 hinit
      exact ⟨fun _ => initBody_ended_initDone (s := glimpse (accepted r.1 f1 f2 f3 f4 f5 s)) hlength hbody, fun hne => absurd hcode hne⟩
    · exact ⟨fun e => absurd e hcode, fun _ => initDone_kept hother hs h⟩

end Sys2Proof.Machine
end

section
/-! Resets (R250, R251): the reset event between two operations, and a reset that comes while a request runs. There the same operation is
run twice, once with a reset after the host's moves and once without: each micro-step takes one `proceed` and leaves one event, so the two
runs are alike up to the micro-step in which the moves before the reset are spent, and that one the reset cuts off. -/

namespace Sys2Proof.Machine

/-- A reset leaves each register of R39 at its own value in `State.reset`. -/
theorem resetBlock_blockReset (s : State) : BlockReset (resetBlock s) := ⟨rfl, rfl, rfl, rfl, rfl, rfl, rfl, rfl, rfl, rfl⟩

theorem cutOff_blockReset (s : State) : BlockReset (cutOff s) := resetBlock_blockReset s

/-- Settles O8, through what `fetch` finds on the port. -/
theorem resetEvent : Obligations.ResetEvent := by
  intro s rest hp
  have hf : fetch s = .reset { s with port := rest } := by simp only [fetch, hp]
  exact ⟨resetBlock { s with port := rest }, by simp only [step, hf], resetBlock_blockReset _, rfl, rfl, rfl, rfl⟩

/-! ## One event for each micro-step the host lets go on (R8, R16) -/

/-- From s to u the trace has grown by one event for each `proceed` that the host has made; the parameters and the port are the same. -/
structure Paced (s u : State) : Prop where
  params : u.params = s.params
  port : u.port = s.port
  moves : u.moves <:+ s.moves
  events : ∃ evs, u.trace = s.trace ++ evs ∧ s.moves.count .proceed = evs.length + u.moves.count .proceed

theorem Paced.refl (s : State) : Paced s s := ⟨rfl, rfl, List.suffix_rfl, [], by simp⟩

theorem Paced.trans {s t u : State} (h : Paced s t) (k : Paced t u) : Paced s u := by
  obtain ⟨evs, htrace, hcount⟩ := h.events
  obtain ⟨evs', ktrace, kcount⟩ := k.events
  exact ⟨k.params.trans h.params, k.port.trans h.port, k.moves.trans h.moves, evs ++ evs', by simp [ktrace, htrace],
    by rw [List.length_append]; omega⟩

theorem Paced.noReset {s u : State} (h : Paced s u) (hs : s.NoReset) : u.NoReset := fun hm => hs (h.moves.subset hm)

theorem Paced.trace {s u : State} (h : Paced s u) : s.trace <+: u.trace := by
  obtain ⟨evs, htrace, _⟩ := h.events
  exact ⟨evs, htrace.symm⟩

/-! ## A reset after the host's moves -/

/-- The same state with a reset after the host's moves, and the moves rest after the reset. -/
def State.beforeReset (rest : List HostMove) (s : State) : State := setHost (s.moves ++ .reset :: rest) s.reads s

/-- The same of either outcome of micro-steps. -/
def Micro.beforeReset (rest : List HostMove) : Micro → Micro
  | .run s => .run (s.beforeReset rest)
  | .ended s => .ended (s.beforeReset rest)

/-- What the micro-steps m' from s do where a reset follows the host's moves, with m what they do where none does: the same, each of them
let go on; or the reset cuts off the micro-step that begins in u, where the moves before the reset let none go on any more. -/
def CutShort (rest : List HostMove) (s : State) (m m' : Micro) : Prop :=
  (m' = m.beforeReset rest ∧ Paced s m.state) ∨
  ∃ u, m' = .ended (cutOff (setHost rest m.state.reads u)) ∧ Paced s u ∧ .proceed ∉ u.moves ∧ u.trace <+: m.state.trace ∧
    m.state.moves = []

/-- Micro-steps from s that a reset can cut short so, wherever it comes. -/
def CutShortAt (k : State → Micro) (s : State) : Prop := ∀ rest, CutShort rest s (k s) (k (s.beforeReset rest))

/-- The same from every state without a reset to come. -/
def Interruptible (k : State → Micro) : Prop := ∀ s, s.NoReset → CutShortAt k s

theorem CutShort.after {rest : List HostMove} {s t : State} {m m' : Micro} (h : CutShort rest t m m') (hst : Paced s t) :
    CutShort rest s m m' := by
  rcases h with ⟨e, hp⟩ | ⟨u, e, hp, h⟩
  · exact .inl ⟨e, hst.trans hp⟩
  · exact .inr ⟨u, e, hst.trans hp, h⟩

/-- What was on the trace stays there. -/
theorem CutShort.trace {rest : List HostMove} {s : State} {m m' : Micro} (h : CutShort rest s m m') : s.trace <+: m.state.trace := by
  rcases h with ⟨_, hp⟩ | ⟨u, _, hp, _, htrace, _⟩
  · exact hp.trace
  · exact hp.trace.trans htrace

/-- A branch of a definition: k' does from s, whatever the host does, what k does. -/
theorem CutShortAt.branch {k k' : State → Micro} {s : State} (hk : CutShortAt k s)
    (h : ∀ ms rs, k' (setHost ms rs s) = k (setHost ms rs s)) : CutShortAt k' s := by
  intro rest
  have hks : k' s = k s := h s.moves s.reads
  rw [hks, State.beforeReset, h]
  exact hk rest

/-- Where the host has no moves left, none is left after micro-steps and nothing more is read. -/
theorem Blind.quiet {k : State → Micro} (hk : Blind k) {s : State} (hm : s.moves = []) :
    (k s).state.moves = [] ∧ (k s).state.reads = s.reads := by
  have hs : s.NoReset := by simp [State.NoReset, hm]
  have h := (hk.state s hs).1 s.reads
  rw [← hm] at h
  exact ⟨(congrArg State.moves h :).trans hm, hk.state.quiet hm⟩

/-- One operation after another. -/
theorem CutShortAt.andThen {k l : State → Micro} {s : State} (hk : CutShortAt k s) (hs : s.NoReset) (hl : Interruptible l)
    (hb : Blind l) : CutShortAt (fun s => (k s).andThen l) s := by
  intro rest
  have h := hk rest
  cases hks : k s with
  | ended t =>
    rw [hks] at h
    rcases h with ⟨e, hp⟩ | ⟨u, e, h⟩ <;> simp only [hks, e]
    · exact .inl ⟨rfl, hp⟩
    · exact .inr ⟨u, rfl, h⟩
  | run t =>
    rw [hks] at h
    rcases h with ⟨e, hp⟩ | ⟨u, e, hp, hnone, htrace, hmoves⟩ <;> simp only [hks, e, andThen_run]
    · exact (hl t (hp.noReset hs) rest).after hp
    · obtain ⟨lmoves, lreads⟩ := hb.quiet (s := t) hmoves
      have hnr : t.NoReset := by simp [State.NoReset, show t.moves = [] from hmoves]
      exact .inr ⟨u, by rw [lreads]; rfl, hp, hnone, htrace.trans (hl t hnr rest).trace, lmoves⟩

/-! ## Register writes (R25) -/

/-- g leaves the same registers whether or not a reset follows the host's moves, and lets no micro-step go on. -/
def Steady (g : State → State) : Prop :=
  ∀ s, s.NoReset → (∀ rest, g (s.beforeReset rest) = (g s).beforeReset rest) ∧ Paced s (g s)

/-- A register write that leaves the trace, the parameters and the port alone. -/
abbrev Silent (g : State → State) : Prop := ∀ s, (g s).params = s.params ∧ (g s).port = s.port ∧ (g s).trace = s.trace

theorem OffHost.beforeReset {g : State → State} (hg : OffHost g) (rest : List HostMove) (s : State) :
    g (s.beforeReset rest) = (g s).beforeReset rest := by
  rw [State.beforeReset, hg, State.beforeReset, hg.moves, hg.reads]

theorem Steady.write {g : State → State} (hg : OffHost g) (hq : Silent g) : Steady g := fun s _ => by
  obtain ⟨hparams, hport, htrace⟩ := hq s
  exact ⟨fun rest => hg.beforeReset rest s, hparams, hport, hg.moves s ▸ List.suffix_rfl, [], by simp [htrace], by simp [hg.moves s]⟩

theorem Steady.comp {g h : State → State} (hg : Steady g) (hh : Steady h) : Steady fun s => g (h s) := fun s hs => by
  obtain ⟨he, hp⟩ := hh s hs
  obtain ⟨ge, gp⟩ := hg (h s) (hp.noReset hs)
  exact ⟨fun rest => (congrArg g (he rest)).trans (ge rest), hp.trans gp⟩

/-- A reset to come does not change what the host reads between two micro-steps. -/
theorem readsBetween_append_reset {ms : List HostMove} (hs : .reset ∉ ms) (rest : List HostMove) :
    readsBetween (ms ++ .reset :: rest) = ((readsBetween ms).1, (readsBetween ms).2 ++ .reset :: rest) := by
  induction ms with
  | nil => rfl
  | cons a ms ih =>
    cases a with
    | readBetween =>
      simp only [List.cons_append, readsBetween]
      rw [ih fun h => hs (.tail _ h)]
    | nextWrite | proceed | readStatus => rfl
    | reset => exact absurd (List.mem_cons_self ..) hs

theorem count_readsBetween (ms : List HostMove) : (readsBetween ms).2.count .proceed = ms.count .proceed := by
  induction ms with
  | nil => rfl
  | cons a ms ih =>
    cases a with
    | readBetween => simpa [readsBetween] using ih
    | nextWrite => simp [readsBetween]
    | proceed | readStatus | reset => rfl

theorem Steady.glimpse : Steady glimpse := fun s hs =>
  ⟨fun rest => by
    unfold Machine.glimpse
    rw [State.beforeReset, setHost_moves, readsBetween_append_reset hs]
    rfl,
    rfl, rfl, readsBetween_suffix _, [], by simp, by simp [Machine.glimpse, count_readsBetween]⟩

/-- A register write and the host's look at it. -/
theorem Steady.seenWrite {g : State → State} (hg : OffHost g) (hq : Silent g) : Steady fun s => Machine.glimpse (g s) :=
  Steady.glimpse.comp (.write hg hq)

theorem Steady.run {g : State → State} (hg : Steady g) : Interruptible fun s => .run (g s) := fun s hs rest =>
  .inl ⟨congrArg Micro.run ((hg s hs).1 rest), (hg s hs).2⟩

theorem CutShortAt.comp {k : State → Micro} {g : State → State} {s : State} (hk : CutShortAt k (g s)) (hg : Steady g) (hs : s.NoReset) :
    CutShortAt (fun s => k (g s)) s := fun rest => by
  obtain ⟨he, hp⟩ := hg s hs
  simp only [he]
  exact (hk rest).after hp

theorem Interruptible.comp {k : State → Micro} {g : State → State} (hk : Interruptible k) (hg : Steady g) :
    Interruptible fun s => k (g s) := fun s hs => (hk (g s) ((hg s hs).2.noReset hs)).comp hg hs

theorem Interruptible.id_run : Interruptible .run := Steady.run (.write (g := id) (fun _ _ _ => rfl) fun _ => ⟨rfl, rfl, rfl⟩)

theorem Interruptible.id_ended : Interruptible .ended := fun s _ _ => .inl ⟨rfl, Paced.refl s⟩

theorem enterPhase_steady (ph : Phase) : Steady (enterPhase ph) :=
  .seenWrite (g := setPhase ph) (fun _ _ _ => rfl) fun _ => ⟨rfl, rfl, rfl⟩

theorem driveCmd_steady : Steady driveCmd :=
  (Steady.write (g := fun s => { s with primed := false }) (fun _ _ _ => rfl) fun _ => ⟨rfl, rfl, rfl⟩).comp
    (.seenWrite (g := fun s => { s with dc := s.params.dcCmd }) (fun _ _ _ => rfl) fun _ => ⟨rfl, rfl, rfl⟩)

theorem halting_steady : Steady halting :=
  (Steady.seenWrite (g := fun s => { s with faultFlag := true, mode := .halted }) (fun _ _ _ => rfl) fun _ => ⟨rfl, rfl, rfl⟩).comp
    (.seenWrite (g := fun s => { s with primed := false }) (fun _ _ _ => rfl) fun _ => ⟨rfl, rfl, rfl⟩)

theorem completing_steady : Steady completing :=
  (Steady.seenWrite (g := fun s => { s with mode := .idle }) (fun _ _ _ => rfl) fun _ => ⟨rfl, rfl, rfl⟩).comp
    (.seenWrite (g := fun s => { s with phase := .none }) (fun _ _ _ => rfl) fun _ => ⟨rfl, rfl, rfl⟩)

/-! ## A micro-step in progress (R12, R250) -/

/-- The moves that a state holds do not matter to a micro-step that is given its own. -/
theorem during_setMoves (k : State → Micro) (ms m : List HostMove) (s : State) : during k ms (setHost m s.reads s) = during k ms s := by
  induction ms generalizing s with
  | nil => rfl
  | cons a ms ih =>
    cases a with
    | proceed | reset => rfl
    | nextWrite => exact ih s
    | readStatus | readBetween => exact ih (statusRead s)

/-- A micro-step with the moves ms before a reset: it goes on by one `proceed` of them, or there is none and the reset cuts it off, while
without the reset it goes on with no moves left. -/
def GoesOnOrCut (k : State → Micro) (rest ms : List HostMove) (s : State) : Prop :=
  (∃ ms' rs, ms' <:+ ms ∧ ms.count .proceed = 1 + ms'.count .proceed ∧ during k ms s = k (setHost ms' rs s) ∧
    during k (ms ++ .reset :: rest) s = k (setHost (ms' ++ .reset :: rest) rs s)) ∨
  ∃ rs, .proceed ∉ ms ∧ during k ms s = k (setHost [] rs s) ∧
    during k (ms ++ .reset :: rest) s = .ended (cutOff (setHost rest rs s))

/-- A move that leaves the micro-step in progress and the registers as they are. -/
theorem GoesOnOrCut.cons {k : State → Micro} {rest ms : List HostMove} {s t : State} {a : HostMove} (h : GoesOnOrCut k rest ms t)
    (ha : a ≠ .proceed) (ht : ∀ m rs, setHost m rs t = setHost m rs s) (hd : ∀ ms, during k (a :: ms) s = during k ms t) :
    GoesOnOrCut k rest (a :: ms) s := by
  unfold GoesOnOrCut
  rw [List.cons_append, hd, hd, List.count_cons_of_ne ha]
  rcases h with ⟨ms', rs, hsuffix, hcount, e, e'⟩ | ⟨rs, hnone, e, e'⟩ <;> rw [ht] at e e'
  · exact .inl ⟨ms', rs, hsuffix.trans (List.suffix_cons _ _), hcount, e, e'⟩
  · exact .inr ⟨rs, by simpa [hnone] using ha.symm, e, e'⟩

theorem during_goesOnOrCut (k : State → Micro) (rest : List HostMove) {ms : List HostMove} (hs : .reset ∉ ms) (s : State) :
    GoesOnOrCut k rest ms s := by
  induction ms generalizing s with
  | nil => exact .inr ⟨s.reads, nofun, rfl, rfl⟩
  | cons a ms ih =>
    have hms : .reset ∉ ms := fun h => hs (.tail _ h)
    cases a with
    | proceed => exact .inl ⟨ms, s.reads, List.suffix_cons _ _, by simp [Nat.add_comm], rfl, rfl⟩
    | reset => exact absurd (List.mem_cons_self ..) hs
    | nextWrite => exact (ih hms s).cons (by simp) (fun _ _ => rfl) fun _ => rfl
    | readStatus | readBetween => exact (ih hms (statusRead s)).cons (by simp) (fun _ _ => rfl) fun _ => rfl

/-- A write that leaves one event on the trace. -/
def Emits (f : State → State) : Prop :=
  OffHost f ∧ ∀ s, (f s).params = s.params ∧ (f s).port = s.port ∧ ∃ e, (f s).trace = s.trace ++ [e]

/-- From s, whatever the host does, k leaves one event on the trace and goes on with what a reset can cut short. -/
def OneEvent (k : State → Micro) (s : State) : Prop :=
  ∃ f l, Emits f ∧ Interruptible l ∧ ∀ ms rs, k (setHost ms rs s) = l (f (setHost ms rs s))

/-- A micro-step takes one `proceed` of the host and leaves one event; without one, the reset cuts it off before the event. -/
theorem OneEvent.inProgress {k : State → Micro} (hk : ∀ s, OneEvent k s) (hb : Blind k) : Interruptible (inProgress k) := by
  intro s hs rest
  obtain ⟨f, l, ⟨hoff, hemits⟩, hl, he⟩ := hk s
  unfold Machine.inProgress
  rw [State.beforeReset, setHost_moves, during_setMoves]
  rcases during_goesOnOrCut k rest hs s with ⟨ms, rs, hsuffix, hcount, e, e'⟩ | ⟨rs, hnone, e, e'⟩ <;> rw [e, e']
  · obtain ⟨hparams, hport, ev, htrace⟩ := hemits (setHost ms rs s)
    have hmoves : (f (setHost ms rs s)).moves = ms := hoff.moves _
    have hpaced : Paced s (f (setHost ms rs s)) :=
      ⟨hparams, hport, by rwa [hmoves], [ev], htrace, by rwa [hmoves]⟩
    have hreset : f (setHost (ms ++ .reset :: rest) rs s) = (f (setHost ms rs s)).beforeReset rest :=
      hoff.beforeReset rest (setHost ms rs s)
    rw [he, he, hreset]
    exact (hl _ (hpaced.noReset hs) rest).after hpaced
  · obtain ⟨kmoves, kreads⟩ := hb.quiet (s := setHost [] rs s) rfl
    obtain ⟨_, _, ev, htrace⟩ := hemits (setHost [] rs s)
    have hend : (f (setHost [] rs s)).NoReset := by simp [State.NoReset, hoff.moves]
    refine .inr ⟨s, by rw [kreads]; rfl, Paced.refl s, hnone, ?_, kmoves⟩
    rw [he]
    exact List.IsPrefix.trans ⟨[ev], htrace.symm⟩ (hl _ hend rest).trace

/-- A completion ends what runs. -/
theorem complete_ended (w : State → State) (s : State) : .ended (complete w s) = inProgress (fun s => .ended (w s)) s := by
  unfold complete
  rcases inProgress_cases (fun s => .ended (w s)) s with ⟨_, _, _, _, e⟩ | ⟨_, _, _, _, e⟩ <;> rw [e] <;> rfl

/-- A completion is a micro-step with one event (R8). -/
theorem complete_interruptible {w : State → State} (hw : Emits w) : Interruptible fun s => .ended (complete w s) := by
  simp only [complete_ended]
  exact OneEvent.inProgress (fun _ => ⟨w, .ended, hw, .id_ended, fun _ _ => rfl⟩) (Unseen.ended (.write hw.1))

/-- A frame leaves its event or `Fault(f)`, whose completion is a micro-step of its own (R112, R113, R222). -/
theorem Frame.transfer_oneEvent (f : Frame) (s : State) : OneEvent f.transfer s := by
  cases ha : s.answerAt 0 with
  | ok =>
    cases f with
    | command b =>
      exact ⟨fun s => setPrimed (primedAfter s.params b) (s.sent [.cmd b] 1), fun s => .run (glimpse s),
        ⟨fun _ _ _ => rfl, fun _ => ⟨rfl, rfl, _, rfl⟩⟩, Steady.glimpse.run, fun ms rs => transferCmd_ok b (setHost ms rs s) ha⟩
    | data bs =>
      exact ⟨fun s => s.sent [.data bs] 1, .run, ⟨fun _ _ _ => rfl, fun _ => ⟨rfl, rfl, _, rfl⟩⟩, .id_run,
        fun ms rs => transferData_ok bs (setHost ms rs s) ha⟩
  | fault =>
    have hcompletion : Interruptible fun s => .ended (complete faultEntry (halting s)) :=
      (complete_interruptible (w := faultEntry) ⟨fun _ _ _ => rfl, fun _ => ⟨rfl, rfl, _, rfl⟩⟩).comp halting_steady
    refine ⟨fun s => markFault f (afterAnswer s), _, ⟨fun _ _ _ => rfl, fun _ => ⟨rfl, rfl, _, rfl⟩⟩, hcompletion, fun ms rs => ?_⟩
    cases f with
    | command b => exact transferCmd_fault b (setHost ms rs s) ha
    | data bs => exact transferData_fault bs (setHost ms rs s) ha

theorem delayFor_interruptible (n : Half) : Interruptible (delayFor n) :=
  OneEvent.inProgress (fun _ => ⟨emit (.wait n), .run, ⟨fun _ _ _ => rfl, fun _ => ⟨rfl, rfl, _, rfl⟩⟩, .id_run, fun _ _ => rfl⟩)
    (Unseen.run (.write (g := emit (.wait n)) fun _ _ _ => rfl))

/-! ## The pieces of an operation (R8, R25) -/

/-- A register write of an operation puts no event on the trace. -/
def Piece.Silent : Piece → Prop
  | .frame _ _ | .wait _ _ => True
  | .write g => Machine.Silent g

theorem Frame.drive_steady (f : Frame) : Steady f.drive := by
  cases f with
  | command b => exact driveCmd_steady
  | data bs => exact .write (fun _ _ _ => rfl) fun _ => ⟨rfl, rfl, rfl⟩

theorem Piece.run_interruptible {p : Piece} (hp : p.Good) (hq : p.Silent) : Interruptible p.run := by
  cases p with
  | frame ph f =>
    intro s hs
    have hframe := (OneEvent.inProgress (f s).transfer_oneEvent (f s).transfer_blind).comp ((f s).drive_steady.comp (enterPhase_steady ph))
    refine (hframe s hs).branch fun ms rs => ?_
    rw [Piece.run, hp]
  | wait ph n => exact (delayFor_interruptible n).comp (enterPhase_steady ph)
  | write g => exact (Steady.seenWrite hp.1 hq).run

theorem runPieces_interruptible {ps : List Piece} (hp : ∀ p ∈ ps, p.Good) (hq : ∀ p ∈ ps, p.Silent) :
    Interruptible (runPieces ps) := by
  induction ps with
  | nil => exact .id_run
  | cons p ps ih =>
    have hgood : ∀ q ∈ ps, q.Good := fun q h => hp q (.tail _ h)
    exact fun s hs => (Piece.run_interruptible (hp p (.head _)) (hq p (.head _)) s hs).andThen hs
      (ih hgood fun q h => hq q (.tail _ h)) (runPieces_blind hgood)

theorem windowPieces_silent (x0 y0 x1 y1 : Half) : ∀ p ∈ windowPieces x0 y0 x1 y1, p.Silent := by
  simp only [windowPieces, List.forall_mem_cons]
  exact ⟨trivial, trivial, fun _ => ⟨rfl, rfl, rfl⟩, fun _ => ⟨rfl, rfl, rfl⟩, trivial, trivial, fun _ => ⟨rfl, rfl, rfl⟩,
    fun _ => ⟨rfl, rfl, rfl⟩, trivial, nofun⟩

theorem packPieces_silent (cw ch : Nat) (c : Half) : ∀ p ∈ packPieces cw ch c, p.Silent := by
  simp only [packPieces, List.forall_mem_cons]
  exact ⟨fun _ => ⟨rfl, rfl, rfl⟩, fun _ => ⟨rfl, rfl, rfl⟩, fun _ => ⟨rfl, rfl, rfl⟩, nofun⟩

theorem rowPieces_silent (n : Nat) : ∀ p ∈ rowPieces n, p.Silent := by
  induction n with
  | zero => nofun
  | succ n ih => exact List.forall_mem_cons.mpr ⟨trivial, List.forall_mem_cons.mpr ⟨fun _ => ⟨rfl, rfl, rfl⟩, ih⟩⟩

theorem Piece.silent_of_isStep {p : Piece} (h : p.isStep = true) : p.Silent := by
  cases p with
  | frame | wait => trivial
  | write g => cases h

theorem initPieces_silent (rs : List ScriptRecord) : ∀ p ∈ initPieces rs, p.Silent := by
  simp only [initPieces, initStartPieces, scriptPieces, List.forall_mem_append, List.forall_mem_cons, List.mem_flatMap]
  refine ⟨⟨⟨fun _ => ⟨rfl, rfl, rfl⟩, fun _ => ⟨rfl, rfl, rfl⟩, nofun⟩, ?_⟩, fun _ => ⟨rfl, rfl, rfl⟩, nofun⟩
  rintro p ⟨r, _, hp⟩
  rcases List.mem_append.mp hp with hp | hp
  · exact Piece.silent_of_isStep (recordPieces_steps r p hp)
  · rw [List.mem_singleton.mp hp]
    exact fun _ => ⟨rfl, rfl, rfl⟩

/-! ## The requests (R82, R227, R228) -/

/-- A fill, as the list of its pieces; one that draws nothing writes the counts of an empty row (R181). -/
def fillPieces (v : Option (Nat × Nat)) (x y : Int) (c : Half) : List Piece :=
  match v with
  | none => packPieces 0 0 c
  | some (cw, ch) => fillStart x y cw ch c ++ rowPieces ch

theorem fill_eq_pieces (v : Option (Nat × Nat)) (x y : Int) (c : Half) (s : State) :
    fill v x y c s = runPieces (fillPieces v x y c) s := by
  cases v with
  | none => rfl
  | some v => exact fill_pieces x y v.1 v.2 c s

theorem fill_interruptible (v : Option (Nat × Nat)) (x y : Int) (c : Half) : Interruptible (fill v x y c) := by
  rw [funext (fill_eq_pieces v x y c)]
  cases v with
  | none => exact runPieces_interruptible (packPieces_good 0 0 c) (packPieces_silent 0 0 c)
  | some v =>
    exact runPieces_interruptible (List.forall_mem_append.mpr ⟨fillStart_good x y v.1 v.2 c, rowPieces_good v.2⟩)
      (List.forall_mem_append.mpr ⟨List.forall_mem_append.mpr ⟨packPieces_silent v.1 v.2 c, windowPieces_silent _ _ _ _⟩,
        rowPieces_silent v.2⟩)

theorem prim_interruptible (f : Frame) : Interruptible (Piece.run (.frame .prim fun _ => f)) :=
  Piece.run_interruptible (fun _ _ _ => rfl) trivial

/-- The micro-steps of a request. -/
theorem requestBody_cutShortAt {i : Instr} {s : State} (hk : ScriptCounted i s) (hs : s.NoReset) : CutShortAt (requestBody i) s := by
  cases i with
  | init f1 f2 f3 f4 f5 =>
    have hlength : s.params.script.length ≤ 255 := hk f1 f2 f3 f4 f5 rfl
    exact (runPieces_interruptible (initPieces_good s.params.script) (initPieces_silent s.params.script) s hs).branch fun ms rs =>
      initBody_pieces (s := setHost ms rs s) hlength
  | sendCommand => exact (prim_interruptible (.command (byteOperand s)) s hs).branch fun _ _ => rfl
  | sendData => exact (prim_interruptible (.data [byteOperand s]) s hs).branch fun _ _ => rfl
  | sendDataBuffer f1 f2 f3 f4 f5 hp =>
    by_cases hne : hp = []
    · exact (Interruptible.id_run s hs).branch fun _ _ => if_pos hne
    · exact (prim_interruptible (.data hp) s hs).branch fun _ _ => if_neg hne
  | setWindow =>
    exact (runPieces_interruptible (windowPieces_good _ _ _ _) (windowPieces_silent _ _ _ _) s hs).branch fun ms rs =>
      windowProgram_pieces s.rx s.ry s.rw s.rh (setHost ms rs s)
  | fillRect =>
    exact (fill_interruptible (clip (sint16 s.rx) (sint16 s.ry) (sint16 s.rw) (sint16 s.rh)) (sint16 s.rx) (sint16 s.ry) s.rc s
      hs).branch fun _ _ => rfl
  | fillScreen =>
    exact (fill_interruptible (some (Config.panelWidth, Config.panelHeight)) 0 0 s.rc s hs).branch fun _ _ => rfl
  | _ => exact (Interruptible.id_run s hs).branch fun _ _ => rfl

/-- The completion `OK` of a request, with the writes before it (R115). -/
def completion (s : State) : Micro := .ended (complete completeOk (completing s))

theorem completion_interruptible : Interruptible completion :=
  (complete_interruptible (w := completeOk) ⟨fun _ _ _ => rfl, fun _ => ⟨rfl, rfl, _, rfl⟩⟩).comp completing_steady

theorem completion_blind : Blind completion :=
  Unseen.ended ((complete_unseen (.write (g := completeOk) fun _ _ _ => rfl)).comp completing_unseen)

theorem finish_eq_completion (m : Micro) : finish m = (m.andThen completion).state := by cases m <;> rfl

section

variable {op : Byte} {hp : List Byte} {f1 f2 f3 f4 f5 : Half} {r : Byte × Instr}

/-- Everything a request of a block that is not busy does: it is rejected, or it runs to its completion. -/
def requestSteps (r : Byte × Instr) (f1 f2 f3 f4 f5 : Half) (s : State) : Micro :=
  if s.mode = .halted ∨ isReserved r.2 = true then .ended (reject r.1 (loadOperands f1 f2 f3 f4 f5 s))
  else (requestBody r.2 (glimpse (accepted r.1 f1 f2 f3 f4 f5 s))).andThen completion

theorem exec_eq_requestSteps (hr : r ∈ hostRequests op hp f1 f2 f3 f4 f5) {s t : State} (hm : s.mode ≠ .busy)
    (h : exec r.2 s = .next t) : t = (requestSteps r f1 f2 f3 f4 f5 s).state := by
  unfold requestSteps
  rcases exec_request_cases hr h with ⟨hbusy, _⟩ | ⟨_, hrejected, e⟩ | ⟨hidle, hassigned, _, e⟩
  · exact absurd hbusy hm
  · rw [if_pos hrejected]
    exact e
  · rw [if_neg (by simp [hidle, hassigned]), ← finish_eq_completion]
    exact e

/-- Whether a request answers a next state hangs on the parameters alone. -/
theorem exec_request_next_of_params (hr : r ∈ hostRequests op hp f1 f2 f3 f4 f5) {s t u : State} (h : exec r.2 s = .next u)
    (hparams : t.params = s.params) : ∃ v, exec r.2 t = .next v := by
  simp only [hostRequests, List.mem_cons, List.not_mem_nil, or_false] at hr
  rcases hr with rfl | rfl | rfl | rfl | rfl | rfl | rfl | rfl
  · have hlength : t.params.script.length ≤ Config.maxScript := hparams ▸ exec_init_script h
    simp only [exec, execInit, if_pos hlength]
    exact request_next ..
  · exact request_next 0x02 f1 f2 f3 f4 f5 (requestBody (.sendCommand f1 f2 f3 f4 f5)) t
  · exact request_next 0x03 f1 f2 f3 f4 f5 (requestBody (.sendData f1 f2 f3 f4 f5)) t
  · simp only [exec, execSendDataBuffer] at h ⊢
    split at h
    next hlength =>
      rw [if_pos hlength]
      exact request_next ..
    next => cases h
  · exact request_next 0x05 f1 f2 f3 f4 f5 (requestBody (.setWindow f1 f2 f3 f4 f5)) t
  · exact request_next 0x06 f1 f2 f3 f4 f5 (requestBody (.fillRect f1 f2 f3 f4 f5)) t
  · exact request_next 0x07 f1 f2 f3 f4 f5 (requestBody (.fillScreen f1 f2 f3 f4 f5)) t
  · exact ⟨_, exec_reserved ..⟩

theorem requestSteps_cutShortAt (r : Byte × Instr) (f1 f2 f3 f4 f5 : Half) {s : State} (hk : ScriptCounted r.2 s) (hs : s.NoReset) :
    CutShortAt (requestSteps r f1 f2 f3 f4 f5) s := by
  by_cases hrejected : s.mode = .halted ∨ isReserved r.2 = true
  · have hreject : Interruptible fun s => .ended (reject r.1 (loadOperands f1 f2 f3 f4 f5 s)) :=
      (complete_interruptible (w := rejected r.1) ⟨fun _ _ _ => rfl, fun _ => ⟨rfl, rfl, _, rfl⟩⟩).comp
        (.write (g := loadOperands f1 f2 f3 f4 f5) (fun _ _ _ => rfl) fun _ => ⟨rfl, rfl, rfl⟩)
    exact (hreject s hs).branch fun _ _ => if_pos hrejected
  · have haccept : Steady fun s => glimpse (accepted r.1 f1 f2 f3 f4 f5 s) :=
      .seenWrite (g := accepted r.1 f1 f2 f3 f4 f5) (fun _ _ _ => rfl) fun _ => ⟨rfl, rfl, rfl⟩
    have hbody : CutShortAt (requestBody r.2) (glimpse (accepted r.1 f1 f2 f3 f4 f5 s)) :=
      requestBody_cutShortAt hk (accepted_noReset r.1 f1 f2 f3 f4 f5 hs)
    have hrun := (CutShortAt.comp (g := fun s => glimpse (accepted r.1 f1 f2 f3 f4 f5 s)) hbody haccept hs).andThen hs
      completion_interruptible completion_blind
    exact hrun.branch fun _ _ => if_neg hrejected

/-! ## The obligation -/

/-- An operation that without the reset leaves more events than the host lets micro-steps go on is cut off, with those of them on the
trace. -/
theorem CutShort.cut {rest : List HostMove} {s : State} {m m' : Micro} {evs : List Event} {e : Event} (h : CutShort rest s m m')
    (htrace : m.state.trace = s.trace ++ evs ++ [e]) (hle : s.moves.count .proceed ≤ evs.length) :
    ∃ u, m'.state = cutOff (setHost rest m.state.reads u) ∧ u.trace = s.trace ++ evs.take (s.moves.count .proceed) ∧
      u.params = s.params ∧ u.port = s.port := by
  rw [List.append_assoc] at htrace
  rcases h with ⟨_, hp⟩ | ⟨u, rfl, hp, hnone, hprefix, _⟩
  · obtain ⟨evs', htrace', hcount⟩ := hp.events
    have hall : evs' = evs ++ [e] := List.append_cancel_left (htrace'.symm.trans htrace)
    rw [hall, List.length_append, List.length_singleton] at hcount
    omega
  · obtain ⟨evs', htrace', hcount⟩ := hp.events
    rw [List.count_eq_zero_of_not_mem hnone, Nat.add_zero] at hcount
    rw [htrace, htrace', List.prefix_append_right_inj] at hprefix
    refine ⟨u, rfl, htrace'.trans ?_, hp.params, hp.port⟩
    rw [List.prefix_iff_eq_take.mp hprefix, ← hcount, List.take_append_of_le_length hle]

/-- A request that without the reset leaves more events than the host lets micro-steps go on: the reset cuts it off, with those events on the
trace and the readings that the host had made. -/
theorem exec_cut (hr : r ∈ hostRequests op hp f1 f2 f3 f4 f5) {s u : State} {evs : List Event} {e : Event} (hm : s.mode ≠ .busy)
    (hs : s.NoReset) (h : exec r.2 s = .next u) (htrace : u.trace = s.trace ++ evs ++ [e])
    (hle : s.moves.count .proceed ≤ evs.length) (rest : List HostMove) :
    ∃ v, exec r.2 (s.beforeReset rest) = .next (cutOff (setHost rest u.reads v)) ∧
      v.trace = s.trace ++ evs.take (s.moves.count .proceed) ∧ v.params = s.params ∧ v.port = s.port := by
  obtain ⟨t, ht⟩ := exec_request_next_of_params hr h (t := s.beforeReset rest) rfl
  have hu := exec_eq_requestSteps hr hm h
  have hcut := requestSteps_cutShortAt r f1 f2 f3 f4 f5 (scriptCounted_of_next h) hs rest
  obtain ⟨v, hv, hkept⟩ := hcut.cut (hu ▸ htrace) hle
  rw [← hu, ← exec_eq_requestSteps hr (s := s.beforeReset rest) hm ht] at hv
  exact ⟨v, hv ▸ ht, hkept⟩

end

/-- Settles O9: the request with the reset and the request without it are alike up to the micro-step that is cut off (`exec_cut`). -/
theorem resetCutsOff : Obligations.ResetCutsOff := by
  intro op hp f1 f2 f3 f4 f5 s u evs pre rest n r hr hm hmoves hpre hn hle h htrace
  have hs : State.beforeReset rest { s with moves := pre } = s := by
    rw [State.beforeReset, ← hmoves]
    rfl
  obtain ⟨v, ht, hv, hparams, hport⟩ := exec_cut hr (s := { s with moves := pre }) hm hpre h htrace (hn ▸ hle) rest
  rw [hs] at ht
  exact ⟨cutOff (setHost rest u.reads v), ht, cutOff_blockReset _, hn ▸ hv, rfl, hparams, hport, rfl, rfl⟩

end Sys2Proof.Machine
end

section
/-! Bring-up on the observer's stub (R255, R74, R76): the records of a well-formed script open no window, so a stub that INIT starts settled
is settled where a fill begins, with its frame memory as it was. -/

namespace Sys2Proof.Machine

/-! ## Commands that are no window opcode (R71) -/

/-- A command byte that is none of the three window opcodes (R71, R218). -/
abbrev OpensNoWindow (p : Params) (b : Byte) : Prop := b ≠ p.opCaset ∧ b ≠ p.opPaset ∧ b ≠ p.opRamwr

theorem Panel.feedCmd_other {p : Params} {b : Byte} (h : OpensNoWindow p b) (q : Panel) :
    q.feedCmd p b = { q with bad := q.bad || q.st.isOpen, st := .other } := by
  obtain ⟨hcaset, hpaset, hramwr⟩ := h
  rw [Panel.feedCmd, if_neg hcaset, if_neg hpaset, if_neg hramwr]

/-- Data bytes after such a command go nowhere (R72). -/
theorem Panel.run_data_other (p : Params) (bs : List Byte) {q : Panel} (h : q.st = .other) : q.run p (bs.map .d) = q := by
  induction bs with
  | nil => rfl
  | cons d bs ih =>
    have hfeed : q.feedData d = q := by rw [Panel.feedData, h]
    rw [List.map_cons, Panel.run_cons, Panel.feed_d, hfeed, ih]

/-- A record whose opcode opens no window (R131). -/
theorem Panel.run_record {p : Params} {r : ScriptRecord} (h : OpensNoWindow p r.opcode) (q : Panel) :
    q.run p (flat (recordEvents r)) = { q with bad := q.bad || q.st.isOpen, st := .other } := by
  rw [flat_recordEvents, Panel.run_cons, Panel.feed_c, Panel.feedCmd_other h]
  exact Panel.run_data_other p r.payload rfl

/-- A script of such records keeps a settled stub settled and writes no pixel. -/
theorem Panel.run_script {p : Params} {rs : List ScriptRecord} (h : ∀ r ∈ rs, OpensNoWindow p r.opcode) {q : Panel} (hq : q.Settled) :
    (q.run p (flat (scriptEvents rs))).Settled ∧ (q.run p (flat (scriptEvents rs))).gram = q.gram := by
  induction rs generalizing q with
  | nil => exact ⟨hq, rfl⟩
  | cons r rs ih =>
    obtain ⟨hbad, hopen⟩ := hq
    rw [scriptEvents, List.flatMap_cons, flat_append, Panel.run_append, Panel.run_record (h r (.head _))]
    exact ih (fun r' hr' => h r' (.tail _ hr')) ⟨by rw [hbad, hopen]; rfl, rfl⟩

theorem Panel.fresh_settled : Panel.fresh.Settled := ⟨rfl, rfl⟩

/-- Where nothing was ever written, every pixel is unknown (R70). -/
theorem Panel.pixel?_of_gram_nil {q : Panel} (h : q.gram = []) (x y : Nat) : q.pixel? x y = none := by
  rw [Panel.pixel?, h]
  exact ite_self none

/-- Of the distinct opcodes the window opcodes are three (R218). -/
theorem windowOpcodesDistinct_of_valid {p : Params} (h : p.Valid) : p.WindowOpcodesDistinct := by
  obtain ⟨hdistinct, _⟩ := h
  have hwindow : [p.opCaset, p.opPaset, p.opRamwr].Sublist p.opcodes :=
    (List.take_sublist 3 (p.opcodes.drop 4)).trans (List.drop_sublist 4 p.opcodes)
  simpa [and_assoc] using hdistinct.sublist hwindow

/-! ## What INIT leaves on the stub (R130, A17) -/

theorem initStub_of_not_done {s : State} (h : s.initDone = false) : initStub s = Panel.fresh := by
  rw [initStub, h]
  rfl

/-- The stub INIT starts with is settled where a stub that goes on through it is. -/
theorem initStub_settled {s : State} (h : s.initDone = true → ∀ q, s.stub = some q → q.Settled) : (initStub s).Settled := by
  cases hdone : s.initDone with
  | false => exact initStub_of_not_done hdone ▸ Panel.fresh_settled
  | true =>
    rw [initStub, if_pos hdone]
    cases hstub : s.stub with
    | none => exact Panel.fresh_settled
    | some q => exact h hdone q hstub

/-- What a claim may look at, once INIT has completed and nothing went wrong (R255). -/
theorem panelView_of_good {s : State} {q : Panel} (hq : s.stub = some q) (hdone : s.initDone = true) (hfault : s.faultFlag = false)
    (hbad : q.bad = false) : panelView s = some q := by
  simp [panelView, hq, hdone, hfault, hbad]

/-- INIT with a well-formed script, from a stub it can start settled: it completes, and the stub is settled with the frame memory it had. -/
theorem init_settles (f1 f2 f3 f4 f5 : Half) {s : State} {n : Nat} (hvalid : s.params.Valid) (hwf : scriptWellFormed s.params = true)
    (hstub : (initStub s).Settled) (hr : s.Ready (scriptFrames s.params.script + n)) :
    ∃ t q, exec (.init f1 f2 f3 f4 f5) s = .next t ∧ t.stub = some q ∧ q.Settled ∧ q.gram = (initStub s).gram ∧
      t.initDone = true ∧ t.faultFlag = s.faultFlag ∧ t.params = s.params ∧ t.Ready n := by
  obtain ⟨hlen, hwindow, _⟩ := wellFormedScriptUnprimed s.params hvalid hwf
  obtain ⟨hsettled, hgram⟩ := Panel.run_script hwindow hstub
  refine ⟨_, _, initCompletes.1 f1 f2 f3 f4 f5 s (by omega) (hr.mono (Nat.le_add_right _ _)), rfl, hsettled, hgram,
    rfl, rfl, rfl, rfl, ?_⟩
  obtain ⟨_, hmoves, hanswers⟩ := hr
  refine ⟨hmoves, fun k hk => ?_⟩
  exact (answerAt_sent s [] _ k).trans (hanswers _ (by omega))

/-! ## The obligation -/

/-- Settles O53: INIT leaves a settled stub (`init_settles`), which a FILL_SCREEN paints whole (`fillScreenReadback`); from a fresh stub
nothing is in its frame memory. -/
theorem bringUpThenPaint : Obligations.BringUpThenPaint := by
  refine ⟨fun c s hvalid hwf hstub hfault hr => ?_, fun f1 f2 f3 f4 f5 s hvalid hwf hdone hfault hr => ?_⟩
  · obtain ⟨t, q, ht, hq, hsettled, _, tdone, tfault, tparams, tready⟩ := init_settles 0 0 0 0 0 hvalid hwf (initStub_settled hstub) hr
    have hdistinct : t.params.WindowOpcodesDistinct := tparams ▸ windowOpcodesDistinct_of_valid hvalid
    obtain ⟨u, q', hu, hq', hbad, _, hread⟩ := fillScreenReadback 0 0 0 0 c t q hq hsettled hdistinct tready
    obtain rfl := Host.Outcome.next.inj (hu.symm.trans (fillScreenCompletes 0 0 0 0 c t tready))
    exact ⟨t, _, q', ht, hu, panelView_of_good hq' tdone (tfault.trans hfault) hbad, hread⟩
  · have hfresh := initStub_of_not_done hdone
    obtain ⟨t, q, ht, hq, ⟨hbad, _⟩, hgram, tdone, tfault, _⟩ :=
      init_settles (n := 0) f1 f2 f3 f4 f5 hvalid hwf (hfresh ▸ Panel.fresh_settled) hr
    rw [hfresh] at hgram
    exact ⟨t, q, ht, panelView_of_good hq tdone (tfault.trans hfault) hbad, Panel.pixel?_of_gram_nil hgram⟩

end Sys2Proof.Machine
end
